-- ==== Sys2Proof/Word.lean ====
section
/-! DEFINITION. The word types of Rilmo and nothing else (00_scope R5, R6; 02_firing R50; 11_foreman R311). -/

namespace Sys2Proof

/-- A byte of memory. -/
abbrev Byte := BitVec 8

/-- One 32-bit lane of a token (R50), and one foreman instruction word (R130). -/
abbrev Word := BitVec 32

/-- A foreman register or system register (R311, R316). -/
abbrev DWord := BitVec 64

/-- A foreman register number g0 to g63 (R130). -/
abbrev Reg := Fin 64

end Sys2Proof
end

