-- ==== Sys2Proof/Machine/Bits.lean ====
section
/-! DEFINITION. Bit-field, sign-extension and byte-order helpers on natural numbers (R5, R6, R82, R131). -/

namespace Sys2Proof.Machine

/-- Bits [hi:lo] of a number (R5). -/
def bits (w hi lo : Nat) : Nat := w / 2 ^ lo % 2 ^ (hi - lo + 1)

/-- Bit i of a number (R5). -/
def bit (w i : Nat) : Bool := w / 2 ^ i % 2 == 1

/-- 1 or 0. -/
def b2n (b : Bool) : Nat := if b then 1 else 0

/-- A number read as two's complement of n bits (R131). -/
def sextInt (n w : Nat) : Int :=
  let v := w % 2 ^ n
  if v < 2 ^ (n - 1) then (v : Int) else (v : Int) - (2 ^ n : Nat)

/-- An integer wrapped to n bits: wrap_nN of R82. -/
def wrapN (n : Nat) (v : Int) : Nat := (v % ((2 ^ n : Nat) : Int)).toNat

/-- An n-bit field sign-extended to 64 bits (R131). -/
def sext64 (n w : Nat) : DWord := BitVec.ofInt 64 (sextInt n w)

/-- The bytes of a value in increasing address order (R6). -/
def toBytes : Nat → Nat → List Byte
  | 0, _ => []
  | n + 1, v => BitVec.ofNat 8 v :: toBytes n (v / 256)

/-- The value of bytes in increasing address order (R6). -/
def ofBytes : List Byte → Nat
  | [] => 0
  | b :: r => b.toNat + 256 * ofBytes r

/-- The n bytes of a list from an offset, short lists filled with zero. -/
def sliceB (l : List Byte) (off n : Nat) : List Byte :=
  let t := (l.drop off).take n
  t ++ List.replicate (n - t.length) 0#8

/-- The value of n bytes of an image at an offset (R6). -/
def le (l : List Byte) (off n : Nat) : Nat := ofBytes (sliceB l off n)

/-- floor(log2 v) for v > 0, and 0 for 0, by halving with fuel. -/
def log2Fuel : Nat → Nat → Nat
  | 0, _ => 0
  | f + 1, v => if v ≤ 1 then 0 else 1 + log2Fuel f (v / 2)

/-- floor(log2 v) for v > 0 (the values of this model are below 2 ^ 4096). -/
def flog2 (v : Nat) : Nat := log2Fuel 4096 v

/-- The integer square root, bit by bit from bit n downward. -/
def isqrtFrom : Nat → Nat → Nat → Nat
  | 0, v, r => if (r + 1) * (r + 1) ≤ v then r + 1 else r
  | n + 1, v, r =>
    let r' := r + 2 ^ (n + 1)
    isqrtFrom n v (if r' * r' ≤ v then r' else r)

/-- floor(sqrt v). -/
def isqrt (v : Nat) : Nat := isqrtFrom (flog2 v / 2 + 1) v 0

/-- The number of one bits of the low n bits. -/
def popc : Nat → Nat → Nat
  | 0, _ => 0
  | n + 1, v => v % 2 + popc n (v / 2)

/-- The smallest multiple of k at or above v (k > 0). -/
def alignUp (v k : Nat) : Nat := (v + k - 1) / k * k

/-- The first index at or above i, below i + n, where p holds. -/
def findFrom (p : Nat → Bool) : Nat → Nat → Option Nat
  | 0, _ => none
  | n + 1, i => if p i then some i else findFrom p n (i + 1)

/-- A fold over the numbers i, i + 1, up to i + n - 1. -/
def forN {α : Type} (f : Nat → α → α) : Nat → Nat → α → α
  | 0, _, a => a
  | n + 1, i, a => forN f n (i + 1) (f i a)

end Sys2Proof.Machine
end

