-- ==== Sys2Proof/Machine/Num.lean ====
section
/-! DEFINITION. Number formats and arithmetic (03_numbers): integers (R80 to R82), floating-point values as exact dyadic
numbers (R83 to R87), the one rounding (R88, R89), conversion to integers (R90), the stochastic generator (R91), the
approximation functions (R94), and the exact sums of R157 to R169. -/

namespace Sys2Proof.Machine

open Sys2Proof

/-! ### Integers -/

/-- wrap or saturate an exact value to n bits, as a bit pattern (R82): fin of 05_element_compute. -/
def finInt (n : Nat) (signed sat : Bool) (v : Int) : Nat :=
  if sat then
    if signed then wrapN n (max (-((2 ^ (n - 1) : Nat) : Int)) (min v ((2 ^ (n - 1) : Nat) - 1 : Int)))
    else (max 0 (min v ((2 ^ n : Nat) - 1 : Int))).toNat
  else wrapN n v

/-- The bits of an n-bit element read as signed or unsigned: iv of 05_element_compute. -/
def intOf (n : Nat) (signed : Bool) (b : Nat) : Int := if signed then sextInt n b else (b % 2 ^ n : Nat)

/-! ### Floating-point formats -/

/-- The formats of R83. -/
inductive Fmt
  | f32 | f16 | bf16 | e4m3 | e5m2 | e2m1
deriving DecidableEq, Repr

/-- Width in bits. -/
def Fmt.width : Fmt → Nat
  | .f32 => 32 | .f16 => 16 | .bf16 => 16 | .e4m3 => 8 | .e5m2 => 8 | .e2m1 => 4

/-- F, the fraction bits. -/
def Fmt.frac : Fmt → Nat
  | .f32 => 23 | .f16 => 10 | .bf16 => 7 | .e4m3 => 3 | .e5m2 => 2 | .e2m1 => 1

/-- The exponent bits. -/
def Fmt.ebits : Fmt → Nat
  | .f32 => 8 | .f16 => 5 | .bf16 => 8 | .e4m3 => 4 | .e5m2 => 5 | .e2m1 => 2

/-- The bias. -/
def Fmt.bias : Fmt → Nat
  | .f32 => 127 | .f16 => 15 | .bf16 => 127 | .e4m3 => 7 | .e5m2 => 15 | .e2m1 => 1

/-- The exponent of the smallest normal. -/
def Fmt.emin (f : Fmt) : Int := 1 - (f.bias : Int)

/-- True for the formats that have infinities (R84). -/
def Fmt.hasInf : Fmt → Bool
  | .e4m3 => false | .e2m1 => false | _ => true

/-- The largest finite magnitude as an encoding without sign (R83). -/
def Fmt.maxCode : Fmt → Nat
  | .f32 => 0x7F7FFFFF | .f16 => 0x7BFF | .bf16 => 0x7F7F | .e4m3 => 0x7E | .e5m2 => 0x7B | .e2m1 => 0x7

/-- The canonical NaN (R85); +0 for E2M1 (R89). -/
def Fmt.nan : Fmt → Nat
  | .f32 => 0x7FC00000 | .f16 => 0x7E00 | .bf16 => 0x7FC0 | .e4m3 => 0x7F | .e5m2 => 0x7E | .e2m1 => 0

/-- A floating-point value: NaN, an infinity, or (-1)^s * m * 2^e. -/
inductive FVal
  | nan
  | inf (s : Bool)
  | fin (s : Bool) (m : Nat) (e : Int)
deriving DecidableEq, Repr

/-- The value of an encoding (R84). -/
def fdec (f : Fmt) (b : Nat) : FVal :=
  let w := f.width
  let s := bit b (w - 1)
  let e := bits b (w - 2) f.frac
  let m := b % 2 ^ f.frac
  let top := 2 ^ f.ebits - 1
  if f.hasInf && e == top then (if m = 0 then .inf s else .nan)
  else if f = .e4m3 && e == top && m == 7 then .nan
  else if e = 0 then .fin s m (f.emin - f.frac)
  else .fin s (2 ^ f.frac + m) ((e : Int) - f.bias - f.frac)

/-- The encoding of a sign and a magnitude of n units of 2^q, where n * 2^q is a value of the format. -/
def fencFin (f : Fmt) (s : Bool) (n : Nat) (q : Int) : Nat :=
  let w := f.width
  let sb := if s then 2 ^ (w - 1) else 0
  -- units of the smallest subnormal spacing
  let k := (q - (f.emin - f.frac)).toNat
  if n < 2 ^ f.frac then sb + n * 2 ^ k
  else
    let h := flog2 n
    let e := h - f.frac + k
    sb + (e + 1) * 2 ^ f.frac + (n * 2 ^ f.frac / 2 ^ h - 2 ^ f.frac)

/-- The rounding modes of R88; rs holds the draw of rand16. -/
inductive RMode
  | rne
  | rz
  | rs (r : Nat)
deriving DecidableEq, Repr

/-- ovf of R89, as an encoding. -/
def fovf (f : Fmt) (s : Bool) (mode : RMode) : Nat :=
  let sb := if s then 2 ^ (f.width - 1) else 0
  match mode with
  | .rz => sb + f.maxCode
  | _ => if f.hasInf then sb + (2 ^ f.ebits - 1) * 2 ^ f.frac else sb + f.maxCode

/-- Whether the lower grid point n rounds up, for the fraction rem / 2^sh of a unit (R88). -/
def roundsUp (mode : RMode) (n rem sh : Nat) : Bool :=
  match mode with
  | .rne => 2 * rem > 2 ^ sh || (2 * rem == 2 ^ sh && n % 2 == 1)
  | .rz => false
  | .rs r => rem * 2 ^ 16 / 2 ^ sh + r ≥ 2 ^ 16

/-- m * 2^e rounded to multiples of 2^q: the count of units (R88). -/
def roundUnits (mode : RMode) (m : Nat) (e q : Int) : Nat :=
  if q ≤ e then m * 2 ^ (e - q).toNat
  else
    let sh := (q - e).toNat
    let n := m / 2 ^ sh
    if roundsUp mode n (m % 2 ^ sh) sh then n + 1 else n

/-- True when n units of 2^q exceed the largest finite magnitude. -/
def overMax (f : Fmt) (n : Nat) (q : Int) : Bool :=
  n * 2 ^ (q - (f.emin - f.frac)).toNat >
    (2 ^ (f.frac + 1) - (if f = .e4m3 then 2 else 1)) * 2 ^ (2 ^ f.ebits - (if f.hasInf then 2 else 1) - 1)

/-- The grid exponent at a magnitude whose floor(log2) is l (R88). -/
def gridExp (f : Fmt) (l : Int) : Int := max l f.emin - f.frac

/-- The encoding of round(v, f, mode) (R88), with NaN as the canonical NaN. -/
def fround (f : Fmt) (mode : RMode) (v : FVal) : Nat :=
  match v with
  | .nan => f.nan
  | .inf s => fovf f s mode
  | .fin s 0 _ => if s then 2 ^ (f.width - 1) else 0
  | .fin s m e =>
    let q := gridExp f ((flog2 m : Int) + e)
    let n := roundUnits mode m e q
    if overMax f n q then fovf f s mode else fencFin f s n q

/-- round to the integer grid, as an exact integer (R90); 0 for NaN. -/
def roundInt (mode : RMode) (v : FVal) : Int :=
  match v with
  | .fin s m e => let n := roundUnits mode m e 0; if s then -(n : Int) else n
  | _ => 0

/-- Conversion of a floating-point value to n bits (R90), always saturating. -/
def ftoInt (n : Nat) (signed : Bool) (mode : RMode) (v : FVal) : Nat :=
  match v with
  | .nan => 0
  | .inf s => if s then (if signed then 2 ^ (n - 1) else 0) else (if signed then 2 ^ (n - 1) - 1 else 2 ^ n - 1)
  | v => finInt n signed true (roundInt mode v)

/-- An exact integer as a value. -/
def FVal.ofInt (v : Int) : FVal := .fin (v < 0) v.natAbs 0

def FVal.isNan : FVal → Bool
  | .nan => true | _ => false

def FVal.neg : FVal → FVal
  | .nan => .nan | .inf s => .inf (!s) | .fin s m e => .fin (!s) m e

/-! ### Exact arithmetic -/

/-- A value scaled to an integer multiple of 2^e0, for e0 at or below its exponent. -/
def scaledTo (e0 : Int) (s : Bool) (m : Nat) (e : Int) : Int :=
  let n := ((m * 2 ^ (e - e0).toNat : Nat) : Int)
  if s then -n else n

/-- The exact product (R157); NaN for 0 times infinity. -/
def fmulX (a b : FVal) : FVal :=
  match a, b with
  | .fin s m e, .fin s' m' e' => .fin (s != s') (m * m') (e + e')
  | .inf s, .inf s' => .inf (s != s')
  | .inf s, .fin s' m _ => if m = 0 then .nan else .inf (s != s')
  | .fin s m _, .inf s' => if m = 0 then .nan else .inf (s != s')
  | _, _ => .nan

/-- The exact sum of two values (R157, R158); NaN for infinities of opposite sign. -/
def faddX (a b : FVal) : FVal :=
  match a, b with
  | .fin s m e, .fin s' m' e' =>
    let e0 := min e e'
    let v := scaledTo e0 s m e + scaledTo e0 s' m' e'
    if v = 0 then .fin (s && s' && m == 0 && m' == 0) 0 e0 else .fin (v < 0) v.natAbs e0
  | .inf s, .inf s' => if s = s' then .inf s else .nan
  | .inf s, .fin _ _ _ => .inf s
  | .fin _ _ _, .inf s => .inf s
  | _, _ => .nan

/-- The exact sum of a list (R169); the sum of no term is +0. -/
def fsumX : List FVal → FVal
  | [] => .fin false 0 0
  | [v] => v
  | v :: r => faddX v (fsumX r)

/-- A list of terms holds infinities of both signs and no NaN, so its sum is an exceptional NaN (R169). -/
def sumExc (l : List FVal) : Bool := !l.any FVal.isNan && l.contains (.inf true) && l.contains (.inf false)

/-- The order of R159 on values that are not NaN: a is less than b, with -0 less than +0. -/
def fless (zeroOrder : Bool) (a b : FVal) : Bool :=
  match a, b with
  | .inf s, .inf s' => s && !s'
  | .inf s, .fin _ _ _ => s
  | .fin _ _ _, .inf s => !s
  | .fin s m e, .fin s' m' e' =>
    let e0 := min e e'
    let x := scaledTo e0 s m e
    let y := scaledTo e0 s' m' e'
    x < y || (zeroOrder && x == 0 && y == 0 && s && !s')
  | _, _ => false

/-- Equality of R161. -/
def feq (a b : FVal) : Bool :=
  match a, b with
  | .nan, _ => false
  | _, .nan => false
  | a, b => !fless false a b && !fless false b a

/-! ### Operations on encodings; each gives the encoding and whether the result is exceptional (R104) -/

/-- A result whose NaN is exceptional when no operand is NaN (R157). -/
def fresult (f : Fmt) (anyNan : Bool) (v : FVal) : Nat × Bool := (fround f .rne v, v.isNan && !anyNan)

def faddE (f : Fmt) (a b : Nat) : Nat × Bool :=
  let x := fdec f a; let y := fdec f b
  fresult f (x.isNan || y.isNan) (faddX x y)

def fsubE (f : Fmt) (a b : Nat) : Nat × Bool :=
  let x := fdec f a; let y := fdec f b
  fresult f (x.isNan || y.isNan) (faddX x y.neg)

def fmulE (f : Fmt) (a b : Nat) : Nat × Bool :=
  let x := fdec f a; let y := fdec f b
  fresult f (x.isNan || y.isNan) (fmulX x y)

/-- a * b + c with one rounding. -/
def fmaE (f : Fmt) (a b c : Nat) : Nat × Bool :=
  let x := fdec f a; let y := fdec f b; let z := fdec f c
  fresult f (x.isNan || y.isNan || z.isNan) (faddX (fmulX x y) z)

/-- FMIN and FMAX (R159). -/
def fminE (f : Fmt) (a b : Nat) : Nat :=
  let x := fdec f a; let y := fdec f b
  if x.isNan || y.isNan then f.nan else if fless true y x then b else a

def fmaxE (f : Fmt) (a b : Nat) : Nat :=
  let x := fdec f a; let y := fdec f b
  if x.isNan || y.isNan then f.nan else if fless true x y then b else a

/-- FABS and FNEG (R160). -/
def fabsE (f : Fmt) (a : Nat) : Nat :=
  if (fdec f a).isNan then f.nan else a % 2 ^ (f.width - 1)

def fnegE (f : Fmt) (a : Nat) : Nat :=
  if (fdec f a).isNan then f.nan
  else if bit a (f.width - 1) then a % 2 ^ (f.width - 1) else a + 2 ^ (f.width - 1)

/-! ### The stochastic generator -/

/-- One step of the xorshift generator (R91). -/
def randStep (x : Word) : Word :=
  let x := x ^^^ (x <<< 13)
  let x := x ^^^ (x >>> 17)
  x ^^^ (x <<< 5)

/-- The value that rand16 returns from its new state (R91). -/
def rand16 (x : Word) : Nat := (x >>> 16).toNat

/-- The seed of R92. -/
def genSeed (block pos ctx : Nat) : Word :=
  0x9E3779B9#32 ^^^ BitVec.ofNat 32 (block * 32) ^^^ BitVec.ofNat 32 (pos * 4) ^^^ BitVec.ofNat 32 ctx

/-! ### Approximation functions (R94) -/

/-- round to bf16, rne, of a positive real whose floor(log2) is l and whose floor(v / 2^(q-1)) and exactness are given by
half; the encoding as f32 (R94). -/
def roundHalf (s : Bool) (l : Int) (half : Int → Nat × Bool) : Nat :=
  let q := gridExp .bf16 l
  let h := half q
  let n := h.1 / 2
  let up := h.1 % 2 == 1 && (!h.2 || n % 2 == 1)
  let n' := if up then n + 1 else n
  (if overMax .bf16 n' q then fovf .bf16 s .rne else fencFin .bf16 s n' q) * 2 ^ 16

/-- floor(a / b) and whether the quotient is exact, for a * 2^x / (b * 2^y). -/
def quotExact (a b : Nat) (x : Int) : Nat × Bool :=
  let n := a * 2 ^ x.toNat
  let d := b * 2 ^ (-x).toNat
  (n / d, n % d == 0)

/-- True for a power of two. -/
def isPow2 (m : Nat) : Bool := m == 2 ^ flog2 m

/-- RCP. -/
def frcp (a : Nat) : Nat × Bool :=
  match fdec .f32 a with
  | .nan => (Fmt.f32.nan, false)
  | .inf s => (if s then 0x80000000 else 0, false)
  | .fin s 0 _ => (if s then 0xFF800000 else 0x7F800000, false)
  | .fin s m e =>
    let k := (flog2 m : Int) + e
    let l := if isPow2 m then -k else -k - 1
    (roundHalf s l (fun q => quotExact 1 m (-e - (q - 1))), false)

/-- RSQ. -/
def frsq (a : Nat) : Nat × Bool :=
  match fdec .f32 a with
  | .nan => (Fmt.f32.nan, false)
  | .inf s => if s then (Fmt.f32.nan, true) else (0, false)
  | .fin s 0 _ => (if s then 0xFF800000 else 0x7F800000, false)
  | .fin true _ _ => (Fmt.f32.nan, true)
  | .fin false m e =>
    let k := (flog2 m : Int) + e
    let l := if isPow2 m then (-k) / 2 else (-k - 1) / 2
    (roundHalf false l (fun q =>
      let r := quotExact 1 m (-e - 2 * (q - 1))
      let h := isqrt r.1
      (h, r.2 && h * h == r.1)), false)

/-- floor(2^(2^-k) * 2^256), to within k units below. -/
def rootTwo : Nat → Nat
  | 0 => 2 ^ 257
  | k + 1 => isqrt (rootTwo k * 2 ^ 256)

/-- 2^f * 2^256 from below, for f the fraction u / 2^n: the product over the set bits of u, high bit first, with the running
root. -/
def expFrac : Nat → Nat → Nat → Nat → Nat
  | 0, _, _, acc => acc
  | n + 1, u, root, acc =>
    let r := isqrt (root * 2 ^ 256)
    expFrac n u r (if bit u n then acc * r / 2 ^ 256 else acc)

/-- EXP2. A fraction of an f32 has at most 149 bits, and 2^f is irrational unless f = 0, so 256 bits decide every rounding. -/
def fexp2 (a : Nat) : Nat × Bool :=
  match fdec .f32 a with
  | .nan => (Fmt.f32.nan, false)
  | .inf s => (if s then 0 else 0x7F800000, false)
  | .fin _ 0 _ => (0x3F800000, false)
  | .fin s m e =>
    if (flog2 m : Int) + e ≥ 8 then (if s then 0 else 0x7F800000, false)
    else
      let n := (-e).toNat
      let v : Int := scaledTo (min e 0) s m e
      let i := v / (2 ^ n : Nat)
      let u := (v % (2 ^ n : Nat)).toNat
      if i ≥ 128 then (0x7F800000, false)
      else if i < -140 then (0, false)
      else
        let y := expFrac n u (2 ^ 257) (2 ^ 256)
        (roundHalf false i (fun q =>
          let sh := i - (q - 1)
          let r := if sh ≥ 0 then y * 2 ^ sh.toNat / 2 ^ 256 else y / 2 ^ (256 + (-sh).toNat)
          (r, u == 0 && decide (sh ≥ 0))), false)

/-- n binary digits of log2 of y / 2^256, for y in [2^256, 2^257). -/
def logDigits : Nat → Nat → Nat → Nat
  | 0, _, acc => acc
  | n + 1, y, acc =>
    let z := y * y / 2 ^ 256
    if z ≥ 2 ^ 257 then logDigits n (z / 2) (2 * acc + 1) else logDigits n z (2 * acc)

/-- LOG2. The result is irrational unless the operand is a power of two; 100 digits decide every rounding. -/
def flog2E (a : Nat) : Nat × Bool :=
  match fdec .f32 a with
  | .nan => (Fmt.f32.nan, false)
  | .inf s => if s then (Fmt.f32.nan, true) else (0x7F800000, false)
  | .fin _ 0 _ => (0xFF800000, false)
  | .fin true _ _ => (Fmt.f32.nan, true)
  | .fin false m e =>
    let k := (flog2 m : Int) + e
    if isPow2 m then (fround .bf16 .rne (FVal.ofInt k) * 2 ^ 16, false)
    else
      let d := logDigits 100 (m * 2 ^ 256 / 2 ^ flog2 m) 0
      let r : Int := k * (2 ^ 100 : Nat) + d
      let g := if r < 0 then (-r - 1).toNat else r.toNat
      (roundHalf (r < 0) ((flog2 g : Int) - 100) (fun q =>
        ((quotExact g 1 (-100 - (q - 1))).1, false)), false)

/-! ### SplitMix64 (R233) -/

/-- The next state and the output. -/
def splitmix (st : DWord) : DWord × DWord :=
  let st := st + 0x9E3779B97F4A7C15#64
  let z := (st ^^^ (st >>> 30)) * 0xBF58476D1CE4E5B9#64
  let z := (z ^^^ (z >>> 27)) * 0x94D049BB133111EB#64
  (st, z ^^^ (z >>> 31))

end Sys2Proof.Machine
end

