-- ==== Sys2Proof/Machine/Token.lean ====
section
/-! DEFINITION. The eight lanes, the token (R50) and the register of an element (R53). -/

namespace Sys2Proof.Machine

open Sys2Proof

/-- Eight 32-bit lanes; lane l is bits [32l+31:32l] of the payload (R50). -/
structure Lanes where
  a0 : Word
  a1 : Word
  a2 : Word
  a3 : Word
  a4 : Word
  a5 : Word
  a6 : Word
  a7 : Word
deriving DecidableEq, Repr

/-- Every lane zero. -/
def Lanes.zero : Lanes := ⟨0, 0, 0, 0, 0, 0, 0, 0⟩

/-- Lane l; zero above lane 7. -/
def Lanes.get (p : Lanes) (l : Nat) : Word :=
  match l with
  | 0 => p.a0 | 1 => p.a1 | 2 => p.a2 | 3 => p.a3 | 4 => p.a4 | 5 => p.a5 | 6 => p.a6 | 7 => p.a7 | _ => 0

/-- The lanes f 0 to f 7. -/
def Lanes.ofFn (f : Nat → Word) : Lanes := ⟨f 0, f 1, f 2, f 3, f 4, f 5, f 6, f 7⟩

/-- Lane l written. -/
def Lanes.set (p : Lanes) (l : Nat) (x : Word) : Lanes := Lanes.ofFn (fun i => if i = l then x else p.get i)

/-- A mask bit. -/
def mbit (m : BitVec 8) (l : Nat) : Bool := m.getLsbD l

/-- The mask whose bit l is f l. -/
def maskOf (f : Nat → Bool) : BitVec 8 :=
  BitVec.ofNat 8 ((f 0).toNat + 2 * (f 1).toNat + 4 * (f 2).toNat + 8 * (f 3).toNat + 16 * (f 4).toNat +
    32 * (f 5).toNat + 64 * (f 6).toNat + 128 * (f 7).toNat)

/-- A register of an element: payload, valid mask and poison bit (R53); also an operand as read (R112). -/
structure VReg where
  p : Lanes
  m : BitVec 8
  x : Bool
deriving DecidableEq, Repr

/-- A register as loaded (R53). -/
def VReg.zero : VReg := ⟨Lanes.zero, 0, false⟩

/-- A token (R50). -/
structure Token where
  p : Lanes
  m : BitVec 8
  t : BitVec 4
  l : Bool
  x : Bool
  c : BitVec 2
  i : BitVec 6
deriving DecidableEq, Repr

/-- A token of zeros. -/
def Token.zero : Token := ⟨Lanes.zero, 0, 0, false, false, 0, 0⟩

/-- A barrier token: T = 15 and no lane valid (R51). -/
def Token.barrier (k : Token) : Bool := k.t == 15 && k.m == 0

/-- What a register or an operand keeps of a token (R53). -/
def Token.reg (k : Token) : VReg := ⟨k.p, k.m, k.x⟩

/-- The payload with every lane whose mask bit is 0 zero (R52). -/
def cleanLanes (p : Lanes) (m : BitVec 8) : Lanes := Lanes.ofFn (fun l => if mbit m l then p.get l else 0)

/-- A register or operand with invalid lanes zero (R52). -/
def VReg.clean (v : VReg) : VReg := { v with p := cleanLanes v.p v.m }

/-- Lane 0 holds a value and is the only valid lane. -/
def scalar (v : Nat) : VReg := ⟨⟨BitVec.ofNat 32 v, 0, 0, 0, 0, 0, 0, 0⟩, 1, false⟩

/-- The 32 bytes of lanes as a list of lane values. -/
def Lanes.list (p : Lanes) : List Word := [p.a0, p.a1, p.a2, p.a3, p.a4, p.a5, p.a6, p.a7]

/-- Lane 0 read as a decision: valid and not zero (R74, R176). -/
def VReg.truth (v : VReg) : Bool := mbit v.m 0 && v.p.a0 != 0

end Sys2Proof.Machine
end

