-- ==== Sys2Proof/Syntax.lean ====
section
/-! DEFINITION. The whole instruction set of Rilmo: one constructor for each row of the opcode table, with the operand
forms of 04_encodings. An event, which has no word, carries the data of its occurrence. -/

namespace Sys2Proof

/-! ### Element operand forms -/

/-- The type codes of R115; codes 12 to 15 have meanings only where an opcode gives them. -/
inductive Ty
  | s32 | n32 | s16x2 | n16x2 | s8x4 | n8x4 | f32 | bf16x2 | f16x2 | e4m3x4 | e5m2x4 | b32
  | c12 | c13 | c14 | c15
deriving DecidableEq, Repr

/-- The source codes of R112. -/
inductive Src
  | v (n : Fin 16)
  | q (n : Fin 6)
  | k (n : Fin 4)
  | zero
  | lane
  | eid
  | ch0
  | ch1
  | prg
deriving DecidableEq, Repr

/-- The tag tests of R62. -/
inductive TagTest
  | any | eq | ne | last
deriving DecidableEq, Repr

/-- The neighbour links of R56 in route order (R113). -/
inductive Dir
  | n | e | s | w
deriving DecidableEq, Repr

/-- A consumer slot (R113). -/
inductive Dest
  | reg (n : Fin 16)
  | link (d : Dir) (tp lp : Bool)
  | route (n : Fin 16) (tp lp : Bool)
  | pred (n : Fin 8)
  | report
  | discard
  | port (j : Fin 4) (tp lp : Bool)
  | none
deriving DecidableEq, Repr

/-- The fields of an element instruction word but for V and OP (R109, R111); V is 1. -/
structure EWord where
  /-- exclusive (R72) -/
  x : Bool
  /-- predicate mask and value (R61) -/
  pm : BitVec 8
  pv : BitVec 8
  /-- queue A and B, none for code 7, and their tag tests -/
  qa : Option (Fin 6)
  ta : TagTest
  qb : Option (Fin 6)
  tb : TagTest
  /-- tag value -/
  tv : BitVec 4
  ty : Ty
  sa : Src
  sb : Src
  d0 : Dest
  d1 : Dest
  /-- pop queue A, pop queue B -/
  pa : Bool
  pb : Bool
  /-- out tag -/
  ot : BitVec 4
  /-- predicate set and clear masks -/
  ps : BitVec 8
  pc : BitVec 8
deriving DecidableEq, Repr

/-! ### Foreman operand forms -/

/-- The scopes of R31 that have an encoding. -/
inductive Scope
  | elem | tile | quad | die | pkg | pod | wrk
deriving DecidableEq, Repr

/-- The ordering field of an atomic or a descriptor (R209, R325). -/
inductive Ord
  | plain | acq | rel | acqrel
deriving DecidableEq, Repr

/-- The scope field SC of a foreman AMO (R325). -/
inductive AScope
  | wrk | die | pkg | pod
deriving DecidableEq, Repr

/-- The branch conditions of R133. -/
inductive Cond
  | al | eq | ne | lt | ge | gt | le | hs | lo | hi | ls | mi | pl | vs | fs | fc
deriving DecidableEq, Repr

/-! ### Data of events -/

/-- Who hands a command to the hoists (R291). -/
inductive Requester
  | elem (e : Nat)
  | thread (t : Nat)
deriving DecidableEq, Repr

/-- Who consumes an error (R434). -/
inductive Consumer
  | elem (e : Nat)
  | thread (t : Nat)
  | hoist (d n : Nat)
  /-- a stamp unit that serves an atomic of a thread -/
  | stamp (t : Nat)
deriving DecidableEq, Repr

/-- What the checks of a load come to (R451, R511). -/
inductive LoadCheck
  /-- every word is written well; again is true where a sector that was read bad is read good the second time -/
  | sectors (again : Bool)
  /-- a prefetched line of the configuration cache that the load uses is bad, and is fetched again (0x25) -/
  | line
  /-- a word that was written fails its check twice (0x25) -/
  | word
  /-- a prefetched line that no load has used is bad (0x26) -/
  | unused
deriving DecidableEq, Repr

/-- What was found bad (R425, R434, R448, R486). -/
inductive BadItem
  /-- register vn of the consuming element (0x27) -/
  | reg (n : Nat)
  /-- the head of queue iq of the consuming element (0x28) -/
  | queue (q : Nat)
  /-- predicates, chains, pointer, PRG, generator or tag map of the consuming element (0x27) -/
  | elemState
  /-- a configuration word of the active context (0x25): slot word 0 to 15, 16 + n for constant kn, more for another word -/
  | config (slot : Nat)
  /-- the same of another context, which consumes it when it becomes active (R451) -/
  | inactive (ctx slot : Nat)
  /-- a register gn of the consuming thread (0x27) -/
  | foreman (n : Nat)
  /-- a field of a layout entry (0x25, R508) -/
  | layout (n : Nat)
  /-- a sector of HBM (0x21), at a physical address -/
  | hbm (pa va : Nat)
  /-- a word of tile SRAM (0x23), at a fabric-window address -/
  | sram (a : Nat)
  /-- a word of an operand or accumulator slot (0x24): island, slot, true for accumulator -/
  | island (isl slot : Nat) (acc : Bool)
  /-- a page-table entry (0x35), at a physical address, for a virtual address -/
  | tableEntry (pa va : Nat)
  /-- a sync counter no two copies of which agree (0x27, R468) -/
  | counter (n : Nat)
  /-- an undo record or checkpoint read by a rollback (0x62) -/
  | undo
  /-- an error that its check corrects, in a store of the consumer that is neither HBM nor tile SRAM (0x2F, R425, R426) -/
  | corrected
deriving DecidableEq, Repr

/-- A source of counted errors (R442). -/
inductive ErrSource
  | elem (e : Nat)
  | elemReplay (e : Nat)
  | bank (a : Nat)
  | link (n lane : Nat)
  | counter (q n : Nat)
deriving DecidableEq, Repr

/-- A link between dies or packages (R16, R17). -/
inductive Link
  /-- crosscut 0: dies 0 and 1; 1: dies 2 and 3; 2: dies 0 and 2; 3: dies 1 and 3 -/
  | crosscut (n : Fin 4)
  | haulage (n : Fin 32)
deriving DecidableEq, Repr

/-- What a checkweigher's comparison and the computations after it give (R458). -/
inductive Verdict
  | confirmed
  /-- the element's second computation equals the checkweigher's -/
  | second
  /-- it equals the element's first, and the checkweigher now agrees -/
  | spareWrong
  | other
deriving DecidableEq, Repr

/-- What the parties of a collective in other packages have sent by an event: contributions with their ranks, and the ranks of finished notices
(R305, R518). -/
structure FarParties where
  given : List (Nat × List Byte) := []
  finished : List Nat := []
deriving DecidableEq, Repr

/-- A lane of a link (R17, R442). -/
structure LinkLane where
  link : Link
  lane : Nat
deriving DecidableEq, Repr

/-- An operation of the host port: its endpoint, and whether its packet came with a congestion mark (R403). -/
structure RdmaPacket where
  ep : Nat
  marked : Bool := false
deriving DecidableEq, Repr

/-- An ABORT flit (R517). -/
structure AbortFlit where
  ident : Nat
  rank : Nat
  package : Nat
  die : Nat
  cause : Nat
  /-- the rank of the destination party (R305) -/
  dest : Nat
deriving DecidableEq, Repr

/-- The kinds of a peer request (R305). -/
inductive PeerKind
  | read | write | atomic
deriving DecidableEq, Repr

/-- A request flit and its data (R305). -/
structure PeerRequest where
  kind : PeerKind
  package : Nat
  source : Nat
  seq : BitVec 16
  asid : Nat
  addr : Nat
  op : Nat
  /-- the identity the request presents (R389) -/
  ident : Nat
  /-- bytes to read, or the operand and data bytes -/
  len : Nat
  data : List Byte
  /-- lanes of the data that are valid, and its poison -/
  mask : BitVec 8
  poison : Bool
  /-- the die of the haulage port that receives it (R392) -/
  die : Nat
  /-- sources, each with its package above bit 16, that have received every reply that their filters hold by then (R307) -/
  released : List Nat := []
deriving DecidableEq, Repr

/-- A reply flit (R305, R503). -/
structure PeerReply where
  source : Nat
  seq : BitVec 16
  /-- 0 for a performed request, else the cause (R503) -/
  cause : Nat
  data : List Byte
  poison : Bool
deriving DecidableEq, Repr

/-- The opcode table: element instructions, foreman instructions, events. -/
inductive Instr
  /-- Element integer add, lane by lane, with wrapping. (R152) -/
  | add (w : EWord)
  /-- Element integer subtract, lane by lane, with wrapping. (R152) -/
  | sub (w : EWord)
  /-- Element integer multiply keeping the low bits. (R152) -/
  | mul (w : EWord)
  /-- Element integer multiply returning the high half. (R152) -/
  | mulh (w : EWord)
  /-- Element multiply-add into the register that D0 names, with wrapping. (R152) -/
  | mad (w : EWord)
  /-- Element integer negate. (R152) -/
  | neg (w : EWord)
  /-- Element integer absolute value. (R152) -/
  | abs (w : EWord)
  /-- Element integer minimum. (R152) -/
  | min (w : EWord)
  /-- Element integer maximum. (R152) -/
  | max (w : EWord)
  /-- Element shift left. (R152) -/
  | shl (w : EWord)
  /-- Element logical shift right. (R152) -/
  | shr (w : EWord)
  /-- Element arithmetic shift right. (R152) -/
  | sha (w : EWord)
  /-- Element rotate left. (R152) -/
  | rol (w : EWord)
  /-- Element count of leading zeros. (R152) -/
  | clz (w : EWord)
  /-- Element population count. (R152) -/
  | popc (w : EWord)
  /-- Element bitwise AND on b32. (R152) -/
  | and (w : EWord)
  /-- Element bitwise OR on b32. (R152) -/
  | or (w : EWord)
  /-- Element bitwise XOR on b32. (R152) -/
  | xor (w : EWord)
  /-- Element bitwise NOT on b32. (R152) -/
  | not (w : EWord)
  /-- Element AND with the complement of B. (R152) -/
  | andn (w : EWord)
  /-- Element bitwise select under the mask held in the register that D0 names. (R152) -/
  | sel (w : EWord)
  /-- Element integer compare for equality, giving an element mask. (R155) -/
  | cmpeq (w : EWord)
  /-- Element integer compare for inequality. (R155) -/
  | cmpne (w : EWord)
  /-- Element integer compare less-than. (R155) -/
  | cmplt (w : EWord)
  /-- Element integer compare less-or-equal. (R155) -/
  | cmple (w : EWord)
  /-- Element saturating add. (R152) -/
  | addSat (w : EWord)
  /-- Element saturating subtract. (R152) -/
  | subSat (w : EWord)
  /-- Element saturating multiply. (R152) -/
  | mulSat (w : EWord)
  /-- Element saturating multiply-add. (R152) -/
  | madSat (w : EWord)
  /-- Element saturating negate. (R154) -/
  | negSat (w : EWord)
  /-- Element saturating absolute value. (R154) -/
  | absSat (w : EWord)
  /-- Element saturating shift left. (R154) -/
  | shlSat (w : EWord)
  /-- Element floating-point add with one rounding. (R157) -/
  | fadd (w : EWord)
  /-- Element floating-point subtract. (R157) -/
  | fsub (w : EWord)
  /-- Element floating-point multiply. (R157) -/
  | fmul (w : EWord)
  /-- Element fused multiply-add into the register that D0 names. (R157) -/
  | ffma (w : EWord)
  /-- Element floating-point minimum. (R159) -/
  | fmin (w : EWord)
  /-- Element floating-point maximum. (R159) -/
  | fmax (w : EWord)
  /-- Element clear of the sign bit. (R160) -/
  | fabs (w : EWord)
  /-- Element inversion of the sign bit. (R160) -/
  | fneg (w : EWord)
  /-- Element floating-point compare for equality. (R161) -/
  | fcmpeq (w : EWord)
  /-- Element floating-point compare less-than. (R161) -/
  | fcmplt (w : EWord)
  /-- Element floating-point compare less-or-equal. (R161) -/
  | fcmple (w : EWord)
  /-- Element floating-point compare for unordered. (R161) -/
  | fcmpun (w : EWord)
  /-- Element conversion between types, rounding to nearest even. (R163) -/
  | cvt (w : EWord)
  /-- Element conversion rounding toward zero. (R163) -/
  | cvtRz (w : EWord)
  /-- Element conversion rounding stochastically, drawing from the generator. (R165) -/
  | cvtRs (w : EWord)
  /-- Element reciprocal, rounded to bf16 precision. (R166) -/
  | rcp (w : EWord)
  /-- Element reciprocal square root. (R166) -/
  | rsq (w : EWord)
  /-- Element base-2 exponential. (R166) -/
  | exp2 (w : EWord)
  /-- Element base-2 logarithm. (R166) -/
  | log2 (w : EWord)
  /-- Element lane shuffle by the indices in B. (R167) -/
  | shuf (w : EWord)
  /-- Element broadcast of one lane to every lane. (R167) -/
  | bcast (w : EWord)
  /-- Element lane rotation. (R167) -/
  | lrot (w : EWord)
  /-- Element integer sum over the valid lanes. (R168) -/
  | lradd (w : EWord)
  /-- Element integer minimum over the lanes. (R168) -/
  | lrmin (w : EWord)
  /-- Element integer maximum over the lanes. (R168) -/
  | lrmax (w : EWord)
  /-- Element exact floating-point sum over the lanes, rounded once. (R169) -/
  | lrfadd (w : EWord)
  /-- Element floating-point minimum over the lanes. (R168) -/
  | lrfmin (w : EWord)
  /-- Element floating-point maximum over the lanes. (R168) -/
  | lrfmax (w : EWord)
  /-- Element inclusive integer prefix sum over the lanes. (R170) -/
  | lpadd (w : EWord)
  /-- Element inclusive exact floating-point prefix sum. (R170) -/
  | lpfadd (w : EWord)
  /-- Element move of A's payload and mask to the destinations. (R175) -/
  | mov (w : EWord)
  /-- Element forward of queue A's head token unchanged. (R175) -/
  | pass (w : EWord)
  /-- Element pop of queues with predicate updates only. (R175) -/
  | drop (w : EWord)
  /-- Element send of a token to one of two destinations by a control token. (R176) -/
  | steer (w : EWord)
  /-- Element ordered merge of two arms under a control stream. (R177) -/
  | mergeOrd (w : EWord)
  /-- Element merge taking whichever arm's head passes. (R178) -/
  | mergeAny (w : EWord)
  /-- Element compaction of the kept lanes to the low lanes. (R179) -/
  | filt (w : EWord)
  /-- Element gathering of valid lanes into full tokens through a partial register. (R180) -/
  | pack (w : EWord)
  /-- Element forward of the head with T replaced by OT. (R181) -/
  | tag (w : EWord)
  /-- Element forward of the head with T taken from B. (R181) -/
  | tagDyn (w : EWord)
  /-- Element read of A's valid mask into lane 0. (R182) -/
  | vmskGet (w : EWord)
  /-- Element narrowing of A's valid mask by B. (R182) -/
  | vmskAnd (w : EWord)
  /-- Element replacement of A's valid mask by B. (R182) -/
  | vmskSet (w : EWord)
  /-- Element forward of one barrier token once every named head is a barrier. (R183) -/
  | bfwd (w : EWord)
  /-- Element AND of two predicates. (R184) -/
  | pand (w : EWord)
  /-- Element OR of two predicates. (R184) -/
  | por (w : EWord)
  /-- Element XOR of two predicates. (R184) -/
  | pxor (w : EWord)
  /-- Element NOT of a predicate. (R184) -/
  | pnot (w : EWord)
  /-- Element allocation of the lowest free iteration tag from the level's map. (R185) -/
  | taga (w : EWord)
  /-- Element return of the head's iteration tag to the map. (R185) -/
  | tagf (w : EWord)
  /-- Element forward of the head with its iteration tag replaced. (R186) -/
  | tagx (w : EWord)
  /-- Element read of the head's I, T, L and C into lanes. (R186) -/
  | tagxGet (w : EWord)
  /-- Element write of a chain's shadow start. (R188) -/
  | chstart (w : EWord)
  /-- Element write of a chain's shadow step. (R188) -/
  | chstep (w : EWord)
  /-- Element write of a chain's shadow count. (R188) -/
  | chcount (w : EWord)
  /-- Element end of a chain's running pass by clearing its live count. (R188) -/
  | chcountEnd (w : EWord)
  /-- Element advance of a chain by one index and send of it. (R189) -/
  | chnext (w : EWord)
  /-- Element advance of a chain by up to eight indices in one token. (R189) -/
  | chnextV (w : EWord)
  /-- Element push of a task record and increment of the join counter. (R192) -/
  | spawn (w : EWord)
  /-- Element read and clear of a join counter's counts once no child is outstanding. (R193) -/
  | join (w : EWord)
  /-- Element fence that waits for earlier accesses to perform and forwards A. (R194) -/
  | fenceElement (w : EWord)
  /-- Element trap that freezes the working and traps its foreman thread. (R195) -/
  | etrap (w : EWord)
  /-- Element read of the working's resident cycle count. (R196) -/
  | rdsysClock (w : EWord)
  /-- Element read of its relative placement. (R196) -/
  | rdsysPlace (w : EWord)
  /-- Element read of the working's poison record. (R196) -/
  | rdsysPoison (w : EWord)
  /-- Element read of both chains' live state. (R196) -/
  | rdsysChains (w : EWord)
  /-- Element firing with predicate updates only. (R197) -/
  | nop (w : EWord)
  /-- Scratchpad load of a 32-byte row from the tile SRAM. (R218) -/
  | sld (w : EWord)
  /-- Scratchpad store of a row to the tile SRAM. (R218) -/
  | sst (w : EWord)
  /-- Scratchpad arming of a watch on a word for a value. (R219) -/
  | swatch (w : EWord)
  /-- Opening of a speculation on a data bank in a shadow bank. (R220) -/
  | spbeg (w : EWord)
  /-- Commit of the speculation by a bank-pointer swap. (R220) -/
  | spcom (w : EWord)
  /-- Discard of the speculation. (R220) -/
  | spdis (w : EWord)
  /-- Memory-port load issued in wave order. (R222) -/
  | ld (w : EWord)
  /-- Memory-port store issued in wave order. (R222) -/
  | st (w : EWord)
  /-- Memory-port gather macro of one element per lane. (R225) -/
  | gathr (w : EWord)
  /-- Memory-port scatter macro of one element per lane. (R225) -/
  | scatr (w : EWord)
  /-- Memory-port atomic per lane that returns old values. (R228) -/
  | amo (w : EWord)
  /-- Memory-port atomic performed in issue order at its stamp unit. (R229) -/
  | amoOrd (w : EWord)
  /-- Memory-port reduction per lane without old values. (R228) -/
  | red (w : EWord)
  /-- Memory-port reduction performed in issue order. (R229) -/
  | redOrd (w : EWord)
  /-- Memory-port translation of coordinates, installing the leaf in caches. (R224) -/
  | xlat (w : EWord)
  /-- Hand-off of a pointer chase to a tram unit. (R232) -/
  | tramChase (w : EWord)
  /-- Hand-off of seeded random walks to a tram unit. (R234) -/
  | tramWalk (w : EWord)
  /-- Hand-off of one hoist command from a memory-port element. (R230) -/
  | hcopye (w : EWord)
  /-- Claim of an island operand or accumulator slot for an island context. (R268) -/
  | oclm (w : EWord)
  /-- Release of an island slot. (R269) -/
  | orls (w : EWord)
  /-- Start of an operand-slot fill from tile SRAM. (R271) -/
  | tload (w : EWord)
  /-- Start of a tile multiply into an accumulator slot. (R273) -/
  | tmul (w : EWord)
  /-- Start of writing an accumulator slot to tile SRAM with conversion. (R275) -/
  | tout (w : EWord)
  /-- Zeroing of an accumulator slot in one step. (R276) -/
  | tzero (w : EWord)
  /-- Foreman 64-bit add. (R319) -/
  | foremanAdd (rd : Reg) (ra : Reg) (rb : Reg)
  /-- Foreman subtract. (R319) -/
  | foremanSub (rd : Reg) (ra : Reg) (rb : Reg)
  /-- Foreman AND. (R319) -/
  | foremanAnd (rd : Reg) (ra : Reg) (rb : Reg)
  /-- Foreman OR. (R319) -/
  | foremanOr (rd : Reg) (ra : Reg) (rb : Reg)
  /-- Foreman XOR. (R319) -/
  | foremanXor (rd : Reg) (ra : Reg) (rb : Reg)
  /-- Foreman AND with complement. (R319) -/
  | foremanAndn (rd : Reg) (ra : Reg) (rb : Reg)
  /-- Foreman shift left. (R319) -/
  | foremanShl (rd : Reg) (ra : Reg) (rb : Reg)
  /-- Foreman logical shift right. (R319) -/
  | foremanShr (rd : Reg) (ra : Reg) (rb : Reg)
  /-- Foreman arithmetic shift right. (R319) -/
  | foremanSha (rd : Reg) (ra : Reg) (rb : Reg)
  /-- Foreman multiply, low 64 bits. (R319) -/
  | foremanMul (rd : Reg) (ra : Reg) (rb : Reg)
  /-- Foreman signed high multiply. (R319) -/
  | foremanMulh (rd : Reg) (ra : Reg) (rb : Reg)
  /-- Foreman unsigned high multiply. (R319) -/
  | foremanMulhu (rd : Reg) (ra : Reg) (rb : Reg)
  /-- Foreman signed divide that never traps. (R320) -/
  | foremanDiv (rd : Reg) (ra : Reg) (rb : Reg)
  /-- Foreman unsigned divide. (R320) -/
  | foremanDivu (rd : Reg) (ra : Reg) (rb : Reg)
  /-- Foreman signed remainder. (R320) -/
  | foremanRem (rd : Reg) (ra : Reg) (rb : Reg)
  /-- Foreman unsigned remainder. (R320) -/
  | foremanRemu (rd : Reg) (ra : Reg) (rb : Reg)
  /-- Foreman signed minimum. (R319) -/
  | foremanMin (rd : Reg) (ra : Reg) (rb : Reg)
  /-- Foreman signed maximum. (R319) -/
  | foremanMax (rd : Reg) (ra : Reg) (rb : Reg)
  /-- Foreman unsigned minimum. (R319) -/
  | foremanMinu (rd : Reg) (ra : Reg) (rb : Reg)
  /-- Foreman unsigned maximum. (R319) -/
  | foremanMaxu (rd : Reg) (ra : Reg) (rb : Reg)
  /-- Foreman count of leading zeros. (R319) -/
  | foremanClz (rd : Reg) (ra : Reg)
  /-- Foreman population count. (R319) -/
  | foremanPopc (rd : Reg) (ra : Reg)
  /-- Foreman add of a sign-extended immediate. (R321) -/
  | addi (rd : Reg) (ra : Reg) (imm : BitVec 14)
  /-- Foreman AND with an immediate. (R321) -/
  | andi (rd : Reg) (ra : Reg) (imm : BitVec 14)
  /-- Foreman OR with an immediate. (R321) -/
  | ori (rd : Reg) (ra : Reg) (imm : BitVec 14)
  /-- Foreman XOR with an immediate. (R321) -/
  | xori (rd : Reg) (ra : Reg) (imm : BitVec 14)
  /-- Foreman shift left by an immediate. (R321) -/
  | shli (rd : Reg) (ra : Reg) (sh : BitVec 6)
  /-- Foreman logical shift right by an immediate. (R321) -/
  | shri (rd : Reg) (ra : Reg) (sh : BitVec 6)
  /-- Foreman arithmetic shift right by an immediate. (R321) -/
  | shai (rd : Reg) (ra : Reg) (sh : BitVec 6)
  /-- Foreman load of a sign-extended 32-bit immediate (two words). (R321) -/
  | li (rd : Reg) (imm : Word)
  /-- Foreman add of a 32-bit immediate (two words). (R321) -/
  | addl (rd : Reg) (ra : Reg) (imm : Word)
  /-- Foreman compare of two registers, setting flags. (R322) -/
  | cmp (ra : Reg) (rb : Reg)
  /-- Foreman compare with an immediate. (R322) -/
  | cmpi (ra : Reg) (imm : BitVec 14)
  /-- Foreman load of a zero-extended byte. (R323) -/
  | ldN8 (rd : Reg) (ra : Reg) (imm : BitVec 14)
  /-- Foreman load of a sign-extended byte. (R323) -/
  | ldS8 (rd : Reg) (ra : Reg) (imm : BitVec 14)
  /-- Foreman load of a zero-extended halfword. (R323) -/
  | ldN16 (rd : Reg) (ra : Reg) (imm : BitVec 14)
  /-- Foreman load of a sign-extended halfword. (R323) -/
  | ldS16 (rd : Reg) (ra : Reg) (imm : BitVec 14)
  /-- Foreman load of a zero-extended word. (R323) -/
  | ldN32 (rd : Reg) (ra : Reg) (imm : BitVec 14)
  /-- Foreman load of a sign-extended word. (R323) -/
  | ldS32 (rd : Reg) (ra : Reg) (imm : BitVec 14)
  /-- Foreman load of a doubleword. (R323) -/
  | ldB64 (rd : Reg) (ra : Reg) (imm : BitVec 14)
  /-- Foreman store of a byte. (R323) -/
  | stB8 (rd : Reg) (ra : Reg) (imm : BitVec 14)
  /-- Foreman store of a halfword. (R323) -/
  | stB16 (rd : Reg) (ra : Reg) (imm : BitVec 14)
  /-- Foreman store of a word. (R323) -/
  | stB32 (rd : Reg) (ra : Reg) (imm : BitVec 14)
  /-- Foreman store of a doubleword. (R323) -/
  | stB64 (rd : Reg) (ra : Reg) (imm : BitVec 14)
  /-- Foreman atomic add on a word. (R325) -/
  | foremanAmoAdd (rd : Reg) (ra : Reg) (rb : Reg) (ord : Ord) (sc : AScope)
  /-- Foreman atomic AND. (R325) -/
  | foremanAmoAnd (rd : Reg) (ra : Reg) (rb : Reg) (ord : Ord) (sc : AScope)
  /-- Foreman atomic OR. (R325) -/
  | foremanAmoOr (rd : Reg) (ra : Reg) (rb : Reg) (ord : Ord) (sc : AScope)
  /-- Foreman atomic XOR. (R325) -/
  | foremanAmoXor (rd : Reg) (ra : Reg) (rb : Reg) (ord : Ord) (sc : AScope)
  /-- Foreman atomic signed minimum. (R325) -/
  | foremanAmoMins (rd : Reg) (ra : Reg) (rb : Reg) (ord : Ord) (sc : AScope)
  /-- Foreman atomic signed maximum. (R325) -/
  | foremanAmoMaxs (rd : Reg) (ra : Reg) (rb : Reg) (ord : Ord) (sc : AScope)
  /-- Foreman atomic unsigned minimum. (R325) -/
  | foremanAmoMinu (rd : Reg) (ra : Reg) (rb : Reg) (ord : Ord) (sc : AScope)
  /-- Foreman atomic unsigned maximum. (R325) -/
  | foremanAmoMaxu (rd : Reg) (ra : Reg) (rb : Reg) (ord : Ord) (sc : AScope)
  /-- Foreman atomic f32 add. (R325) -/
  | foremanAmoFadd (rd : Reg) (ra : Reg) (rb : Reg) (ord : Ord) (sc : AScope)
  /-- Foreman atomic f32 minimum. (R325) -/
  | foremanAmoFmin (rd : Reg) (ra : Reg) (rb : Reg) (ord : Ord) (sc : AScope)
  /-- Foreman atomic f32 maximum. (R325) -/
  | foremanAmoFmax (rd : Reg) (ra : Reg) (rb : Reg) (ord : Ord) (sc : AScope)
  /-- Foreman atomic exchange. (R325) -/
  | foremanAmoXchg (rd : Reg) (ra : Reg) (rb : Reg) (ord : Ord) (sc : AScope)
  /-- Foreman atomic compare-and-swap, setting f on failure. (R325) -/
  | foremanAmoCas (rd : Reg) (ra : Reg) (rb : Reg) (ord : Ord) (sc : AScope)
  /-- Foreman full fence at a scope. (R326) -/
  | fenceFull (sc : Scope)
  /-- Foreman acquire fence. (R326) -/
  | fenceAcq (sc : Scope)
  /-- Foreman release fence. (R326) -/
  | fenceRel (sc : Scope)
  /-- Foreman wait on a word until it equals a value, as an acquire. (R327) -/
  | waita (rd : Reg) (ra : Reg) (rb : Reg) (sc : Scope)
  /-- Foreman conditional branch. (R328) -/
  | bc (cond : Cond) (off : BitVec 22)
  /-- Foreman branch and link into g1. (R328) -/
  | bl (off : BitVec 22)
  /-- Foreman indirect branch to an ENTRY of a given label. (R329) -/
  | jr (rd : Reg) (ra : Reg) (label : BitVec 8)
  /-- Foreman landing mark with no effect when run in line. (R329) -/
  | entry (label : BitVec 8)
  /-- Foreman acquisition of register blocks, waiting for the pool. (R312) -/
  | rbacq (mask : BitVec 7)
  /-- Foreman try-acquisition of register blocks, setting f on failure. (R312) -/
  | rbacqTry (mask : BitVec 7)
  /-- Foreman release of register blocks, popping the frame. (R312) -/
  | rbrel (mask : BitVec 7)
  /-- Foreman read of a control register. (R316) -/
  | sysr (rd : Reg) (ra : Reg) (num : BitVec 14)
  /-- Foreman write of a control register. (R316) -/
  | sysw (rd : Reg) (ra : Reg) (num : BitVec 14)
  /-- Foreman user trap with a code below 0x2000. (R332) -/
  | trap (code : BitVec 13)
  /-- Foreman call to system software with a code of 0x2000 or above. (R332) -/
  | trapSyscall (code : BitVec 13)
  /-- Foreman return from a trap handler. (R332) -/
  | eret
  /-- Foreman wait for working conditions selected by a mask. (R333) -/
  | wfi (rd : Reg) (mask : BitVec 4)
  /-- Foreman load and commit of inactive contexts from an image. (R337) -/
  | wload (rd : Reg) (ra : Reg) (rb : Reg)
  /-- Foreman start of a budget of phases on an idle working. (R338) -/
  | wgoStart (ra : Reg)
  /-- Foreman resumption of a paused working. (R338) -/
  | wgoResume (ra : Reg)
  /-- Foreman explicit choice of the next context. (R338) -/
  | wphase (ra : Reg)
  /-- Foreman stop that ends the running phase. (R339) -/
  | wstopEnd
  /-- Foreman stop that pauses the working. (R339) -/
  | wstopPause
  /-- Foreman write of a save image of an idle or paused working. (R342) -/
  | wsave (rd : Reg) (ra : Reg)
  /-- Foreman restore of the working's state from a save image. (R342) -/
  | wrest (rd : Reg) (ra : Reg)
  /-- Foreman read of WSTAT. (R336) -/
  | wqueryWstat (rd : Reg)
  /-- Foreman read of the count of phases completed. (R335) -/
  | wqueryPhases (rd : Reg)
  /-- Foreman read of the save-image size. (R342) -/
  | wquerySaveSize (rd : Reg)
  /-- Foreman read of a word of the report channel's head. (R343) -/
  | rdsReportHead (rd : Reg) (ra : Reg)
  /-- Foreman removal of the report channel's head. (R343) -/
  | rdsReportPop (rd : Reg)
  /-- Foreman read of an operand slot's status word. (R343) -/
  | rdsOperandStatus (rd : Reg) (ra : Reg) (rb : Reg)
  /-- Foreman read of an accumulator slot's status word. (R343) -/
  | rdsAccumulatorStatus (rd : Reg) (ra : Reg) (rb : Reg)
  /-- Foreman voted read of a sync counter. (R343) -/
  | rdsSyncCounter (rd : Reg) (ra : Reg)
  /-- Foreman read of the poison record. (R343) -/
  | rdsPoisonRecord (rd : Reg)
  /-- Foreman read of a word of an element's read-back record. (R379) -/
  | rdsElementState (rd : Reg) (ra : Reg) (rb : Reg)
  /-- Foreman push of a task record, waiting for room. (R344) -/
  | tqpush (ra : Reg)
  /-- Foreman try-push of a task record. (R344) -/
  | tqpushTry (ra : Reg)
  /-- Foreman removal of its oldest task record from the queue. (R345) -/
  | tqpop (rd : Reg) (ra : Reg)
  /-- Foreman hand-off of a hoist command, waiting for an idle hoist. (R346) -/
  | hcopy (rd : Reg) (ra : Reg)
  /-- Foreman try hand-off of a hoist command. (R346) -/
  | hcopyTry (rd : Reg) (ra : Reg)
  /-- Foreman read of a hoist's HSTAT0. (R308) -/
  | hqueryHstat0 (rd : Reg) (ra : Reg)
  /-- Foreman read of a hoist's HSTAT1. (R308) -/
  | hqueryHstat1 (rd : Reg) (ra : Reg)
  /-- Foreman flip of a layout entry's SEL as a release. (R296) -/
  | publish (ra : Reg) (sc : Scope)
  /-- Foreman opening of a recovery region with a checkpoint. (R350) -/
  | rvbeg (rd : Reg)
  /-- Foreman addition of an item to the set kept by the next region. (R349) -/
  | rvkeep (ra : Reg)
  /-- Foreman closing of the innermost region, publishing kept shadows. (R352) -/
  | rvend (ra : Reg)
  /-- Foreman invalidation of translations over a range, waiting for the drain. (R348) -/
  | invr (rd : Reg) (ra : Reg) (rb : Reg) (all : Bool) (sc : Scope)
  /-- Foreman barrier on a sync counter. (R355) -/
  | barw (rd : Reg) (ra : Reg) (rb : Reg) (sc : Scope)
  /-- Foreman wait-and-decrement of a semaphore counter. (R354) -/
  | semaP (rd : Reg) (ra : Reg) (sc : Scope)
  /-- Foreman try-decrement of a semaphore counter. (R354) -/
  | semaTry (rd : Reg) (ra : Reg) (sc : Scope)
  /-- Foreman release-increment of a semaphore counter. (R354) -/
  | semaV (rd : Reg) (ra : Reg) (rb : Reg) (sc : Scope)
  /-- Foreman release-set of a counter's value. (R354) -/
  | semaSet (rd : Reg) (ra : Reg) (rb : Reg) (sc : Scope)
  /-- A foreman thread issues a word whose op, fn or unused fields name no instruction and takes the illegal-instruction trap, cause 0x01. (R134) -/
  | illegalInstruction (w : Word)
  /-- A waiting WAITA rereads its word after a write performs and returns on equality. (R327) -/
  | waitaWake (t : Nat)
  /-- A waiting WFI returns when a selected condition comes to hold. (R333) -/
  | wfiWake (t : Nat)
  /-- A waiting BARW completes once GEN has changed. (R355) -/
  | barwRelease (t : Nat)
  /-- A waiting SEMA.p takes a value once the counter is above zero, oldest first. (R356) -/
  | semaPGrant (t : Nat)
  /-- A waiting RBACQ takes its blocks once the pool holds enough, oldest first. (R313) -/
  | rbacqGrant (t : Nat)
  /-- A stall-form RBACQ that has waited 2^WIN cycles takes the register-block trap. (R521) -/
  | rbacqStallTimeout (t : Nat)
  /-- System code completes a call and the thread resumes after the TRAP. (R332) -/
  | syscallReturn (t : Nat) (g4 : DWord) (g5 : DWord) (g6 : DWord) (g7 : DWord)
  /-- Stopping of a working completes once macros have stopped and accesses performed, so WSTOP, WFI or WQUERY observe it. (R341) -/
  | workingStopComplete (h : Nat)
  /-- RVEND completes after its drain and checkweigher confirmation, flipping kept shadows and freeing checkpoints. (R352) -/
  | rvendComplete (t : Nat)
  /-- An invalidation is acknowledged once copies are removed and every drained access has performed. (R396) -/
  | invrAcknowledge (t : Nat)
  /-- A thread takes a trap from its working between instructions, entering the handler at TRAPVEC. (R330) -/
  | trapTake (t : Nat)
  /-- The next phase of the budget starts in the chosen context once no WLOAD of it is in progress. (R338) -/
  | phaseStart (h : Nat)
  /-- The phase ends when the last sink pops its barrier, carrying p6 and p7 to the thread. (R375) -/
  | phaseEnd (h : Nat)
  /-- An issued memory access performs at its location. (R242) -/
  | accessPerform (e : Nat) (seq : Nat)
  /-- A waiting reply token leaves the element when its destination has room. (R211) -/
  | pendingReplyLeave (e : Nat) (seq : Nat)
  /-- A parked LD or ST leaves the wave buffer and issues once its link to the last access holds. (R223) -/
  | waveEnterOrder (e : Nat) (seq : Nat)
  /-- An armed watch sees its word equal the value and delivers its reply as an acquire. (R219) -/
  | swatchTrigger (e : Nat) (seq : Nat)
  /-- An error or replay counting window ends and a count below threshold returns to zero. (R442) -/
  | errorWindowExpire (src : ErrSource)
  /-- A stamp unit performs atomics or merged reductions at a location's home. (R229) -/
  | stampAtomicPerform (e : Nat) (seq : Nat) (lane : Nat)
  /-- A tram unit completes one hop of a chase. (R232) -/
  | tramChaseHop (e : Nat)
  /-- A tram unit completes and delivers one whole walk. (R234) -/
  | tramWalkDeliver (e : Nat)
  /-- One lane of a GATHR or SCATR macro completes. (R225) -/
  | gatherScatterLane (e : Nat)
  /-- One row of an operand-slot fill completes. (R271) -/
  | tloadRowFill (e : Nat)
  /-- The MAC array takes a step granted by ISLTAB, adding k-blocks of a TMUL. (R284) -/
  | islandStep (isl : Nat)
  /-- One row of a TOUT is converted and written. (R275) -/
  | toutRowWrite (e : Nat)
  /-- An idle hoist accepts a command, fixing its bases and sides, or refuses it. (R291) -/
  | hoistAccept (req : Requester)
  /-- A hoist completes one unit of a copy. (R294) -/
  | hoistUnit (d : Nat) (n : Nat)
  /-- A hoist in sluice mode decodes one block into an operand slot. (R289) -/
  | sluiceBlock (d : Nat) (n : Nat)
  /-- A stream moves one record once posted and consumed allow it. (R300) -/
  | streamRecordMove (d : Nat) (n : Nat)
  /-- A hoist writes its completion word as a release after every payload write and becomes idle. (R295) -/
  | hoistCompletionWord (d : Nat) (n : Nat)
  /-- Once every party has finished, each party flips its destination entry and writes its completion word. (R304) -/
  | collectiveComplete (h : Nat) (ident : Nat) (peers : List Nat) (far : FarParties)
  /-- A party receiving an ABORT flit stops its command and freezes with cause 0x53. (R517) -/
  | collectiveAbortReceive (f : AbortFlit)
  /-- A peer request arrives at its home and is performed or answered from the replay filter. (R307) -/
  | peerRequestArrival (f : PeerRequest)
  /-- A page-table walk completes, installing a leaf or refusing the translation. (R386) -/
  | translationWalk (e : Nat) (seq : Nat)
  /-- An uncorrected error is consumed and the containment ladder starts. (R434) -/
  | errorConsumed (c : Consumer) (it : BadItem)
  /-- The consuming element obtains its bad operands again and makes the firing, or replay fails. (R435) -/
  | elementReplay (e : Nat) (good : Bool)
  /-- The row's spare takes over an element's configuration and state. (R460) -/
  | spareSubstitution (e : Nat)
  /-- A recovery region is rolled back to its checkpoint and the thread resumes at its restart address. (R440) -/
  | regionRollback (h : Nat) (shadow : List (Nat × Byte))
  /-- A trapping fault freezes the working, letting other elements fire for 16 cycles. (R432) -/
  | workingFreeze (h : Nat)
  /-- A working is stopped at once, its resources released and its end reported. (R438) -/
  | workingKill (h : Nat)
  /-- A working ending normally waits for its accesses and commands, then releases its resources and reports. (R374) -/
  | workingEnd (h : Nat)
  /-- The checkweigher completes its recomputation of a watched firing and confirms or mismatches it. (R456) -/
  | checkweigherConfirm (d : Nat) (row : Nat) (v : Verdict)
  /-- A watch interval expires and the spare chooses and copies the next element. (R455) -/
  | checkweigherWatchEnd (d : Nat) (row : Nat)
  /-- The canary's IDLE reaches its window and the working freezes with cause 0x71. (R464) -/
  | canaryStall (h : Nat)
  /-- Every 1,024 cycles a quad votes one sync counter and corrects a disagreeing copy. (R467) -/
  | counterSweep (d : Nat) (q : Nat)
  /-- A memory controller scrubs a location, correcting or recording errors. (R489) -/
  | scrub (addr : Nat) (fix : Bool)
  /-- The host writes an endpoint's doorbell with the count of records written. (R404) -/
  | doorbellWrite (ep : Nat) (value : DWord)
  /-- The banksman fetches and translates one command record, refusing malformed ones. (R359) -/
  | recordFetch (ep : Nat)
  /-- A launch command record enters its endpoint's queue to bid for admission. (R358) -/
  | launch (ep : Nat)
  /-- A pre-empt command saves a working to a save image and frees its resources. (R377) -/
  | preempt (ep : Nat)
  /-- A restore command bids to place a saved working back from its image. (R381) -/
  | restore (ep : Nat)
  /-- A kill command ends a live or saved working. (R361) -/
  | kill (ep : Nat)
  /-- A message command is delivered through the working's handler table. (R382) -/
  | message (ep : Nat)
  /-- A query command writes the working's state into a result. (R361) -/
  | query (ep : Nat)
  /-- The arbiter admits at most one bid by rank and places it, counting bypasses. (R363) -/
  | admissionRound
  /-- The loader checks and writes an image and commits its contexts in one step, or refuses or aborts it. (R369) -/
  | loadImage (job : Nat) (check : LoadCheck)
  /-- The allocator moves a movable working to new claims on its die. (R368) -/
  | move (h : Nat) (row : Nat) (col : Nat)
  /-- The host reads registered memory over RoCE v2. (R403) -/
  | rdmaRead (packet : RdmaPacket) (region : Nat) (va : Nat) (len : Nat)
  /-- The host writes registered memory over RoCE v2. (R403) -/
  | rdmaWrite (packet : RdmaPacket) (region : Nat) (va : Nat) (data : List Byte)
  /-- A priority flow control frame is received on the host port. (R402) -/
  | priorityFlowControl (enable : BitVec 8) (pause : BitVec 8)
  /-- A PTP Sync message sets or disciplines the port's time. (R405) -/
  | ptpSync (receipt : BitVec 62)
  /-- A flit failing its CRC on a crosscut or haulage link is sent again. (R504) -/
  | linkFlitReplay (lane : LinkLane)
  /-- A lane failing retraining is dropped and the link narrows. (R504) -/
  | linkLaneRetrain (link : Link)
  /-- A link that cannot deliver reroutes its traffic, or kills the workings using it; the flits at these places of those sent were not confirmed.
  (R505, R506) -/
  | linkFailure (link : Link) (unconfirmed : List Nat)
  /-- A periodic sample reads temperatures and raises hot or cool alerts. (R420) -/
  | thermalSample (d : Nat) (temps : List Nat) (osc : List Nat)
  /-- The supply of a quad, numbered over all dies, takes a value; below the droop level its clock period doubles. (R416) -/
  | droopTrip (quad : Nat) (supply : Nat)
  /-- After 64 cycles above the level the normal clock period returns. (R416) -/
  | droopRelease (d : Nat) (q : Nat)
  /-- A read of ALERT returns and removes the oldest pending alert. (R421) -/
  | alert (d : Nat)
  /-- A write of THROTTLE sets a quad's throttling step from the next window. (R419) -/
  | throttle (d : Nat) (q : Nat) (value : DWord)
  /-- A write of QCLK requests a quad clock, clamped by FMAX. (R415) -/
  | qclk (d : Nat) (q : Nat) (value : DWord)
  /-- A write of ERRRING sets the error ring and resets HEAD and TAIL. (R429) -/
  | errring (d : Nat) (value : DWord)
  /-- A write of ERRPTR advances HEAD when it stays within the ring. (R429) -/
  | errptr (d : Nat) (value : DWord)
  /-- A write of WKILL with GO starts a kill of a handle. (R500) -/
  | wkill (d : Nat) (value : DWord)
  /-- A kill started by WKILL completes and GO clears. (R500) -/
  | wkillComplete (d : Nat)
  /-- A write of MACEDIT edits a stopped macro's scale, mode or PRG. (R482) -/
  | macedit (t : Nat) (value : DWord)
  /-- A write of 1 to POISREC.VALID clears the poison record. (R465) -/
  | poisrec (t : Nat) (value : DWord)
  /-- A read of an RC field returns its value and clears it. (R10) -/
  | readClear (t : Nat) (num : Nat) (index : Nat)
  /-- A write to any other system register by its access codes. (R9) -/
  | registerWrite (t : Nat) (num : Nat) (index : Nat) (value : DWord)
  /-- Cold reset loads fuses and reset values and starts the boot ROMs. (R11) -/
  | coldReset
  /-- The ROMs check a boot slot, extend measurements and start firmware or fall back. (R524) -/
  | bootImageCheck
  /-- In recovery mode a vendor MCTP message writes a 4 KiB block of boot flash. (R526) -/
  | flashWrite (off : Nat) (data : List Byte)
  /-- A vendor MCTP message reads a system register of a die. (R411) -/
  | mctpRegisterRead (d : Nat) (num : Nat) (index : Nat)
  /-- SPDM request for supported versions. (R410) -/
  | getVersion
  /-- SPDM request for capabilities. (R410) -/
  | getCapabilities
  /-- SPDM negotiation of RSASSA-PSS 3072 and SHA-384. (R410) -/
  | negotiateAlgorithms (rsaPss3072 : Bool) (sha384 : Bool)
  /-- SPDM request for certificate digests. (R410) -/
  | getDigests
  /-- SPDM request for a certificate chain. (R410) -/
  | getCertificate (off : Nat) (len : Nat)
  /-- SPDM challenge of the device key. (R410) -/
  | challenge (nonce : List Byte)
  /-- SPDM request for measurement blocks. (R410) -/
  | getMeasurements (block : Nat) (nonce : List Byte)
  /-- TAP BYPASS instruction. (R411) -/
  | bypass
  /-- TAP IDCODE instruction returning 0x1004_85E7. (R411) -/
  | idcode
  /-- TAP SAMPLE/PRELOAD instruction. (R411) -/
  | samplePreload (cells : List Bool)
  /-- TAP EXTEST instruction. (R411) -/
  | extest
  /-- Assertion of the TAP reset input. (R411) -/
  | trst
  /-- A token sent on a neighbour link, drift route or island port reaches the receiver's inbound queue some cycles after its send. (R76) -/
  | tokenArrival (e : Nat) (path : Nat)
  /-- A credit given back by a pop at the receiver reaches the sender and raises its credit for that link or route. (R76) -/
  | creditReturn (e : Nat) (path : Nat)
  /-- A banksman endpoint's reliable-connected queue pair is set up, with its record count and fetch head starting at 0. (R404) -/
  | queuePairSetup (ep : Nat)
  /-- A reply to a peer request returns to its source, freeing one of its 128 outstanding requests; a duplicate reply is discarded. (R307) -/
  | peerReplyArrival (f : PeerReply)
  /-- A PTP Follow_Up message carrying the precise Sync timestamp of the two-step clock is received on the host port. (R405) -/
  | ptpFollowUp (origin : BitVec 62) (stepped : Bool) (locked : Bool)
  /-- A PTP Delay_Resp message of the end-to-end delay mechanism is received, giving the path delay to the servo. (R405) -/
  | ptpDelayResp (delay : BitVec 62) (locked : Bool)
  /-- A RoCE v2 congestion notification answering ECN marks is received on an endpoint's queue pair. (R403) -/
  | congestionNotification (ep : Nat)
deriving DecidableEq, Repr

end Sys2Proof
end

