-- ==== Sys2Proof/Machine/Compute.lean ====
section
/-! DEFINITION. What the computing element instructions give for their operands (05_element_compute, R12, R13, R476), and the pure parts of
the token-flow instructions (06_element_flow): functions of operands alone, with no machine state. Each gives a payload, a
valid mask and whether the result is exceptional; its poison bit is formed by R75 where it is written. -/

namespace Sys2Proof.Machine

open Sys2Proof

/-! ### Types (R81, R115) -/

/-- w(ty): the element width. -/
def Ty.width : Ty → Nat
  | .s16x2 => 16 | .n16x2 => 16 | .bf16x2 => 16 | .f16x2 => 16
  | .s8x4 => 8 | .n8x4 => 8 | .e4m3x4 => 8 | .e5m2x4 => 8
  | _ => 32

/-- n(ty): elements in a lane. -/
def Ty.count (t : Ty) : Nat := 32 / Ty.width t

/-- True for the signed integer types. -/
def Ty.signed : Ty → Bool
  | .s32 => true | .s16x2 => true | .s8x4 => true | _ => false

/-- The floating-point format of a type. -/
def Ty.fmt : Ty → Option Fmt
  | .f32 => some .f32 | .bf16x2 => some .bf16 | .f16x2 => some .f16 | .e4m3x4 => some .e4m3 | .e5m2x4 => some .e5m2
  | _ => none

/-- The format of a floating-point type; f32 for any other. -/
def Ty.format (t : Ty) : Fmt := (Ty.fmt t).getD .f32

/-! ### Elements of lanes -/

/-- bits(x, l, e, ty): element e of lane l, of width n. -/
def elemAt (n : Nat) (v : VReg) (l e : Nat) : Nat := (v.p.get l).toNat / 2 ^ (n * e) % 2 ^ n

/-- The lane of k elements of width n given by f. -/
def packElems (n : Nat) (f : Nat → Nat) : Nat → Nat
  | 0 => 0
  | k + 1 => packElems n f k + f k % 2 ^ n * 2 ^ (n * k)

/-- A result: payload and mask, and whether it is exceptional. -/
abbrev Result := VReg × Bool

/-- Some element below k satisfies p. -/
def anyBelow (p : Nat → Bool) : Nat → Bool
  | 0 => false
  | k + 1 => anyBelow p k || p k

/-- R151: each lane valid in m computed element by element with f, which gives a bit pattern and whether it is
exceptional; every other lane zero and invalid (R147). -/
def ewise (t : Ty) (m : BitVec 8) (f : Nat → Nat → Nat × Bool) : Result :=
  (⟨Lanes.ofFn (fun l => if mbit m l
      then BitVec.ofNat 32 (packElems (Ty.width t) (fun e => (f l e).1) (Ty.count t)) else 0), m, false⟩,
   anyBelow (fun l => mbit m l && anyBelow (fun e => (f l e).2) (Ty.count t)) 8)

/-- iv: an element read in its type. -/
def iv (t : Ty) (v : VReg) (l e : Nat) : Int := intOf (Ty.width t) (Ty.signed t) (elemAt (Ty.width t) v l e)

/-- One integer operand, one exact value (R152, R153). -/
def intOp1 (t : Ty) (sat : Bool) (g : Int → Int) (a : VReg) : Result :=
  ewise t a.m (fun l e => (finInt (Ty.width t) (Ty.signed t) sat (g (iv t a l e)), false))

/-- Two integer operands (R152, R153). -/
def intOp2 (t : Ty) (sat : Bool) (g : Int → Int → Int) (a b : VReg) : Result :=
  ewise t (a.m &&& b.m) (fun l e => (finInt (Ty.width t) (Ty.signed t) sat (g (iv t a l e) (iv t b l e)), false))

/-- Three integer operands (R152, R153). -/
def intOp3 (t : Ty) (sat : Bool) (g : Int → Int → Int → Int) (a b c : VReg) : Result :=
  ewise t (a.m &&& b.m &&& c.m)
    (fun l e => (finInt (Ty.width t) (Ty.signed t) sat (g (iv t a l e) (iv t b l e) (iv t c l e)), false))

/-- Bits of one operand. -/
def bitOp1 (t : Ty) (g : Nat → Nat) (a : VReg) : Result :=
  ewise t a.m (fun l e => (g (elemAt (Ty.width t) a l e), false))

/-- Bits of two operands. -/
def bitOp2 (t : Ty) (g : Nat → Nat → Nat) (a b : VReg) : Result :=
  ewise t (a.m &&& b.m) (fun l e => (g (elemAt (Ty.width t) a l e) (elemAt (Ty.width t) b l e), false))

/-- Raw lanes of two operands (the logic instructions, type b32). -/
def wordOp2 (g : Word → Word → Word) (a b : VReg) : Result :=
  let m := a.m &&& b.m
  (⟨Lanes.ofFn (fun l => if mbit m l then g (a.p.get l) (b.p.get l) else 0), m, false⟩, false)

/-- All ones or zero (R155). -/
def flagBits (n : Nat) (b : Bool) : Nat := if b then 2 ^ n - 1 else 0

/-! ### Integer values (R152 to R155) -/

/-- MULH. -/
def mulhInt (n : Nat) (a b : Int) : Int := a * b / ((2 ^ n : Nat) : Int)

/-- SHL with an amount read unsigned; exact, so that saturation applies to it (R154). -/
def shlBits (n : Nat) (signed sat : Bool) (a s : Nat) : Nat :=
  if sat && n ≤ s then finInt n signed true (intOf n signed a * (2 ^ n : Nat))
  else if n ≤ s then 0
  else finInt n signed sat (intOf n signed a * ((2 ^ s : Nat) : Int))

/-- SHR (R154). -/
def shrBits (n a s : Nat) : Nat := if n ≤ s then 0 else a / 2 ^ s

/-- SHA: A is read as signed whatever its type (R152, R154). -/
def shaBits (n a s : Nat) : Nat := wrapN n (sextInt n a / ((2 ^ min s n : Nat) : Int))

/-- ROL (R152). -/
def rolBits (n a s : Nat) : Nat := let r := s % n; a * 2 ^ r % 2 ^ n + a / 2 ^ (n - r)

/-- CLZ (R152). -/
def clzBits (n a : Nat) : Nat := if a = 0 then n else n - 1 - flog2 a

/-- SEL (R152). -/
def selWord (a b c : Word) : Word := (a &&& c) ||| (b &&& ~~~c)

/-- SEL over three operands. -/
def selOp (a b c : VReg) : Result :=
  let m := a.m &&& b.m &&& c.m
  (⟨Lanes.ofFn (fun l => if mbit m l then selWord (a.p.get l) (b.p.get l) (c.p.get l) else 0), m, false⟩, false)

/-! ### Floating point (R156 to R161) -/

/-- One operand's encodings. -/
def fpOp1 (t : Ty) (g : Fmt → Nat → Nat) (a : VReg) : Result :=
  ewise t a.m (fun l e => (g (Ty.format t) (elemAt (Ty.width t) a l e), false))

/-- Two operands' encodings, with the exceptional mark. -/
def fpOp2 (t : Ty) (g : Fmt → Nat → Nat → Nat × Bool) (a b : VReg) : Result :=
  ewise t (a.m &&& b.m) (fun l e => g (Ty.format t) (elemAt (Ty.width t) a l e) (elemAt (Ty.width t) b l e))

/-- Three operands' encodings. -/
def fpOp3 (t : Ty) (g : Fmt → Nat → Nat → Nat → Nat × Bool) (a b c : VReg) : Result :=
  ewise t (a.m &&& b.m &&& c.m) (fun l e =>
    g (Ty.format t) (elemAt (Ty.width t) a l e) (elemAt (Ty.width t) b l e) (elemAt (Ty.width t) c l e))

/-- A compare of values (R161). -/
def fpCmp (t : Ty) (g : FVal → FVal → Bool) (a b : VReg) : Result :=
  fpOp2 t (fun f x y => (flagBits (Ty.width t) (g (fdec f x) (fdec f y)), false)) a b

/-- An approximation function on f32 (R166). -/
def fpApprox (g : Nat → Nat × Bool) (a : VReg) : Result := ewise .f32 a.m (fun l _ => g (a.p.get l).toNat)

/-! ### Conversions (R162 to R165) -/

/-- conv: the bits of element value v of type src in type ty, and whether it is exceptional (R164). -/
def convElem (ty src : Ty) (mode : RMode) (b : Nat) : Nat × Bool :=
  match Ty.fmt src, Ty.fmt ty with
  | some f, some g => (fround g mode (fdec f b), false)
  | none, some g => (fround g mode (FVal.ofInt (intOf (Ty.width src) (Ty.signed src) b)), false)
  | some f, none => (ftoInt (Ty.width ty) (Ty.signed ty) mode (fdec f b), (fdec f b).isNan)
  | none, none => (finInt (Ty.width ty) (Ty.signed ty) true (intOf (Ty.width src) (Ty.signed src) b), false)

/-- The valid mask of part h (R163). -/
def cvtMask (ty src : Ty) (a : VReg) (h : Nat) : BitVec 8 :=
  let nr := Ty.count ty
  let ns := Ty.count src
  maskOf (fun l => anyBelow (fun e =>
    let j := 8 * nr * h + nr * l + e
    decide (j < 8 * ns) && mbit a.m (j / ns)) nr)

/-- The generator's state after k steps. -/
def genAfter (g : Word) : Nat → Word
  | 0 => g
  | k + 1 => genAfter (randStep g) k

/-- The draws that a part takes: nr for each valid lane (R165). -/
def cvtDraws (ty : Ty) (m : BitVec 8) : Nat := popc 8 m.toNat * Ty.count ty

/-- Part h of a conversion, whose draws begin after d0 steps of the generator (R163, R165). -/
def cvtPart (ty src : Ty) (mode : Nat → RMode) (a : VReg) (h d0 : Nat) : Result :=
  let m := cvtMask ty src a h
  let nr := Ty.count ty
  let ns := Ty.count src
  ewise ty m (fun l e =>
    let j := 8 * nr * h + nr * l + e
    let k := d0 + popc l m.toNat * nr + e
    if decide (j < 8 * ns) && mbit a.m (j / ns)
    then convElem ty src (mode k) (elemAt (Ty.width src) a (j / ns) (j % ns))
    else convElem ty src (mode k) 0)

/-- The parts of a conversion: 2 where it widens (R163). -/
def cvtParts (ty src : Ty) : Nat := if Ty.count ty < Ty.count src then 2 else 1

/-- A conversion: what D0 and D1 receive, and the number of elements converted (R163). -/
def cvtOp (ty src : Ty) (mode : Nat → RMode) (a : VReg) : Result × Result × Nat :=
  let r0 := cvtPart ty src mode a 0 0
  let d0 := cvtDraws ty (cvtMask ty src a 0)
  if cvtParts ty src = 2
  then (r0, cvtPart ty src mode a 1 d0, d0 + cvtDraws ty (cvtMask ty src a 1))
  else (r0, r0, d0)

/-! ### Lanes (R167 to R170) -/

/-- A lane chosen for each lane of the result; none for an invalid lane. -/
def pickLanes (a : VReg) (j : Nat → Option Nat) : Result :=
  let ok := fun l => match j l with
    | some k => decide (k < 8) && mbit a.m k
    | none => false
  (⟨Lanes.ofFn (fun l => if ok l then a.p.get ((j l).getD 0) else 0), maskOf ok, false⟩, false)

/-- SHUF. -/
def shufOp (a b : VReg) : Result := pickLanes a (fun l => if mbit b.m l then some (b.p.get l).toNat else none)

/-- BCAST. -/
def bcastOp (a b : VReg) : Result := pickLanes a (fun _ => if mbit b.m 0 then some b.p.a0.toNat else none)

/-- LROT. -/
def lrotOp (a b : VReg) : Result :=
  pickLanes a (fun l => if mbit b.m 0 then some ((l + b.p.a0.toNat) % 8) else none)

/-- The valid lanes below k, lowest first. -/
def validLanes (m : BitVec 8) : Nat → List Nat
  | 0 => []
  | k + 1 => validLanes m k ++ (if mbit m k then [k] else [])

/-- A reduction into lane 0 of the elements of the valid lanes (R168). -/
def reduceOp (t : Ty) (g : List Nat → Nat × Bool) (a : VReg) : Result :=
  let ls := validLanes a.m 8
  if ls.isEmpty then (VReg.zero, false)
  else ewise t 1#8 (fun _ e => g (ls.map (fun l => elemAt (Ty.width t) a l e)))

/-- A prefix sum over the valid lanes (R170). -/
def scanOp (t : Ty) (g : List Nat → Nat × Bool) (a : VReg) : Result :=
  ewise t a.m (fun l e => g ((validLanes a.m (l + 1)).map (fun k => elemAt (Ty.width t) a k e)))

/-- LRADD and LPADD. -/
def sumInts (t : Ty) (l : List Nat) : Nat × Bool :=
  (finInt (Ty.width t) (Ty.signed t) false ((l.map (intOf (Ty.width t) (Ty.signed t))).foldr (· + ·) 0), false)

/-- LRFADD and LPFADD: the exact sum, rounded once (R169). -/
def sumFloats (t : Ty) (l : List Nat) : Nat × Bool :=
  let f := Ty.format t
  let vs := l.map (fdec f)
  if sumExc vs then (f.nan, true)
  else if vs.any FVal.isNan then (f.nan, false)
  else (fround f .rne (fsumX vs), false)

/-- A fold of a binary choice over the terms. -/
def foldPick (g : Nat → Nat → Nat) : List Nat → Nat
  | [] => 0
  | [a] => a
  | a :: r => g a (foldPick g r)

/-- FMIN or FMAX of the terms; NaN is the canonical one, also where one term stands alone (R85, R159, R168). -/
def pickFloats (f : Fmt) (g : Fmt → Nat → Nat → Nat) (l : List Nat) : Nat :=
  if l.any (fun a => (fdec f a).isNan) then f.nan else foldPick (g f) l

/-- The lesser or greater integer element as bits. -/
def pickInt (t : Ty) (least : Bool) (a b : Nat) : Nat :=
  let x := intOf (Ty.width t) (Ty.signed t) a
  let y := intOf (Ty.width t) (Ty.signed t) b
  if least then (if y < x then b else a) else (if x < y then b else a)

/-! ### Filtering, masks and packing (R179, R180, R182) -/

/-- FILT (R179). -/
def filtOp (a b : VReg) : Result :=
  let keep := (validLanes a.m 8).filter (fun l => mbit b.m l && b.p.get l != 0)
  (⟨Lanes.ofFn (fun l => match keep[l]? with
      | some k => a.p.get k
      | none => 0), maskOf (fun l => decide (l < keep.length)), false⟩, false)

/-- VMSK.get (R182). -/
def vmskGetOp (a : VReg) : Result := (scalar a.m.toNat, false)

/-- The mask that B gives (R182). -/
def maskOperand (b : VReg) : BitVec 8 := if mbit b.m 0 then BitVec.ofNat 8 b.p.a0.toNat else 0

/-- A's payload under a mask: VMSK.and and VMSK.set (R182). -/
def withMask (a : VReg) (m : BitVec 8) : Result := (⟨cleanLanes (cleanLanes a.p a.m) m, m, false⟩, false)

/-- One lane of PACK's loop (R180): partial register P and head h. -/
def packLane (l : Nat) (s : VReg × VReg × Nat) : VReg × VReg × Nat :=
  let P := s.1
  let h := s.2.1
  let n := s.2.2
  if mbit h.m l && decide (n < 8) then
    (⟨P.p.set n (h.p.get l), P.m ||| BitVec.ofNat 8 (2 ^ n), P.x⟩,
     ⟨h.p.set l 0, h.m &&& ~~~(BitVec.ofNat 8 (2 ^ l)), h.x⟩, n + 1)
  else s

/-- PACK's loop: the partial register, what is left of the head, and the lanes held (R180). -/
def packOp (P h : VReg) : VReg × VReg × Nat :=
  let r := forN packLane 8 0 (P, h, popc 8 P.m.toNat)
  (⟨r.1.p, r.1.m, P.x || h.x⟩, r.2.1, r.2.2)

end Sys2Proof.Machine
end

