-- ==== Sys2Proof/Machine/ElemRules.lean ====
section
/-! DEFINITION. The element opcode map (R116), the codes of the operand forms (R109 to R115), and the rules that an element
instruction word must keep on its own, each with the reason code of R473 and the byte of the word that R472 names. What
depends on the element's position, the constants or the layout table is the loader's (Machine/Loader.lean). -/

namespace Sys2Proof.Machine

open Sys2Proof

/-! ### Codes of the operand forms -/

/-- R115. -/
def tyCode : Ty → Nat
  | .s32 => 0 | .n32 => 1 | .s16x2 => 2 | .n16x2 => 3 | .s8x4 => 4 | .n8x4 => 5 | .f32 => 6 | .bf16x2 => 7
  | .f16x2 => 8 | .e4m3x4 => 9 | .e5m2x4 => 10 | .b32 => 11 | .c12 => 12 | .c13 => 13 | .c14 => 14 | .c15 => 15

/-- R115. -/
def tyOf : Nat → Ty
  | 0 => .s32 | 1 => .n32 | 2 => .s16x2 | 3 => .n16x2 | 4 => .s8x4 | 5 => .n8x4 | 6 => .f32 | 7 => .bf16x2
  | 8 => .f16x2 | 9 => .e4m3x4 | 10 => .e5m2x4 | 11 => .b32 | 12 => .c12 | 13 => .c13 | 14 => .c14 | _ => .c15

/-- R112. -/
def srcCode : Src → Nat
  | .v n => n | .q n => 16 + n | .k n => 22 + n | .zero => 26 | .lane => 27 | .eid => 28 | .ch0 => 29 | .ch1 => 30
  | .prg => 31

/-- R112. -/
def srcOf (c : Nat) : Src :=
  if c < 16 then .v (Fin.ofNat 16 c) else if c < 22 then .q (Fin.ofNat 6 (c - 16))
  else if c < 26 then .k (Fin.ofNat 4 (c - 22))
  else if c = 26 then .zero else if c = 27 then .lane else if c = 28 then .eid else if c = 29 then .ch0
  else if c = 30 then .ch1 else .prg

/-- The queue field of R109: 0 to 5, or 7 for none. -/
def queueCode : Option (Fin 6) → Nat
  | some n => n | none => 7

/-- R109; 6 is refused before this reads it. -/
def queueOf (c : Nat) : Option (Fin 6) := if c < 6 then some (Fin.ofNat 6 c) else none

/-- R62. -/
def testCode : TagTest → Nat
  | .any => 0 | .eq => 1 | .ne => 2 | .last => 3

/-- R62. -/
def testOf : Nat → TagTest
  | 0 => .any | 1 => .eq | 2 => .ne | _ => .last

/-- The route code of a neighbour link (R113). -/
def dirCode : Dir → Nat
  | .n => 1 | .e => 2 | .s => 3 | .w => 4

/-- A consumer slot's 10 bits (R113). -/
def destCode : Dest → Nat
  | .reg n => 8 * n
  | .link d tp lp => 128 * dirCode d + 4 * b2n tp + 2 * b2n lp
  | .route n tp lp => 640 + 8 * n + 4 * b2n tp + 2 * b2n lp
  | .pred n => 768 + 8 * n
  | .report => 768 + 8 * 8
  | .discard => 768 + 8 * 9
  | .port j tp lp => 768 + 8 * (10 + j) + 4 * b2n tp + 2 * b2n lp
  | .none => 896

/-- The consumer slot that 10 legal bits stand for (R113). -/
def destOf (c : Nat) : Dest :=
  let ix := bits c 6 3
  let tp := bit c 2
  let lp := bit c 1
  match bits c 9 7 with
  | 0 => .reg (Fin.ofNat 16 ix)
  | 1 => .link .n tp lp
  | 2 => .link .e tp lp
  | 3 => .link .s tp lp
  | 4 => .link .w tp lp
  | 5 => .route (Fin.ofNat 16 ix) tp lp
  | 6 => if ix < 8 then .pred (Fin.ofNat 8 ix) else if ix = 8 then .report else if ix = 9 then .discard
         else .port (Fin.ofNat 4 (ix - 10)) tp lp
  | _ => .none

/-- The conditions of R113 on a consumer slot's bits. -/
def destLegal (c : Nat) : Bool :=
  let r := bits c 9 7
  let ix := bits c 6 3
  let port := r == 6 && 10 ≤ ix
  !bit c 0 && (!(r == 7 || (1 ≤ r && r ≤ 4)) || ix == 0) && (!(r == 6) || ix ≤ 13) &&
  ((!bit c 2 && !bit c 1) || (1 ≤ r && r ≤ 5) || port)

/-! ### The fields of a word -/

/-- The fields of R109 and R111 as numbers. -/
structure RawWord where
  v : Nat
  x : Nat
  pm : Nat
  pv : Nat
  qa : Nat
  ta : Nat
  qb : Nat
  tb : Nat
  tv : Nat
  op : Nat
  ty : Nat
  sa : Nat
  sb : Nat
  d0 : Nat
  d1 : Nat
  pa : Nat
  pb : Nat
  ot : Nat
  ps : Nat
  pc : Nat
deriving DecidableEq, Repr

/-- The fields of a 96-bit word (R108, R109, R111). -/
def rawOf (w : Nat) : RawWord :=
  { v := bits w 95 95, x := bits w 94 94, pm := bits w 93 86, pv := bits w 85 78, qa := bits w 77 75,
    ta := bits w 74 73, qb := bits w 72 70, tb := bits w 69 68, tv := bits w 67 64, op := bits w 63 56,
    ty := bits w 55 52, sa := bits w 51 47, sb := bits w 46 42, d0 := bits w 41 32, d1 := bits w 31 22,
    pa := bits w 21 21, pb := bits w 20 20, ot := bits w 19 16, ps := bits w 15 8, pc := bits w 7 0 }

/-- The 96-bit word of its fields (R108, R109, R111). -/
def RawWord.pack (r : RawWord) : Nat :=
  r.v * 2 ^ 95 + r.x * 2 ^ 94 + r.pm * 2 ^ 86 + r.pv * 2 ^ 78 + r.qa * 2 ^ 75 + r.ta * 2 ^ 73 + r.qb * 2 ^ 70 +
  r.tb * 2 ^ 68 + r.tv * 2 ^ 64 + r.op * 2 ^ 56 + r.ty * 2 ^ 52 + r.sa * 2 ^ 47 + r.sb * 2 ^ 42 + r.d0 * 2 ^ 32 +
  r.d1 * 2 ^ 22 + r.pa * 2 ^ 21 + r.pb * 2 ^ 20 + r.ot * 2 ^ 16 + r.ps * 2 ^ 8 + r.pc

/-- The fields of an instruction of opcode op. -/
def rawOfWord (op : Nat) (w : EWord) : RawWord :=
  { v := 1, x := b2n w.x, pm := w.pm.toNat, pv := w.pv.toNat, qa := queueCode w.qa, ta := testCode w.ta,
    qb := queueCode w.qb, tb := testCode w.tb, tv := w.tv.toNat, op := op, ty := tyCode w.ty, sa := srcCode w.sa,
    sb := srcCode w.sb, d0 := destCode w.d0, d1 := destCode w.d1, pa := b2n w.pa, pb := b2n w.pb, ot := w.ot.toNat,
    ps := w.ps.toNat, pc := w.pc.toNat }

/-- The operand form of legal fields. -/
def RawWord.word (r : RawWord) : EWord :=
  { x := r.x == 1, pm := BitVec.ofNat 8 r.pm, pv := BitVec.ofNat 8 r.pv, qa := queueOf r.qa, ta := testOf r.ta,
    qb := queueOf r.qb, tb := testOf r.tb, tv := BitVec.ofNat 4 r.tv, ty := tyOf r.ty, sa := srcOf r.sa,
    sb := srcOf r.sb, d0 := destOf r.d0, d1 := destOf r.d1, pa := r.pa == 1, pb := r.pb == 1,
    ot := BitVec.ofNat 4 r.ot, ps := BitVec.ofNat 8 r.ps, pc := BitVec.ofNat 8 r.pc }

/-! ### Rules of one word -/

/-- What a source field may hold (R119, R172, R217, R262). -/
inductive SrcRule
  | any | unread | headA | headB | reg | const | constOrZero | pred | arm | typeCode
deriving DecidableEq, Repr

/-- What a consumer slot may hold, beyond R113 (R117, R119, R172, R210, R263). -/
inductive DestRule
  | any | unwritten | register | delayed | ownPort | noTag | noLast
deriving DecidableEq, Repr

/-- What the pop bits may hold, beyond R63 (R172). -/
inductive PopRule
  | any | some | first | both | named | none
deriving DecidableEq, Repr

/-- The rules of one opcode and type code. -/
structure ERule where
  sa : SrcRule := .any
  sb : SrcRule := .any
  d0 : DestRule := .any
  d1 : DestRule := .any
  pops : PopRule := .any
  /-- OT must be 0 -/
  ot0 : Bool := false
deriving DecidableEq, Repr

/-- The type codes that an opcode allows (R115, R152, R156, R162, R166 to R170, R172, R217, R262). -/
def tyAllowed (op t : Nat) : Bool :=
  if op ≤ 0x08 then t ≤ 5
  else if op = 0x09 || op = 0x0A || op = 0x0C || op = 0x0D || op = 0x0E then t ≤ 5 || t == 11
  else if op = 0x0B then t ≤ 5
  else if op ≤ 0x15 then t == 11
  else if op ≤ 0x19 then t ≤ 5 || t == 11
  else if op ≤ 0x29 then t ≤ 5
  else if op ≤ 0x43 then 6 ≤ t && t ≤ 8
  else if op ≤ 0x4B then 6 ≤ t && t ≤ 10
  else if op ≤ 0x52 then t ≤ 10
  else if op ≤ 0x5B then t == 6
  else if op ≤ 0x72 then t == 0
  else if op ≤ 0x7A then t ≤ 5
  else if op = 0x7B then 6 ≤ t && t ≤ 8
  else if op ≤ 0x7D then 6 ≤ t && t ≤ 10
  else if op = 0x80 then t ≤ 5
  else if op = 0x81 then 6 ≤ t && t ≤ 8
  else if op = 0x98 || op = 0xA2 then t == 0 || t == 12
  else if op = 0x99 then 12 ≤ t && t ≤ 14
  else if op = 0xA4 || op = 0xA5 then t == 12 || t == 13
  else if op = 0xA6 || op = 0xA7 || op = 0xE2 then 12 ≤ t
  else if op ≤ 0xA9 then t == 0
  else if op ≤ 0xC9 then 12 ≤ t
  else if op = 0xCA then 12 ≤ t && t ≤ 14
  else if op = 0xCB then t == 0
  else if op = 0xD0 || op = 0xD1 then t == 12 || t == 13
  else if op ≤ 0xD4 then 12 ≤ t
  else t == 0

/-- The opcodes that read a third operand from the register of D0 (R117). -/
def readsC (op : Nat) : Bool := op == 0x04 || op == 0x24 || op == 0x15 || op == 0x43

/-- The opcodes of the arithmetic chapter that read A only (R152, R156, R166, R168, R170). -/
def unaryOp (op : Nat) : Bool :=
  [0x05, 0x06, 0x0D, 0x0E, 0x13, 0x25, 0x26, 0x46, 0x47, 0x58, 0x59, 0x5A, 0x5B, 0x78, 0x79, 0x7A, 0x7B, 0x7C, 0x7D,
   0x80, 0x81].contains op

/-- The operand rules of an opcode (R117 to R119, R146, R172, R217, R262, R263). -/
def eRule (op t : Nat) : ERule :=
  match op with
  | 0x50 | 0x51 | 0x52 => { sb := .typeCode }
  | 0x90 => { sb := .unread }
  | 0x91 => { sa := .headA, sb := .unread, d0 := .noTag, d1 := .noTag, ot0 := true }
  | 0x92 => { sa := .unread, sb := .unread, d0 := .unwritten, d1 := .unwritten, pops := .some }
  | 0x93 => {}
  | 0x94 => { sa := .arm, sb := .arm, d0 := .noTag, d1 := .noTag, pops := .first, ot0 := true }
  | 0x95 => { sa := .headA, sb := .headB, d0 := .noTag, d1 := .noTag, pops := .both, ot0 := true }
  | 0x96 => {}
  | 0x97 => { sa := .headA, sb := .reg, d0 := .noLast, d1 := .noLast, pops := .first }
  | 0x98 => { sa := .headA, sb := if t = 12 then .any else .unread, d0 := .noTag, d1 := .noTag }
  | 0x99 => { sb := if t = 12 then .unread else .any }
  | 0x9A => { sa := .unread, sb := .unread, d0 := .noTag, d1 := .noTag, pops := .named, ot0 := true }
  | 0x9C | 0x9D | 0x9E => { sa := .pred, sb := .pred }
  | 0x9F => { sa := .pred, sb := .unread }
  | 0xA0 => { sb := .reg }
  | 0xA1 => { sa := .headA, sb := .reg }
  | 0xA2 => { sa := .headA, sb := if t = 12 then .unread else .any }
  | 0xA4 | 0xA5 => { sb := .unread, d0 := .unwritten, d1 := .unwritten }
  | 0xA6 => { sa := if 14 ≤ t then .unread else .any, sb := .unread, d0 := .unwritten, d1 := .unwritten }
  | 0xA7 => { sa := .unread, sb := .unread, d0 := .noLast, d1 := .noLast }
  | 0xA8 => { sb := .const, d0 := .unwritten, d1 := .unwritten }
  | 0xA9 => { sa := .unread, sb := .const, d0 := .noLast, d1 := .noLast }
  | 0xB0 | 0xC0 | 0xC2 | 0xC8 | 0xC9 => { sb := .unread, d0 := .delayed, d1 := .delayed }
  | 0xB1 | 0xB2 | 0xC1 | 0xC3 | 0xC4 | 0xC5 | 0xC6 | 0xC7 | 0xCA | 0xCB => { d0 := .delayed, d1 := .delayed }
  | 0xB4 | 0xB5 | 0xB6 => { sb := .unread }
  | 0xD0 | 0xD1 | 0xD3 | 0xD5 => { sb := .unread, d0 := .ownPort, d1 := .delayed }
  | 0xD2 | 0xD4 => { d0 := .ownPort, d1 := .delayed }
  | 0xE0 => { sb := .constOrZero }
  | 0xE1 => { sb := .unread, d0 := .unwritten, d1 := .unwritten }
  | 0xE2 => { sa := .unread, sb := .unread }
  | 0xE3 => { sa := .unread, sb := .unread, d0 := .unwritten, d1 := .unwritten, pops := .none }
  | _ => { sb := if unaryOp op then .unread else .any, d0 := if readsC op then .register else .any }

/-- The opcodes that R116 assigns. -/
def opAssigned (op : Nat) : Bool :=
  [0x00, 0x01, 0x02, 0x03, 0x04, 0x05, 0x06, 0x07, 0x08, 0x09, 0x0A, 0x0B, 0x0C, 0x0D, 0x0E, 0x10, 0x11, 0x12, 0x13, 0x14, 0x15, 0x18, 0x19, 0x1A, 0x1B, 0x20, 0x21, 0x22, 0x24, 0x25, 0x26, 0x29, 0x40, 0x41, 0x42, 0x43, 0x44, 0x45, 0x46, 0x47, 0x48, 0x49, 0x4A, 0x4B, 0x50, 0x51, 0x52, 0x58, 0x59, 0x5A, 0x5B, 0x70, 0x71, 0x72, 0x78, 0x79, 0x7A, 0x7B, 0x7C, 0x7D, 0x80, 0x81, 0x90, 0x91, 0x92, 0x93, 0x94, 0x95, 0x96, 0x97, 0x98, 0x99, 0x9A, 0x9C, 0x9D, 0x9E, 0x9F, 0xA0, 0xA1, 0xA2, 0xA4, 0xA5, 0xA6, 0xA7, 0xA8, 0xA9, 0xB0, 0xB1, 0xB2, 0xB4, 0xB5, 0xB6, 0xC0, 0xC1, 0xC2, 0xC3, 0xC4, 0xC5, 0xC6, 0xC7, 0xC8, 0xC9, 0xCA, 0xCB, 0xD0, 0xD1, 0xD2, 0xD3, 0xD4, 0xD5, 0xE0, 0xE1, 0xE2, 0xE3].contains op

/-- A problem where c holds. -/
def prob (c : Bool) (reason byte : Nat) : List (Nat × Nat) := if c then [(reason, byte)] else []

/-- What a source field breaks: its code, its rule and its byte. -/
def srcProblems (r : RawWord) (c : Nat) (rule : SrcRule) : List (Nat × Nat) :=
  prob (rule == .unread && c != 0) 6 5 ++
  prob (rule == .typeCode && 11 ≤ c) 3 5 ++
  prob (rule != .unread && rule != .typeCode && rule != .pred && rule != .arm && 16 ≤ c && c ≤ 21 && c != 16 + r.qa && c != 16 + r.qb) 7 5 ++
  prob ((rule == .headA && (r.qa == 7 || c != 16 + r.qa)) || (rule == .headB && (r.qb == 7 || c != 16 + r.qb)) ||
    (rule == .reg && 16 ≤ c) || (rule == .const && !(22 ≤ c && c ≤ 25)) ||
    (rule == .constOrZero && !(22 ≤ c && c ≤ 26)) || (rule == .arm && !(16 ≤ c && c ≤ 21))) 15 5 ++
  prob (rule == .pred && 8 ≤ c) 16 5

/-- True when the bits name a link or drift route. -/
def destMoves (c : Nat) : Bool := 1 ≤ bits c 9 7 && bits c 9 7 ≤ 5

/-- True when the bits name an island port. -/
def destPort (c : Nat) : Bool := bits c 9 7 == 6 && 10 ≤ bits c 6 3

/-- What a consumer slot breaks: its code, its rule and its byte. -/
def destProblems (r : RawWord) (c : Nat) (rule : DestRule) (byte : Nat) : List (Nat × Nat) :=
  prob (rule == .unwritten && c != 0x380) 6 byte ++
  prob (!destLegal c) 8 byte ++
  prob ((bit c 2 || bit c 1) && r.qa == 7) 10 byte ++
  prob ((rule == .register && bits c 9 7 != 0) ||
    (rule == .delayed && !(destMoves c || c == 0x380 || c == 0x348)) ||
    (rule == .ownPort && (!destPort c || bit c 2 || bit c 1))) 11 byte ++
  prob (rule != .ownPort && destPort c) 12 byte ++
  prob ((rule == .noTag && (bit c 2 || bit c 1)) || (rule == .noLast && bit c 1)) 15 byte

/-- What the word breaks on its own: reasons of R473 and bytes of R472 (reasons 2, 13 and 14, and the position part of 11
and 12, are the loader's). -/
def RawWord.problems (r : RawWord) : List (Nat × Nat) :=
  let u := eRule r.op r.ty
  prob (!opAssigned r.op) 1 7 ++
  prob (!tyAllowed r.op r.ty) 3 6 ++
  prob (r.qa == 6) 4 9 ++ prob (r.qb == 6) 4 8 ++ prob ((r.pv &&& r.pm) != r.pv) 4 9 ++
  prob (r.qa == 7 && r.ta != 0) 5 9 ++ prob (r.qb == 7 && r.tb != 0) 5 8 ++
  srcProblems r r.sa u.sa ++ srcProblems r r.sb u.sb ++
  prob ((r.pa == 1 && r.qa == 7) || (r.pb == 1 && r.qb == 7)) 7 2 ++
  destProblems r r.d0 u.d0 4 ++ destProblems r r.d1 u.d1 2 ++
  prob (destMoves r.d0 && bits r.d0 9 7 == bits r.d1 9 7 && bits r.d0 6 3 == bits r.d1 6 3) 9 2 ++
  prob ((u.pops == .some && r.pa == 0 && r.pb == 0) || (u.pops == .first && (r.pa == 0 || r.pb == 1)) ||
    (u.pops == .both && (r.pa == 0 || r.pb == 0)) || (u.pops == .none && (r.pa == 1 || r.pb == 1)) ||
    (u.pops == .named && (r.pa == 0 || (r.pb == 1) != (r.qb != 7)))) 15 2 ++
  prob (u.ot0 && r.ot != 0) 15 2 ++
  prob (r.op == 0x95 && r.qb == r.qa) 15 8 ++
  prob (r.op == 0x94 && r.qa == 7) 15 9 ++ prob (r.op == 0x94 && r.qb != 7) 15 8 ++
  prob (r.op == 0x94 && (r.sa == r.sb || r.sa == 16 + r.qa || r.sb == 16 + r.qa)) 15 5 ++
  prob (r.op == 0x9A && (r.qa == 7 || r.ta != 0)) 15 9 ++ prob (r.op == 0x9A && r.tb != 0) 15 8 ++
  prob ((r.op == 0x97 || r.op == 0xA0 || r.op == 0xA1) && (r.d0 == 8 * r.sb || r.d1 == 8 * r.sb)) 15 2

/-- The lowest reason of a list of problems and the lowest byte with that reason (R473, R472); (0, 0) for none. -/
def lowestProblem (l : List (Nat × Nat)) : Nat × Nat :=
  let r := l.foldl (fun m p => if m = 0 || p.1 < m then p.1 else m) 0
  (r, (l.filter (fun p => p.1 == r)).foldl (fun m p => if p.2 < m then p.2 else m) 12 % 12)

/-- The constructor of an opcode and a type code; none for a reserved opcode or a code that selects no form (R116, R172). -/
def elemOf (op : Nat) (w : EWord) : Option Instr :=
  match op with
  | 0x00 => some (.add w)
  | 0x01 => some (.sub w)
  | 0x02 => some (.mul w)
  | 0x03 => some (.mulh w)
  | 0x04 => some (.mad w)
  | 0x05 => some (.neg w)
  | 0x06 => some (.abs w)
  | 0x07 => some (.min w)
  | 0x08 => some (.max w)
  | 0x09 => some (.shl w)
  | 0x0A => some (.shr w)
  | 0x0B => some (.sha w)
  | 0x0C => some (.rol w)
  | 0x0D => some (.clz w)
  | 0x0E => some (.popc w)
  | 0x10 => some (.and w)
  | 0x11 => some (.or w)
  | 0x12 => some (.xor w)
  | 0x13 => some (.not w)
  | 0x14 => some (.andn w)
  | 0x15 => some (.sel w)
  | 0x18 => some (.cmpeq w)
  | 0x19 => some (.cmpne w)
  | 0x1A => some (.cmplt w)
  | 0x1B => some (.cmple w)
  | 0x20 => some (.addSat w)
  | 0x21 => some (.subSat w)
  | 0x22 => some (.mulSat w)
  | 0x24 => some (.madSat w)
  | 0x25 => some (.negSat w)
  | 0x26 => some (.absSat w)
  | 0x29 => some (.shlSat w)
  | 0x40 => some (.fadd w)
  | 0x41 => some (.fsub w)
  | 0x42 => some (.fmul w)
  | 0x43 => some (.ffma w)
  | 0x44 => some (.fmin w)
  | 0x45 => some (.fmax w)
  | 0x46 => some (.fabs w)
  | 0x47 => some (.fneg w)
  | 0x48 => some (.fcmpeq w)
  | 0x49 => some (.fcmplt w)
  | 0x4A => some (.fcmple w)
  | 0x4B => some (.fcmpun w)
  | 0x50 => some (.cvt w)
  | 0x51 => some (.cvtRz w)
  | 0x52 => some (.cvtRs w)
  | 0x58 => some (.rcp w)
  | 0x59 => some (.rsq w)
  | 0x5A => some (.exp2 w)
  | 0x5B => some (.log2 w)
  | 0x70 => some (.shuf w)
  | 0x71 => some (.bcast w)
  | 0x72 => some (.lrot w)
  | 0x78 => some (.lradd w)
  | 0x79 => some (.lrmin w)
  | 0x7A => some (.lrmax w)
  | 0x7B => some (.lrfadd w)
  | 0x7C => some (.lrfmin w)
  | 0x7D => some (.lrfmax w)
  | 0x80 => some (.lpadd w)
  | 0x81 => some (.lpfadd w)
  | 0x90 => some (.mov w)
  | 0x91 => some (.pass w)
  | 0x92 => some (.drop w)
  | 0x93 => some (.steer w)
  | 0x94 => some (.mergeOrd w)
  | 0x95 => some (.mergeAny w)
  | 0x96 => some (.filt w)
  | 0x97 => some (.pack w)
  | 0x98 => match w.ty with
    | .s32 => some (.tag w)
    | .c12 => some (.tagDyn w)
    | _ => none
  | 0x99 => match w.ty with
    | .c12 => some (.vmskGet w)
    | .c13 => some (.vmskAnd w)
    | .c14 => some (.vmskSet w)
    | _ => none
  | 0x9A => some (.bfwd w)
  | 0x9C => some (.pand w)
  | 0x9D => some (.por w)
  | 0x9E => some (.pxor w)
  | 0x9F => some (.pnot w)
  | 0xA0 => some (.taga w)
  | 0xA1 => some (.tagf w)
  | 0xA2 => match w.ty with
    | .s32 => some (.tagx w)
    | .c12 => some (.tagxGet w)
    | _ => none
  | 0xA4 => some (.chstart w)
  | 0xA5 => some (.chstep w)
  | 0xA6 => match w.ty with
    | .c12 | .c13 => some (.chcount w)
    | .c14 | .c15 => some (.chcountEnd w)
    | _ => none
  | 0xA7 => match w.ty with
    | .c12 | .c13 => some (.chnext w)
    | .c14 | .c15 => some (.chnextV w)
    | _ => none
  | 0xA8 => some (.spawn w)
  | 0xA9 => some (.join w)
  | 0xB0 => some (.sld w)
  | 0xB1 => some (.sst w)
  | 0xB2 => some (.swatch w)
  | 0xB4 => some (.spbeg w)
  | 0xB5 => some (.spcom w)
  | 0xB6 => some (.spdis w)
  | 0xC0 => some (.ld w)
  | 0xC1 => some (.st w)
  | 0xC2 => some (.gathr w)
  | 0xC3 => some (.scatr w)
  | 0xC4 => some (.amo w)
  | 0xC5 => some (.amoOrd w)
  | 0xC6 => some (.red w)
  | 0xC7 => some (.redOrd w)
  | 0xC8 => some (.xlat w)
  | 0xC9 => some (.tramChase w)
  | 0xCA => some (.tramWalk w)
  | 0xCB => some (.hcopye w)
  | 0xD0 => some (.oclm w)
  | 0xD1 => some (.orls w)
  | 0xD2 => some (.tload w)
  | 0xD3 => some (.tmul w)
  | 0xD4 => some (.tout w)
  | 0xD5 => some (.tzero w)
  | 0xE0 => some (.fenceElement w)
  | 0xE1 => some (.etrap w)
  | 0xE2 => match w.ty with
    | .c12 => some (.rdsysClock w)
    | .c13 => some (.rdsysPlace w)
    | .c14 => some (.rdsysPoison w)
    | .c15 => some (.rdsysChains w)
    | _ => none
  | 0xE3 => some (.nop w)
  | _ => none

/-- The opcode and word of an element instruction; none for a foreman instruction or an event (R116). -/
def elemCode : Instr → Option (Nat × EWord)
  | .add w => some (0x00, w)
  | .sub w => some (0x01, w)
  | .mul w => some (0x02, w)
  | .mulh w => some (0x03, w)
  | .mad w => some (0x04, w)
  | .neg w => some (0x05, w)
  | .abs w => some (0x06, w)
  | .min w => some (0x07, w)
  | .max w => some (0x08, w)
  | .shl w => some (0x09, w)
  | .shr w => some (0x0A, w)
  | .sha w => some (0x0B, w)
  | .rol w => some (0x0C, w)
  | .clz w => some (0x0D, w)
  | .popc w => some (0x0E, w)
  | .and w => some (0x10, w)
  | .or w => some (0x11, w)
  | .xor w => some (0x12, w)
  | .not w => some (0x13, w)
  | .andn w => some (0x14, w)
  | .sel w => some (0x15, w)
  | .cmpeq w => some (0x18, w)
  | .cmpne w => some (0x19, w)
  | .cmplt w => some (0x1A, w)
  | .cmple w => some (0x1B, w)
  | .addSat w => some (0x20, w)
  | .subSat w => some (0x21, w)
  | .mulSat w => some (0x22, w)
  | .madSat w => some (0x24, w)
  | .negSat w => some (0x25, w)
  | .absSat w => some (0x26, w)
  | .shlSat w => some (0x29, w)
  | .fadd w => some (0x40, w)
  | .fsub w => some (0x41, w)
  | .fmul w => some (0x42, w)
  | .ffma w => some (0x43, w)
  | .fmin w => some (0x44, w)
  | .fmax w => some (0x45, w)
  | .fabs w => some (0x46, w)
  | .fneg w => some (0x47, w)
  | .fcmpeq w => some (0x48, w)
  | .fcmplt w => some (0x49, w)
  | .fcmple w => some (0x4A, w)
  | .fcmpun w => some (0x4B, w)
  | .cvt w => some (0x50, w)
  | .cvtRz w => some (0x51, w)
  | .cvtRs w => some (0x52, w)
  | .rcp w => some (0x58, w)
  | .rsq w => some (0x59, w)
  | .exp2 w => some (0x5A, w)
  | .log2 w => some (0x5B, w)
  | .shuf w => some (0x70, w)
  | .bcast w => some (0x71, w)
  | .lrot w => some (0x72, w)
  | .lradd w => some (0x78, w)
  | .lrmin w => some (0x79, w)
  | .lrmax w => some (0x7A, w)
  | .lrfadd w => some (0x7B, w)
  | .lrfmin w => some (0x7C, w)
  | .lrfmax w => some (0x7D, w)
  | .lpadd w => some (0x80, w)
  | .lpfadd w => some (0x81, w)
  | .mov w => some (0x90, w)
  | .pass w => some (0x91, w)
  | .drop w => some (0x92, w)
  | .steer w => some (0x93, w)
  | .mergeOrd w => some (0x94, w)
  | .mergeAny w => some (0x95, w)
  | .filt w => some (0x96, w)
  | .pack w => some (0x97, w)
  | .tag w => some (0x98, w)
  | .tagDyn w => some (0x98, w)
  | .vmskGet w => some (0x99, w)
  | .vmskAnd w => some (0x99, w)
  | .vmskSet w => some (0x99, w)
  | .bfwd w => some (0x9A, w)
  | .pand w => some (0x9C, w)
  | .por w => some (0x9D, w)
  | .pxor w => some (0x9E, w)
  | .pnot w => some (0x9F, w)
  | .taga w => some (0xA0, w)
  | .tagf w => some (0xA1, w)
  | .tagx w => some (0xA2, w)
  | .tagxGet w => some (0xA2, w)
  | .chstart w => some (0xA4, w)
  | .chstep w => some (0xA5, w)
  | .chcount w => some (0xA6, w)
  | .chcountEnd w => some (0xA6, w)
  | .chnext w => some (0xA7, w)
  | .chnextV w => some (0xA7, w)
  | .spawn w => some (0xA8, w)
  | .join w => some (0xA9, w)
  | .sld w => some (0xB0, w)
  | .sst w => some (0xB1, w)
  | .swatch w => some (0xB2, w)
  | .spbeg w => some (0xB4, w)
  | .spcom w => some (0xB5, w)
  | .spdis w => some (0xB6, w)
  | .ld w => some (0xC0, w)
  | .st w => some (0xC1, w)
  | .gathr w => some (0xC2, w)
  | .scatr w => some (0xC3, w)
  | .amo w => some (0xC4, w)
  | .amoOrd w => some (0xC5, w)
  | .red w => some (0xC6, w)
  | .redOrd w => some (0xC7, w)
  | .xlat w => some (0xC8, w)
  | .tramChase w => some (0xC9, w)
  | .tramWalk w => some (0xCA, w)
  | .hcopye w => some (0xCB, w)
  | .oclm w => some (0xD0, w)
  | .orls w => some (0xD1, w)
  | .tload w => some (0xD2, w)
  | .tmul w => some (0xD3, w)
  | .tout w => some (0xD4, w)
  | .tzero w => some (0xD5, w)
  | .fenceElement w => some (0xE0, w)
  | .etrap w => some (0xE1, w)
  | .rdsysClock w => some (0xE2, w)
  | .rdsysPlace w => some (0xE2, w)
  | .rdsysPoison w => some (0xE2, w)
  | .rdsysChains w => some (0xE2, w)
  | .nop w => some (0xE3, w)
  | _ => none


/-- Class L of R116: the operation may fire on port B. -/
def opLight (op : Nat) : Bool :=
  (0x90 ≤ op && op ≤ 0x95) || (0x98 ≤ op && op ≤ 0x9A) || (0x9C ≤ op && op ≤ 0x9F) || (0xA0 ≤ op && op ≤ 0xA2) ||
  (0xA4 ≤ op && op ≤ 0xA7) || op == 0xE3

/-- The opcodes that start a macro-instruction (R116). -/
def opMac (op : Nat) : Bool := op == 0xC2 || op == 0xC3 || (0xC9 ≤ op && op ≤ 0xCB) || (0xD2 ≤ op && op ≤ 0xD4)

/-- The kinds of element (0 AE, 1 SE, 2 ME) that may hold an opcode (R116). -/
def opKindOk (op kind : Nat) : Bool :=
  if (0xB0 ≤ op && op ≤ 0xB6) then kind == 1
  else if (0xC0 ≤ op && op ≤ 0xCB) then kind == 2
  else if (0xD0 ≤ op && op ≤ 0xD5) then kind == 0
  else true

end Sys2Proof.Machine
end

