-- ==== Sys2Proof/WellFormed.lean ====
section
/-! DEFINITION. Well-formed instructions. An element instruction is well formed when its word passes every check of R109 to
R119 that the word can fail on its own, and its type code is the one that selects its constructor. A foreman instruction is
well formed when no field holds a value that R312, R333, R335 or R348 gives to no operation. An event is well formed when the
numbers it names lie in the machine (R15 to R27). -/

namespace Sys2Proof

open Machine

/-- Dies of the package (R15). -/
def numDies : Nat := 4

/-- Foreman threads 0 to 767, then the assay threads 768 to 783 (R26, R309; log entry 6). -/
def numThreads : Nat := 784

/-- Element identifiers (R21). -/
def numElems : Nat := 65536

/-- Islands, one for each tile (R24). -/
def numIslands : Nat := 768

/-- Endpoints of the banksman (R404). -/
def numEndpoints : Nat := 64

/-- An element identifier names an element of the package (R18 to R21): claim column at most 31, row at most 47. -/
def elemExists (e : Nat) : Bool := e < numElems && bits e 13 8 < 48

/-- The checks of one instruction. -/
def Instr.wf (i : Instr) : Bool :=
  match i with
  | .rbacq mask => mask != 0
  | .rbacqTry mask => mask != 0
  | .rbrel mask => mask != 0
  | .wfi _ mask => mask != 0
  | .invr _ _ _ _ sc => sc == .die || sc == .pkg || sc == .pod
  | .waitaWake t => t < numThreads
  | .wfiWake t => t < numThreads
  | .barwRelease t => t < numThreads
  | .semaPGrant t => t < numThreads
  | .rbacqGrant t => t < numThreads
  | .rbacqStallTimeout t => t < numThreads
  | .syscallReturn t _ _ _ _ => t < numThreads
  | .rvendComplete t => t < numThreads
  | .invrAcknowledge t => t < numThreads
  | .trapTake t => t < numThreads
  | .accessPerform e _ => elemExists e
  | .pendingReplyLeave e _ => elemExists e
  | .waveEnterOrder e _ => elemExists e
  | .swatchTrigger e _ => elemExists e
  | .stampAtomicPerform e _ lane => elemExists e && lane < 8
  | .tramChaseHop e => elemExists e
  | .tramWalkDeliver e => elemExists e
  | .gatherScatterLane e => elemExists e
  | .tloadRowFill e => elemExists e
  | .toutRowWrite e => elemExists e
  | .islandStep isl => isl < numIslands
  | .hoistUnit d n => d < numDies && n < 32
  | .sluiceBlock d n => d < numDies && n < 32
  | .streamRecordMove d n => d < numDies && n < 32
  | .hoistCompletionWord d n => d < numDies && n < 32
  | .translationWalk e _ => elemExists e
  | .elementReplay e _ => elemExists e
  | .spareSubstitution e => elemExists e
  | .checkweigherConfirm d row _ => d < numDies && row < 96
  | .checkweigherWatchEnd d row => d < numDies && row < 96
  | .counterSweep d q => d < numDies && q < 48
  | .doorbellWrite ep _ => ep < numEndpoints
  | .recordFetch ep => ep < numEndpoints
  | .launch ep => ep < numEndpoints
  | .preempt ep => ep < numEndpoints
  | .restore ep => ep < numEndpoints
  | .kill ep => ep < numEndpoints
  | .message ep => ep < numEndpoints
  | .query ep => ep < numEndpoints
  | .rdmaRead p _ _ _ => p.ep < numEndpoints
  | .rdmaWrite p _ _ _ => p.ep < numEndpoints
  | .queuePairSetup ep => ep < numEndpoints
  | .congestionNotification ep => ep < numEndpoints
  | .thermalSample d _ _ => d < numDies
  | .droopTrip q _ => q < 192
  | .linkFlitReplay l => l.lane < 4
  | .droopRelease d q => d < numDies && q < 48
  | .alert d => d < numDies
  | .throttle d q _ => d < numDies && q < 48
  | .qclk d q _ => d < numDies && q < 48
  | .errring d _ => d < numDies
  | .errptr d _ => d < numDies
  | .wkill d _ => d < numDies
  | .wkillComplete d => d < numDies
  | .macedit t _ => t < numThreads
  | .poisrec t _ => t < numThreads
  | .readClear t _ _ => t < numThreads
  | .registerWrite t _ _ _ => t < numThreads
  | .mctpRegisterRead d _ _ => d < numDies
  | .tokenArrival e _ => elemExists e
  | .creditReturn e _ => elemExists e
  | _ => match elemCode i with
    | some (op, w) => (rawOfWord op w).problems.isEmpty && elemOf op w == some i
    | none => true

end Sys2Proof
end

