-- ==== Sys2Proof/Decode.lean ====
section
/-! DEFINITION. The decoder, total on any bits (R108 to R119 for an element word, R130 to R134, R312, R316 and R335 for a
foreman word), with named rejections, and after it the encoder, from the same tables. A word that the decoder refuses is the
illegal instruction of R134 for a thread, and a refusal of the loader (R472) for an element. -/

namespace Sys2Proof

open Machine

/-- Why bits name no instruction. -/
inductive DecodeError
  /-- an op or OP that R132 or R116 does not assign -/
  | reservedOpcode (op : Nat)
  /-- an fn, AOP, scope or kind that selects no operation of its group -/
  | reservedFn (op fn : Nat)
  /-- a field that the instruction does not use is not zero -/
  | unusedField (op : Nat)
  /-- V = 0: an empty slot -/
  | emptySlot
  /-- an element word that breaks a rule of R109 to R119: the reason of R473 and the byte of R472 -/
  | elementWord (reason byte : Nat)
deriving DecidableEq, Repr

/-! ### Fields and codes of foreman words -/

/-- A register field (R130). -/
def regAt (w lo : Nat) : Reg := Fin.ofNat 64 (bits w (lo + 5) lo)

/-- The scopes of R31 by code; 7 is none. -/
def scopeOf : Nat → Option Scope
  | 0 => some .elem | 1 => some .tile | 2 => some .quad | 3 => some .die | 4 => some .pkg | 5 => some .pod
  | 6 => some .wrk | _ => none

/-- R31. -/
def scopeCode : Scope → Nat
  | .elem => 0 | .tile => 1 | .quad => 2 | .die => 3 | .pkg => 4 | .pod => 5 | .wrk => 6

/-- R325. -/
def ordOf : Nat → Ord
  | 0 => .plain | 1 => .acq | 2 => .rel | _ => .acqrel

/-- R325. -/
def ordCode : Ord → Nat
  | .plain => 0 | .acq => 1 | .rel => 2 | .acqrel => 3

/-- R325. -/
def ascopeOf : Nat → AScope
  | 0 => .wrk | 1 => .die | 2 => .pkg | _ => .pod

/-- R325. -/
def ascopeCode : AScope → Nat
  | .wrk => 0 | .die => 1 | .pkg => 2 | .pod => 3

/-- R133. -/
def condOf : Nat → Cond
  | 0 => .al | 1 => .eq | 2 => .ne | 3 => .lt | 4 => .ge | 5 => .gt | 6 => .le | 7 => .hs | 8 => .lo | 9 => .hi
  | 10 => .ls | 11 => .mi | 12 => .pl | 13 => .vs | 14 => .fs | _ => .fc

/-- R133. -/
def condCode : Cond → Nat
  | .al => 0 | .eq => 1 | .ne => 2 | .lt => 3 | .ge => 4 | .gt => 5 | .le => 6 | .hs => 7 | .lo => 8 | .hi => 9
  | .ls => 10 | .mi => 11 | .pl => 12 | .vs => 13 | .fs => 14 | .fc => 15

/-- The instruction where its unused fields are zero. -/
def unused (zero : Bool) (op : Nat) (i : Instr) : Except DecodeError Instr :=
  if zero then .ok i else .error (.unusedField op)

/-- The instruction of a scope code, where it is 0 to 6 and the unused fields are zero. -/
def withScope (zero : Bool) (op fn sc : Nat) (i : Scope → Instr) : Except DecodeError Instr :=
  match scopeOf sc with
  | some s => unused zero op (i s)
  | none => .error (.reservedFn op fn)

/-! ### The foreman decoder -/

/-- The ALU group (R319). -/
def decodeAlu (fn : Nat) (d a b : Reg) : Except DecodeError Instr :=
  match fn with
  | 0 => .ok (.foremanAdd d a b)
  | 1 => .ok (.foremanSub d a b)
  | 2 => .ok (.foremanAnd d a b)
  | 3 => .ok (.foremanOr d a b)
  | 4 => .ok (.foremanXor d a b)
  | 5 => .ok (.foremanAndn d a b)
  | 6 => .ok (.foremanShl d a b)
  | 7 => .ok (.foremanShr d a b)
  | 8 => .ok (.foremanSha d a b)
  | 9 => .ok (.foremanMul d a b)
  | 10 => .ok (.foremanMulh d a b)
  | 11 => .ok (.foremanMulhu d a b)
  | 12 => .ok (.foremanDiv d a b)
  | 13 => .ok (.foremanDivu d a b)
  | 14 => .ok (.foremanRem d a b)
  | 15 => .ok (.foremanRemu d a b)
  | 16 => .ok (.foremanMin d a b)
  | 17 => .ok (.foremanMax d a b)
  | 18 => .ok (.foremanMinu d a b)
  | 19 => .ok (.foremanMaxu d a b)
  | 20 => unused (b == 0) 0 (.foremanClz d a)
  | 21 => unused (b == 0) 0 (.foremanPopc d a)
  | _ => .error (.reservedFn 0 fn)

/-- The atomics (R325): fn is AOP, ORD and SC. -/
def decodeAmo (fn : Nat) (d a b : Reg) : Except DecodeError Instr :=
  let o := ordOf (bits fn 5 4)
  let c := ascopeOf (bits fn 7 6)
  match bits fn 3 0 with
  | 0 => .ok (.foremanAmoAdd d a b o c)
  | 1 => .ok (.foremanAmoAnd d a b o c)
  | 2 => .ok (.foremanAmoOr d a b o c)
  | 3 => .ok (.foremanAmoXor d a b o c)
  | 4 => .ok (.foremanAmoMins d a b o c)
  | 5 => .ok (.foremanAmoMaxs d a b o c)
  | 6 => .ok (.foremanAmoMinu d a b o c)
  | 7 => .ok (.foremanAmoMaxu d a b o c)
  | 8 => .ok (.foremanAmoFadd d a b o c)
  | 9 => .ok (.foremanAmoFmin d a b o c)
  | 10 => .ok (.foremanAmoFmax d a b o c)
  | 11 => .ok (.foremanAmoXchg d a b o c)
  | 12 => .ok (.foremanAmoCas d a b o c)
  | _ => .error (.reservedFn 0x1C fn)

/-- The SYNC group (R354). -/
def decodeSync (fn : Nat) (d a b : Reg) : Except DecodeError Instr :=
  let sc := bits fn 2 0
  match bits fn 7 3 with
  | 0 => withScope true 0x3F fn sc (.barw d a b)
  | 2 => withScope (b == 0) 0x3F fn sc (.semaP d a)
  | 4 => withScope (b == 0) 0x3F fn sc (.semaTry d a)
  | 6 => withScope true 0x3F fn sc (.semaV d a b)
  | 8 => withScope true 0x3F fn sc (.semaSet d a b)
  | _ => .error (.reservedFn 0x3F fn)

/-- Form R of R335 and RDS of R343: the working-control, task, hoist, region and invalidation instructions. -/
def decodeControl (op fn : Nat) (d a b : Reg) : Except DecodeError Instr :=
  let z0 := d == 0
  let za := a == 0
  let zb := b == 0
  match op, fn with
  | 0x30, 0 => .ok (.wload d a b)
  | 0x31, 0 => unused (z0 && zb) op (.wgoStart a)
  | 0x31, 1 => unused (z0 && zb) op (.wgoResume a)
  | 0x32, 0 => unused (z0 && zb) op (.wphase a)
  | 0x33, 0 => unused (z0 && za && zb) op .wstopEnd
  | 0x33, 1 => unused (z0 && za && zb) op .wstopPause
  | 0x34, 0 => unused zb op (.wsave d a)
  | 0x35, 0 => unused zb op (.wrest d a)
  | 0x36, 0 => unused (za && zb) op (.wqueryWstat d)
  | 0x36, 1 => unused (za && zb) op (.wqueryPhases d)
  | 0x36, 2 => unused (za && zb) op (.wquerySaveSize d)
  | 0x37, 0 => unused zb op (.rdsReportHead d a)
  | 0x37, 1 => unused (za && zb) op (.rdsReportPop d)
  | 0x37, 2 => .ok (.rdsOperandStatus d a b)
  | 0x37, 3 => .ok (.rdsAccumulatorStatus d a b)
  | 0x37, 4 => unused zb op (.rdsSyncCounter d a)
  | 0x37, 5 => unused (za && zb) op (.rdsPoisonRecord d)
  | 0x37, 6 => .ok (.rdsElementState d a b)
  | 0x38, 0 => unused (z0 && zb) op (.tqpush a)
  | 0x38, 1 => unused (z0 && zb) op (.tqpushTry a)
  | 0x39, 0 => unused zb op (.tqpop d a)
  | 0x3A, 0 => unused zb op (.hcopy d a)
  | 0x3A, 1 => unused zb op (.hcopyTry d a)
  | 0x3B, 0 => unused zb op (.hqueryHstat0 d a)
  | 0x3B, 1 => unused zb op (.hqueryHstat1 d a)
  | 0x3D, 0 => unused (za && zb) op (.rvbeg d)
  | 0x3D, 1 => unused (z0 && zb) op (.rvkeep a)
  | 0x3D, 2 => unused (z0 && zb) op (.rvend a)
  | _, _ => .error (.reservedFn op fn)

/-- A foreman instruction at its first word w and the word after it (R130 to R134). -/
def decodeForeman (w next : Nat) : Except DecodeError Instr :=
  let op := bits w 31 26
  let d := regAt w 20
  let a := regAt w 14
  let b := regAt w 8
  let fn := bits w 7 0
  let imm := bits w 13 0
  let i : BitVec 14 := BitVec.ofNat 14 imm
  let off : BitVec 22 := BitVec.ofNat 22 (bits w 21 0)
  let sh : BitVec 6 := BitVec.ofNat 6 imm
  let label : BitVec 8 := BitVec.ofNat 8 fn
  let mask : BitVec 7 := BitVec.ofNat 7 (bits w 7 1)
  let z0 := d == 0
  let za := a == 0
  let zb := b == 0
  match op with
  | 0x00 => decodeAlu fn d a b
  | 0x01 => .ok (.addi d a i)
  | 0x02 => .ok (.andi d a i)
  | 0x03 => .ok (.ori d a i)
  | 0x04 => .ok (.xori d a i)
  | 0x05 => unused (bits w 13 6 == 0) op (.shli d a sh)
  | 0x06 => unused (bits w 13 6 == 0) op (.shri d a sh)
  | 0x07 => unused (bits w 13 6 == 0) op (.shai d a sh)
  | 0x08 => unused (za && imm == 0) op (.li d (BitVec.ofNat 32 next))
  | 0x09 => unused (imm == 0) op (.addl d a (BitVec.ofNat 32 next))
  | 0x0A => if fn = 0 then unused z0 op (.cmp a b) else .error (.reservedFn op fn)
  | 0x0B => unused z0 op (.cmpi a i)
  | 0x10 => .ok (.ldN8 d a i)
  | 0x11 => .ok (.ldS8 d a i)
  | 0x12 => .ok (.ldN16 d a i)
  | 0x13 => .ok (.ldS16 d a i)
  | 0x14 => .ok (.ldN32 d a i)
  | 0x15 => .ok (.ldS32 d a i)
  | 0x16 => .ok (.ldB64 d a i)
  | 0x18 => .ok (.stB8 d a i)
  | 0x19 => .ok (.stB16 d a i)
  | 0x1A => .ok (.stB32 d a i)
  | 0x1B => .ok (.stB64 d a i)
  | 0x1C => decodeAmo fn d a b
  | 0x1D => match bits w 13 3 with
    | 0 => withScope (z0 && za) op fn (bits w 2 0) .fenceFull
    | 1 => withScope (z0 && za) op fn (bits w 2 0) .fenceAcq
    | 2 => withScope (z0 && za) op fn (bits w 2 0) .fenceRel
    | _ => .error (.reservedFn op fn)
  | 0x1E => withScope (bits w 7 3 == 0) op fn (bits w 2 0) (.waita d a b)
  | 0x20 => .ok (.bc (condOf (bits w 25 22)) off)
  | 0x21 => unused (bits w 25 22 == 0) op (.bl off)
  | 0x22 => unused zb op (.jr d a label)
  | 0x23 => unused (z0 && za && bits w 13 8 == 0) op (.entry label)
  | 0x24 => match bits w 13 8 with
    | 0 => unused (z0 && za && !bit w 0) op (.rbacq mask)
    | 1 => unused (z0 && za && !bit w 0) op (.rbacqTry mask)
    | _ => .error (.reservedFn op fn)
  | 0x25 => unused (z0 && za && !bit w 0 && bits w 13 8 == 0) op (.rbrel mask)
  | 0x28 => .ok (.sysr d a i)
  | 0x29 => .ok (.sysw d a i)
  | 0x2A => unused (z0 && za) op
      (if bit w 13 then .trapSyscall (BitVec.ofNat 13 imm) else .trap (BitVec.ofNat 13 imm))
  | 0x2B => unused (z0 && za && imm == 0) op .eret
  | 0x2C => unused (za && zb && bits w 7 4 == 0) op (.wfi d (BitVec.ofNat 4 fn))
  | 0x30 | 0x31 | 0x32 | 0x33 | 0x34 | 0x35 | 0x36 | 0x37 | 0x38 | 0x39 | 0x3A | 0x3B | 0x3D => decodeControl op fn d a b
  | 0x3C => withScope (z0 && zb && bits w 7 3 == 0) op fn (bits w 2 0) (.publish a)
  | 0x3E => if bits w 2 0 < 3 || bits w 2 0 = 6 then .error (.reservedFn op fn)
    else withScope (bits w 7 4 == 0) op fn (bits w 2 0) (.invr d a b (bit w 3))
  | 0x3F => decodeSync fn d a b
  | _ => .error (.reservedOpcode op)

/-! ### The element decoder -/

/-- An element instruction from its 96-bit word (R108 to R119): V is 1, the fields keep the rules that the word can break on
its own, and the opcode and type code select a constructor. -/
def decodeElement (w : Nat) : Except DecodeError Instr :=
  let r := rawOf w
  if r.v = 0 then .error .emptySlot else
  match r.problems with
  | [] => match elemOf r.op r.word with
    | some i => .ok i
    | none => .error (.reservedOpcode r.op)
  | l => .error (.elementWord (lowestProblem l).1 (lowestProblem l).2)

/-! ### Bytes -/

/-- A foreman instruction at the head of a list of bytes, with the bytes after it (R6, R130); missing bytes read as zero. -/
def decodeBytes (l : List Byte) : Except DecodeError Instr × List Byte :=
  let d := decodeForeman (le l 0 4) (le l 4 4)
  (d, l.drop (match d with
    | .ok (.li _ _) => 8
    | .ok (.addl _ _ _) => 8
    | _ => 4))

/-- The instruction of bits numbered as the opcode table numbers them: a foreman word (and its second word above bit 31) up
to 64 bits, an element word of 96 bits above. The bits are laid out as bytes and given to the decoder. -/
def decodeTableWord (nbits w : Nat) : Option Instr :=
  if nbits ≤ 64 then (decodeBytes (toBytes 8 w)).1.toOption
  else (decodeElement (ofBytes (toBytes 12 w))).toOption

/-! ### The encoder -/

/-- Form R (R130). -/
def rForm (op d a b fn : Nat) : Nat := op * 2 ^ 26 + d * 2 ^ 20 + a * 2 ^ 14 + b * 2 ^ 8 + fn

/-- Form I (R130); imm holds [13:0], and so rb and fn of a form R word without rb. -/
def iForm (op d a imm : Nat) : Nat := op * 2 ^ 26 + d * 2 ^ 20 + a * 2 ^ 14 + imm

/-- The first word of a foreman instruction and, for form L, its second (R130 to R134, R312, R319 to R354). -/
def foremanCode : Instr → Option (Nat × Option Nat)
  | .foremanAdd rd ra rb => some (rForm 0x00 rd ra rb 0x00, none)
  | .foremanSub rd ra rb => some (rForm 0x00 rd ra rb 0x01, none)
  | .foremanAnd rd ra rb => some (rForm 0x00 rd ra rb 0x02, none)
  | .foremanOr rd ra rb => some (rForm 0x00 rd ra rb 0x03, none)
  | .foremanXor rd ra rb => some (rForm 0x00 rd ra rb 0x04, none)
  | .foremanAndn rd ra rb => some (rForm 0x00 rd ra rb 0x05, none)
  | .foremanShl rd ra rb => some (rForm 0x00 rd ra rb 0x06, none)
  | .foremanShr rd ra rb => some (rForm 0x00 rd ra rb 0x07, none)
  | .foremanSha rd ra rb => some (rForm 0x00 rd ra rb 0x08, none)
  | .foremanMul rd ra rb => some (rForm 0x00 rd ra rb 0x09, none)
  | .foremanMulh rd ra rb => some (rForm 0x00 rd ra rb 0x0A, none)
  | .foremanMulhu rd ra rb => some (rForm 0x00 rd ra rb 0x0B, none)
  | .foremanDiv rd ra rb => some (rForm 0x00 rd ra rb 0x0C, none)
  | .foremanDivu rd ra rb => some (rForm 0x00 rd ra rb 0x0D, none)
  | .foremanRem rd ra rb => some (rForm 0x00 rd ra rb 0x0E, none)
  | .foremanRemu rd ra rb => some (rForm 0x00 rd ra rb 0x0F, none)
  | .foremanMin rd ra rb => some (rForm 0x00 rd ra rb 0x10, none)
  | .foremanMax rd ra rb => some (rForm 0x00 rd ra rb 0x11, none)
  | .foremanMinu rd ra rb => some (rForm 0x00 rd ra rb 0x12, none)
  | .foremanMaxu rd ra rb => some (rForm 0x00 rd ra rb 0x13, none)
  | .foremanClz rd ra => some (iForm 0x00 rd ra 0x14, none)
  | .foremanPopc rd ra => some (iForm 0x00 rd ra 0x15, none)
  | .addi rd ra imm => some (iForm 0x01 rd ra (imm.toNat), none)
  | .andi rd ra imm => some (iForm 0x02 rd ra (imm.toNat), none)
  | .ori rd ra imm => some (iForm 0x03 rd ra (imm.toNat), none)
  | .xori rd ra imm => some (iForm 0x04 rd ra (imm.toNat), none)
  | .shli rd ra sh => some (iForm 0x05 rd ra (sh.toNat), none)
  | .shri rd ra sh => some (iForm 0x06 rd ra (sh.toNat), none)
  | .shai rd ra sh => some (iForm 0x07 rd ra (sh.toNat), none)
  | .li rd imm => some (iForm 0x08 rd 0 0, some imm.toNat)
  | .addl rd ra imm => some (iForm 0x09 rd ra 0, some imm.toNat)
  | .cmp ra rb => some (rForm 0x0A 0 ra rb 0x00, none)
  | .cmpi ra imm => some (iForm 0x0B 0 ra (imm.toNat), none)
  | .ldN8 rd ra imm => some (iForm 0x10 rd ra (imm.toNat), none)
  | .ldS8 rd ra imm => some (iForm 0x11 rd ra (imm.toNat), none)
  | .ldN16 rd ra imm => some (iForm 0x12 rd ra (imm.toNat), none)
  | .ldS16 rd ra imm => some (iForm 0x13 rd ra (imm.toNat), none)
  | .ldN32 rd ra imm => some (iForm 0x14 rd ra (imm.toNat), none)
  | .ldS32 rd ra imm => some (iForm 0x15 rd ra (imm.toNat), none)
  | .ldB64 rd ra imm => some (iForm 0x16 rd ra (imm.toNat), none)
  | .stB8 rd ra imm => some (iForm 0x18 rd ra (imm.toNat), none)
  | .stB16 rd ra imm => some (iForm 0x19 rd ra (imm.toNat), none)
  | .stB32 rd ra imm => some (iForm 0x1A rd ra (imm.toNat), none)
  | .stB64 rd ra imm => some (iForm 0x1B rd ra (imm.toNat), none)
  | .foremanAmoAdd rd ra rb ord sc => some (rForm 0x1C rd ra rb (64 * ascopeCode sc + 16 * ordCode ord), none)
  | .foremanAmoAnd rd ra rb ord sc => some (rForm 0x1C rd ra rb (0x01 + 64 * ascopeCode sc + 16 * ordCode ord), none)
  | .foremanAmoOr rd ra rb ord sc => some (rForm 0x1C rd ra rb (0x02 + 64 * ascopeCode sc + 16 * ordCode ord), none)
  | .foremanAmoXor rd ra rb ord sc => some (rForm 0x1C rd ra rb (0x03 + 64 * ascopeCode sc + 16 * ordCode ord), none)
  | .foremanAmoMins rd ra rb ord sc => some (rForm 0x1C rd ra rb (0x04 + 64 * ascopeCode sc + 16 * ordCode ord), none)
  | .foremanAmoMaxs rd ra rb ord sc => some (rForm 0x1C rd ra rb (0x05 + 64 * ascopeCode sc + 16 * ordCode ord), none)
  | .foremanAmoMinu rd ra rb ord sc => some (rForm 0x1C rd ra rb (0x06 + 64 * ascopeCode sc + 16 * ordCode ord), none)
  | .foremanAmoMaxu rd ra rb ord sc => some (rForm 0x1C rd ra rb (0x07 + 64 * ascopeCode sc + 16 * ordCode ord), none)
  | .foremanAmoFadd rd ra rb ord sc => some (rForm 0x1C rd ra rb (0x08 + 64 * ascopeCode sc + 16 * ordCode ord), none)
  | .foremanAmoFmin rd ra rb ord sc => some (rForm 0x1C rd ra rb (0x09 + 64 * ascopeCode sc + 16 * ordCode ord), none)
  | .foremanAmoFmax rd ra rb ord sc => some (rForm 0x1C rd ra rb (0x0A + 64 * ascopeCode sc + 16 * ordCode ord), none)
  | .foremanAmoXchg rd ra rb ord sc => some (rForm 0x1C rd ra rb (0x0B + 64 * ascopeCode sc + 16 * ordCode ord), none)
  | .foremanAmoCas rd ra rb ord sc => some (rForm 0x1C rd ra rb (0x0C + 64 * ascopeCode sc + 16 * ordCode ord), none)
  | .fenceFull sc => some (iForm 0x1D 0 0 (scopeCode sc), none)
  | .fenceAcq sc => some (iForm 0x1D 0 0 (0x08 + scopeCode sc), none)
  | .fenceRel sc => some (iForm 0x1D 0 0 (0x10 + scopeCode sc), none)
  | .waita rd ra rb sc => some (rForm 0x1E rd ra rb (scopeCode sc), none)
  | .bc cond off => some (0x20 * 2 ^ 26 + condCode cond * 2 ^ 22 + off.toNat, none)
  | .bl off => some (0x21 * 2 ^ 26 + off.toNat, none)
  | .jr rd ra label => some (iForm 0x22 rd ra (label.toNat), none)
  | .entry label => some (iForm 0x23 0 0 (label.toNat), none)
  | .rbacq mask => some (iForm 0x24 0 0 (2 * mask.toNat), none)
  | .rbacqTry mask => some (iForm 0x24 0 0 (0x100 + 2 * mask.toNat), none)
  | .rbrel mask => some (iForm 0x25 0 0 (2 * mask.toNat), none)
  | .sysr rd ra num => some (iForm 0x28 rd ra (num.toNat), none)
  | .sysw rd ra num => some (iForm 0x29 rd ra (num.toNat), none)
  | .trap code => some (iForm 0x2A 0 0 (code.toNat), none)
  | .trapSyscall code => some (iForm 0x2A 0 0 (0x2000 + code.toNat), none)
  | .eret => some (iForm 0x2B 0 0 0x00, none)
  | .wfi rd mask => some (iForm 0x2C rd 0 (mask.toNat), none)
  | .wload rd ra rb => some (rForm 0x30 rd ra rb 0x00, none)
  | .wgoStart ra => some (iForm 0x31 0 ra 0x00, none)
  | .wgoResume ra => some (iForm 0x31 0 ra 0x01, none)
  | .wphase ra => some (iForm 0x32 0 ra 0x00, none)
  | .wstopEnd => some (iForm 0x33 0 0 0x00, none)
  | .wstopPause => some (iForm 0x33 0 0 0x01, none)
  | .wsave rd ra => some (iForm 0x34 rd ra 0x00, none)
  | .wrest rd ra => some (iForm 0x35 rd ra 0x00, none)
  | .wqueryWstat rd => some (iForm 0x36 rd 0 0x00, none)
  | .wqueryPhases rd => some (iForm 0x36 rd 0 0x01, none)
  | .wquerySaveSize rd => some (iForm 0x36 rd 0 0x02, none)
  | .rdsReportHead rd ra => some (iForm 0x37 rd ra 0x00, none)
  | .rdsReportPop rd => some (iForm 0x37 rd 0 0x01, none)
  | .rdsOperandStatus rd ra rb => some (rForm 0x37 rd ra rb 0x02, none)
  | .rdsAccumulatorStatus rd ra rb => some (rForm 0x37 rd ra rb 0x03, none)
  | .rdsSyncCounter rd ra => some (iForm 0x37 rd ra 0x04, none)
  | .rdsPoisonRecord rd => some (iForm 0x37 rd 0 0x05, none)
  | .rdsElementState rd ra rb => some (rForm 0x37 rd ra rb 0x06, none)
  | .tqpush ra => some (iForm 0x38 0 ra 0x00, none)
  | .tqpushTry ra => some (iForm 0x38 0 ra 0x01, none)
  | .tqpop rd ra => some (iForm 0x39 rd ra 0x00, none)
  | .hcopy rd ra => some (iForm 0x3A rd ra 0x00, none)
  | .hcopyTry rd ra => some (iForm 0x3A rd ra 0x01, none)
  | .hqueryHstat0 rd ra => some (iForm 0x3B rd ra 0x00, none)
  | .hqueryHstat1 rd ra => some (iForm 0x3B rd ra 0x01, none)
  | .publish ra sc => some (iForm 0x3C 0 ra (scopeCode sc), none)
  | .rvbeg rd => some (iForm 0x3D rd 0 0x00, none)
  | .rvkeep ra => some (iForm 0x3D 0 ra 0x01, none)
  | .rvend ra => some (iForm 0x3D 0 ra 0x02, none)
  | .invr rd ra rb all sc => some (rForm 0x3E rd ra rb (8 * b2n all + scopeCode sc), none)
  | .barw rd ra rb sc => some (rForm 0x3F rd ra rb (scopeCode sc), none)
  | .semaP rd ra sc => some (iForm 0x3F rd ra (0x10 + scopeCode sc), none)
  | .semaTry rd ra sc => some (iForm 0x3F rd ra (0x20 + scopeCode sc), none)
  | .semaV rd ra rb sc => some (rForm 0x3F rd ra rb (0x30 + scopeCode sc), none)
  | .semaSet rd ra rb sc => some (rForm 0x3F rd ra rb (0x40 + scopeCode sc), none)
  | _ => none

/-- The words of an instruction, first word first: one or two for a foreman instruction, three for an element instruction,
none for an event. -/
def encode (i : Instr) : List Word :=
  match foremanCode i with
  | some (w, none) => [BitVec.ofNat 32 w]
  | some (w, some n) => [BitVec.ofNat 32 w, BitVec.ofNat 32 n]
  | none => match elemCode i with
    | some (op, w) =>
      let n := (rawOfWord op w).pack
      [BitVec.ofNat 32 n, BitVec.ofNat 32 (n / 2 ^ 32), BitVec.ofNat 32 (n / 2 ^ 64)]
    | none => []

/-- The bits of words, first word lowest. -/
def wordsNat : List Word → Nat
  | [] => 0
  | w :: r => w.toNat + 2 ^ 32 * wordsNat r

end Sys2Proof
end

