-- ==== Sys2Proof/Config.lean ====
section
/-! DEFINITION. What the part's fuses and the world outside the manual fix, and the free values.
Every constant here is opaque: no proof can see a value of it (log entries 8 and 13). -/

namespace Sys2Proof.Config

/-- A value the manual leaves open, for the n-th such value of a run (log entry 8). -/
opaque freeValue : Nat → BitVec 64

/-- The byte a read of an address that names no memory returns to a table walk or to the error ring (log entry 15). -/
opaque absentByte : Nat → Byte

/-- A region of host memory access that system software registers (R403): identifier, virtual start, length and identity. -/
opaque rdmaRegion : Nat → Nat × Nat × Nat × Nat

/-- The flow-control priority of an endpoint's queue pair (R402). -/
opaque rdmaPriority : Nat → Nat

/-- SHA-384 (R407, R408), an outside standard (log entry 13). -/
opaque sha384 : List Byte → BitVec 384

/-- RSASSA-PSS verification of a digest under a modulus, with the parameters of R407. -/
opaque rsaVerify : List Byte → BitVec 384 → List Byte → Bool

/-- SLH-DSA verification under FIPS 205 of the 48 digest bytes, empty context (R407). -/
opaque slhVerify : List Byte → BitVec 384 → List Byte → Bool

/-- Fused digest of the RSA modulus (R407). -/
opaque fuseRsaDigest : BitVec 384

/-- Fused digest of the SLH-DSA public key (R407). -/
opaque fuseSlhDigest : BitVec 384

/-- The fused security counter (R407). -/
opaque fuseCounter : BitVec 32

/-- WEAR.BIRTH of a quad (die * 48 + quad), loaded from the fuses (R417). -/
opaque fuseBirth : Nat → BitVec 16

/-- What a die's ROM finds of its own part of the image in a slot under R407, which the manual does not lay out: 0 accepted, else WHY of
R525 (log entry 13). -/
opaque diePart : Nat → Nat → List Byte → Nat

/-- The device's certificate chain (R410). -/
opaque certificateChain : List Byte

/-- The RSASSA-PSS signature of the responder over a transcript (R410). -/
opaque spdmSign : List Byte → List Byte

/-- The SLH-DSA signature of measurement block 0xF0 over a transcript (R410). -/
opaque spdmSlhSign : List Byte → List Byte

/-- The measurement block that the responder returns for a number the manual gives no contents (R410). -/
opaque spdmOtherBlock : Nat → List Byte

/-- Boundary cells captured from the pins by SAMPLE/PRELOAD (R411), for the n-th capture. -/
opaque boundaryPins : Nat → List Bool

end Sys2Proof.Config
end

