-- ==== Sys2Proof/Machine/SMap.lean ====
section
/-! DEFINITION. A sparse map from numbers to values, in one canonical form: keys strictly rising and no entry equal to
the default, so that equal maps are equal lists. Memory and every numbered bank of State are held this way. -/

namespace Sys2Proof.Machine

/-- Entries (key, value), keys strictly rising, no value equal to the map's default. -/
abbrev SMap (α : Type) := List (Nat × α)

/-- The value at a key, the default d where the key is not listed. -/
def SMap.get {α : Type} (d : α) : SMap α → Nat → α
  | [], _ => d
  | (k, v) :: r, i => if k = i then v else SMap.get d r i

/-- The entry removed. -/
def SMap.erase {α : Type} (m : SMap α) (i : Nat) : SMap α := m.filter (fun p => p.1 != i)

/-- The entry written in its place. -/
def SMap.insert {α : Type} : SMap α → Nat → α → SMap α
  | [], i, x => [(i, x)]
  | (k, v) :: r, i, x =>
    if k = i then (k, x) :: r else if i < k then (i, x) :: (k, v) :: r else (k, v) :: SMap.insert r i x

/-- A write: a value equal to the default removes the entry, so the canonical form is kept. -/
def SMap.set {α : Type} [DecidableEq α] (d : α) (m : SMap α) (i : Nat) (x : α) : SMap α :=
  if x = d then SMap.erase m i else SMap.insert m i x

/-- A change of one entry. -/
def SMap.mod {α : Type} [DecidableEq α] (d : α) (m : SMap α) (i : Nat) (f : α → α) : SMap α :=
  SMap.set d m i (f (SMap.get d m i))

/-- Every key lies above lo and keys rise strictly; no value is the default. -/
def SMap.wfFrom {α : Type} [DecidableEq α] (d : α) : Nat → SMap α → Bool
  | _, [] => true
  | lo, (k, v) :: r => decide (lo ≤ k) && decide (v ≠ d) && SMap.wfFrom d (k + 1) r

/-- The canonical form. -/
def SMap.wf {α : Type} [DecidableEq α] (d : α) (m : SMap α) : Bool := SMap.wfFrom d 0 m

end Sys2Proof.Machine
end

