-- ==== Sys2Proof/Machine/State.lean ====
section
/-! DEFINITION. The state of the machine as plain data: everything the manual gives one package, the fault and refusal
reasons, and the state after cold reset (R11). Numbered banks are sparse maps (SMap) with the reset record as default.

Numbering: an element is its identifier of R21; a claim is its identifier div 8; a quad is die * 48 + quad; a tile and its
island are die * 192 + tile; a foreman thread is quad * 4 + thread; an assay thread is 768 + die * 4 + thread (log entry 6). -/

namespace Sys2Proof.Machine

open Sys2Proof

/-- Reasons of a fault: the machine stops. -/
inductive Fault
  /-- An assay core names a physical address of 2^39 or more, which names no memory (R384). Raised by the physical accesses of
  Machine/Ops.lean for assay threads; safe: the manual gives the access no effect. -/
  | noMemory (addr : Nat)
deriving DecidableEq, Repr

/-- Reasons of a refusal. -/
inductive Refusal
  /-- The instruction has no meaning yet. Raised by the arms of Machine/Dispatch.lean alone; safe. -/
  | notModelled (mnemonic : String)
deriving DecidableEq, Repr

/-! ### Updates and reads in one cycle (R10) -/

/-- The latest updates of an RC field: their cycle, the value before them, and what they alone make of the field (log entry 70). -/
structure RcSide where
  cyc : Option Nat := none
  old : Nat := 0
  add : Nat := 0
deriving DecidableEq, Repr

/-- A creation of poison (R106): its origin, the quad and the cycle in which it came, and the cycle of the quad of its working's thread. -/
structure Creation where
  origin : Nat
  quad : Nat
  cyc : Nat
  tcyc : Nat
deriving DecidableEq, Repr

/-! ### Elements -/

/-- A counting window (R442, R443): its errors, of them the corrected ones and the mismatches, the cycle at which it ends, and the thresholds
in force when it opened. -/
structure ErrWin where
  n : Nat := 0
  ce : Nat := 0
  mm : Nat := 0
  till : Nat := 0
  ceThr : Nat := 0
  mmThr : Nat := 0
deriving DecidableEq, Repr

/-- A counter chain (R187). -/
structure Chain where
  startSh : Word := 0
  startLive : Word := 0
  stepSh : Word := 0
  stepLive : Word := 0
  countSh : Word := 0
  countLive : Word := 0
  x : Word := 0
deriving DecidableEq, Repr

/-- How far an issued access has come (R210, R242, R392, R494). -/
inductive Stage
  | issued
  /-- waiting for the walk of its translation (R392) -/
  | parked
  /-- refused by a translation fault or by a full undo log; issued and unperformed (R341, R441, R494) -/
  | refused
  | performed
deriving DecidableEq, Repr

/-- An access or macro that a firing started, until its replies have left (R210 to R213, R225 to R234, R264 to R276). -/
structure Access where
  /-- order of issue in its element -/
  seq : Nat
  op : Nat
  ty : Nat
  a : VReg
  b : VReg
  desc : Word
  /-- the seed constant of a walk (R234) -/
  seed : Word := 0
  /-- the base chosen at the firing, and that of SENT (R205) -/
  base : Nat := 0
  sbase : Nat := 0
  /-- consumer slots, as codes of R113, and the sideband fixed at the firing (R212) -/
  d0 : Nat
  d1 : Nat
  /-- drift-route entries of the firing's context that they name (R59, R210); 0 for none -/
  r0 : Nat := 0
  r1 : Nat := 0
  t0 : BitVec 4
  t1 : BitVec 4
  l0 : Bool
  l1 : Bool
  c : BitVec 2
  i : BitVec 6
  x : Bool
  stage : Stage := .issued
  /-- elements completed, and the elements of a macro (R279); 0 for a plain access -/
  prg : Nat := 0
  total : Nat := 0
  /-- what has been read so far -/
  got : VReg := VReg.zero
  /-- lanes whose atomic has performed (R228) -/
  done : BitVec 8 := 0
  /-- elements written (R217) -/
  count : Nat := 0
  /-- the address a chase has reached (R232), and its null pointer found -/
  node : Nat := 0
  ended : Bool := false
  /-- the address of a refused or parked part -/
  va : Nat := 0
  /-- the addresses of a chase by hops made, newest first, each with the poison of the record that held it as a pointer -/
  trail : List (Nat × Bool) := []
  /-- requests to a peer package whose replies have not returned: sequence number and lane (R306) -/
  peers : List (BitVec 16 × Nat) := []
  /-- its request is sent again, an error having answered the first (R503) -/
  retry : Bool := false
  /-- the speculations that its element had open at the firing: bank and issue number (R220) -/
  specs : List (Nat × Nat) := []
  /-- the sidebands of operands A and B (R379) -/
  aside : Nat := 0
  bside : Nat := 0
  /-- room taken at the firing on each destination and not yet used (R210) -/
  res0 : Bool := false
  res1 : Bool := false
  /-- tokens of the reply that have not left (R211), and how many have -/
  out0 : List Token := []
  out1 : List Token := []
  sent0 : Nat := 0
  sent1 : Nat := 0
deriving DecidableEq, Repr

/-- Where a queue entry can be had again from (R448): the firing of a number of its sender, through a consumer slot; a token of a reply, by its
destination and its place among the tokens of it; or nowhere, for an entry restored from a save image, with its error (R452). -/
inductive Origin
  | fired (e slot n : Nat)
  | reply (e : Nat) (k : Access) (second : Bool) (n : Nat)
  | restored (bad : Bool)
deriving DecidableEq, Repr

/-- A queue entry (R55), and where it came from. -/
structure QEntry where
  tok : Token
  origin : Origin
deriving DecidableEq, Repr

/-- An open wave of an ME: its context and iteration tags and the last access to enter order (R223). -/
structure Wave where
  c : BitVec 2
  i : BitVec 6
  self : Nat
  succ : Nat
deriving DecidableEq, Repr

/-- A copy of a leaf in a translation cache (R391). -/
structure Tlb where
  asid : Nat
  /-- virtual address of the page and log2 of its size -/
  page : Nat
  size : Nat
  leaf : DWord
  /-- where the leaf lies -/
  leafAt : Nat
deriving DecidableEq, Repr

/-- One firing of the history (R446): words 0 to 15. -/
abbrev History := List DWord

/-- An element (R53), the state of its accesses, and what monitors hold about it. -/
structure Elem where
  v : SMap VReg := []
  p : BitVec 8 := 0
  q : SMap (List QEntry) := []
  ch0 : Chain := {}
  ch1 : Chain := {}
  rr : Nat := 0
  gen : Word := 0
  active : BitVec 2 := 0
  /-- issued accesses whose replies have not left, oldest first -/
  accs : List Access := []
  /-- armed watches (R219) -/
  watches : List Access := []
  /-- LD and ST that cannot yet enter order, and the open waves (R223) -/
  wbuf : List Access := []
  waves : List Wave := []
  seq : Nat := 0
  tlb : List Tlb := []
  /-- firings made: the links' sequence count of R448 -/
  count : Nat := 0
  hist : List History := []
  /-- the quad cycle that the next three fields belong to -/
  cyc : Nat := 0
  /-- the slot that fired first in that cycle, whether a second has fired, and the paths used (R57, R68) -/
  first : Option Nat := none
  /-- the round-robin pointer as that cycle began -/
  rr0 : Nat := 0
  second : Bool := false
  used : List Nat := []
  /-- the throttling window and the cycles fired in it (R419) -/
  win : Nat := 0
  fired : Nat := 0
  /-- it fires in no cycle after this quad cycle: it has raised a fault or an ETRAP (R195, R432) -/
  barAt : Option Nat := none
  /-- the containment ladder in progress: the bad item (R434) -/
  ladder : Option BadItem := none
  /-- items with an error that a restore has brought back and nothing has consumed, each with the context that it concerns (R452) -/
  latent : List (Nat × BadItem) := []
  /-- counted errors, and counted replays (R442) -/
  errs : ErrWin := {}
  reps : ErrWin := {}
  /-- requests numbered to peers and the numbers outstanding (R306) -/
  peerSeq : BitVec 16 := 0
  peerOut : List (BitVec 16) := []
deriving DecidableEq, Repr

/-- An element record of a block, with its slots (R120 to R124). -/
structure ElemCfg where
  slots : SMap (BitVec 96) := []
  k : SMap Word := []
  conflict : BitVec 120 := 0
  rotate : BitVec 16 := 0
  preds : BitVec 8 := 0
  sink : Bool := false
  phase : Bool := false
deriving DecidableEq, Repr

/-- A claim's configuration in one context (R120 to R127). -/
structure BlockCfg where
  elems : SMap ElemCfg := []
  routes : SMap Word := []
  /-- index of the first race declaration, 0xFFFF for none (R121) -/
  declared : Nat := 0xFFFF
deriving DecidableEq, Repr

/-- A claim: the working that owns it (0 for none), its four contexts, and whether it is retired (R366, R461). -/
structure Claim where
  owner : Nat := 0
  blocks : SMap BlockCfg := []
  retired : Bool := false
deriving DecidableEq, Repr

/-- A token in flight (R76): its path, 0 to 3 for the links N, E, S, W and 4 + n for drift route n, and the sender's quad cycle at the
send. -/
structure Flight where
  src : Nat
  path : Nat
  dst : Nat
  queue : Nat
  tok : Token
  origin : Origin
  stamp : Nat
deriving DecidableEq, Repr

/-- A credit on its way back to the senders of a queue of an element, and the cycle of its quad at the pop (R76). -/
structure CreditBack where
  elem : Nat
  queue : Nat
  stamp : Nat
deriving DecidableEq, Repr

/-! ### Tiles and islands -/

/-- An open speculation (R220): the bank, the opener, its issue number at the opening, and the sectors it wrote with their poison marks, by
window address. -/
structure Spec where
  bank : Nat
  opener : Nat
  begun : Nat
  sectors : SMap (List Byte × Bool)
deriving DecidableEq, Repr

/-- A record of the undo log (R351): the region's working and depth, the entry, the sector's window address and its old
bytes and poison mark. -/
structure Undo where
  handle : Nat
  depth : Nat
  entry : Nat
  sector : Nat
  old : List Byte
  poison : Bool
deriving DecidableEq, Repr

/-- A tile: its shadow banks and its undo log (R220, R350, R351). -/
structure Tile where
  specs : List Spec := []
  undo : List Undo := []
deriving DecidableEq, Repr

/-- An operand slot (R258, R260); bytes 0 to 8191 are data and 8192 to 8703 the scale area. -/
structure OSlot where
  claim : Option (BitVec 2) := none
  fill : Nat := 0
  fmt : Nat := 0
  psn : Bool := false
  rdr : Nat := 0
  data : SMap Byte := []
deriving DecidableEq, Repr

/-- An accumulator slot (R259, R260): kind 0 none, 1 f32, 2 s32; word 64 i + j is element (i, j). -/
structure ASlot where
  claim : Option (BitVec 2) := none
  chain : Option Nat := none
  busy : Bool := false
  kind : Nat := 0
  psn : Bool := false
  val : SMap Word := []
deriving DecidableEq, Repr

/-- ISLTAB after reset (R283). -/
def isltabReset : DWord := 0x0000FFFFE4E4E4E4#64

/-- A matrix island (R257 to R286). -/
structure Island where
  ops : SMap OSlot := []
  accs : SMap ASlot := []
  tab : DWord := isltabReset
  /-- a written table that waits for the next step boundary (R283) -/
  tabNew : Option DWord := none
  /-- slots with a word found uncorrectable: slot, and true for an accumulator slot (R486, R487) -/
  bad : List (Nat × Bool) := []
  /-- the quad cycle in which the MAC array last worked, and the cycles of that throttling window in which it has (R419) -/
  workedAt : Nat := 0
  worked : Nat := 0
  /-- slots that firings have taken in a quad cycle: the cycle, and each element with the slot (R265) -/
  takenAt : Nat := 0
  taken : List (Nat × (Nat × Bool)) := []
deriving DecidableEq, Repr

/-! ### Foreman and assay threads -/

/-- A trap or fault to be taken: cause, element (0xFFFF for none), detail, argument and FAULTVA (R318, R428, R492); the
physical address of its record, its STOP, and true when its record has been written (R430, R433). -/
structure TrapInfo where
  cause : Nat
  eid : Nat := 0xFFFF
  detail : Nat := 0
  arg : Nat := 0
  va : Nat := 0
  pa : Nat := 0
  stop : Nat := 0
  /-- COUNT of its record (R442) -/
  count : Nat := 0
  logged : Bool := false
deriving DecidableEq, Repr

/-- A frame of RBACQ (R312): its mask, and for each block named the registers it was bound to, none for "not held". -/
structure Frame where
  mask : BitVec 7
  old : List (Nat × Option (List DWord))
deriving DecidableEq, Repr

/-- What a thread waits for (R309). The instruction stands at the PC until it completes. -/
inductive Wait
  | none
  /-- the word's address, its value and rd (R327) -/
  | waita (va : Nat) (value : Word) (rd : Nat)
  | wfi (rd : Nat) (mask : Nat)
  | barw (counter : Nat) (gen : Nat) (rd : Nat)
  | semaP (counter : Nat) (rd : Nat)
  | rbacq (mask : Nat)
  /-- the counter of its record (R344) -/
  | tqpush (counter : Nat)
  | hcopy (addr : Nat) (rd : Nat)
  | wstop (ends : Bool)
  | rvend (scope : Nat)
  | rvbeg (rd : Nat)
  | fence (kind : Nat) (scope : Nat)
  | invr (ident : Nat) (start : Nat) (len : Nat) (all : Bool) (scope : Nat)
  | wload (addr : Nat) (mask : Nat) (rd : Nat)
  | syscall (code : Nat)
  /-- its own refused access freezes the working, and its trap comes with the freeze (R432, R493) -/
  | fault
deriving DecidableEq, Repr

/-- A foreman or assay thread (R309 to R318). -/
structure Thread where
  /-- the handle of its working; 0 when free -/
  bound : Nat := 0
  pc : DWord := 0
  g : SMap DWord := []
  held : BitVec 8 := 1
  frames : List Frame := []
  z : Bool := false
  n : Bool := false
  c : Bool := false
  v : Bool := false
  f : Bool := false
  intrap : Bool := false
  trappc : DWord := 0
  trapcause : DWord := 0
  trapvec : DWord := 0
  traparg : Word := 0
  macsel : BitVec 15 := 0
  faultva : BitVec 56 := 0
  cycle : Nat := 0
  /-- CANARY: WIN, EN, IDLE, STALLS (R463) -/
  canWin : BitVec 8 := 24
  canEn : Bool := true
  canIdle : Nat := 0
  canStalls : Nat := 0
  canSide : RcSide := {}
  /-- an event of R462 has come in the present cycle -/
  canSeen : Bool := false
  wait : Wait := .none
  /-- order of waiting, and the quad cycle at which it began (R313, R356, R521) -/
  since : Nat := 0
  waitAt : Nat := 0
  /-- a pending arrival of BARW: counter and GEN (R355) -/
  arrival : Option (Nat × Nat) := none
  /-- a phase has ended since the last WFI that returned (R333) -/
  phaseEnded : Bool := false
  /-- traps held until ERET (R330, R433) -/
  heldTraps : List TrapInfo := []
  /-- a stopped assay thread (R537) -/
  stopped : Bool := false
  /-- requests numbered to peers and the numbers outstanding (R306) -/
  peerSeq : BitVec 16 := 0
  peerOut : List (BitVec 16) := []
deriving DecidableEq, Repr

/-- A quad: its clock, counters, gauges and translation cache. -/
structure Quad where
  cyc : Nat := 0
  /-- sync counters in three copies (R354, R466 to R468) -/
  sync : SMap (DWord × DWord × DWord) := []
  /-- the thread that owns each counter in use (R377) -/
  syncOwner : SMap Nat := []
  /-- round-robin position of the foreman core (R309) -/
  turn : Nat := 0
  /-- the cycle in which the core last issued (R309) -/
  issued : Option Nat := none
  tlb : List Tlb := []
  /-- THERMQ (R418) -/
  temp : BitVec 12 := 0
  peak : BitVec 12 := 0
  /-- THROTTLE: STEP in force and the step written (R419) -/
  step : BitVec 8 := 0
  stepNew : Option (BitVec 8) := none
  /-- the assay cycle of the last write, and STEP before the writes of that cycle (R422) -/
  stepWas : Option (Nat × BitVec 8) := none
  peakSide : RcSide := {}
  fset : BitVec 16 := 28
  wearNow : BitVec 16 := 0
  derate : BitVec 16 := 0
  limit : BitVec 16 := 20
  wornOut : Bool := false
  thresh : BitVec 16 := 40
  droopCount : BitVec 32 := 0
  droopSide : RcSide := {}
  /-- the supply in microvolts, and the detector's state: tripped, and the cycles above the level since (R416) -/
  supply : Nat := 650000
  drooped : Bool := false
  above : Nat := 0
  hot : Bool := false
  sweep : Nat := 0
  /-- the latest cycle of an RBREL, and the blocks that it freed (R313) -/
  relAt : Option Nat := none
  relN : Nat := 0
deriving DecidableEq, Repr

/-! ### Dies -/

/-- A layout entry with the base fixed for a running command (R291): raw entry, base, and the relative tile of a tile-SRAM
entry. -/
structure Fixed where
  raw : BitVec 512
  base : Nat
  tile : Nat
deriving DecidableEq, Repr

/-- A hoist (R290 to R308). -/
structure Hoist where
  busy : Bool := false
  kind : BitVec 3 := 0
  id : BitVec 16 := 0
  prg : Nat := 0
  total : Nat := 0
  /-- OWNER of HSTAT1 -/
  owner : BitVec 8 := 0
  handle : Nat := 0
  /-- the element of an HCOPYE, or none for a thread's command -/
  issuer : Option Nat := none
  cmd : BitVec 512 := 0
  src : Fixed := ⟨0, 0, 0⟩
  dst : Fixed := ⟨0, 0, 0⟩
  cmp : Fixed := ⟨0, 0, 0⟩
  /-- open regions of the working when a thread's command was accepted (R352) -/
  depth : Nat := 0
  /-- the next bit of a sluice body, and its block (R289) -/
  bitPos : Nat := 0
  /-- stopped by a fault or an abort; the unit is not done (R494, R517) -/
  halted : Bool := false
  /-- elements of a copy done, in copy order (R294) -/
  pos : Nat := 0
  /-- requests to a peer package: the next number, those outstanding with the element of the unit that each serves, what has been read,
  and that the unit's writes have been sent (R306) -/
  peerSeq : BitVec 16 := 0
  peers : List (BitVec 16 × Nat) := []
  got : List (Nat × List Byte × Bool) := []
  sent : Bool := false
  /-- of those, what is asked for again (R435) -/
  again : List Nat := []
  /-- blocks of a sluice body that a restored command still has to pass over (R308) -/
  skip : Nat := 0
  /-- a collective's side has been published: its completion word is due (R304) -/
  flipped : Bool := false
deriving DecidableEq, Repr

/-- What a bid asks for (R362, R366, R367, R381, R522): a rectangle, the alignments allowed (bit 2 * (row mod 4) + col mod 2), and what a
restore's image holds. -/
structure Bid where
  width : Nat
  height : Nat
  islands : Bool
  aligns : BitVec 8
  handle : Nat := 0
  prio : Nat := 0
  counters : List Nat := []
  blocks : Nat := 0
deriving DecidableEq, Repr

/-- What the launch of a task needs of its parent, where that has ended (R43, R372). -/
structure TaskHome where
  asid : Nat
  prio : Nat
  subTable : Nat
  subs : Nat
deriving DecidableEq, Repr

/-- A task record in a die's queue (R190), and the order of its push; its bid and its bypasses once it is the oldest (R362, R363). -/
structure Task where
  bytes : List Byte
  age : Nat
  /-- the working of the parent; 0 once it has ended normally, with what the launch needs of it -/
  parent : Nat
  bypass : Nat := 0
  home : Option TaskHome := none
deriving DecidableEq, Repr

/-- CWROW of one element row, and the spare's progress (R453 to R461). -/
structure CwRow where
  col : BitVec 8 := 0
  watch : Bool := false
  subcol : BitVec 8 := 0
  sub : Bool := false
  spsus : Bool := false
  mismatch : BitVec 16 := 0
  /-- cycle of the quad clock at which the interval began; the last suspect column -/
  began : Nat := 0
  lastSus : Nat := 0
  /-- under HOLD: 1 while a firing cycle waits for its verdict, 2 when it may take effect; else firings made and not yet
  compared (R457) -/
  pending : Nat := 0
  /-- the first slot of the cycle that waits -/
  slot : Option Nat := none
  mmSide : RcSide := {}
deriving DecidableEq, Repr

/-- A counted error source (R442). -/
structure ErrCount where
  src : ErrSource
  win : ErrWin
deriving DecidableEq, Repr

/-- A die. -/
structure Die where
  tasks : List Task := []
  hoists : SMap Hoist := []
  tlb : List Tlb := []
  arbBypass : BitVec 8 := 8
  raceOk : Bool := false
  compact : Bool := true
  astbase : DWord := 0
  /-- THERMCTL (R418) -/
  thot : BitVec 12 := 380
  tcool : BitVec 12 := 340
  thPeriod : BitVec 8 := 20
  thEn : Bool := true
  sample : Nat := 0
  /-- the assay cycle of the last sample -/
  sampledAt : Nat := 0
  /-- MEAS (R408) -/
  meas : SMap (BitVec 384) := []
  /-- the register and the stage of each extension by firmware -/
  stages : List (Nat × Nat) := []
  alerts : List DWord := []
  /-- the alerts that stood before the sample of an assay cycle, less those read since (R422) -/
  alertWas : Option (Nat × List DWord) := none
  /-- ERRRING, ERRPTR, ERRDROP (R429) -/
  ringEn : Bool := false
  ringSize : BitVec 5 := 6
  ringBase : Nat := 0
  head : Nat := 0
  tail : Nat := 0
  dropped : BitVec 32 := 0
  dropSide : RcSide := {}
  /-- ERRCTL (R444): LOGC, LOGT, WRPT, NORPL, NOSUB -/
  errctl : BitVec 5 := 0
  /-- ERRTHR (R443) -/
  ceThr : BitVec 8 := 4
  ceWin : BitVec 8 := 32
  mmThr : BitVec 8 := 2
  rpThr : BitVec 8 := 3
  rpWin : BitVec 8 := 24
  rvMax : BitVec 8 := 8
  /-- CWCTL (R453) -/
  cwInt : BitVec 8 := 20
  cwEn : Bool := true
  cwHold : Bool := true
  cwrow : SMap CwRow := []
  suspect : SMap DWord := []
  /-- bits of SUSPECT set in an assay cycle (R10) -/
  suspectAt : SMap (Nat × DWord) := []
  /-- WKILL (R500) -/
  wkHandle : BitVec 16 := 0
  wkCause : BitVec 8 := 0
  wkGo : Bool := false
  bootstat : DWord := 0
  /-- assay cycles since cold reset (R430) -/
  cycles : Nat := 0
  turn : Nat := 0
  issued : Option Nat := none
  started : Bool := false
  errs : List ErrCount := []
  /-- the next number of the haulage engine that sends its collectives' flits (R306) -/
  engineSeq : BitVec 16 := 0
  /-- images with a poisoned line in the configuration cache (R451) -/
  badLines : List Nat := []
  /-- the reservation: endpoint or task bid, and its rectangle (R364) -/
  reserved : Option (Nat × Nat × Nat × Nat × Nat) := none
deriving DecidableEq, Repr

/-! ### Workings -/

/-- STATE of WSTAT (R336). -/
inductive RunState
  | idle | running | paused
deriving DecidableEq, Repr

/-- An open recovery region (R349 to R353). -/
structure Region where
  restart : DWord
  rd : Nat
  retry : Nat
  keeps : List DWord
  /-- kept registers: element and register number -/
  regs : List (Nat × Nat × VReg)
  macs : List (Nat × Access)
  /-- kept islands: relative index, operand slots, accumulator slots -/
  isls : List (Nat × (List (Nat × OSlot) × List (Nat × ASlot)))
  state : RunState
  active : BitVec 2
  next : BitVec 2
  expl : Bool
  budget : Nat
  inPhase : Bool
  sinks : List Nat
  /-- checkpoint bytes taken from the undo log of each tile -/
  room : List (Nat × Nat)
deriving DecidableEq, Repr

/-- A collective binding (R358). -/
structure CollBind where
  id : Nat
  rank : Nat
  parties : Nat
  /-- the party table: package in [8:0] and die in [10:9] for each rank -/
  table : List (BitVec 32)
deriving DecidableEq, Repr

/-- The parent of a sub-working (R190, R372). -/
structure Parent where
  handle : Nat
  counter : Nat
deriving DecidableEq, Repr

/-- How a working ends (R360). -/
inductive EndKind
  | normal | faulted | killed
deriving DecidableEq, Repr

/-- A working, from its commit until its end, or while it is saved (R32, R357 to R382). -/
structure Working where
  asid : Nat := 0
  prio : Nat := 0
  nomove : Bool := false
  /-- launched under the expert race policy (R236, R365) -/
  raceX : Bool := false
  ident : Byte := 0
  width : Nat := 0
  height : Nat := 0
  islands : Bool := false
  die : Nat := 0
  row : Nat := 0
  col : Nat := 0
  thread : Nat := 0
  /-- the endpoint of its launch, and the tag of the command record; none for a sub-working -/
  launch : Option (Nat × Nat) := none
  parent : Option Parent := none
  config : Nat := 0
  program : Nat := 0
  progLen : Nat := 0
  subTable : Nat := 0
  subs : Nat := 0
  handlerTable : Nat := 0
  handlers : Nat := 0
  streams : List (BitVec 32) := []
  colls : List CollBind := []
  graphKey : DWord := 0
  layout : SMap (BitVec 512) := []
  decls : List (BitVec 128) := []
  /-- the phase element: block index and position (R129) -/
  phaseAt : Nat × Nat := (0, 0)
  /-- the image address that each context was last loaded from (R450) -/
  ctxFrom : SMap Nat := []
  state : RunState := .idle
  active : BitVec 2 := 0
  next : BitVec 2 := 0
  expl : Bool := false
  loading : Bool := false
  budget : Nat := 0
  phases : Nat := 0
  /-- a phase is running (R376), and the sinks that have counted (R375) -/
  inPhase : Bool := false
  sinks : List Nat := []
  /-- the cycle in which the last sink of the phase counted, for each quad of the working, until the next phase starts, and the context that
  the predicate network named as the phase ended (R340, R375) -/
  mark : List (Nat × Nat) := []
  endNet : BitVec 2 := 0
  report : List Token := []
  /-- accesses issued before the last observable change that have not performed: element and seq (R341) -/
  awaited : List (Nat × Nat) := []
  /-- the poison record (R106) -/
  poison : Option Nat := none
  /-- the creation that wrote it, and the latest creation (R10, R466) -/
  poisonBy : Option Creation := none
  poisonLast : Option Creation := none
  /-- GUARDDROP (R471); whether a drop has set FIRST since the launch, and the first drop of the latest cycle of drops -/
  guardCount : Nat := 0
  guardFirst : BitVec 16 := 0
  guardAny : Bool := false
  guardSide : RcSide := {}
  guardNew : BitVec 16 := 0
  regions : List Region := []
  keeps : List DWord := []
  /-- cycles since the launch by the clock of each quad of the working (R196) -/
  clocks : SMap Nat := []
  msgs : SMap Nat := []
  /-- a fault under way: what the thread will take, and the quad cycle of its freeze (R432) -/
  freeze : Option TrapInfo := none
  freezeAt : Nat := 0
  /-- the quad whose clock counts it -/
  freezeQuad : Nat := 0
  /-- faults held behind it (R433) -/
  faults : List TrapInfo := []
  /-- a rollback that has been decided: its depth and cycle, and the errors that asked for it (R437, R439, R440) -/
  rolling : Option (Nat × Nat) := none
  rollFor : List TrapInfo := []
  /-- elements whose spare is to take over (R436, R460), and those whose claims are retired at its end (R461) -/
  subst : List Nat := []
  retire : List Nat := []
  /-- a pending stop of WSTOP, true for .end (R339) -/
  stopping : Option Bool := none
  /-- its thread has called 0x2000: the end value (R374) -/
  ending : Option DWord := none
  /-- a kill in progress: how it counts and its end value (R438) -/
  killing : Option (EndKind × DWord) := none
  /-- saved: the virtual address of its image (R377, R381) -/
  savedAt : Option Nat := none
  /-- join updates held while it is saved, or until a counter of which no two copies agree has been written: counter and kind (R377, R468) -/
  joins : List (Nat × EndKind) := []
  /-- its claims' clocks are gated for a pre-emption (R377) -/
  gated : Bool := false
deriving DecidableEq, Repr

/-! ### Banksman, host port, haulage and platform -/

/-- A command record in its endpoint's queue, in version 3 form (R357 to R362): its bid once it bids, and whether a kill has begun. -/
structure Record where
  bytes : List Byte
  age : Nat
  bid : Option Bid := none
  bypass : Nat := 0
  /-- a kill has begun: die, claim column, claim row and graph key of what it kills -/
  begun : Option (Nat × Nat × Nat × DWord) := none
  /-- taken for a saved working, and held until its restore (R361) -/
  held : Bool := false
deriving DecidableEq, Repr

/-- An endpoint of the banksman (R362, R404): its command ring, the doorbell's count and the count fetched. -/
structure Endpoint where
  up : Bool := false
  ring : SMap Byte := []
  doorbell : Nat := 0
  fetched : Nat := 0
  /-- records fetched and not finished, oldest first -/
  queue : List Record := []
  congestion : Nat := 0
deriving DecidableEq, Repr

/-- A bid that the arbiter has admitted and the loader has not finished (R363, R369): its record, its source, its place and its handle. -/
structure Job where
  bytes : List Byte
  /-- endpoint of a launch or restore; 64 + die for a task record -/
  source : Nat
  bid : Bid
  die : Nat
  row : Nat
  col : Nat
  thread : Nat
  handle : Nat
  parent : Option Parent := none
  home : Option TaskHome := none
deriving DecidableEq, Repr

/-- A working as a save image holds it (R377, R378), with the image's bytes: what the sections of unspecified layout stand for (log entry 30).
Everything names the placement that the working had. -/
structure Snap where
  handle : Nat
  bytes : List Byte
  whole : Bool
  work : Working
  thread : Thread
  /-- the sync counters it owns: number and value -/
  counters : List (Nat × DWord)
  blocks : List (SMap BlockCfg)
  elems : List Elem
  isls : List Island
  specs : List (Nat × Spec)
  undos : List (Nat × Undo)
  /-- the offset in section 5 of each tile's part -/
  parts : List Nat
  /-- the bytes of its share, and the sectors that are poisoned -/
  share : List (Nat × Byte)
  marks : List Nat
  /-- the words of its share with an uncorrectable error -/
  bad : List Nat
  hoists : List (Nat × Hoist)
deriving DecidableEq, Repr

/-- What the host port sends on an endpoint: a completion record, the bytes of an RDMA READ, an answer to an RDMA operation, or a congestion
notification (R403). -/
inductive HostKind
  | completion | data | ack | nak | congestion
deriving DecidableEq, Repr

/-- A completion record written to a host completion queue (R360), or a reply of the host port. -/
structure HostMsg where
  ep : Nat
  kind : HostKind := .completion
  bytes : List Byte
deriving DecidableEq, Repr

/-- A flit sent on haulage to a peer (R305). -/
structure FlitOut where
  bytes : List Byte
  data : List Byte := []
deriving DecidableEq, Repr

/-- An entry of a stamp unit's replay filter (R307): the unit, the source with its package, the number and the reply. -/
structure Replay where
  unit : Nat
  source : Nat
  seq : BitVec 16
  reply : List Byte
deriving DecidableEq, Repr

/-- A link between dies or packages (R504 to R506). -/
structure LinkSt where
  up : Bool := true
  lanes : Nat := 4
  replays : Nat := 0
deriving DecidableEq, Repr

/-- The instruction of the TAP (R411). -/
inductive TapIr
  | bypass | idcode | sample | extest
deriving DecidableEq, Repr

/-- The SPDM responder and the TAP (R410, R411). -/
structure Platform where
  spdmVersion : Bool := false
  spdmCaps : Bool := false
  spdmAlgs : Bool := false
  transcript : List Byte := []
  answers : List (List Byte) := []
  tapIr : TapIr := .idcode
  tapDr : BitVec 32 := 0
  boundary : List Bool := []
  pins : List Bool := []
  driving : Bool := false
  captures : Nat := 0
deriving DecidableEq, Repr

/-! ### The model's own fields -/

/-- What moves next (log entry 1). -/
inductive Act
  /-- a foreman core (0 to 191) or an assay core (192 to 195) issues one instruction -/
  | core (c : Nat)
  /-- the first firing of an element in a cycle, and its second (R65, R68) -/
  | fire (e : Nat)
  | fire2 (e : Nat)
  /-- a clock cycle of a quad, of a die's assay core -/
  | tick (q : Nat)
  | tickAssay (d : Nat)
  /-- the internal events that the state enables -/
  | settle
  /-- the firmware of a die extends a measurement register from M2 on by a stage's digest (R408) -/
  | measure (d m stage : Nat) (digest : BitVec 384)
  | event (i : Instr)
deriving DecidableEq, Repr

/-- The element, slot and thread that the current instruction runs on (log entry 7). -/
structure Cursor where
  elem : Nat := 0
  slot : Nat := 0
  second : Bool := false
  thread : Nat := 0
deriving DecidableEq, Repr

/-- The machine. -/
structure State where
  /-- HBM at physical addresses, tile SRAM at fabric-window addresses (R198, R384); an unlisted byte reads 0 (log entry 3) -/
  mem : List Host.Cell
  /-- sectors marked poisoned, by address (R216) -/
  poison : SMap Bool
  /-- sectors with an uncorrectable error (R425) -/
  badSec : SMap Bool
  elems : SMap Elem
  claims : SMap Claim
  flights : List Flight
  /-- the free entries of each inbound queue as its senders count them, less the tokens sent to it: entry 8 * element + queue; 4 where
  unlisted (R57) -/
  space : SMap Nat
  credits : List CreditBack
  tiles : SMap Tile
  islands : SMap Island
  threads : SMap Thread
  quads : SMap Quad
  dies : SMap Die
  works : SMap Working
  endpoints : SMap Endpoint
  jobs : List Job
  /-- the save images that this package has written, and the handles that ended while they were saved (R361) -/
  shelf : List Snap
  ended : SMap Bool
  /-- the next handle to try, and the fetch and push counter (R360, R362) -/
  nextHandle : Nat
  age : Nat
  /-- what the host port has to send, and what it has sent (R402) -/
  hostOut : List HostMsg
  hostSent : List HostMsg
  /-- PTPTIME (R405): NS, LOCK, VALID, and the receipt time of the last Sync -/
  ptpNs : BitVec 62
  ptpLock : Bool
  ptpValid : Bool
  ptpReceipt : BitVec 62
  ptpDelay : BitVec 62
  /-- priorities paused by flow control (R402) -/
  pfc : BitVec 8
  /-- flits sent, replay filters, and the collectives told to stop (R305, R307, R517) -/
  flits : List FlitOut
  filters : List Replay
  links : SMap LinkSt
  /-- boot flash, recovery mode and the slot started (R524 to R526) -/
  flash : SMap Byte
  recovery : Bool
  /-- this package's number, 0 to 511 (R16) -/
  package : Nat
  platform : Platform
  agenda : List Act
  cur : Cursor
  /-- free values drawn (log entry 8) -/
  free : Nat
deriving DecidableEq, Repr

/-- The machine right after cold reset (R11): no working, no token, memory with nothing listed, registers at their reset
values. Values that the manual does not give are those of log entry 4. -/
def State.reset : State :=
  { mem := [], poison := [], badSec := [], elems := [], claims := [], flights := [], space := [], credits := [], tiles := [],
    islands := [], threads := [], quads := [], dies := [], works := [], endpoints := [], jobs := [], shelf := [], ended := [], nextHandle := 1,
    age := 0, hostOut := [], hostSent := [], ptpNs := 0, ptpLock := false, ptpValid := false, ptpReceipt := 0,
    ptpDelay := 0, pfc := 0, flits := [], filters := [], links := [], flash := [], recovery := false, package := 0,
    platform := {}, agenda := [], cur := {}, free := 0 }

end Sys2Proof.Machine
end

