-- ==== Sys2Proof/Machine/Ops.lean ====
section
/-! DEFINITION. Named operations over the state: banks, geometry (R18 to R25), memory by bytes and sectors (R198 to R200,
R216), the layout entry (R201 to R203), foreman registers (R311), traps (R330) and the return from one (R332). -/

namespace Sys2Proof.Machine

open Sys2Proof

/-- What every meaning answers. -/
abbrev Out := Host.Outcome State Fault Refusal

/-! ### Banks -/

def State.elem (s : State) (e : Nat) : Elem := SMap.get {} s.elems e
def State.setElem (s : State) (e : Nat) (x : Elem) : State := { s with elems := SMap.set {} s.elems e x }
def State.modElem (s : State) (e : Nat) (f : Elem → Elem) : State := s.setElem e (f (s.elem e))

def State.claim (s : State) (c : Nat) : Claim := SMap.get {} s.claims c
def State.setClaim (s : State) (c : Nat) (x : Claim) : State := { s with claims := SMap.set {} s.claims c x }

def State.tile (s : State) (t : Nat) : Tile := SMap.get {} s.tiles t
def State.setTile (s : State) (t : Nat) (x : Tile) : State := { s with tiles := SMap.set {} s.tiles t x }

def State.island (s : State) (t : Nat) : Island := SMap.get {} s.islands t
def State.setIsland (s : State) (t : Nat) (x : Island) : State := { s with islands := SMap.set {} s.islands t x }

def State.thread (s : State) (t : Nat) : Thread := SMap.get {} s.threads t
def State.setThread (s : State) (t : Nat) (x : Thread) : State := { s with threads := SMap.set {} s.threads t x }
def State.modThread (s : State) (t : Nat) (f : Thread → Thread) : State := s.setThread t (f (s.thread t))

def State.quad (s : State) (q : Nat) : Quad := SMap.get {} s.quads q
def State.setQuad (s : State) (q : Nat) (x : Quad) : State := { s with quads := SMap.set {} s.quads q x }
def State.modQuad (s : State) (q : Nat) (f : Quad → Quad) : State := s.setQuad q (f (s.quad q))

def State.die (s : State) (d : Nat) : Die := SMap.get {} s.dies d
def State.setDie (s : State) (d : Nat) (x : Die) : State := { s with dies := SMap.set {} s.dies d x }
def State.modDie (s : State) (d : Nat) (f : Die → Die) : State := s.setDie d (f (s.die d))

def State.work (s : State) (h : Nat) : Working := SMap.get {} s.works h
def State.setWork (s : State) (h : Nat) (x : Working) : State := { s with works := SMap.set {} s.works h x }
def State.modWork (s : State) (h : Nat) (f : Working → Working) : State := s.setWork h (f (s.work h))

/-- True while a handle names a working, resident or saved (R360). -/
def State.hasWork (s : State) (h : Nat) : Bool := s.works.any (fun p => p.1 == h)

def Die.hoist (d : Die) (n : Nat) : Hoist := SMap.get {} d.hoists n
def Die.setHoist (d : Die) (n : Nat) (x : Hoist) : Die := { d with hoists := SMap.set {} d.hoists n x }

def Elem.reg (x : Elem) (n : Nat) : VReg := SMap.get VReg.zero x.v n
/-- A register written; an error that waited in it is gone (R426). -/
def Elem.setReg (x : Elem) (n : Nat) (r : VReg) : Elem :=
  { x with v := SMap.set VReg.zero x.v n r, latent := x.latent.filter (fun p => p.2 != .reg n) }
def Elem.queue (x : Elem) (n : Nat) : List QEntry := SMap.get [] x.q n
def Elem.setQueue (x : Elem) (n : Nat) (l : List QEntry) : Elem := { x with q := SMap.set [] x.q n l }
def Elem.chain (x : Elem) (n : Nat) : Chain := if n = 0 then x.ch0 else x.ch1
def Elem.setChain (x : Elem) (n : Nat) (c : Chain) : Elem := if n = 0 then { x with ch0 := c } else { x with ch1 := c }

def Island.op (x : Island) (n : Nat) : OSlot := SMap.get {} x.ops n
def Island.setOp (x : Island) (n : Nat) (o : OSlot) : Island := { x with ops := SMap.set {} x.ops n o }
def Island.acc (x : Island) (n : Nat) : ASlot := SMap.get {} x.accs n
def Island.setAcc (x : Island) (n : Nat) (a : ASlot) : Island := { x with accs := SMap.set {} x.accs n a }

/-- The fields of ISLTAB that a write sets. -/
def isltabWritable : DWord := 0x0001FFFFFFFFFFFF#64

/-- ISLTAB as read: a written table stands at once in what is read (R9, R283). -/
def Island.tabRead (x : Island) : DWord :=
  match x.tabNew with
  | some n => (n &&& isltabWritable) ||| (x.tab &&& ~~~isltabWritable)
  | none => x.tab

/-! ### Geometry (R18 to R26, R306) -/

def dieOf (e : Nat) : Nat := bits e 15 14
def claimRowOf (e : Nat) : Nat := bits e 13 8
def claimColOf (e : Nat) : Nat := bits e 7 3
def posOf (e : Nat) : Nat := bits e 2 0
/-- Element column and row on its die (R19). -/
def colOf (e : Nat) : Nat := 4 * claimColOf e + posOf e % 4
def rowOf (e : Nat) : Nat := 2 * claimRowOf e + posOf e / 4

/-- The element at column x, row y of a die (R19, R21). -/
def eidAt (d x y : Nat) : Nat := d * 16384 + y / 2 * 256 + x / 4 * 8 + (y % 2 * 4 + x % 4)

/-- A claim's key: element identifier div 8. -/
def claimKey (d row col : Nat) : Nat := d * 2048 + row * 32 + col

/-- The tile of an element, die * 192 + tile (R18). -/
def tileOf (e : Nat) : Nat := dieOf e * 192 + claimRowOf e / 4 * 16 + claimColOf e / 2

/-- The quad of an element, die * 48 + quad (R18). -/
def quadOf (e : Nat) : Nat := dieOf e * 48 + claimRowOf e / 8 * 8 + claimColOf e / 4

/-- The quad of a tile. -/
def quadOfTile (t : Nat) : Nat := t / 192 * 48 + t % 192 / 32 * 8 + t % 16 / 2

/-- 0 AE, 1 SE, 2 ME (R20). -/
def kindOf (e : Nat) : Nat := if posOf e = 3 then 1 else if posOf e = 7 then 2 else 0

/-- The neighbour on a link, 0 N, 1 E, 2 S, 3 W; none at the edge of the die. -/
def neighbour (e link : Nat) : Option Nat :=
  let d := dieOf e; let x := colOf e; let y := rowOf e
  match link with
  | 0 => if y = 0 then none else some (eidAt d x (y - 1))
  | 1 => if x = 127 then none else some (eidAt d (x + 1) y)
  | 2 => if y = 95 then none else some (eidAt d x (y + 1))
  | _ => if x = 0 then none else some (eidAt d (x - 1) y)

/-- The queue that a token sent on a link enters: i2, i3, i0, i1 for N, E, S, W (R56). -/
def linkQueue (link : Nat) : Nat := (link + 2) % 4

/-- The die, quad and core of a thread. -/
def quadOfThread (t : Nat) : Nat := t / 4
def isAssay (t : Nat) : Bool := 768 ≤ t
def dieOfThread (t : Nat) : Nat := if isAssay t then (t - 768) / 4 else t / 192

/-- The working that owns an element's claim; 0 for none. -/
def State.owner (s : State) (e : Nat) : Nat := (s.claim (e / 8)).owner

/-- The block index of an element in its working (R121). -/
def blockIndex (w : Working) (e : Nat) : Nat := (claimRowOf e - w.row) * w.width + (claimColOf e - w.col)

/-- The element of a block index and position of a working. -/
def elemOfBlock (w : Working) (b pos : Nat) : Nat := (claimKey w.die (w.row + b / w.width) (w.col + b % w.width)) * 8 + pos

/-- The elements of a working in block order and position order. -/
def Working.elems (w : Working) : List Nat :=
  (List.range (w.width * w.height * 8)).map (fun i => elemOfBlock w (i / 8) (i % 8))

/-- Tiles across and down that a working touches, and its first tile's column and row (R202). -/
def Working.tileCols (w : Working) : Nat := (w.col + w.width - 1) / 2 - w.col / 2 + 1
def Working.tileRows (w : Working) : Nat := (w.row + w.height - 1) / 4 - w.row / 4 + 1
def Working.tileCount (w : Working) : Nat := w.tileCols * w.tileRows

/-- The tile of a relative tile number (R202); islands are numbered alike (R36). -/
def Working.tileAt (w : Working) (n : Nat) : Nat :=
  w.die * 192 + (w.row / 4 + n / w.tileCols) * 16 + (w.col / 2 + n % w.tileCols)

/-- The relative tile of a tile. -/
def Working.relTile (w : Working) (t : Nat) : Nat :=
  (t % 192 / 16 - w.row / 4) * w.tileCols + (t % 16 - w.col / 2)

/-- True when a claim of the working lies in its rectangle. -/
def Working.covers (w : Working) (e : Nat) : Bool :=
  dieOf e == w.die && w.row ≤ claimRowOf e && claimRowOf e < w.row + w.height && w.col ≤ claimColOf e &&
  claimColOf e < w.col + w.width

/-- The working's cycles by the clock of a quad (R196). -/
def Working.clock (w : Working) (q : Nat) : Nat := SMap.get 0 w.clocks q
/-- The resident cycle count of its thread's quad. -/
def Working.cycles (w : Working) : Nat := w.clock (w.thread / 4)

/-- Nothing holds the working as a whole: no kill, no save, no rollback and no substitution is under way (R377, R438, R440, R460). -/
def Working.live (w : Working) : Bool := w.killing.isNone && w.savedAt.isNone && w.rolling.isNone && w.subst.isEmpty && !w.gated

/-- What a thread waits for and may be woken from; a thread whose working is held wakes for nothing. -/
def State.waitOf (s : State) (t : Nat) : Wait :=
  let x := s.thread t
  if isAssay t || (s.work x.bound).live then x.wait else .none

/-! ### Credits (R57) -/

/-- The entry of space for a queue of an element. -/
def spaceKey (e q : Nat) : Nat := 8 * e + q

/-- The credit of the senders of a queue of an element. -/
def State.spaceOf (s : State) (k : Nat) : Nat := SMap.get 4 s.space k
def State.setSpace (s : State) (k n : Nat) : State := { s with space := SMap.set 4 s.space k n }

/-! ### Configuration of an element -/

def BlockCfg.elem (b : BlockCfg) (p : Nat) : ElemCfg := SMap.get {} b.elems p
def Claim.block (c : Claim) (x : Nat) : BlockCfg := SMap.get {} c.blocks x

/-- The element record of an element in a context. -/
def State.cfg (s : State) (e ctx : Nat) : ElemCfg := ((s.claim (e / 8)).block ctx).elem (posOf e)

/-- The element record of the active context (R53). -/
def State.curCfg (s : State) (e : Nat) : ElemCfg := s.cfg e (s.elem e).active.toNat

/-- A drift-route entry of the active context (R59). -/
def State.route (s : State) (e n : Nat) : Nat :=
  (SMap.get 0 ((s.claim (e / 8)).block (s.elem e).active.toNat).routes n).toNat

/-- The element and queue that a link reaches (R56); none at the edge of the die. -/
def linkTarget (e link : Nat) : Option (Nat × Nat) := (neighbour e link).map (fun n => (n, linkQueue link))

/-- The element that a drift-route entry reaches from e; none for an undefined route or one that leaves the die. -/
def routeDest (e r : Nat) : Option Nat :=
  let x : Int := colOf e + sextInt 8 (bits r 28 21)
  let y : Int := rowOf e + sextInt 8 (bits r 20 13)
  if bit r 31 && 0 ≤ x && x < 128 && 0 ≤ y && y < 96 then some (eidAt (dieOf e) x.toNat y.toNat) else none

/-- The element and queue that a drift-route entry reaches. -/
def routeTarget (e r : Nat) : Option (Nat × Nat) := (routeDest e r).map (fun n => (n, 4 + bits r 30 30))

/-! ### Memory -/

/-- The byte at an HBM physical address or a fabric-window address; an unlisted byte reads 0 (log entry 3). -/
def State.byte (s : State) (a : Nat) : Byte := SMap.get 0#8 s.mem a

/-- A byte written; the list keeps its canonical form. -/
def State.setByte (s : State) (a : Nat) (b : Byte) : State := { s with mem := SMap.set 0#8 s.mem a b }

/-- The canonical form of memory: addresses rise strictly and no listed byte is 0. -/
def Memory.wf (m : List Host.Cell) : Bool := SMap.wf 0#8 m

/-- The n bytes from an address. -/
def State.bytesAt (s : State) (a : Nat) : Nat → List Byte
  | 0 => []
  | n + 1 => s.byte a :: State.bytesAt s (a + 1) n

/-- Bytes written from an address upward. -/
def State.setBytes (s : State) : Nat → List Byte → State
  | _, [] => s
  | a, b :: r => State.setBytes (s.setByte a b) (a + 1) r

/-- The little-endian value of n bytes (R6). -/
def State.word (s : State) (a n : Nat) : Nat := ofBytes (s.bytesAt a n)

/-- The sector of an address (R200). -/
def sectorOf (a : Nat) : Nat := a / 32 * 32

/-- True for an address of the fabric window (R198). -/
def inWindow (a : Nat) : Bool := 2 ^ 40 ≤ a && a < 2 ^ 40 + 2 ^ 34

/-- The tile of a window address, die * 192 + tile; none where t is above 191 (R198). -/
def windowTile (a : Nat) : Option Nat :=
  let t := bits a 31 21
  if inWindow a && t < 192 then some (bits a 33 32 * 192 + t) else none

/-- The window address of a slice offset (R198). -/
def windowAddr (tile off : Nat) : Nat := 2 ^ 40 + tile / 192 * 2 ^ 32 + tile % 192 * 2 ^ 21 + off

/-- True for a physical address that names HBM (R384). -/
def inHbm (a : Nat) : Bool := a < 2 ^ 39

/-- The die that holds a location. -/
def dieOfAddr (a : Nat) : Nat := if inWindow a then bits a 33 32 else a / 2 ^ 37

def State.poisoned (s : State) (a : Nat) : Bool := SMap.get false s.poison (sectorOf a)

/-- The unit of a check (R425): an 8-byte word of tile SRAM, a sector of HBM. -/
def badUnit (a : Nat) : Nat := if inWindow a then a / 8 * 8 else sectorOf a

/-- The byte lies in a unit with an uncorrectable error. -/
def State.isBad (s : State) (a : Nat) : Bool := SMap.get false s.badSec (badUnit a)

/-- One of the n bytes from an address, which lie in one sector, does. -/
def State.badIn (s : State) (a n : Nat) : Bool := s.isBad a || (List.range (n / 8)).any (fun i => s.isBad (a + 8 * i))

/-- The poison mark of a sector set or cleared. -/
def State.setPoison (s : State) (a : Nat) (x : Bool) : State :=
  { s with poison := SMap.set false s.poison (sectorOf a) x }

/-- The uncorrectable mark of a unit set or cleared. -/
def State.setBad (s : State) (a : Nat) (x : Bool) : State :=
  { s with badSec := SMap.set false s.badSec (badUnit a) x }

/-- The uncorrectable marks of a sector cleared (R426). -/
def State.clearSector (s : State) (a : Nat) : State :=
  let b := sectorOf a
  (((s.setBad b false).setBad (b + 8) false).setBad (b + 16) false).setBad (b + 24) false

/-- The marks after a write of n bytes of a sector (R216, R426): a poisoned write sets the poison mark, a clean write of the whole sector
clears it, any other leaves it; a write of the whole sector clears an uncorrectable error. -/
def State.markWrite (s : State) (a n : Nat) (x : Bool) : State :=
  let s := if n = 32 then s.clearSector a else s
  if x then s.setPoison a true else if n = 32 then s.setPoison a false else s

/-! ### Layout entries (R201 to R203) -/

def entSpace (r : Nat) : Nat := bits r 2 0
def entSel (r : Nat) : Bool := bit r 3
def entShv (r : Nat) : Bool := bit r 4
def entOwn (r : Nat) : Bool := bit r 5
def entSizeCode (r : Nat) : Nat := bits r 10 8
/-- Element size in bytes (R201). -/
def entSize (r : Nat) : Nat := 2 ^ entSizeCode r
def entDims (r : Nat) : Nat := bits r 12 11 + 1
def entRead (r : Nat) : Bool := bit r 16
def entWrite (r : Nat) : Bool := bit r 17
def entAtomic (r : Nat) : Bool := bit r 18
def entBx (r : Nat) : Nat := bits r 27 24
def entIdent (r : Nat) : Nat := bits r 39 32
def entDecl (r : Nat) : Nat := bits r 63 48
def entExt (r i : Nat) : Nat := bits r (64 + 32 * i + 31) (64 + 32 * i)
def entStr (r i : Nat) : Nat := bits r (192 + 32 * i + 31) (192 + 32 * i)
def entBase (r i : Nat) : Nat := bits r (320 + 64 * i + 63) (320 + 64 * i)
def entPkg (r : Nat) : Nat := bits r 456 448

/-- The entry n of a working. -/
def Working.entry (w : Working) (n : Nat) : Nat := (SMap.get 0 w.layout n).toNat

/-- The base of a side: 0 front, 1 shadow (R201, R203). -/
def sideBase (r : Nat) (side : Nat) : Nat :=
  let sel := b2n (entSel r)
  entBase r (if side = 0 then sel else 1 - sel)

/-- Coordinates in range (R203, R207). -/
def inRange (r : Nat) (c : Nat → Nat) : Bool := (List.range (entDims r)).all (fun i => c i < entExt r i)

/-- The address of an element: a window address for tile SRAM, else a virtual address; none when out of range (R203). The
base is that of the side fixed earlier, and own is the accessing element's tile. -/
def resolve (w : Working) (r base own : Nat) (c : Nat → Nat) : Option Nat :=
  if !inRange r c then none
  else if entSpace r = 4 then some (base + c 0 - c 0 % entSize r)
  else
    let off := ((List.range (entDims r)).foldr (fun i t => c i * entStr r i + t) 0) * entSize r
    if entSpace r = 2 then
      let o := bits base 20 0 + off
      let bank := (bits o 20 17) ^^^ entBx r
      let o := o / 2 ^ 21 * 2 ^ 21 + bank * 2 ^ 17 + o % 2 ^ 17
      some (windowAddr (if entOwn r then own else w.tileAt (bits base 28 21)) o)
    else some (base + off)

/-! ### Foreman registers (R311, R312) -/

/-- gn; g0 reads zero. -/
def Thread.reg (x : Thread) (n : Nat) : DWord := if n = 0 then 0 else SMap.get 0 x.g n

/-- gn written; a write of g0 is discarded. -/
def Thread.setReg (x : Thread) (n : Nat) (v : DWord) : Thread :=
  if n = 0 then x else { x with g := SMap.set 0 x.g n v }

/-- True when the thread holds the block of gn. -/
def Thread.holds (x : Thread) (n : Nat) : Bool := x.held.getLsbD (n / 8)

/-- Physical blocks that a thread takes from its core's pool: those bound now and those its frames keep (R312). -/
def Thread.poolUse (x : Thread) : Nat :=
  popc 8 x.held.toNat - 1 +
  (x.frames.map (fun f => (f.old.filter (fun p => p.2.isSome)).length)).foldr (· + ·) 0

/-- Free blocks of a core's pool (R312). -/
def State.freePool (s : State) (core : Nat) : Nat :=
  32 - ((List.range 4).map (fun i => (s.thread (core * 4 + i)).poolUse)).foldr (· + ·) 0

/-- The next instruction of a thread is the word after this one (R309). -/
def Thread.advance (x : Thread) (n : Nat) : Thread := { x with pc := x.pc + BitVec.ofNat 64 n }

/-- TRAPCAUSE for a trap (R318). -/
def TrapInfo.causeWord (i : TrapInfo) : DWord :=
  BitVec.ofNat 64 (i.cause % 256 + i.eid % 65536 * 2 ^ 8 + i.detail % 2 ^ 32 * 2 ^ 32)

/-- The causes that write FAULTVA (R492). -/
def transCause (c : Nat) : Bool := (0x30 ≤ c && c ≤ 0x34) || c == 0x36

/-- The thread after taking a trap at an address (R330): TRAPPC, TRAPCAUSE and TRAPARG written, FAULTVA for a translation
fault (R492), INTRAP set, PC at TRAPVEC, and any wait abandoned. -/
def Thread.enterTrap (x : Thread) (pc : DWord) (i : TrapInfo) : Thread :=
  { x with trappc := pc, trapcause := i.causeWord, traparg := BitVec.ofNat 32 i.arg, intrap := true, pc := x.trapvec,
           faultva := if transCause i.cause then BitVec.ofNat 56 i.va else x.faultva, wait := .none }

/-- The thread after ERET (R332). -/
def Thread.leaveTrap (x : Thread) : Thread := { x with pc := x.trappc, intrap := false }

end Sys2Proof.Machine
end

