-- ==== Sys2Proof/Machine/Records.lean ====
section
/-! DEFINITION. Error records and report tokens (R430, R431, R444, R445), and the poison record (R106, R465, R466). -/

namespace Sys2Proof.Machine

open Sys2Proof

/-- The fields of an error record that its event decides (R430). -/
structure ErrRec where
  cause : Nat
  outcome : Nat
  eid : Nat := 0xFFFF
  handle : Nat := 0
  quad : Nat := 0xFF
  vaddr : Nat := 0
  paddr : Nat := 0
  count : Nat := 0
  detail : Nat := 0
  stop : Nat := 0

/-- DEPTH and RETRY as a record and RVSTAT hold them (R318, R430). -/
def regionDepth (w : Working) : Nat := w.regions.length
def regionRetry (w : Working) : Nat :=
  match w.regions with
  | r :: _ => min r.retry 255
  | [] => 0

/-- The 64 bytes of a record with its time and number (R430). -/
def ErrRec.bytes (r : ErrRec) (w : Working) (die time seq : Nat) : List Byte :=
  toBytes 8 time ++ toBytes 1 r.cause ++ toBytes 1 r.outcome ++ toBytes 2 r.eid ++ toBytes 2 r.handle ++
  toBytes 1 die ++ toBytes 1 r.quad ++ toBytes 8 r.vaddr ++ toBytes 8 r.paddr ++ toBytes 4 r.count ++
  toBytes 4 seq ++ toBytes 8 r.detail ++ toBytes 8 r.stop ++ toBytes 1 (regionDepth w) ++
  toBytes 1 (regionRetry w) ++ toBytes 6 0

/-- A token of a report channel: M = 0xFF, T = 0, L = 0 (R216, R445, R470). -/
def reportToken (f : Nat → Nat) : Token :=
  { Token.zero with p := Lanes.ofFn (fun l => BitVec.ofNat 32 (f l)), m := 0xFF }

/-- True when a report channel has a free entry (R343). -/
def State.reportRoom (s : State) (h : Nat) : Bool := (s.work h).report.length < 16

/-- A token appended to a working's report channel when it has a free entry. -/
def State.report (s : State) (h : Nat) (k : Token) : State :=
  if s.reportRoom h then s.modWork h (fun w => { w with report := w.report ++ [k] }) else s

/-- Bytes written to HBM by a physical write; an address that names no memory takes nothing. -/
def State.setPhys (s : State) (a : Nat) (l : List Byte) : State := if inHbm a then s.setBytes a l else s

/-- A record's two sectors, written whole and clean, hold no error and no poison afterwards (R216, R426). -/
def State.cleanRecord (s : State) (a : Nat) : State :=
  if inHbm a then (s.markWrite a 32 false).markWrite (a + 32) 32 false else s

/-- The record's number in the ring of a die: TAIL before the write (R430). -/
def State.nextSeq (s : State) (d : Nat) : Nat := (s.die d).tail

/-- Updates of an RC field noted: the cycle, the value before, and what this one adds (R10). -/
def RcSide.note (r : RcSide) (t old add : Nat) : RcSide := if r.cyc = some t then { r with add := r.add + add } else ⟨some t, old, add⟩

/-- What a read of an RC field in a cycle returns of its value, and what it leaves: an update of that cycle is not returned, and is kept. -/
def RcSide.read (r : RcSide) (t now : Nat) : Nat := if r.cyc = some t then r.old else now
def RcSide.left (r : RcSide) (t : Nat) : Nat := if r.cyc = some t then r.add else 0
def RcSide.cleared (r : RcSide) : RcSide := { r with old := 0 }

/-- A record written to the ring of a die, or counted in DROPPED (R429, R431). -/
def State.ringWrite (s : State) (d : Nat) (r : ErrRec) : State :=
  let x := s.die d
  let size := 2 ^ x.ringSize.toNat
  if !x.ringEn || size ≤ (x.tail + 2 ^ 32 - x.head) % 2 ^ 32 then
    s.setDie d { x with dropped := if x.dropped = BitVec.allOnes 32 then x.dropped else x.dropped + 1,
                        dropSide := x.dropSide.note x.cycles x.dropped.toNat 1 }
  else
    let base := x.ringBase * 2 ^ 12
    let tail := (x.tail + 1) % 2 ^ 32
    let at' := base + x.tail % size * 64
    let s := (s.setPhys at' (r.bytes (s.work r.handle) d x.cycles x.tail)).cleanRecord at'
    let s := s.setDie d { x with tail := tail }
    s.setPhys (base + size * 64) (toBytes 4 tail)

/-- A record of an event on a die or on a working (R431), with the report token of R445 where WRPT asks for one. -/
def State.log (s : State) (d : Nat) (r : ErrRec) : State :=
  let seq := s.nextSeq d
  let t := s.ringWrite d r
  if r.handle ≠ 0 && (s.die d).errctl.getLsbD 2 && 2 ≤ r.outcome && r.outcome ≤ 5 then
    t.report r.handle (reportToken (fun l => match l with
      | 0 => 3 | 1 => r.cause | 2 => r.eid | 3 => r.outcome | 4 => r.vaddr % 2 ^ 32 | 5 => r.vaddr / 2 ^ 32
      | 6 => seq | _ => 0))
  else t

/-- True when a trapped cause is recorded (R428, R444): causes 0x01 to 0x07 and 0x10 only with LOGT. -/
def recordsTrap (x : Die) (cause : Nat) : Bool :=
  !((1 ≤ cause && cause ≤ 7) || cause == 0x10) || x.errctl.getLsbD 1

/-- A corrected error is recorded only with LOGC (R444). -/
def State.logCorrected (s : State) (d : Nat) (r : ErrRec) : State :=
  if (s.die d).errctl.getLsbD 0 then s.log d r else s

/-- Two creations come in one cycle: by the clock of their quad where they share one, else by that of their working's thread (log entry 70). -/
def Creation.sameCycle (c k : Creation) : Bool := if c.quad = k.quad then c.cyc == k.cyc else c.tcyc == k.tcyc

/-- A creation after another: of several in one cycle the lowest origin stands. -/
def Creation.join (c : Creation) (o : Option Creation) : Creation :=
  match o with
  | some k => if c.sameCycle k && k.origin < c.origin then { c with origin := k.origin } else c
  | none => c

/-- A creation of poison by an element, or another origin, in a cycle of a quad (R106, R466): the first writes the record; of several in one
cycle the lowest identifier stands. -/
def State.createPoison (s : State) (h origin q : Nat) : State :=
  let w := s.work h
  let c : Creation := ⟨origin, q, (s.quad q).cyc, (s.quad (w.thread / 4)).cyc⟩
  let w := { w with poisonLast := some (c.join w.poisonLast) }
  s.setWork h (match w.poison, w.poisonBy with
    | none, _ => { w with poison := some origin, poisonBy := some c }
    | some o, some k => if c.sameCycle k && origin < o then { w with poison := some origin, poisonBy := some { c with origin := origin } } else w
    | some _, none => w)

/-- The canary's IDLE set to 0 by an event of a working (R462). -/
def State.canaryEvent (s : State) (h : Nat) : State :=
  if h = 0 then s else s.modThread (s.work h).thread (fun t => { t with canIdle := 0, canSeen := true })

/-- The poison record as RDS fn 5 gives it (R343). -/
def poisonWord (w : Working) : Nat :=
  match w.poison with
  | some o => o + 2 ^ 16
  | none => 0

end Sys2Proof.Machine
end

