-- ==== Sys2Proof/Machine/Operands.lean ====
section
/-! DEFINITION. The operand forms and the firing of an element (02_firing): reading sources (R112), tag tests (R62), room
(R57), readiness (R61), the five parts of one firing (R73) with the sideband of R75, the history (R446), and the rules of
sharing a cycle (R65 to R72). -/

namespace Sys2Proof.Machine

open Sys2Proof

/-! ### Reading operands -/

/-- The head token of a queue (R55). -/
def Elem.head (x : Elem) (q : Nat) : Option Token := (x.queue q).head?.map (fun k => k.tok)

/-- The head, or a token of zeros where the queue is empty; a ready slot never reads an empty head (R61). -/
def Elem.headOr (x : Elem) (q : Nat) : Token := (x.head q).getD Token.zero

/-- Opcodes of macros in flight: the access of the element's macro that has not completed (R54, R278). -/
def Access.macActive (a : Access) : Bool := opMac a.op && a.stage != .performed

/-- The element's macro in flight. -/
def Elem.mac (x : Elem) : Option Access := x.accs.find? Access.macActive

/-- The lanes of source PRG (R278). -/
def prgLanes (x : Elem) : Lanes :=
  match x.mac with
  | none => { Lanes.zero with a0 := 0xFFFFFFFF#32 }
  | some a => { Lanes.zero with a0 := BitVec.ofNat 32 a.op, a1 := BitVec.ofNat 32 a.prg, a2 := BitVec.ofNat 32 a.total,
                                a3 := if 0xD0 ≤ a.op then BitVec.ofNat 32 a.c.toNat else 0 }

/-- A source that is neither a register nor a queue head: eight valid lanes (R112). -/
def allLanes (f : Nat → Word) : VReg := ⟨Lanes.ofFn f, 0xFF, false⟩

/-- An operand (R112). -/
def readSrc (x : Elem) (k : SMap Word) (e : Nat) (src : Src) : VReg :=
  match src with
  | .v n => x.reg n
  | .q n => (x.headOr n).reg
  | .k n => allLanes (fun _ => SMap.get 0 k n)
  | .zero => allLanes (fun _ => 0)
  | .lane => allLanes (fun l => BitVec.ofNat 32 l)
  | .eid => allLanes (fun _ => BitVec.ofNat 32 e)
  | .ch0 => allLanes (fun _ => x.ch0.x)
  | .ch1 => allLanes (fun _ => x.ch1.x)
  | .prg => ⟨prgLanes x, 0xFF, false⟩

/-- Operand A and operand B of a firing (R146). -/
def State.opA (s : State) (e : Nat) (w : EWord) : VReg := readSrc (s.elem e) (s.curCfg e).k e w.sa
def State.opB (s : State) (e : Nat) (w : EWord) : VReg := readSrc (s.elem e) (s.curCfg e).k e w.sb

/-- Operand C: the register that D0 names (R117). -/
def State.opC (s : State) (e : Nat) (w : EWord) : VReg :=
  match w.d0 with
  | .reg n => (s.elem e).reg n
  | _ => VReg.zero

/-! ### Tests and room -/

/-- R62. -/
def tagPass (t : TagTest) (tv : BitVec 4) (k : Token) : Bool :=
  match t with
  | .any => true
  | .eq => k.t == tv
  | .ne => k.t != tv
  | .last => k.l

/-- Conditions 3 and 4 of R61. -/
def queuePass (x : Elem) (q : Option (Fin 6)) (t : TagTest) (tv : BitVec 4) : Bool :=
  match q with
  | none => true
  | some n => match x.head n with
    | none => false
    | some k => tagPass t tv k

/-- The link number of a direction (R113). -/
def linkNum : Dir → Nat
  | .n => 0 | .e => 1 | .s => 2 | .w => 3

/-- A neighbour link that crosses the edge of the working's rectangle is guarded (R469). -/
def State.guardedLink (s : State) (e link : Nat) : Bool :=
  match neighbour e link with
  | none => true
  | some n => !(s.work (s.owner e)).covers n

/-- The paths that the element has used in the present cycle (R57). -/
def usedNow (x : Elem) (cyc : Nat) : List Nat := if x.cyc = cyc then x.used else []

/-- The credit of a target of a path; an undefined one has none (R57, R59). -/
def State.creditFor (s : State) (t : Option (Nat × Nat)) : Nat :=
  match t with
  | some p => s.spaceOf (spaceKey p.1 p.2)
  | none => 0

/-- A path of the element to a target has a credit and has carried no token in this cycle (R57). -/
def State.pathRoom (s : State) (e path : Nat) (t : Option (Nat × Nat)) : Bool :=
  0 < s.creditFor t && !(usedNow (s.elem e) (s.quad (quadOf e)).cyc).contains path

/-- Island commands accepted at the port of an element's claim and not completed (R264). -/
def State.portLoad (s : State) (e : Nat) : Nat :=
  let n := fun (e : Nat) => ((s.elem e).accs.filter (fun a => 0xD0 ≤ a.op && a.stage != .performed)).length
  n (e / 8 * 8) + n (e / 8 * 8 + 4)

/-- The drift-route entry of the active context that a consumer slot names; 0 for none. -/
def State.routeOf (s : State) (e : Nat) (d : Dest) : Nat :=
  match d with
  | .route n _ _ => s.route e n
  | _ => 0

/-- R57, with the guards of R470, for a consumer slot and the route entry that it goes by. -/
def State.roomVia (s : State) (e r : Nat) (d : Dest) : Bool :=
  match d with
  | .link dir _ _ => s.guardedLink e (linkNum dir) || s.pathRoom e (linkNum dir) (linkTarget e (linkNum dir))
  | .route n _ _ => s.pathRoom e (4 + n) (routeTarget e r)
  | .report => s.reportRoom (s.owner e)
  | .port _ _ _ => s.portLoad e < 4
  | _ => true

/-- R57 for a consumer slot of a firing. -/
def State.room (s : State) (e : Nat) (d : Dest) : Bool := s.roomVia e (s.routeOf e d) d

/-- Two consumer slots send on one path. -/
def samePath (a b : Dest) : Bool :=
  match a, b with
  | .link m _ _, .link n _ _ => m == n
  | .route m _ _, .route n _ _ => m == n
  | _, _ => false

/-- A reply's next token for a consumer slot waits to leave. -/
def waitsOnPath (l : List Token) (code : Nat) (d : Dest) : Bool := !l.isEmpty && samePath (destOf code) d

/-- A token of a reply that may leave waits for the link or route of a consumer slot, and takes it before a firing does (R211). -/
def State.replyTakes (s : State) (e : Nat) (d : Dest) : Bool :=
  let l := (s.elem e).accs
  l.any (fun a => (0xD0 ≤ a.op || (l.head?.map (fun b => b.seq)) == some a.seq) &&
    (waitsOnPath a.out0 a.d0 d || waitsOnPath a.out1 a.d1 d))

/-- Both destinations have room, which no waiting token of a reply takes; two slots that name the report channel need two free entries (R57,
R211). -/
def State.rooms (s : State) (e : Nat) (w : EWord) : Bool :=
  s.room e w.d0 && s.room e w.d1 && !s.replyTakes e w.d0 && !s.replyTakes e w.d1 &&
  (w.d0 != .report || w.d1 != .report || (s.work (s.owner e)).report.length < 15)

/-! ### When an element may fire -/

/-- The throttling window of a quad cycle (R419). -/
def throttleOk (q : Quad) (x : Elem) : Bool :=
  x.cyc == q.cyc && x.first.isSome || q.step.toNat == 0 || x.win != q.cyc / 16 || x.fired < 16 - q.step.toNat

/-- A quad's clock stands past the cycle in which the last sink of the phase counted (R375). -/
def Working.pastMark (w : Working) (q cyc : Nat) : Bool :=
  match w.mark.find? (fun p => p.1 == q) with
  | some p => p.2 != cyc
  | none => false

/-- The element's working runs a phase whose last sink has counted in no earlier cycle, nothing bars the element, and a freeze has not taken effect (R338, R376, R432). -/
def State.mayFire (s : State) (e : Nat) : Bool :=
  let h := s.owner e
  let w := s.work h
  let x := s.elem e
  let q := s.quad (quadOf e)
  h != 0 && w.state == .running && w.inPhase && w.live && w.stopping.isNone &&
  !w.pastMark (quadOf e) q.cyc &&
  (match x.barAt with
    | some t => decide (q.cyc ≤ t)
    | none => true) && x.ladder.isNone && (w.freeze.isNone || (s.quad w.freezeQuad).cyc ≤ w.freezeAt + 16) && throttleOk q x

/-- Conditions 2 to 4 and 6 of R61 for a slot's word; macOp is true when its opcode starts a macro. -/
def triggerPass (x : Elem) (w : EWord) (macOp : Bool) : Bool :=
  (x.p &&& w.pm) == (w.pv &&& w.pm) && queuePass x w.qa w.ta w.tv && queuePass x w.qb w.tb w.tv &&
  (!macOp || x.mac.isNone)

/-- A slot of an instruction that waits for nothing but R61 is ready. -/
def State.ready (s : State) (e : Nat) (w : EWord) : Bool :=
  s.mayFire e && triggerPass (s.elem e) w false && s.rooms e w

/-! ### The result's sideband (R75) -/

/-- Queue A's head where QA names a queue. -/
def headA (x : Elem) (w : EWord) : Option Token := w.qa.bind (fun n => x.head n)

/-- C and I of the result. -/
def sideCI (x : Elem) (w : EWord) : BitVec 2 × BitVec 6 :=
  match w.qa, w.qb with
  | some n, _ => ((x.headOr n).c, (x.headOr n).i)
  | none, some n => ((x.headOr n).c, (x.headOr n).i)
  | none, none => (0, 0)

/-- TP and LP of a consumer slot. -/
def destTp : Dest → Bool
  | .link _ t _ => t | .route _ t _ => t | .port _ t _ => t | _ => false
def destLp : Dest → Bool
  | .link _ _ l => l | .route _ _ l => l | .port _ _ l => l | _ => false

/-- T and L of the token for one consumer slot. -/
def sideT (x : Elem) (w : EWord) (d : Dest) : BitVec 4 :=
  match headA x w with
  | some k => if destTp d then k.t else w.ot
  | none => w.ot
def sideL (x : Elem) (w : EWord) (d : Dest) : Bool :=
  match headA x w with
  | some k => destLp d && k.l
  | none => false

/-- The token of a result for one consumer slot (R52, R75). -/
def mkToken (x : Elem) (w : EWord) (d : Dest) (r : VReg) : Token :=
  { p := cleanLanes r.p r.m, m := r.m, t := sideT x w d, l := sideL x w d, x := r.x, c := (sideCI x w).1,
    i := (sideCI x w).2 }

/-! ### Sending -/

/-- A drop by an element counted in its working's guard monitor, in a cycle of its thread's quad (R471). -/
def Working.countDrop (w : Working) (e t : Nat) : Working :=
  { w with guardCount := min (w.guardCount + 1) (2 ^ 32 - 1), guardAny := true,
           guardFirst := if w.guardCount = 0 then BitVec.ofNat 16 e else w.guardFirst,
           guardSide := w.guardSide.note t w.guardCount 1,
           guardNew := if w.guardSide.cyc = some t then w.guardNew else BitVec.ofNat 16 e }

/-- A token dropped at a guard (R470, R471). -/
def State.guardDrop (s : State) (e : Nat) (code : Nat) (k : Token) : State :=
  let h := s.owner e
  let w := s.work h
  let n := min (w.guardCount + 1) (2 ^ 32 - 1)
  let s := s.setWork h (w.countDrop e (s.quad (w.thread / 4)).cyc)
  let side := k.m.toNat + 2 ^ 8 * k.t.toNat + 2 ^ 12 * b2n k.l + 2 ^ 13 * b2n k.x
  let s := s.report h (reportToken (fun l => match l with
    | 0 => 4 | 1 => e | 2 => code | 3 => k.p.a0.toNat | 4 => side | _ => 0))
  if n = 2 ^ flog2 n && w.guardCount ≠ n then
    s.log w.die { cause := 0x55, outcome := 1, eid := e, handle := h, quad := quadOf e % 48,
                  detail := code + k.p.a0.toNat * 2 ^ 32 }
  else s

/-- A token sent on a link or route: a credit is taken and the token is in flight (R57, R76). -/
def State.send (s : State) (e path dst queue : Nat) (k : Token) (o : Origin) : State :=
  let cyc := (s.quad (quadOf e)).cyc
  let x := s.elem e
  let x := { x with cyc := cyc, used := path :: usedNow x cyc, first := if x.cyc = cyc then x.first else none,
                    second := x.cyc == cyc && x.second }
  let s := (s.setElem e x).setSpace (spaceKey dst queue) (s.spaceOf (spaceKey dst queue) - 1)
  { s with flights := s.flights ++ [⟨e, path, dst, queue, k, o, cyc⟩] }

/-- A token written to a consumer slot, with the route entry that it goes by and where it comes from (R53, R56, R74, R113). -/
def State.writeVia (s : State) (e r : Nat) (d : Dest) (k : Token) (o : Origin) : State :=
  match d with
  | .reg n => s.modElem e (fun x => x.setReg n k.reg.clean)
  | .pred n => s.modElem e (fun x =>
      { x with p := if k.reg.truth then x.p ||| BitVec.ofNat 8 (2 ^ n.toNat) else x.p &&& ~~~(BitVec.ofNat 8 (2 ^ n.toNat)) })
  | .link dir _ _ =>
    if s.guardedLink e (linkNum dir) then s.guardDrop e (destCode d) k
    else match linkTarget e (linkNum dir) with
      | some t => s.send e (linkNum dir) t.1 t.2 k o
      | none => s
  | .route n _ _ =>
    match routeTarget e r with
    | some t => s.send e (4 + n) t.1 t.2 k o
    | none => s
  | .report => s.report (s.owner e) k
  | .discard => s
  | .port _ _ _ => s
  | .none => s

/-- A token of a firing written to a consumer slot. -/
def State.writeDest (s : State) (e : Nat) (d : Dest) (k : Token) : State :=
  s.writeVia e (s.routeOf e d) d k (.fired e (destCode d) (s.elem e).count)

/-- An optional token written. -/
def State.writeOpt (s : State) (e : Nat) (d : Dest) (k : Option Token) : State :=
  match k with
  | some k => s.writeDest e d k
  | none => s

/-! ### Pops, predicates and bookkeeping -/

/-- The quads of a working. -/
def Working.quads (w : Working) : List Nat :=
  ((w.thread / 4) :: (List.range w.tileCount).map (fun n => quadOfTile (w.tileAt n))).eraseDups

/-- Every sink of the running phase has counted (R375); a context without sinks ends no phase so. -/
def State.sinksDone (s : State) (h : Nat) : Bool :=
  let w := s.work h
  let l := w.elems.filter (fun e => (s.cfg e w.active.toNat).sink)
  w.inPhase && !l.isEmpty && l.all (fun e => w.sinks.contains e)

/-- A sink counts; after the last the cycle of each quad is noted, past which nothing of the phase fires (R375). -/
def State.countSink (s : State) (h e : Nat) : State :=
  let s := s.modWork h (fun w => { w with sinks := w.sinks ++ [e] })
  if s.sinksDone h then s.modWork h (fun w => { w with mark := w.quads.map (fun q => (q, (s.quad q).cyc)) }) else s

/-- The head of a queue removed: its credit starts back, and a sink that pops a barrier counts in its phase (R57, R76, R78,
R375). -/
def State.popQueue (s : State) (e q : Nat) : State :=
  match (s.elem e).queue q with
  | [] => s
  | k :: r =>
    let s := s.modElem e (fun x => x.setQueue q r)
    let s := { s with credits := s.credits ++ [⟨e, q, (s.quad (quadOf e)).cyc⟩] }
    let h := s.owner e
    if k.tok.barrier && (s.curCfg e).sink && (s.work h).inPhase && !(s.work h).sinks.contains e then
      s.countSink h e
    else s

/-- The queues that the pop bits name; one queue named twice is popped once (R63, R73). -/
def popList (w : EWord) : List Nat :=
  let a := if w.pa then (w.qa.map (fun n => n.toNat)).toList else []
  let b := if w.pb && !(w.pa && w.qa == w.qb) then (w.qb.map (fun n => n.toNat)).toList else []
  a ++ b

/-- Pops in order. -/
def State.popAll (s : State) (e : Nat) : List Nat → State
  | [] => s
  | q :: r => State.popAll (s.popQueue e q) e r

/-- Step 5 of R73. -/
def maskPreds (w : EWord) (p : BitVec 8) : BitVec 8 := (p &&& ~~~w.pc) ||| w.ps

/-- The group size g of a rotate mask (R64). -/
def groupSize (c : ElemCfg) : Nat := popc 16 c.rotate.toNat

/-- The pointer after a firing of slot s (R66). -/
def nextPointer (g rr s : Nat) : Nat := if s < g then (if s + 1 = g then 0 else s + 1) else rr

/-- The sideband word of RDS fn 0, word 4 (R343). -/
def sideWord (m : BitVec 8) (t : BitVec 4) (l x : Bool) (c : BitVec 2) (i : BitVec 6) : Nat :=
  m.toNat + 2 ^ 8 * t.toNat + 2 ^ 12 * b2n l + 2 ^ 13 * b2n x + 2 ^ 14 * c.toNat + 2 ^ 16 * i.toNat

/-- Four words of a payload (R379). -/
def payWords (p : Lanes) : List DWord :=
  (List.range 4).map (fun j => BitVec.ofNat 64 ((p.get (2 * j)).toNat + (p.get (2 * j + 1)).toNat * 2 ^ 32))

/-- Sideband of a token. -/
def Token.side (k : Token) : Nat := sideWord k.m k.t k.l k.x k.c k.i

/-- An operand as the history holds it (R446): a queue head with its whole sideband, any other source with M and X. -/
def histOperand (x : Elem) (src : Src) (v : VReg) (was : Bool) : List DWord :=
  let side := match src with
    | .q n => (x.headOr n).side
    | _ => sideWord v.m 0 false v.x 0 0
  if was then payWords v.p ++ [BitVec.ofNat 64 (side + 2 ^ 63)] else List.replicate 5 0

/-- True for a consumer slot through which a token leaves the element (R447). -/
def destLeaves : Dest → Bool
  | .link _ _ _ => true | .route _ _ _ => true | .port _ _ _ => true | .report => true | _ => false

def destIsReg : Dest → Bool
  | .reg _ => true | _ => false

/-- The logged result (R446, R447). -/
def histResult (w : EWord) (t0 t1 : Option Token) : List DWord :=
  let pick := if destIsReg w.d0 then (w.d0, t0) else if destIsReg w.d1 then (w.d1, t1)
    else if w.d0 != Dest.none then (w.d0, t0) else (w.d1, t1)
  match pick.2 with
  | none => List.replicate 5 0
  | some k => payWords k.p ++ [BitVec.ofNat 64 (k.side % 2 ^ 22 + destCode pick.1 * 2 ^ 22 + 2 ^ 63)]

/-- The operands that an opcode reads (R152 to R175, R217, R262): A, B. -/
def readsA (op : Nat) (ty : Ty) : Bool := (eRule op (tyCode ty)).sa != .unread && (eRule op (tyCode ty)).sa != .pred
def readsB (op : Nat) (ty : Ty) : Bool :=
  (eRule op (tyCode ty)).sb != .unread && (eRule op (tyCode ty)).sb != .pred && (eRule op (tyCode ty)).sb != .typeCode

/-- The checkweigher's row of an element; the element is the one it watches (R454, R455); its firings are held (R457). -/
def State.cwRowOf (s : State) (e : Nat) : CwRow := SMap.get {} (s.die (dieOf e)).cwrow (rowOf e)
def State.watched (s : State) (e : Nat) : Bool := (s.cwRowOf e).watch && (s.cwRowOf e).col.toNat == colOf e
def State.watchHeld (s : State) (e : Nat) : Bool := s.watched e && (s.die (dieOf e)).cwHold

/-- The count of unconfirmed firings of a watched element, or under HOLD the state of its cycle. -/
def State.setPending (s : State) (e n : Nat) : State :=
  s.modDie (dieOf e) (fun d => { d with cwrow := SMap.mod {} d.cwrow (rowOf e) (fun c => { c with pending := n }) })

/-- A cycle of a watched element waits for its verdict, on a slot (R457). -/
def State.holdCycle (s : State) (e n : Nat) : State :=
  s.modDie (dieOf e) (fun d => { d with cwrow := SMap.mod {} d.cwrow (rowOf e) (fun c => { c with pending := 1, slot := some n }) })

/-- The slot of an element's cycle that waits for its verdict, or that may take effect (R457). -/
def State.heldSlot (s : State) (e : Nat) : Option Nat :=
  let c := s.cwRowOf e
  if (s.die (dieOf e)).cwHold && c.col.toNat = colOf e && c.pending ≠ 0 then c.slot else none

/-- Nothing else comes to an element until its cycle has taken effect (R457). -/
def State.cycleHeld (s : State) (e : Nat) : Bool := (s.heldSlot e).isSome

/-- Its held cycle takes effect. -/
def State.dropHold (s : State) (e : Nat) : State :=
  s.modDie (dieOf e) (fun d => { d with cwrow := SMap.mod {} d.cwrow (rowOf e) (fun c => { c with pending := 0, slot := none }) })

/-- The history entry of a firing (R446); one held until its confirmation enters confirmed. -/
def histEntry (s : State) (e op : Nat) (w : EWord) (t0 t1 : Option Token) : History :=
  let x := s.elem e
  let out := destLeaves w.d0 || destLeaves w.d1
  let word0 := s.cur.slot % 16 + 2 ^ 4 * x.active.toNat + 2 ^ 6 * b2n s.cur.second + 2 ^ 7 + 2 ^ 8 * op +
    2 ^ 16 * tyCode w.ty + 2 ^ 20 * b2n out + 2 ^ 21 * b2n (s.watchHeld e) + (s.work (s.owner e)).clock (quadOf e) % 2 ^ 32 * 2 ^ 32
  BitVec.ofNat 64 word0 :: (histOperand x w.sa (s.opA e w) (readsA op w.ty) ++
    histOperand x w.sb (s.opB e w) (readsB op w.ty) ++ histResult w t0 t1)

/-- What a firing leaves in the element beside its effect: the slot fired in this cycle, the pointer, the throttling count
and the history (R57, R66, R68, R419, R447). -/
def State.noteFiring (s : State) (e : Nat) (entry : History) : State :=
  let q := s.quad (quadOf e)
  let x := s.elem e
  let same := x.cyc == q.cyc
  let win := q.cyc / 16
  let begun := same && x.first.isSome
  s.setElem e { x with
    cyc := q.cyc, used := usedNow x q.cyc,
    first := if begun then x.first else some s.cur.slot, second := begun,
    rr0 := if begun then x.rr0 else x.rr,
    rr := nextPointer (groupSize (s.curCfg e)) x.rr s.cur.slot,
    win := win, fired := if x.win = win then (if begun then x.fired else x.fired + 1) else 1,
    count := x.count + 1, hist := (entry :: x.hist).take 8 }

/-! ### One firing -/

/-- D0's token meets a guard and D1's goes to the report channel. -/
def State.dropsFirst (s : State) (e : Nat) (w : EWord) : Bool :=
  (match w.d0 with
    | .link dir _ _ => s.guardedLink e (linkNum dir)
    | _ => false) && w.d1 == .report

/-- The tokens of a firing written, D0 then D1 (R73); a token for the report channel goes before one that a guard drops, which reports its drop
only where an entry is left (R470). -/
def State.writeBoth (s : State) (e : Nat) (w : EWord) (t0 t1 : Option Token) : State :=
  if s.dropsFirst e w then (s.writeOpt e w.d1 t1).writeOpt e w.d0 t0 else (s.writeOpt e w.d0 t0).writeOpt e w.d1 t1

/-- One firing of an element (R73): D0 then D1 written, other element state written, the queues popped, the predicates
masked, poison recorded (R106) and the firing noted. What is written was computed from the state before. -/
def State.fire (s : State) (e op : Nat) (w : EWord) (t0 t1 : Option Token) (upd : Elem → Elem) (pops : List Nat)
    (exc : Bool) : State :=
  let h := s.owner e
  let entry := histEntry s e op w t0 t1
  let s1 := s.writeBoth e w t0 t1
  let s2 := s1.modElem e upd
  let s3 := s2.popAll e pops
  let s4 := s3.modElem e (fun x => { x with p := maskPreds w x.p })
  let s5 := if exc then s4.createPoison h e (quadOf e) else s4
  (s5.noteFiring e entry).canaryEvent h

/-- The firing of an instruction with one result for both consumer slots (R148, R174): x is the poison of the operands
read, and an exceptional result poisons the token. -/
def State.fireResult (s : State) (e op : Nat) (w : EWord) (r : Result) (x : Bool) : State :=
  let v : VReg := { r.1 with x := x || r.2 }
  let el := s.elem e
  s.fire e op w (some (mkToken el w w.d0 v)) (some (mkToken el w w.d1 v)) id (popList w) (r.2 && !x)

/-- The meaning of an element instruction that reads A and writes one result. -/
def State.fireA (s : State) (op : Nat) (w : EWord) (f : VReg → Result) : State :=
  let e := s.cur.elem
  if s.ready e w then s.fireResult e op w (f (s.opA e w)) (s.opA e w).x else s

/-- The same for A and B. -/
def State.fireAB (s : State) (op : Nat) (w : EWord) (f : VReg → VReg → Result) : State :=
  let e := s.cur.elem
  if s.ready e w then
    s.fireResult e op w (f (s.opA e w) (s.opB e w)) ((s.opA e w).x || (s.opB e w).x) else s

/-- The same for A, B and C. -/
def State.fireABC (s : State) (op : Nat) (w : EWord) (f : VReg → VReg → VReg → Result) : State :=
  let e := s.cur.elem
  if s.ready e w then
    s.fireResult e op w (f (s.opA e w) (s.opB e w) (s.opC e w))
      ((s.opA e w).x || (s.opB e w).x || (s.opC e w).x) else s

end Sys2Proof.Machine
end

