-- ==== Sys2Proof/Machine/ElemCvt.lean ====
section
/-! DEFINITION. Element conversions (R162 to R165). -/

namespace Sys2Proof.Machine

open Sys2Proof

/-- The source type: SB holds its type code (R118, R162). -/
def cvtSource (w : EWord) : Ty := tyOf (srcCode w.sb)

/-- A conversion's firing (R163): D0 receives the first part and D1 the last, and the generator moves on by the draws. -/
def State.fireCvt (s : State) (op : Nat) (w : EWord) (mode : Word → Nat → RMode) (draws : Bool) : State :=
  let e := s.cur.elem
  if s.ready e w then
    let x := s.elem e
    let a := s.opA e w
    let r := cvtOp w.ty (cvtSource w) (mode x.gen) a
    let exc := r.1.2 || r.2.1.2
    let v0 : VReg := { r.1.1 with x := a.x || exc }
    let v1 : VReg := { r.2.1.1 with x := a.x || exc }
    s.fire e op w (some (mkToken x w w.d0 v0)) (some (mkToken x w w.d1 v1))
      (fun y => if draws then { y with gen := genAfter y.gen r.2.2 } else y) (popList w) (exc && !a.x)
  else s

/-- CVT: round to nearest, ties to even. -/
def execCvt (w : EWord) (s : State) : Out := .next (s.fireCvt 0x50 w (fun _ _ => .rne) false)

/-- CVT.rz: round toward zero. -/
def execCvtRz (w : EWord) (s : State) : Out := .next (s.fireCvt 0x51 w (fun _ _ => .rz) false)

/-- CVT.rs: element k of the valid result lanes uses draw k (R93, R165). -/
def execCvtRs (w : EWord) (s : State) : Out :=
  .next (s.fireCvt 0x52 w (fun g k => .rs (rand16 (genAfter g (k + 1)))) true)

end Sys2Proof.Machine
end

