-- ==== Sys2Proof/Machine/ElemFloat.lean ====
section
/-! DEFINITION. Element floating-point and approximation instructions (R156 to R161, R166). -/

namespace Sys2Proof.Machine

open Sys2Proof

/-- FADD, one rounding to nearest even (R156 to R158). -/
def execFadd (w : EWord) (s : State) : Out := .next (s.fireAB 0x40 w (fpOp2 w.ty faddE))

/-- FSUB, one rounding to nearest even (R156 to R158). -/
def execFsub (w : EWord) (s : State) : Out := .next (s.fireAB 0x41 w (fpOp2 w.ty fsubE))

/-- FMUL, one rounding to nearest even (R156 to R158). -/
def execFmul (w : EWord) (s : State) : Out := .next (s.fireAB 0x42 w (fpOp2 w.ty fmulE))

/-- FFMA: C is the register that D0 names; one rounding (R156 to R158). -/
def execFfma (w : EWord) (s : State) : Out := .next (s.fireABC 0x43 w (fpOp3 w.ty fmaE))

/-- FMIN (R159). -/
def execFmin (w : EWord) (s : State) : Out := .next (s.fireAB 0x44 w (fpOp2 w.ty (fun f a b => (fminE f a b, false))))

/-- FMAX (R159). -/
def execFmax (w : EWord) (s : State) : Out := .next (s.fireAB 0x45 w (fpOp2 w.ty (fun f a b => (fmaxE f a b, false))))

/-- FABS (R160). -/
def execFabs (w : EWord) (s : State) : Out := .next (s.fireA 0x46 w (fpOp1 w.ty fabsE))

/-- FNEG (R160). -/
def execFneg (w : EWord) (s : State) : Out := .next (s.fireA 0x47 w (fpOp1 w.ty fnegE))

/-- FCMPEQ (R161). -/
def execFcmpeq (w : EWord) (s : State) : Out := .next (s.fireAB 0x48 w (fpCmp w.ty feq))

/-- FCMPLT (R161). -/
def execFcmplt (w : EWord) (s : State) : Out := .next (s.fireAB 0x49 w (fpCmp w.ty (fless false)))

/-- FCMPLE (R161). -/
def execFcmple (w : EWord) (s : State) : Out := .next (s.fireAB 0x4A w (fpCmp w.ty (fun a b => fless false a b || feq a b)))

/-- FCMPUN (R161). -/
def execFcmpun (w : EWord) (s : State) : Out := .next (s.fireAB 0x4B w (fpCmp w.ty (fun a b => a.isNan || b.isNan)))

/-- RCP (R94, R166). -/
def execRcp (w : EWord) (s : State) : Out := .next (s.fireA 0x58 w (fpApprox frcp))

/-- RSQ (R94, R166). -/
def execRsq (w : EWord) (s : State) : Out := .next (s.fireA 0x59 w (fpApprox frsq))

/-- EXP2 (R94, R166). -/
def execExp2 (w : EWord) (s : State) : Out := .next (s.fireA 0x5A w (fpApprox fexp2))

/-- LOG2 (R94, R166). -/
def execLog2 (w : EWord) (s : State) : Out := .next (s.fireA 0x5B w (fpApprox flog2E))

end Sys2Proof.Machine
end

