-- ==== Sys2Proof/Machine/ElemFlow.lean ====
section
/-! DEFINITION. Element instructions of tokens, masks, predicates, iteration tags and counter chains (R172 to R189). -/

namespace Sys2Proof.Machine

open Sys2Proof

/-! ### Moving and dropping (R175) -/

/-- MOV: A's payload and M. -/
def execMov (w : EWord) (s : State) : Out := .next (s.fireA 0x90 w (fun a => (a, false)))

/-- PASS: queue A's head token unchanged. -/
def execPass (w : EWord) (s : State) : Out :=
  let e := s.cur.elem
  let k := (headA (s.elem e) w).getD Token.zero
  .next (if s.ready e w then s.fire e 0x91 w (some k) (some k) id (popList w) false else s)

/-- A firing that writes no token: pops and predicate updates, and a change of the element. -/
def State.fireSilent (s : State) (op : Nat) (w : EWord) (upd : Elem → Elem) : State :=
  let e := s.cur.elem
  if s.ready e w then s.fire e op w none none upd (popList w) false else s

/-- DROP. -/
def execDrop (w : EWord) (s : State) : Out := .next (s.fireSilent 0x92 w id)

/-- NOP: predicate updates only (R197). -/
def execNop (w : EWord) (s : State) : Out := .next (s.fireSilent 0xE3 w id)

/-! ### Steering and merging (R176 to R178) -/

/-- STEER is ready when R61 holds, with room tested on the consumer slot that the decision selects (R176). -/
def State.readySteer (s : State) (e : Nat) (w : EWord) : Bool :=
  s.mayFire e && triggerPass (s.elem e) w false && s.room e (if (s.opB e w).truth then w.d0 else w.d1)

/-- STEER: A to D0 alone when the decision is 1, to D1 alone when it is 0. -/
def execSteer (w : EWord) (s : State) : Out :=
  let e := s.cur.elem
  let x := s.elem e
  let a := s.opA e w
  let b := s.opB e w
  let v : VReg := { a with x := a.x || b.x }
  .next (if s.readySteer e w then
    s.fire e 0x93 w (if b.truth then some (mkToken x w w.d0 v) else none)
      (if b.truth then none else some (mkToken x w w.d1 v)) id (popList w) false
  else s)

/-- The queue that a source code names. -/
def srcQueue : Src → Nat
  | .q n => n | _ => 0

/-- The arm that MERGE.ORD's control head selects: SA's for decision 1, SB's for 0 (R177). -/
def mergeArm (x : Elem) (w : EWord) : Nat :=
  if ((headA x w).getD Token.zero).reg.truth then srcQueue w.sa else srcQueue w.sb

/-- MERGE.ORD is ready when R61 holds and the selected arm holds a token. -/
def State.readyMergeOrd (s : State) (e : Nat) (w : EWord) : Bool :=
  s.ready e w && ((s.elem e).head (mergeArm (s.elem e) w)).isSome

/-- MERGE.ORD: the selected arm's head whole, poisoned also by the control head; both are popped. -/
def execMergeOrd (w : EWord) (s : State) : Out :=
  let e := s.cur.elem
  let x := s.elem e
  let arm := mergeArm x w
  let k := x.headOr arm
  let k := { k with x := k.x || ((headA x w).getD Token.zero).x }
  .next (if s.readyMergeOrd e w then s.fire e 0x94 w (some k) (some k) id (popList w ++ [arm]) false else s)

/-- A queue holds a head that passes its test; an empty queue passes none. -/
def armPass (x : Elem) (q : Option (Fin 6)) (t : TagTest) (tv : BitVec 4) : Bool := q.isSome && queuePass x q t tv

/-- MERGE.ANY is ready when R61 holds with conditions 3 and 4 replaced by one: either head passes (R178). -/
def State.readyMergeAny (s : State) (e : Nat) (w : EWord) : Bool :=
  let x := s.elem e
  s.mayFire e && (x.p &&& w.pm) == (w.pv &&& w.pm) && s.rooms e w &&
  (armPass x w.qa w.ta w.tv || armPass x w.qb w.tb w.tv)

/-- MERGE.ANY: queue A's head where it passes, else queue B's; only the taken queue is popped. -/
def execMergeAny (w : EWord) (s : State) : Out :=
  let e := s.cur.elem
  let x := s.elem e
  let q := if armPass x w.qa w.ta w.tv then w.qa else w.qb
  let n := (q.map (fun n => n.toNat)).getD 0
  let k := x.headOr n
  .next (if s.readyMergeAny e w then s.fire e 0x95 w (some k) (some k) id [n] false else s)

/-! ### Filtering and repacking (R179, R180) -/

/-- FILT. -/
def execFilt (w : EWord) (s : State) : Out := .next (s.fireAB 0x96 w filtOp)

/-- The register that a source code names. -/
def srcReg : Src → Nat
  | .v n => n | _ => 0

/-- A head token replaced in place. -/
def Elem.setHead (x : Elem) (q : Nat) (k : Token) : Elem :=
  match x.queue q with
  | [] => x
  | h :: r => x.setQueue q ({ h with tok := k } :: r)

/-- PACK (R180): the head's lanes move into the partial register; a full register, or one left by the last token, is sent. -/
def execPack (w : EWord) (s : State) : Out :=
  let e := s.cur.elem
  let x := s.elem e
  let qa := (w.qa.map (fun n => n.toNat)).getD 0
  let h := x.headOr qa
  let pr := srcReg w.sb
  let r := packOp (x.reg pr) h.reg
  let done := r.2.1.m == 0
  let sends := r.2.2 == 8 || (done && h.l)
  let tok := fun d => { mkToken x w d r.1 with l := done && h.l }
  let upd := fun (y : Elem) =>
    (if done then y else y.setHead qa { h with p := r.2.1.p, m := r.2.1.m }).setReg pr
      (if sends then VReg.zero else r.1)
  .next (if s.ready e w then
    s.fire e 0x97 w (if sends then some (tok w.d0) else none) (if sends then some (tok w.d1) else none) upd
      (if done then [qa] else []) false
  else s)

/-! ### Tags and masks (R181, R182) -/

/-- A firing that sends queue A's head with another T. -/
def State.fireTag (s : State) (w : EWord) (t : BitVec 4) (x : Bool) : State :=
  let e := s.cur.elem
  let k := (headA (s.elem e) w).getD Token.zero
  let k := { k with t := t, x := k.x || x }
  if s.ready e w then s.fire e 0x98 w (some k) (some k) id (popList w) false else s

/-- TAG: T := OT. -/
def execTag (w : EWord) (s : State) : Out := .next (s.fireTag w w.ot false)

/-- TAG.dyn: T from lane 0 of B where it is valid. -/
def execTagDyn (w : EWord) (s : State) : Out :=
  let b := s.opB s.cur.elem w
  .next (s.fireTag w (if mbit b.m 0 then BitVec.ofNat 4 b.p.a0.toNat else w.ot) b.x)

/-- VMSK.get. -/
def execVmskGet (w : EWord) (s : State) : Out := .next (s.fireA 0x99 w vmskGetOp)

/-- VMSK.and. -/
def execVmskAnd (w : EWord) (s : State) : Out :=
  .next (s.fireAB 0x99 w (fun a b => withMask a (a.m &&& maskOperand b)))

/-- VMSK.set. -/
def execVmskSet (w : EWord) (s : State) : Out := .next (s.fireAB 0x99 w (fun a b => withMask a (maskOperand b)))

/-- The head of a named queue is a barrier; a queue that is not named holds nothing back. -/
def barrierAt (x : Elem) (q : Option (Fin 6)) : Bool :=
  match q with
  | none => true
  | some n => match x.head n with
    | some k => k.barrier
    | none => false

/-- BFWD is ready when R61 holds and every named head is a barrier token (R183). -/
def State.readyBfwd (s : State) (e : Nat) (w : EWord) : Bool :=
  s.ready e w && barrierAt (s.elem e) w.qa && barrierAt (s.elem e) w.qb

/-- BFWD: one barrier token. -/
def execBfwd (w : EWord) (s : State) : Out :=
  let e := s.cur.elem
  let x := s.elem e
  let psn := ((headA x w).getD Token.zero).x || ((w.qb.bind (fun n => x.head n)).getD Token.zero).x
  let k : Token := { Token.zero with t := 15, x := psn, c := (sideCI x w).1, i := (sideCI x w).2 }
  .next (if s.readyBfwd e w then s.fire e 0x9A w (some k) (some k) id (popList w) false else s)

/-! ### Predicates (R184) -/

/-- The predicate that a source field names (R118). -/
def predOf (x : Elem) (src : Src) : Bool := x.p.getLsbD (srcCode src)

/-- A firing whose result is one bit in lane 0. -/
def State.firePred (s : State) (op : Nat) (w : EWord) (b : Bool) : State :=
  let e := s.cur.elem
  if s.ready e w then s.fireResult e op w (scalar (b2n b), false) false else s

/-- PAND. -/
def execPand (w : EWord) (s : State) : Out :=
  let x := s.elem s.cur.elem
  .next (s.firePred 0x9C w (predOf x w.sa && predOf x w.sb))

/-- POR. -/
def execPor (w : EWord) (s : State) : Out :=
  let x := s.elem s.cur.elem
  .next (s.firePred 0x9D w (predOf x w.sa || predOf x w.sb))

/-- PXOR. -/
def execPxor (w : EWord) (s : State) : Out :=
  let x := s.elem s.cur.elem
  .next (s.firePred 0x9E w (predOf x w.sa != predOf x w.sb))

/-- PNOT. -/
def execPnot (w : EWord) (s : State) : Out := .next (s.firePred 0x9F w (!predOf (s.elem s.cur.elem) w.sa))

/-! ### Iteration tags (R185, R186) -/

/-- The map bits of a level's register, whatever its valid mask. -/
def mapBits (r : VReg) : Nat := r.p.a0.toNat + r.p.a1.toNat * 2 ^ 32

/-- The register with its map written back and lanes 0 and 1 valid. -/
def setMap (r : VReg) (m : Nat) : VReg :=
  { r with p := { r.p with a0 := BitVec.ofNat 32 m, a1 := BitVec.ofNat 32 (m / 2 ^ 32) }, m := r.m ||| 3 }

/-- A value poisoned also by another operand read (R75). -/
def VReg.psnBy (a b : VReg) : VReg := { a with x := a.x || b.x }

/-- The lowest free tag of a map; none when all 64 are held. -/
def freeTag (m : Nat) : Option Nat := findFrom (fun n => !bit m n) 64 0

/-- TAGA is ready when R61 holds and some tag is free (R79). -/
def State.readyTaga (s : State) (e : Nat) (w : EWord) : Bool :=
  s.ready e w && (freeTag (mapBits ((s.elem e).reg (srcReg w.sb)))).isSome

/-- TAGA: takes the lowest free tag; the result is A with I := the tag. -/
def execTaga (w : EWord) (s : State) : Out :=
  let e := s.cur.elem
  let x := s.elem e
  let a := s.opA e w
  let r := x.reg (srcReg w.sb)
  let n := (freeTag (mapBits r)).getD 0
  let tok := fun d => { mkToken x w d (a.psnBy r) with i := BitVec.ofNat 6 n }
  .next (if s.readyTaga e w then
    s.fire e 0xA0 w (some (tok w.d0)) (some (tok w.d1))
      (fun y => y.setReg (srcReg w.sb) (setMap r (mapBits r + 2 ^ n))) (popList w) false
  else s)

/-- TAGF: frees the tag of the head's I; the result is A. -/
def execTagf (w : EWord) (s : State) : Out :=
  let e := s.cur.elem
  let x := s.elem e
  let a := s.opA e w
  let r := x.reg (srcReg w.sb)
  let n := ((headA x w).getD Token.zero).i.toNat
  let m := if bit (mapBits r) n then mapBits r - 2 ^ n else mapBits r
  .next (if s.ready e w then
    s.fire e 0xA1 w (some (mkToken x w w.d0 (a.psnBy r))) (some (mkToken x w w.d1 (a.psnBy r)))
      (fun y => y.setReg (srcReg w.sb) (setMap r m)) (popList w) false
  else s)

/-- TAGX: I from lane 0 of B where it is valid. -/
def execTagx (w : EWord) (s : State) : Out :=
  let e := s.cur.elem
  let x := s.elem e
  let a := s.opA e w
  let b := s.opB e w
  let v : VReg := { a with x := a.x || b.x }
  let i := if mbit b.m 0 then BitVec.ofNat 6 b.p.a0.toNat else (sideCI x w).2
  .next (if s.ready e w then
    s.fire e 0xA2 w (some { mkToken x w w.d0 v with i := i }) (some { mkToken x w w.d1 v with i := i }) id (popList w)
      false
  else s)

/-- TAGX.get: lanes 0 to 3 hold the head's I, T, L and C. -/
def execTagxGet (w : EWord) (s : State) : Out :=
  let k := (headA (s.elem s.cur.elem) w).getD Token.zero
  .next (s.fireA 0xA2 w (fun _ =>
    (⟨{ Lanes.zero with a0 := BitVec.ofNat 32 k.i.toNat, a1 := BitVec.ofNat 32 k.t.toNat,
                        a2 := BitVec.ofNat 32 (b2n k.l), a3 := BitVec.ofNat 32 k.c.toNat }, 15, false⟩, false)))

/-! ### Counter chains (R187 to R189) -/

/-- The chain that a type code names: 12 and 14 chain 0, 13 and 15 chain 1 (R172). -/
def chainNum (w : EWord) : Nat := tyCode w.ty % 2

/-- A firing that writes a shadow register of a chain from lane 0 of A, where it is valid (R188). -/
def State.fireChain (s : State) (op : Nat) (w : EWord) (f : Chain → Word → Chain) : State :=
  let a := s.opA s.cur.elem w
  s.fireSilent op w (fun y =>
    if mbit a.m 0 then y.setChain (chainNum w) (f (y.chain (chainNum w)) a.p.a0) else y)

/-- CHSTART. -/
def execChstart (w : EWord) (s : State) : Out := .next (s.fireChain 0xA4 w (fun c v => { c with startSh := v }))

/-- CHSTEP. -/
def execChstep (w : EWord) (s : State) : Out := .next (s.fireChain 0xA5 w (fun c v => { c with stepSh := v }))

/-- CHCOUNT. -/
def execChcount (w : EWord) (s : State) : Out := .next (s.fireChain 0xA6 w (fun c v => { c with countSh := v }))

/-- CHCOUNT.end: the live count becomes 0. -/
def execChcountEnd (w : EWord) (s : State) : Out :=
  .next (s.fireSilent 0xA6 w (fun y => y.setChain (chainNum w) { y.chain (chainNum w) with countLive := 0 }))

/-- CHNEXT by up to n indices (R189): the chain after it, and the payload, mask and L of its token. -/
def chainNext (n : Nat) (c : Chain) : Chain × VReg × Bool :=
  let entry := c.countLive == 0
  let c := if entry then { c with startLive := c.startSh, stepLive := c.stepSh, countLive := c.countSh } else c
  let nxt := if entry then c.startLive else c.x + c.stepLive
  if c.countLive = 0 then (c, VReg.zero, true)
  else
    let m := min n c.countLive.toNat
    let left := c.countLive - BitVec.ofNat 32 m
    ({ c with x := nxt + BitVec.ofNat 32 (m - 1) * c.stepLive, countLive := left },
     ⟨Lanes.ofFn (fun l => if l < m then nxt + BitVec.ofNat 32 l * c.stepLive else 0), BitVec.ofNat 8 (2 ^ m - 1), false⟩,
     left == 0)

/-- A firing of CHNEXT. -/
def State.fireChnext (s : State) (w : EWord) (n : Nat) : State :=
  let e := s.cur.elem
  let x := s.elem e
  let r := chainNext n (x.chain (chainNum w))
  let tok := fun d => { mkToken x w d r.2.1 with l := r.2.2 }
  if s.ready e w then
    s.fire e 0xA7 w (some (tok w.d0)) (some (tok w.d1)) (fun y => y.setChain (chainNum w) r.1) (popList w) false
  else s

/-- CHNEXT.ch0, .ch1: one index. -/
def execChnext (w : EWord) (s : State) : Out := .next (s.fireChnext w 1)

/-- CHNEXT.vch0, .vch1: up to eight indices. -/
def execChnextV (w : EWord) (s : State) : Out := .next (s.fireChnext w 8)

end Sys2Proof.Machine
end

