-- ==== Sys2Proof/Machine/ElemInt.lean ====
section
/-! DEFINITION. Element integer and logic instructions (R150, R152 to R155). -/

namespace Sys2Proof.Machine

open Sys2Proof

/-- ADD (R152, R153). -/
def execAdd (w : EWord) (s : State) : Out := .next (s.fireAB 0x0 w (intOp2 w.ty false (fun a b => a + b)))

/-- SUB (R152, R153). -/
def execSub (w : EWord) (s : State) : Out := .next (s.fireAB 0x1 w (intOp2 w.ty false (fun a b => a - b)))

/-- MUL (R152, R153). -/
def execMul (w : EWord) (s : State) : Out := .next (s.fireAB 0x2 w (intOp2 w.ty false (fun a b => a * b)))

/-- MULH (R152). -/
def execMulh (w : EWord) (s : State) : Out := .next (s.fireAB 0x3 w (intOp2 w.ty false (mulhInt (Ty.width w.ty))))

/-- MAD: C is the register that D0 names (R117, R152). -/
def execMad (w : EWord) (s : State) : Out := .next (s.fireABC 0x4 w (intOp3 w.ty false (fun a b c => c + a * b)))

/-- NEG (R152, R154). -/
def execNeg (w : EWord) (s : State) : Out := .next (s.fireA 0x5 w (intOp1 w.ty false (fun a => -a)))

/-- ABS (R152, R154). -/
def execAbs (w : EWord) (s : State) : Out := .next (s.fireA 0x6 w (intOp1 w.ty false (fun a => (a.natAbs : Int))))

/-- MIN (R152). -/
def execMin (w : EWord) (s : State) : Out := .next (s.fireAB 0x7 w (intOp2 w.ty false (fun a b => if b < a then b else a)))

/-- MAX (R152). -/
def execMax (w : EWord) (s : State) : Out := .next (s.fireAB 0x8 w (intOp2 w.ty false (fun a b => if a < b then b else a)))

/-- SHL (R152, R154). -/
def execShl (w : EWord) (s : State) : Out := .next (s.fireAB 0x9 w (bitOp2 w.ty (shlBits (Ty.width w.ty) (Ty.signed w.ty) false)))

/-- ADD.sat (R152, R153). -/
def execAddSat (w : EWord) (s : State) : Out := .next (s.fireAB 0x20 w (intOp2 w.ty true (fun a b => a + b)))

/-- SUB.sat (R152, R153). -/
def execSubSat (w : EWord) (s : State) : Out := .next (s.fireAB 0x21 w (intOp2 w.ty true (fun a b => a - b)))

/-- MUL.sat (R152, R153). -/
def execMulSat (w : EWord) (s : State) : Out := .next (s.fireAB 0x22 w (intOp2 w.ty true (fun a b => a * b)))

/-- MAD.sat: C is the register that D0 names (R117, R152). -/
def execMadSat (w : EWord) (s : State) : Out := .next (s.fireABC 0x24 w (intOp3 w.ty true (fun a b c => c + a * b)))

/-- NEG.sat (R152, R154). -/
def execNegSat (w : EWord) (s : State) : Out := .next (s.fireA 0x25 w (intOp1 w.ty true (fun a => -a)))

/-- ABS.sat (R152, R154). -/
def execAbsSat (w : EWord) (s : State) : Out := .next (s.fireA 0x26 w (intOp1 w.ty true (fun a => (a.natAbs : Int))))

/-- SHL.sat (R152, R154). -/
def execShlSat (w : EWord) (s : State) : Out := .next (s.fireAB 0x29 w (bitOp2 w.ty (shlBits (Ty.width w.ty) (Ty.signed w.ty) true)))

/-- SHR (R152, R154). -/
def execShr (w : EWord) (s : State) : Out := .next (s.fireAB 0xA w (bitOp2 w.ty (shrBits (Ty.width w.ty))))

/-- SHA (R152, R154). -/
def execSha (w : EWord) (s : State) : Out := .next (s.fireAB 0xB w (bitOp2 w.ty (shaBits (Ty.width w.ty))))

/-- ROL (R152, R154). -/
def execRol (w : EWord) (s : State) : Out := .next (s.fireAB 0xC w (bitOp2 w.ty (rolBits (Ty.width w.ty))))

/-- CLZ (R152). -/
def execClz (w : EWord) (s : State) : Out := .next (s.fireA 0xD w (bitOp1 w.ty (clzBits (Ty.width w.ty))))

/-- POPC (R152). -/
def execPopc (w : EWord) (s : State) : Out := .next (s.fireA 0xE w (bitOp1 w.ty (Machine.popc (Ty.width w.ty))))

/-- AND on b32 (R152). -/
def execAnd (w : EWord) (s : State) : Out := .next (s.fireAB 0x10 w (wordOp2 (fun a b => a &&& b)))

/-- OR on b32 (R152). -/
def execOr (w : EWord) (s : State) : Out := .next (s.fireAB 0x11 w (wordOp2 (fun a b => a ||| b)))

/-- XOR on b32 (R152). -/
def execXor (w : EWord) (s : State) : Out := .next (s.fireAB 0x12 w (wordOp2 (fun a b => a ^^^ b)))

/-- ANDN on b32 (R152). -/
def execAndn (w : EWord) (s : State) : Out := .next (s.fireAB 0x14 w (wordOp2 (fun a b => a &&& ~~~b)))

/-- NOT on b32 (R152). -/
def execNot (w : EWord) (s : State) : Out := .next (s.fireA 0x13 w (fun a => wordOp2 (fun x _ => ~~~x) a a))

/-- SEL: C is the mask in the register that D0 names (R117, R152). -/
def execSel (w : EWord) (s : State) : Out := .next (s.fireABC 0x15 w (selOp))

/-- CMPEQ (R152, R155). -/
def execCmpeq (w : EWord) (s : State) : Out := .next (s.fireAB 0x18 w (intOp2 w.ty false (fun a b => (flagBits (Ty.width w.ty) (decide (a = b)) : Int))))

/-- CMPNE (R152, R155). -/
def execCmpne (w : EWord) (s : State) : Out := .next (s.fireAB 0x19 w (intOp2 w.ty false (fun a b => (flagBits (Ty.width w.ty) (decide (a ≠ b)) : Int))))

/-- CMPLT (R152, R155). -/
def execCmplt (w : EWord) (s : State) : Out := .next (s.fireAB 0x1A w (intOp2 w.ty false (fun a b => (flagBits (Ty.width w.ty) (decide (a < b)) : Int))))

/-- CMPLE (R152, R155). -/
def execCmple (w : EWord) (s : State) : Out := .next (s.fireAB 0x1B w (intOp2 w.ty false (fun a b => (flagBits (Ty.width w.ty) (decide (a ≤ b)) : Int))))

end Sys2Proof.Machine
end

