-- ==== Sys2Proof/Machine/ElemLane.lean ====
section
/-! DEFINITION. Element lane instructions (R167 to R170). -/

namespace Sys2Proof.Machine

open Sys2Proof

/-- SHUF (R167). -/
def execShuf (w : EWord) (s : State) : Out := .next (s.fireAB 0x70 w (shufOp))

/-- BCAST (R167). -/
def execBcast (w : EWord) (s : State) : Out := .next (s.fireAB 0x71 w (bcastOp))

/-- LROT (R167). -/
def execLrot (w : EWord) (s : State) : Out := .next (s.fireAB 0x72 w (lrotOp))

/-- LRADD (R168). -/
def execLradd (w : EWord) (s : State) : Out := .next (s.fireA 0x78 w (reduceOp w.ty (sumInts w.ty)))

/-- LRMIN (R168). -/
def execLrmin (w : EWord) (s : State) : Out := .next (s.fireA 0x79 w (reduceOp w.ty (fun l => (foldPick (pickInt w.ty true) l, false))))

/-- LRMAX (R168). -/
def execLrmax (w : EWord) (s : State) : Out := .next (s.fireA 0x7A w (reduceOp w.ty (fun l => (foldPick (pickInt w.ty false) l, false))))

/-- LRFADD: the exact sum, rounded once (R168, R169). -/
def execLrfadd (w : EWord) (s : State) : Out := .next (s.fireA 0x7B w (reduceOp w.ty (sumFloats w.ty)))

/-- LRFMIN (R159, R168). -/
def execLrfmin (w : EWord) (s : State) : Out := .next (s.fireA 0x7C w (reduceOp w.ty (fun l => (pickFloats (Ty.format w.ty) fminE l, false))))

/-- LRFMAX (R159, R168). -/
def execLrfmax (w : EWord) (s : State) : Out := .next (s.fireA 0x7D w (reduceOp w.ty (fun l => (pickFloats (Ty.format w.ty) fmaxE l, false))))

/-- LPADD (R170). -/
def execLpadd (w : EWord) (s : State) : Out := .next (s.fireA 0x80 w (scanOp w.ty (sumInts w.ty)))

/-- LPFADD (R169, R170). -/
def execLpfadd (w : EWord) (s : State) : Out := .next (s.fireA 0x81 w (scanOp w.ty (sumFloats w.ty)))

end Sys2Proof.Machine
end

