-- ==== Sys2Proof/Machine/Traps.lean ====
section
/-! DEFINITION. Taking a trap (R330, R331, R433, R537), freezing a working (R427, R432), deciding a kill (R438), and the links that a working's
traffic takes (R16, R505, R506). -/

namespace Sys2Proof.Machine

open Sys2Proof

/-- The quad number of a working's thread on its die. -/
def threadQuad (t : Nat) : Nat := t / 4 % 48

/-- A record of a working's fault with an outcome (R430). -/
def faultRec (h : Nat) (w : Working) (i : TrapInfo) (outcome : Nat) : ErrRec :=
  { cause := i.cause, outcome := outcome, eid := i.eid, handle := h,
    quad := if i.eid = 0xFFFF then threadQuad w.thread else bits i.eid 13 11 * 8 + bits i.eid 7 5,
    vaddr := i.va, paddr := i.pa, detail := i.detail, stop := i.stop, count := i.count }

/-- A working is killed: the record is written, with OUTCOME 6, and from now nothing of the working moves until WORKING_KILL
releases it; the first kill decides (R438, R519). The end value holds the cause, whether the ring took the record, and its SEQ. -/
def State.startKill (s : State) (h : Nat) (i : TrapInfo) (kind : EndKind) : State :=
  let w := s.work h
  if w.killing.isSome || !s.hasWork h then s
  else
    let seq := s.nextSeq w.die
    let t := s.log w.die (faultRec h w { i with stop := w.cycles } 6)
    let lost := b2n (t.nextSeq w.die == seq)
    t.modWork h (fun w => { w with killing := some (kind, BitVec.ofNat 64 (i.cause + 256 * lost + seq * 2 ^ 32)) })

/-! ### Links (R16, R17, R505, R506) -/

/-- Haulage ports are links 0 to 31; crosscut links 32 to 35 join dies 0–1, 2–3, 0–2 and 1–3. -/
def State.link (s : State) (n : Nat) : LinkSt := SMap.get {} s.links n
def State.setLink (s : State) (n : Nat) (x : LinkSt) : State := { s with links := SMap.set {} s.links n x }

/-- The die that records for a link: a port's own, and of a crosscut link's two the lower (log entry 71). -/
def linkDie (n : Nat) : Nat := if n < 32 then n / 8 else [0, 2, 0, 1].getD (n - 32) 0

/-- The crosscut links between two dies, the east–west one first (R16); the other path goes by the remaining links (R505). -/
def crossPath (d d' : Nat) : List Nat :=
  (if d % 2 = d' % 2 then [] else [32 + d / 2]) ++ (if d / 2 = d' / 2 then [] else [34 + d' % 2])
def crossOther (d d' : Nat) : List Nat := [32, 33, 34, 35].filter (fun n => !(crossPath d d').contains n)

/-- A path stands between two dies. -/
def State.crosses (s : State) (d d' : Nat) : Bool :=
  (crossPath d d').all (fun n => (s.link n).up) || (crossOther d d').all (fun n => (s.link n).up)

/-- A location lies on a die to which no path stands. -/
def State.cutOff (s : State) (d pa : Nat) : Bool := dieOfAddr pa != d && !s.crosses d (dieOfAddr pa)

/-- An access of a working from a die to a location: crosscut flits are an event of its canary (R462), and where no path remains the working
is killed (R506; log entry 71). -/
def State.cross (s : State) (h d pa : Nat) : State :=
  if dieOfAddr pa = d then s
  else if s.cutOff d pa then s.startKill h { cause := 0x52 } .faulted
  else s.canaryEvent h

/-- Some haulage port can send (R505). -/
def State.hauls (s : State) : Bool := (List.range 32).any (fun n => (s.link n).up)

/-- Flits of a working sent on haulage (R305, R462); with no port left the working is killed (R506). -/
def State.haul (s : State) (h : Nat) (l : List FlitOut) : State :=
  if s.hauls then { s with flits := s.flits ++ l }.canaryEvent h else s.startKill h { cause := 0x52 } .faulted

/-- The record of a fault whose trap is held, written at detection with OUTCOME 5 (R433). -/
def State.logHeld (s : State) (h : Nat) (i : TrapInfo) : State :=
  let w := s.work h
  if i.logged || !recordsTrap (s.die w.die) i.cause then s else s.log w.die (faultRec h w i 5)

/-- A trap goes before another: its cycle is earlier, or in one cycle its element's identifier is lower (R433). -/
def trapBefore (a b : TrapInfo) : Bool := a.stop < b.stop || (a.stop = b.stop && a.eid ≤ b.eid)

/-- A fault of a working, detected in the clock of a quad: the working freezes, or the fault is held behind one that already
freezes it or that its thread is handling (R432, R433). A held fault's record is written at detection, that of the first when its
trap is taken; one of the same cycle with a lower element takes the first's place. STOP is the resident cycle count of cycle t + 16. -/
def State.raiseFault (s : State) (h quad : Nat) (i : TrapInfo) : State :=
  let w := s.work h
  let i := { i with stop := w.cycles + 16 }
  let x := s.thread w.thread
  if !s.hasWork h || w.killing.isSome then s
  else match w.freeze with
    | none =>
      let held := x.intrap || !x.heldTraps.isEmpty
      (if held then s.logHeld h i else s).modWork h (fun w =>
        { w with freeze := some { i with logged := held }, freezeAt := (s.quad quad).cyc, freezeQuad := quad })
    | some j =>
      if trapBefore j i || j.logged then (s.logHeld h i).modWork h (fun w => { w with faults := w.faults ++ [{ i with logged := true }] })
      else (s.logHeld h j).modWork h (fun w => { w with freeze := some i, faults := w.faults ++ [{ j with logged := true }] })

/-- The same for an element's fault: the element fires in no later cycle (R432). -/
def State.elemFault (s : State) (e : Nat) (i : TrapInfo) : State :=
  let s := s.modElem e (fun x => { x with barAt := some (s.quad (quadOf e)).cyc })
  s.raiseFault (s.owner e) (quadOf e) i

/-- An assay thread that cannot take a trap stops; the die writes a record, with the trap's own DETAIL (R428, R537). -/
def State.stopAssay (s : State) (t : Nat) (i : TrapInfo) : State :=
  (s.modThread t (fun x => { x with stopped := true, wait := .none })).log (dieOfThread t)
    { cause := i.cause, outcome := 6, detail := i.detail, vaddr := i.va }

/-- A thread takes a trap whose word stands at an address (R330); with TRAPVEC = 0 the working is killed with the trap's own
cause, and an assay thread stops (R433, R537). -/
def State.takeTrap (s : State) (t : Nat) (pc : DWord) (i : TrapInfo) : State :=
  let x := s.thread t
  if isAssay t then
    if x.trapvec = 0 then s.stopAssay t i
    else
      let s := if recordsTrap (s.die (dieOfThread t)) i.cause then
        s.log (dieOfThread t) { cause := i.cause, outcome := 5, detail := i.detail, vaddr := i.va } else s
      s.setThread t (x.enterTrap pc i)
  else
    let h := x.bound
    if x.trapvec = 0 then s.startKill h i .faulted
    else
      (s.logHeld h i).setThread t (x.enterTrap pc i)

/-- A trap that an instruction of a thread raises: it is taken before any effect of the instruction (R330); while INTRAP = 1
it kills the working with cause 0x08, or stops an assay thread (R433, R537). -/
def State.raiseTrap (s : State) (t : Nat) (pc : DWord) (i : TrapInfo) : State :=
  let x := s.thread t
  if x.intrap then
    let again : TrapInfo := { cause := 0x08, detail := i.cause }
    if isAssay t then s.stopAssay t again
    else s.startKill x.bound again .faulted
  else s.takeTrap t pc i

/-- A trap at the thread's own instruction. -/
def State.trapHere (s : State) (t : Nat) (i : TrapInfo) : State := s.raiseTrap t (s.thread t).pc i

/-- A refused access of a thread (R441, R493, R494): the running working freezes and the trap comes with the freeze; for an idle
or paused working, for an assay thread, and while INTRAP = 1, it is a trap of the instruction. -/
def State.threadFault (s : State) (t : Nat) (i : TrapInfo) : State :=
  let x := s.thread t
  if isAssay t || x.intrap || (s.work x.bound).state != .running then s.trapHere t i
  else (s.raiseFault x.bound (t / 4) i).modThread t (fun x => { x with wait := .fault })

/-! ### The third and fourth rungs of the ladder (R437, R439) -/

/-- The depth that a rollback takes: the innermost open region whose RETRY has not reached RVMAX. -/
def rollDepth (w : Working) (rvmax : Nat) : Option Nat :=
  let n := w.regions.length
  (w.regions.zip (List.range n)).findSome? (fun p => if rvmax = 0 || p.1.retry < rvmax then some (n - p.2) else none)

/-- An error whose replay has failed: a rollback is decided, or the working is killed. One consumed while a rollback is in progress is only
recorded; one of the same cycle joins it. -/
def State.nextRung (s : State) (h : Nat) (i : TrapInfo) : State :=
  let w := s.work h
  let now := (s.quad (w.thread / 4)).cyc
  if !s.hasWork h || w.killing.isSome then s
  else match w.rolling with
    | some (_, t) =>
      if t = now then s.setWork h { w with rollFor := w.rollFor ++ [i] } else s.log w.die (faultRec h w i 1)
    | none => match rollDepth w (s.die w.die).rvMax.toNat with
      | some d => s.setWork h { w with rolling := some (d, now), rollFor := [i] }
      | none => s.startKill h i .faulted

/-- The error of a counter no two copies of which agree (R468). -/
def counterError (n : Nat) : TrapInfo := { cause := 0x27, detail := 0x20 + n % 64 * 2 ^ 8 }

/-! ### Traps of instructions -/

/-- The illegal-instruction trap (R134, R331). -/
def illegalTrap : TrapInfo := { cause := 0x01 }
/-- The register-block trap of a register that is not held (R311, R520). -/
def blockTrap (r : Nat) : TrapInfo := { cause := 0x02, detail := 1 + r * 2 ^ 8 }
/-- The register-block trap of RBREL and RBACQ: reason and MASK (R312, R520, R521). -/
def maskTrap (reason mask : Nat) : TrapInfo := { cause := 0x02, detail := reason + mask * 2 ^ 16 }
/-- The alignment trap at an address (R331). -/
def alignTrap (ea : Nat) : TrapInfo := { cause := 0x04, detail := ea % 2 ^ 32 }
/-- The privilege trap. -/
def privTrap : TrapInfo := { cause := 0x05 }

end Sys2Proof.Machine
end

