-- ==== Sys2Proof/Machine/Translate.lean ====
section
/-! DEFINITION. Address translation (13_translation) and its refusals (R490, R491): the walk, the three levels of cache with
their capacities, and the updates of AC and DT. Replacement within a level takes the oldest entry (log entry 11). -/

namespace Sys2Proof.Machine

open Sys2Proof

/-- The kinds of an access: ACC of R491. -/
inductive Acc
  | read | write | atomic | fetch
deriving DecidableEq, Repr

def Acc.code : Acc → Nat
  | .read => 0 | .write => 1 | .atomic => 2 | .fetch => 3

/-- True for a kind that needs W and sets DT (R390, R495). -/
def Acc.writes : Acc → Bool
  | .write => true | .atomic => true | _ => false

/-- A refused translation (R490, R491). -/
structure TransErr where
  cause : Nat
  level : Nat := 0
  ast : Bool := false
  wide : Bool := false
  cow : Bool := false
  /-- the entry that could not be read, for cause 0x35 -/
  entry : Nat := 0
deriving DecidableEq, Repr

/-- DETAIL[31:16] of R491, before the shift. -/
def TransErr.detail (r : TransErr) (acc : Acc) (hoist : Option Nat) (tram : Bool) : Nat :=
  acc.code + 2 ^ 2 * r.level + 2 ^ 4 * b2n r.cow + 2 ^ 5 * b2n hoist.isSome + 2 ^ 6 * hoist.getD 0 + 2 ^ 11 * b2n tram +
  2 ^ 12 * b2n r.ast + 2 ^ 13 * b2n r.wide

/-- Eight bytes read physically; an address that names no memory returns bytes the manual does not give (log entry 15). -/
def State.physWord (s : State) (a : Nat) : Nat :=
  if inHbm a then s.word a 8 else ofBytes ((List.range 8).map (fun i => Config.absentByte (a + i)))

/-- The state of a walk at a level: the address of the level's table, or a leaf, or a refusal (R386 to R388). -/
inductive WalkStep
  | table (a : Nat)
  | leaf (t : Tlb)
  | refuse (r : TransErr)
deriving DecidableEq, Repr

/-- log2 of the page size of a leaf at a level (R386). -/
def levelSize (level : Nat) : Nat := if level = 1 then 30 else if level = 2 then 21 else 16

/-- The level of a leaf of a page size (R491). -/
def sizeLevel (size : Nat) : Nat := if size = 30 then 1 else if size = 21 then 2 else 3

/-- The index of an address at a level (R386). -/
def levelIndex (level va : Nat) : Nat :=
  match level with
  | 0 => bits va 55 39 | 1 => bits va 38 30 | 2 => bits va 29 21 | _ => bits va 20 16

/-- log2 of the size of a level's table (R386). -/
def tableBits (level : Nat) : Nat := match level with
  | 0 => 20 | 1 => 12 | 2 => 12 | _ => 8

/-- An entry breaks R387 or R388, or names a physical address at or above 2^39 (R490). -/
def malformed (level v : Nat) : Bool :=
  bits v 63 48 != 0 || bits v 47 39 != 0 ||
  (if bit v 1 then
     level == 0 || (bit v 3 && bit v 4) || (level == 1 && bits v 29 16 != 0) || (level == 2 && bits v 20 16 != 0)
   else level == 3 || bits v 7 2 != 0 || v % 2 ^ tableBits (level + 1) / 2 ^ 8 != 0)

/-- One level of a walk (R386 to R388, R490). -/
def State.walkLevel (s : State) (asid va level table : Nat) : WalkStep :=
  let a := table + 8 * levelIndex level va
  let v := s.physWord a
  if s.isBad a then .refuse { cause := 0x35, level := level, entry := a }
  else if !bit v 0 then .refuse { cause := 0x30, level := level }
  else if malformed level v then .refuse { cause := 0x34, level := level, cow := bit v 1 && bit v 4 }
  else if bit v 1 then
    .leaf ⟨asid, va / 2 ^ levelSize level * 2 ^ levelSize level, levelSize level, BitVec.ofNat 64 v, a⟩
  else .table (bits v 47 8 * 2 ^ 8)

/-- A walk from a level's table downward, with the levels left as fuel. -/
def State.walkFrom (s : State) (asid va : Nat) : Nat → Nat → Nat → WalkStep
  | 0, _, _ => .refuse { cause := 0x34, level := 3 }
  | f + 1, level, table =>
    match s.walkLevel asid va level table with
    | .table a => State.walkFrom s asid va f (level + 1) a
    | r => r

/-- A whole walk on a die (R385, R386, R490): the leaf, or the refusal. -/
def State.walk (s : State) (die asid va : Nat) : WalkStep :=
  let b := (s.die die).astbase.toNat
  if !bit b 0 then .refuse { cause := 0x30, ast := true }
  else
    let a := bits b 47 20 * 2 ^ 20 + 8 * asid
    let v := s.physWord a
    if s.isBad a then .refuse { cause := 0x35, ast := true, entry := a }
    else if !bit v 0 then .refuse { cause := 0x30, ast := true }
    else if bits v 19 1 != 0 || bits v 63 39 != 0 then .refuse { cause := 0x34, ast := true }
    else s.walkFrom asid va 4 0 (bits v 47 20 * 2 ^ 20)

/-- What the leaf refuses: the identity, or the permission (R388, R389, R490). -/
def leafRefuses (t : Tlb) (acc : Acc) (ident : Nat) : Option TransErr :=
  let v := t.leaf.toNat
  let r : TransErr := { cause := 0, level := sizeLevel t.size, cow := bit v 4 }
  if bits v 15 8 != 0 && bits v 15 8 != ident then some { r with cause := 0x33 }
  else if acc.writes then (if bit v 3 then none else some { r with cause := 0x32 })
  else if bit v 2 then none else some { r with cause := 0x31 }

/-- The physical address of a virtual address under a leaf (R388). -/
def leafAddr (t : Tlb) (va : Nat) : Nat := bits t.leaf.toNat 47 t.size * 2 ^ t.size + va % 2 ^ t.size

/-- The leaf with AC, and DT for a write or atomic, set (R390). -/
def leafUsed (t : Tlb) (acc : Acc) : Tlb :=
  { t with leaf := t.leaf ||| BitVec.ofNat 64 (2 ^ 6 + (if acc.writes then 2 ^ 7 else 0)) }

/-- The update of R390 written at the entry's home where the leaf does not hold it yet. -/
def State.useLeaf (s : State) (t : Tlb) (acc : Acc) : State :=
  let u := leafUsed t acc
  if u.leaf = t.leaf then s
  else s.setPhys t.leafAt (toBytes 8 ((BitVec.ofNat 64 (s.physWord t.leafAt)) |||
    BitVec.ofNat 64 (2 ^ 6 + (if acc.writes then 2 ^ 7 else 0))).toNat)

/-! ### Caches (R391) -/

/-- The copy that covers an address. -/
def tlbFind (l : List Tlb) (asid va : Nat) : Option Tlb :=
  l.find? (fun t => t.asid == asid && t.page == va / 2 ^ t.size * 2 ^ t.size)

/-- A copy put into a level of n entries, in place of one for the same page. -/
def tlbPut (n : Nat) (l : List Tlb) (t : Tlb) : List Tlb :=
  let r := l.filter (fun u => !(u.asid == t.asid && u.page == t.page && u.size == t.size))
  (t :: r).take n

/-- Copies of an identifier, or of all, whose page meets a byte range, removed (R348, R396). -/
def tlbDrop (all : Bool) (asid start len : Nat) (l : List Tlb) : List Tlb :=
  l.filter (fun t => !((all || t.asid == asid) && start < t.page + 2 ^ t.size && t.page < start + len))

/-- Where a translation is used: the element of an ME, its quad, and its die (R391). -/
structure TransPlace where
  elem : Option Nat
  quad : Option Nat
  die : Nat

/-- A copy put into the nearest n levels of a place: 1 the ME cache, 2 the quad cache too, 3 all. -/
def State.cachePut (s : State) (p : TransPlace) (n : Nat) (t : Tlb) : State :=
  let s := match p.elem with
    | some e => s.modElem e (fun x => { x with tlb := tlbPut 16 x.tlb t })
    | none => s
  let s := match p.quad with
    | some q => if 2 ≤ n then s.modQuad q (fun x => { x with tlb := tlbPut 4096 x.tlb t }) else s
    | none => s
  if 3 ≤ n then s.modDie p.die (fun x => { x with tlb := tlbPut 65536 x.tlb t }) else s

/-- The copy that a place finds in its levels, nearest first, and the level: it fills the levels nearer than that one, and none beyond it. -/
def State.cacheFind (s : State) (p : TransPlace) (asid va : Nat) : Option (Nat × Tlb) :=
  match p.elem.bind (fun e => tlbFind (s.elem e).tlb asid va) with
  | some t => some (1, t)
  | none => match p.quad.bind (fun q => tlbFind (s.quad q).tlb asid va) with
    | some t => some (2, t)
    | none => (tlbFind (s.die p.die).tlb asid va).map (fun t => (3, t))

/-- A translated address and the state with the updates of R390, or the refusal. -/
inductive Trans
  | ok (pa : Nat) (t : Tlb) (s : State)
  | refused (r : TransErr)
  | miss

/-- A translation through a leaf found at a level, or walked for at level 3. -/
def State.throughLeaf (s : State) (p : TransPlace) (va : Nat) (acc : Acc) (ident n : Nat) (t : Tlb) : Trans :=
  match leafRefuses t acc ident with
  | some r => .refused r
  | none => .ok (leafAddr t va) (leafUsed t acc) ((s.useLeaf t acc).cachePut p n (leafUsed t acc))

/-- A translation through the caches alone; a miss waits for a walk (R392). -/
def State.transCached (s : State) (p : TransPlace) (asid va : Nat) (acc : Acc) (ident : Nat) : Trans :=
  match s.cacheFind p asid va with
  | some t => s.throughLeaf p va acc ident t.1 t.2
  | none => .miss

/-- A translation with its walk where the caches miss (R392, R393). -/
def State.translate (s : State) (p : TransPlace) (asid va : Nat) (acc : Acc) (ident : Nat) : Trans :=
  match s.cacheFind p asid va with
  | some t => s.throughLeaf p va acc ident t.1 t.2
  | none => match s.walk p.die asid va with
    | .leaf t => s.throughLeaf p va acc ident 3 t
    | .refuse r => .refused r
    | .table _ => .refused { cause := 0x34, level := 3 }

/-! ### Shares of tile SRAM (R367) -/

/-- True when a data bank of a tile belongs to a working's share: bank 2k or 2k + 1 of a claim k of the working. -/
def ownsBank (w : Working) (tile bank : Nat) : Bool :=
  let k := bank / 2
  let row := tile % 192 / 16 * 4 + k / 2
  let col := tile % 16 * 2 + k % 2
  tile / 192 == w.die && w.row ≤ row && row < w.row + w.height && w.col ≤ col && col < w.col + w.width

/-- A fabric-window address lies in a bank of the working's share (R324, R367). -/
def inShare (w : Working) (a : Nat) : Bool :=
  match windowTile a with
  | some t => ownsBank w t (bits a 20 17)
  | none => false

end Sys2Proof.Machine
end

