-- ==== Sys2Proof/Machine/Access.lean ====
section
/-! DEFINITION. What an access does at its location: the undo log (R351, R441), marks of poison (R216), watches on a word
(R219), and the values of atomics (R227). -/

namespace Sys2Proof.Machine

open Sys2Proof

/-! ### The sectors of a kept entry (R351) -/

/-- Some sum of c_i * S_i, each c_i below its extent, lies in lo to hi; (extent, stride) by dimension. -/
def reaches : List (Nat × Nat) → Nat → Nat → Bool
  | [], lo, _ => lo == 0
  | (e, st) :: r, lo, hi =>
    if e = 0 then false
    else if st = 0 then reaches r lo hi
    else anyTo (fun c => decide (c * st ≤ hi) && reaches r (lo - c * st) (hi - c * st)) (min e (hi / st + 1))
where
  /-- some number below n satisfies p -/
  anyTo (p : Nat → Bool) : Nat → Bool
    | 0 => false
    | n + 1 => p n || anyTo p n

/-- The extents and strides of an entry, and its bases in use (R201). -/
def entDimList (r : Nat) : List (Nat × Nat) := (List.range (entDims r)).map (fun i => (entExt r i, entStr r i))
def entBases (r : Nat) : List Nat := if entShv r then [entBase r 0, entBase r 1] else [entBase r (b2n (entSel r))]

/-- A byte of some element of a tile-SRAM entry lies in the sector at slice offset o of a tile of the working. -/
def entHoldsSector (w : Working) (r tile o : Nat) : Bool :=
  (entBases r).any (fun base =>
    (entOwn r || w.tileAt (bits base 28 21) == tile) &&
    let o' := (bits o 20 17 ^^^ entBx r) * 2 ^ 17 + o % 2 ^ 17
    let b := bits base 20 0
    -- the element offsets whose bytes meet the sector
    decide (b < o' + 32) &&
    reaches (entDimList r) ((o' - b + 1 + (entSize r - 1)) / entSize r - 1) ((o' + 31 - b) / entSize r))

/-- The entries that a region keeps (KIND 0, R349). -/
def keptEntries (g : Region) : List Nat := (g.keeps.filter (fun k => bits k.toNat 1 0 == 0)).map (fun k => bits k.toNat 15 8)

/-- The entry of a region's kept tile-SRAM entries that holds a sector. -/
def Region.keeper (w : Working) (g : Region) (t sec : Nat) : Option Nat :=
  (keptEntries g).find? (fun k => entSpace (w.entry k) == 2 && entHoldsSector w (w.entry k) t (sec % 2 ^ 21))

/-- The record that a first write to a sector needs: (depth, entry) of the innermost open region that keeps an entry holding the sector,
where that region has no record of it yet (R351). Depths count from 1, outermost first; regions are listed innermost first. -/
def State.undoNeed (s : State) (h a : Nat) : Option (Nat × Nat) :=
  let w := s.work h
  match windowTile a with
  | none => none
  | some t =>
    let sec := sectorOf a
    let n := w.regions.length
    match (w.regions.zip (List.range n)).findSome? (fun p => (p.1.keeper w t sec).map (fun k => (n - p.2, k))) with
    | none => none
    | some p => if (s.tile t).undo.any (fun u => u.handle == h && u.depth == p.1 && u.sector == sec) then none else some p

/-- Bytes of a tile's undo log in use: the checkpoints of open regions and 64 bytes a record (R350, R441). -/
def State.undoUsed (s : State) (t : Nat) : Nat :=
  64 * (s.tile t).undo.length +
  (s.works.map (fun p => (p.2.regions.map (fun g => (g.room.map (fun q => if q.1 = t then q.2 else 0)).foldr (· + ·) 0)).foldr
    (· + ·) 0)).foldr (· + ·) 0

/-- A write to a sector finds room for the record it needs (R441). -/
def State.undoRoom (s : State) (h a : Nat) : Bool :=
  match windowTile a with
  | none => true
  | some t => (s.undoNeed h a).isNone || s.undoUsed t + 64 ≤ 65536

/-- The old bytes and mark of a sector saved for the region that needs them (R351). -/
def State.saveUndo (s : State) (h a : Nat) : State :=
  match windowTile a, s.undoNeed h a with
  | some t, some p =>
    let sec := sectorOf a
    s.setTile t { s.tile t with undo := (s.tile t).undo ++ [⟨h, p.1, p.2, sec, s.bytesAt sec 32, s.poisoned sec⟩] }
  | _, _ => s

/-! ### Watches (R219) -/

/-- A watch's word equals its value, for a watch that names an element and holds a value; node is its word's address. The word is bank memory's:
the bytes of an open speculation, its own element's too, count for it from the commit on (log entry 67). -/
def State.watchMet (s : State) (a : Access) : Bool := a.total == 1 && s.word a.node 4 == a.b.p.a0.toNat

/-- A watch that triggers takes the poison of its word's sector with it; one that has triggered stays (R212, R219). -/
def State.trigger (s : State) (k : Access) : Access :=
  if k.stage == .performed then k else { k with stage := .performed, got := { k.got with x := s.poisoned k.node } }

/-- The watches of a tile's SEs on words that a write touched trigger where the word equals the value. -/
def State.touchWatches (s : State) (a n : Nat) : State :=
  match windowTile a with
  | none => s
  | some t =>
    let d := t / 192
    let first := claimKey d (t % 192 / 16 * 4) (t % 16 * 2)
    forN (fun i s =>
      let e := (first + i / 2 * 32 + i % 2) * 8 + 3
      if (s.elem e).watches.isEmpty then s
      else s.modElem e (fun x => { x with watches := x.watches.map (fun k =>
        if k.node < a + n && a < k.node + 4 && s.watchMet k then s.trigger k else k) })) 8 0 s

/-! ### Stores -/

/-- The record of a write that finds an uncorrectable error (R488). -/
def State.partRecord (s : State) (h a : Nat) : State :=
  s.log (if inWindow a then bits a 33 32 else if h = 0 then a / 2 ^ 37 else (s.work h).die)
    { cause := if inWindow a then 0x23 else 0x21, outcome := 1, handle := h, paddr := sectorOf a }

/-- A write of the bytes of a sector that satisfy p finds an uncorrectable error in bytes it does not write: in a word of tile SRAM that it
writes in part, or in a sector of HBM (R425, R488). -/
def State.findsBad (s : State) (a : Nat) (p : Nat → Bool) : Bool :=
  let b := sectorOf a
  if inWindow a then (List.range 4).any (fun i => s.isBad (b + 8 * i) &&
    (List.range 8).any (fun j => p (b + 8 * i + j)) && !(List.range 8).all (fun j => p (b + 8 * i + j)))
  else s.isBad a && !(List.range 32).all (fun j => p (b + j))

/-- A write of part of a sector with an uncorrectable error: the sector is poisoned, the error gone, and a record written
(R488). -/
def State.partWrite (s : State) (h a : Nat) (p : Nat → Bool) : State :=
  if s.findsBad a p then ((s.partRecord h a).clearSector a).setPoison a true else s

/-- The bytes from an address on. -/
def within (a n b : Nat) : Bool := decide (a ≤ b) && decide (b < a + n)

/-- Bytes of one sector written by an agent of a working: the undo log first (R351), then the bytes, the poison mark (R216,
R488) and the watches on them. -/
def State.store (s : State) (h a : Nat) (l : List Byte) (x : Bool) : State :=
  ((((s.saveUndo h a).setBytes a l).markWrite a l.length x).partWrite h a (within a l.length)).touchWatches a l.length

/-! ### Atomics (R227) -/

/-- The new value from the old w and the operand x, and whether it is exceptional. -/
def amoNew (aop w x : Nat) : Nat × Bool :=
  let sw := sextInt 32 w
  let sx := sextInt 32 x
  match aop with
  | 0 => ((w + x) % 2 ^ 32, false)
  | 1 => (w &&& x, false)
  | 2 => (w ||| x, false)
  | 3 => (w ^^^ x, false)
  | 4 => (if sx < sw then x else w, false)
  | 5 => (if sw < sx then x else w, false)
  | 6 => (min w x, false)
  | 7 => (max w x, false)
  | 8 => faddE .f32 w x
  | 9 => (fminE .f32 w x, false)
  | 10 => (fmaxE .f32 w x, false)
  | _ => (x, false)

end Sys2Proof.Machine
end

