-- ==== Sys2Proof/Machine/Phase.lean ====
section
/-! DEFINITION. Phases and the states of a working (R336 to R341, R375, R376): what an observation waits for, the end of a phase,
and the release of what a freeze has barred. -/

namespace Sys2Proof.Machine

open Sys2Proof

/-- The sequence numbers of an element's accesses that are issued and have not performed; refused accesses and armed watches are not among
them (R341). A macro's accesses are issued at its firing (R254): it is among them while macros go on, and where they do not, it stops at its
next element boundary (R376), so that it is among them only while a peer package has its element under way. -/
def Elem.unperformed (x : Elem) (goOn : Bool) : List Nat :=
  (x.accs.filter (fun a => (!opMac a.op || goOn || !a.peers.isEmpty) && (a.stage == .issued || a.stage == .parked))).map (fun a => a.seq)

/-- Macros of a working go on: it runs, and nothing stops it (R376). -/
def Working.macrosGo (w : Working) : Bool := w.state == .running && w.stopping.isNone && w.freeze.isNone

/-- The accesses of a working's firings that have not performed. -/
def State.unperformed (s : State) (h : Nat) : List (Nat × Nat) :=
  ((s.work h).elems.map (fun e => ((s.elem e).unperformed (s.work h).macrosGo).map (fun n => (e, n)))).flatten

/-- Those and every macro in flight, which an observation of what changes now has to wait for. -/
def State.toAwait (s : State) (h : Nat) : List (Nat × Nat) :=
  ((s.work h).elems.map (fun e => ((s.elem e).unperformed true).map (fun n => (e, n)))).flatten

/-- Every access that the last change of a working left unperformed has performed, or has been refused, or belongs to a macro that has stopped
(R341, R376). -/
def State.observable (s : State) (h : Nat) : Bool :=
  (s.work h).awaited.all (fun p => !((s.elem p.1).unperformed (s.work h).macrosGo).contains p.2)

/-- The accesses in flight noted, for the observations that follow. -/
def State.noteAwaited (s : State) (h : Nat) : State := s.modWork h (fun w => { w with awaited := s.toAwait h })

/-- The working's phase element, whatever context is active (R129). -/
def Working.phaseElem (w : Working) : Nat := elemOfBlock w w.phaseAt.1 w.phaseAt.2

/-- The context that the predicate network names: 2 * p7 + p6 of the phase element (R40, R375). -/
def State.network (s : State) (h : Nat) : BitVec 2 := BitVec.ofNat 2 (bits (s.elem (s.work h).phaseElem).p.toNat 7 6)

/-- The end of the running phase (R39, R338): NEXT chosen, EXPL cleared, the end counted and shown to the thread; with no budget
left the working is idle. -/
def State.endPhase (s : State) (h : Nat) : State :=
  let w := s.work h
  let next := if w.expl then w.next else s.network h
  let s := s.setWork h { w with next := next, expl := false, inPhase := false, sinks := [], phases := w.phases + 1,
                                endNet := s.network h, state := if w.budget = 0 then .idle else w.state, awaited := s.toAwait h }
  s.modThread w.thread (fun t => { t with phaseEnded := true })

/-- What a resumption releases: elements barred by a fault may fire, and refused accesses are made again (R341, R494). -/
def Elem.unbar (x : Elem) : Elem :=
  { x with barAt := none,
           accs := x.accs.map (fun a => if a.stage == .refused then { a with stage := .issued } else a) }

/-- The same for every element of a working. -/
def State.unbarAll (s : State) (h : Nat) : State :=
  (s.work h).elems.foldl (fun s e => s.modElem e Elem.unbar) s

/-- Hoist units that a fault has stopped are tried again (R494). -/
def State.unhalt (s : State) (h : Nat) : State :=
  forN (fun d s => s.modDie d (fun x => { x with hoists := x.hoists.map (fun p =>
    if p.2.handle = h then (p.1, { p.2 with halted := false }) else p) })) 4 0 s

/-- STATE of WSTAT. -/
def RunState.code : RunState → Nat
  | .idle => 0 | .running => 1 | .paused => 2

/-- WSTAT (R336). -/
def Working.wstat (w : Working) : DWord :=
  BitVec.ofNat 64 (w.state.code + w.active.toNat * 2 ^ 2 + w.next.toNat * 2 ^ 4 + b2n w.expl * 2 ^ 6 + b2n w.loading * 2 ^ 7 +
    w.budget % 2 ^ 32 * 2 ^ 8 + w.report.length % 2 ^ 5 * 2 ^ 40 + b2n w.poison.isSome * 2 ^ 45)

end Sys2Proof.Machine
end

