-- ==== Sys2Proof/Machine/Mem.lean ====
section
/-! DEFINITION. What the element memory instructions share: descriptors (R209), coordinates (R215), issue with its room and capacity
(R210 to R214), wave order (R223), places and refusals (R392, R486 to R494), reads and writes at a place, and replies (R211,
R212). -/

namespace Sys2Proof.Machine

open Sys2Proof

/-! ### Descriptors -/

def dEnt (d : Nat) : Nat := bits d 7 0
def dSide (d : Nat) : Nat := bits d 8 8
def dOrd (d : Nat) : Nat := bits d 13 12
def dSx (d : Nat) : Bool := bit d 14
def dAop (d : Nat) : Nat := bits d 20 16

/-- The descriptor that TY names (R208). -/
def State.memDesc (s : State) (e : Nat) (w : EWord) : Nat := (SMap.get 0 (s.curCfg e).k (tyCode w.ty - 12)).toNat

/-- Opcodes whose descriptor is that of R209. -/
def opR209 (op : Nat) : Bool := (0xB0 ≤ op && op ≤ 0xB2) || (0xC2 ≤ op && op ≤ 0xC7)

/-- The side that an access resolves on; LD, ST and the tram take the front (R222). -/
def accSide (op d : Nat) : Nat := if opR209 op || op = 0xC8 then dSide d else 0

/-- ORD of an access; plain where the descriptor has none. -/
def Access.ord (a : Access) : Nat := if opR209 a.op then dOrd a.desc.toNat else 0
def Access.acquires (a : Access) : Bool := a.ord == 1 || a.ord == 3
/-- A release; the acceptance of a hoist command is one (R254). -/
def Access.releases (a : Access) : Bool := a.ord == 2 || a.ord == 3 || a.op == 0xCB

/-- Coordinates from lanes 0 to d - 1; none when one of them is invalid (R215). -/
def coordsOf (a : VReg) (d : Nat) : Option (Nat → Nat) :=
  if (List.range d).all (fun i => mbit a.m i) then some (fun i => if i < d then (a.p.get i).toNat else 0) else none

/-- The entry of an access, and the address of an element. -/
def State.accEntry (s : State) (e : Nat) (a : Access) : Nat := (s.work (s.owner e)).entry (dEnt a.desc.toNat)

/-- The address of the element at coordinates; none when out of range. -/
def State.accAt (s : State) (e : Nat) (a : Access) (c : Nat → Nat) : Option Nat :=
  resolve (s.work (s.owner e)) (s.accEntry e a) a.base (tileOf e) c

/-- The element that lanes 0 to d - 1 of A name. -/
def State.accOne (s : State) (e : Nat) (a : Access) : Option Nat :=
  (coordsOf a.a (entDims (s.accEntry e a))).bind (s.accAt e a)

/-- The element that lane l of A names by its index (R215). -/
def State.accLane (s : State) (e : Nat) (a : Access) (l : Nat) : Option Nat :=
  if mbit a.a.m l then s.accAt e a (fun i => if i = 0 then (a.a.p.get l).toNat else 0) else none

/-- Opcodes that act lane by lane on an index. -/
def opLanes (op : Nat) : Bool := 0xC2 ≤ op && op ≤ 0xC7

/-- A CAS (R228). -/
def Access.cas (a : Access) : Bool := (a.op == 0xC4 || a.op == 0xC5) && dAop a.desc.toNat == 12

/-- A lane acts (R225, R228): its index names an element, and its data lanes are valid. -/
def State.laneActs (s : State) (e : Nat) (a : Access) (l : Nat) : Option Nat :=
  let data :=
    if a.op = 0xC2 then true
    else if a.cas then l < 4 && mbit a.b.m l && mbit a.b.m (l + 4)
    else mbit a.b.m l
  if data then s.accLane e a l else none

/-- The elements of a row (R218): element i at c0 + i. -/
def State.rowAt (s : State) (e : Nat) (a : Access) (i : Nat) : Option Nat :=
  (coordsOf a.a (entDims (s.accEntry e a))).bind (fun c => s.accAt e a (fun k => if k = 0 then c 0 + i else c k))

/-- Elements in a row. -/
def rowCount (r : Nat) : Nat := 32 / entSize r

/-- The addresses that an access has still to touch (R214). -/
def State.accAddrs (s : State) (e : Nat) (a : Access) : List Nat :=
  if opLanes a.op then
    (List.range 8).filterMap (fun l =>
      if l < a.prg && opMac a.op || a.done.getLsbD l then none else s.laneActs e a l)
  else if a.op = 0xB0 || a.op = 0xB1 then (List.range (rowCount (s.accEntry e a))).filterMap (s.rowAt e a)
  else if a.op = 0xCB then []
  else (s.accOne e a).toList

/-! ### Issue -/

/-- The sideband of an operand: a queue head's whole, else M and X (R446). -/
def srcSide (x : Elem) (src : Src) (v : VReg) : Nat :=
  match src with
  | .q n => (x.headOr n).side
  | _ => sideWord v.m 0 false v.x 0 0

/-- The speculations that an element has open: bank and issue number (R220). -/
def State.openSpecs (s : State) (e : Nat) : List (Nat × Nat) :=
  ((s.tile (tileOf e)).specs.filter (fun p => p.opener == e)).map (fun p => (p.bank, p.begun))

/-- A new access of the current slot (R208, R212). -/
def State.newAccess (s : State) (e op : Nat) (w : EWord) : Access :=
  let x := s.elem e
  let d := s.memDesc e w
  let r := (s.work (s.owner e)).entry (dEnt d)
  let a := s.opA e w
  let b := if readsB op w.ty then s.opB e w else VReg.zero
  { seq := x.seq, op := op, ty := tyCode w.ty, a := a, b := b, desc := BitVec.ofNat 32 d,
    seed := if op = 0xCA then SMap.get 0 (s.curCfg e).k (tyCode w.ty - 11) else 0,
    base := sideBase r (accSide op d),
    d0 := destCode w.d0, d1 := destCode w.d1, r0 := s.routeOf e w.d0, r1 := s.routeOf e w.d1, t0 := sideT x w w.d0, t1 := sideT x w w.d1,
    l0 := sideL x w w.d0, l1 := sideL x w w.d1, c := (sideCI x w).1, i := (sideCI x w).2, x := a.x || b.x,
    specs := s.openSpecs e, aside := srcSide x w.sa a, bside := if readsB op w.ty then srcSide x w.sb b else 0 }

/-- Issued accesses that have not performed, refused ones among them. -/
def Elem.inQueue (x : Elem) : Nat := (x.accs.filter (fun a => a.stage != .performed)).length

/-- Accesses issued whose replies have not left; of the watches those that have triggered (R213). -/
def Elem.inFlight (x : Elem) : Nat := x.accs.length + (x.watches.filter (fun a => a.stage == .performed)).length

/-- An acquire of the element has not performed: no later access issues (R243). -/
def Elem.acquiring (x : Elem) : Bool := x.accs.any (fun a => a.acquires && a.stage != .performed)

/-- An SE or ME can take one more access (R213, R214, R243). -/
def memRoom (e : Nat) (x : Elem) : Bool := x.inFlight < 64 && (kindOf e != 2 || x.inQueue < 32) && !x.acquiring

/-- A poisoned data operand needs a free report entry (R216). -/
def State.poisonRoom (s : State) (e : Nat) (b : VReg) : Bool := !b.x || s.reportRoom (s.owner e)

/-- A memory slot is ready; macOp is true for a macro, data for an operand B that is stored. -/
def State.readyMem (s : State) (e : Nat) (w : EWord) (macOp data : Bool) : Bool :=
  s.mayFire e && triggerPass (s.elem e) w macOp && s.rooms e w && memRoom e (s.elem e) &&
  (!data || s.poisonRoom e (s.opB e w))

/-- The queue that a consumer slot sends to, by the route entry that it goes by; none for a guarded link and for destinations that always
have room. -/
def State.destTarget (s : State) (e r : Nat) (d : Dest) : Option (Nat × Nat) :=
  match d with
  | .link dir _ _ => if s.guardedLink e (linkNum dir) then none else linkTarget e (linkNum dir)
  | .route _ _ _ => routeTarget e r
  | _ => none

/-- Room on a destination taken at the firing, or given back (R210). -/
def State.takeRoom (s : State) (e r : Nat) (d : Dest) : State :=
  match s.destTarget e r d with
  | some p => s.setSpace (spaceKey p.1 p.2) (s.spaceOf (spaceKey p.1 p.2) - 1)
  | none => s
def State.giveRoom (s : State) (e r : Nat) (d : Dest) : State :=
  match s.destTarget e r d with
  | some p => s.setSpace (spaceKey p.1 p.2) (s.spaceOf (spaceKey p.1 p.2) + 1)
  | none => s

/-- The report token of a poisoned store (R216). -/
def State.storeReport (s : State) (e : Nat) (a : Access) : State :=
  let r := s.accEntry e a
  let h := s.owner e
  let low := (List.range 8).find? (fun l => mbit a.a.m l)
  let coord := fun l =>
    if opLanes a.op then (if l = 0 then (a.a.p.get (low.getD 0)).toNat else 0)
    else if l < entDims r then (a.a.p.get l).toNat else 0
  s.report h (reportToken (fun l => match l with
    | 0 => 1 | 1 => poisonWord (s.work h) | 2 => e | 3 => dEnt a.desc.toNat | _ => coord (l - 4)))

/-- A firing that issues an access: pops and predicates, the access put in its place, room taken, and a report of poisoned
data. -/
def State.fireMem (s : State) (op : Nat) (w : EWord) (a : Access) (put : Elem → Access → Elem) (data : Bool) : State :=
  let e := s.cur.elem
  let a := { a with res0 := true, res1 := true }
  let s := s.fire e op w none none (fun x => { put x a with seq := x.seq + 1 }) (popList w) false
  let s := (s.takeRoom e a.r0 w.d0).takeRoom e a.r1 w.d1
  if data && a.b.x then s.storeReport e a else s

/-- An access at the end of the issued ones. -/
def Elem.issue (x : Elem) (a : Access) : Elem := { x with accs := x.accs ++ [a] }

/-! ### Wave order (R222, R223) -/

def wavePred (a : Access) : Nat := bits a.desc.toNat 15 8
def waveSelf (a : Access) : Nat := bits a.desc.toNat 23 16
def waveSucc (a : Access) : Nat := bits a.desc.toNat 31 24

/-- A fired LD or ST can enter order. -/
def Elem.canEnter (x : Elem) (a : Access) : Bool :=
  match x.waves.find? (fun v => v.c == a.c && v.i == a.i) with
  | none => wavePred a == 0
  | some v => (v.succ != 0xFF && v.succ == waveSelf a) || (wavePred a != 0xFF && wavePred a == v.self)

/-- An LD or ST enters order: it is issued, and its wave opens, goes on or closes. -/
def Elem.enter (x : Elem) (a : Access) : Elem :=
  let rest := x.waves.filter (fun v => !(v.c == a.c && v.i == a.i))
  { x.issue a with waves := if waveSucc a = 0 then rest else rest ++ [⟨a.c, a.i, waveSelf a, waveSucc a⟩] }

/-- The next LD or ST to enter order: the oldest in the wave buffer that can (R223). -/
def Elem.nextEnter (x : Elem) : Option Access := x.wbuf.find? x.canEnter

/-- Waiting accesses enter order, oldest first, while one can and the element has room for it, with fuel. -/
def Elem.drain (e : Nat) (x : Elem) : Nat → Elem
  | 0 => x
  | n + 1 =>
    match x.nextEnter with
    | some a => if memRoom e x then Elem.drain e { x.enter a with wbuf := x.wbuf.filter (fun b => b.seq != a.seq) } n else x
    | none => x

/-- A fired LD or ST takes its place after those that wait, and all that can enter order do. -/
def Elem.wavePut (e : Nat) (x : Elem) (a : Access) : Elem := Elem.drain e { x with wbuf := x.wbuf ++ [a] } 17

/-! ### Replies -/

/-- The access with a sequence number, changed. -/
def State.modAcc (s : State) (e seq : Nat) (f : Access → Access) : State :=
  s.modElem e (fun x => { x with accs := x.accs.map (fun a => if a.seq = seq then f a else a) })

/-- A token of an access's reply for D0 or D1, with L as fixed or cleared (R212). -/
def Access.token (a : Access) (second : Bool) (v : VReg) (last : Bool) : Token :=
  { p := cleanLanes v.p v.m, m := v.m, t := if second then a.t1 else a.t0,
    l := last && (if second then a.l1 else a.l0), x := a.x || v.x, c := a.c, i := a.i }

/-- One token added to the reply for both destinations. -/
def Access.addOut (a : Access) (v : VReg) (last : Bool) : Access :=
  { a with out0 := a.out0 ++ [a.token false v last], out1 := a.out1 ++ [a.token true v last] }

/-- An access completed by a reply. -/
def Access.reply (a : Access) (v : VReg) : Access := { a.addOut v true with stage := .performed }

/-- An acknowledgement of n elements (R217). -/
def ackOf (n : Nat) : VReg := scalar n

/-- One token leaves for a destination where it has room. -/
def State.leaveOne (s : State) (e r : Nat) (d : Dest) (l : List Token) (res : Bool) (o : Origin) : State × List Token × Bool :=
  match l with
  | [] => (s, [], res)
  | k :: rest =>
    let s' := if res then s.giveRoom e r d else s
    if s'.roomVia e r d then (s'.writeVia e r d k o, rest, false) else (s, l, res)

/-! ### Places and refusals -/

/-- The fields of a fault of an access: INDEX and MAC, the bits of the cause, and the PRG of a macro (R480, R486, R491). -/
def State.accDetail (s : State) (e : Nat) (a : Access) (mid : Nat) : Nat :=
  let w := s.work (s.owner e)
  let mac := opMac a.op
  blockIndex w e * 8 + posOf e + 2 ^ 15 * b2n mac + 2 ^ 16 * mid + (if mac then a.prg * 2 ^ 32 else 0)

/-- An access refused: it stays issued and unperformed, and the working takes the fault (R432, R494). -/
def State.refuseAcc (s : State) (e : Nat) (a : Access) (i : TrapInfo) : State :=
  (s.modAcc e a.seq (fun b => { b with stage := .refused, va := i.va })).elemFault e { i with eid := e }

/-- True for a chase or a walk, which a tram unit makes. -/
def Access.tram (a : Access) : Bool := a.op == 0xC9 || a.op == 0xCA

/-- A refused translation of an access; unit is true for one made by a tram or stamp unit (R491, R503). -/
def State.refuseTrans (s : State) (e : Nat) (a : Access) (va : Nat) (acc : Acc) (r : TransErr) (unit : Bool) : State :=
  s.refuseAcc e a { cause := r.cause, detail := s.accDetail e a (r.detail acc none unit), va := va }

/-- A write that finds the undo log full (R441). -/
def State.refuseUndo (s : State) (e : Nat) (a : Access) (pa : Nat) : State :=
  s.refuseAcc e a { cause := 0x61, detail := (s.work (s.owner e)).relTile ((windowTile pa).getD 0) }

/-- The place of an address: a location, a wait for a walk or for a repair, a request sent to a peer package, or a refusal. -/
inductive Place
  | ok (pa : Nat) (s : State)
  | sent (s : State)
  | park
  | wait
  /-- a location that cannot be read now, with what its translation has set (R390) -/
  | held (s : State)
  | refuse (r : TransErr)

/-- An element's address placed (R198, R392, R490): tram units translate on their own, other accesses through the caches. -/
def State.place (s : State) (e : Nat) (a : Access) (va : Nat) (acc : Acc) : Place :=
  let w := s.work (s.owner e)
  let ident := entIdent (s.accEntry e a)
  let at' := fun (pa : Nat) (s : State) => if s.cutOff (dieOf e) pa then Place.held (s.cross (s.owner e) (dieOf e) pa)
    else .ok pa (s.cross (s.owner e) (dieOf e) pa)
  if inWindow va then (if inShare w va then .ok va s else .refuse { cause := 0x36 })
  else if a.tram then
    match s.translate ⟨none, none, dieOf e⟩ w.asid va acc ident with
    | .ok pa _ s => at' pa s
    | .refused r => if r.cause = 0x35 then .wait else .refuse r
    | .miss => .wait
  else match s.transCached ⟨some e, some (quadOf e), dieOf e⟩ w.asid va acc ident with
    | .ok pa _ s => at' pa s
    | .refused r => .refuse r
    | .miss => .park

/-- A place whose n bytes a read can use: an uncorrectable error is not read (R434). -/
def State.placeRead (s : State) (e : Nat) (a : Access) (va n : Nat) (acc : Acc) : Place :=
  match s.place e a va acc with
  | .ok pa s' => if s'.badIn pa n then .held s' else .ok pa s'
  | r => r

/-- What becomes of an access whose place is not a location. -/
def State.noPlace (s : State) (e : Nat) (a : Access) (va : Nat) (acc : Acc) (p : Place) : State :=
  match p with
  | .refuse r => s.refuseTrans e a va acc r a.tram
  | .park => if a.stage == .issued then s.modAcc e a.seq (fun b => { b with stage := .parked, va := va }) else s
  | .held s' => s'
  | _ => s

/-! ### Speculation (R220) -/

/-- The bank of a window address. -/
def bankOf (a : Nat) : Nat := bits a 20 17

/-- How an access meets the speculations of its element at an address: in none, in one that is open, or in one discarded since. -/
inductive SpecView
  | none
  | some (p : Spec)
  | gone

/-- The speculation that an access belongs to: the one open on the bank of its address when it fired (R220). -/
def State.specAt (s : State) (e : Nat) (k : Access) (a : Nat) : SpecView :=
  match windowTile a, k.specs.find? (fun p => p.1 == bankOf a) with
  | some t, some p =>
    if t ≠ tileOf e then .none
    else match (s.tile t).specs.find? (fun q => q.opener == e && q.bank == p.1 && q.begun == p.2) with
      | some q => .some q
      | none => .gone
  | _, _ => .none

/-- The bytes and mark of a sector. -/
def State.sectorSeen (s : State) (sec : Nat) : List Byte × Bool := (s.bytesAt sec 32, s.poisoned sec)

/-- The bytes and mark of a sector as an access sees them: its own speculation first. -/
def State.sectorFor (s : State) (e : Nat) (k : Access) (sec : Nat) : List Byte × Bool :=
  match s.specAt e k sec with
  | .some p => SMap.get (s.sectorSeen sec) p.sectors sec
  | _ => s.sectorSeen sec

/-- n bytes of one sector and its mark. -/
def State.seen (s : State) (a n : Nat) : List Byte × Bool := (s.bytesAt a n, s.poisoned a)

/-! ### Writes by an element -/

/-- Bytes (address, byte) put over a sector's bytes. -/
def overSector (sec : Nat) (old : List Byte) (l : List (Nat × Byte)) : List Byte :=
  (List.range 32).map (fun i => match l.find? (fun p => p.1 == sec + i) with
    | some p => p.2
    | none => old.getD i 0)

/-- A list writes a byte. -/
def inList (l : List (Nat × Byte)) (a : Nat) : Bool := l.any (fun p => p.1 == a)

/-- How many bytes of a sector a list writes. -/
def coversCount (sec : Nat) (l : List (Nat × Byte)) : Nat :=
  ((List.range 32).filter (fun i => l.any (fun p => p.1 == sec + i))).length

/-- The poison mark of a sector after a write of n of its bytes over an old mark (R216). -/
def newMark (old x : Bool) (n : Nat) : Bool := x || (old && n != 32)

/-- Bytes of one sector written by an element, whole where the list covers it; none where the undo log is full (R441). -/
def State.writeSector (s : State) (e sec : Nat) (l : List (Nat × Byte)) (x : Bool) : Option State :=
  let h := s.owner e
  let l := l.filter (fun p => sectorOf p.1 == sec)
  let n := coversCount sec l
  if !s.undoRoom h sec then none
  else
    let s := s.saveUndo h sec
    let s := s.setBytes sec (overSector sec (s.bytesAt sec 32) l)
    some (((s.markWrite sec n x).partWrite h sec (inList l)).touchWatches sec 32)

/-- Bytes of one sector written by an SST: in its speculation where it has one, nowhere where that has been discarded (R220). -/
def State.writeSpec (s : State) (e : Nat) (k : Access) (sec : Nat) (l : List (Nat × Byte)) (x : Bool) : Option State :=
  match s.specAt e k sec with
  | .none => s.writeSector e sec l x
  | .gone => some s
  | .some p =>
    let h := s.owner e
    let t := tileOf e
    let l := l.filter (fun p => sectorOf p.1 == sec)
    let n := coversCount sec l
    if !s.undoRoom h sec then none
    else
      let old := s.sectorFor e k sec
      let part := p.sectors.all (fun q => q.1 != sec) &&
        (List.range 4).any (fun i => s.isBad (sec + 8 * i) && !(List.range 8).all (fun j => inList l (sec + 8 * i + j)))
      let p' := { p with sectors := SMap.insert p.sectors sec (overSector sec old.1 l, newMark old.2 x n || part) }
      let s := (s.saveUndo h sec).setTile t { s.tile t with
        specs := (s.tile t).specs.map (fun q => if q.opener == e && q.bank == p.bank then p' else q) }
      some (if part then s.partRecord h sec else s)

/-- The sectors of a list of bytes, each once. -/
def sectorsOf (l : List (Nat × Byte)) : List Nat := (l.map (fun p => sectorOf p.1)).eraseDups

/-- All bytes written, sector by sector, with the poison of each sector; none where one sector finds no room. -/
def State.writeMarked (s : State) (e : Nat) (l : List (Nat × Byte)) (x : Nat → Bool) : Option State :=
  (sectorsOf l).foldl (fun o sec => o.bind (fun s => s.writeSector e sec l (x sec))) (some s)

/-- All bytes of an SST written. -/
def State.writeSst (s : State) (e : Nat) (k : Access) (l : List (Nat × Byte)) (x : Bool) : Option State :=
  (sectorsOf l).foldl (fun o sec => o.bind (fun s => s.writeSpec e k sec l x)) (some s)

/-- All bytes written with one poison. -/
def State.writeBytes (s : State) (e : Nat) (l : List (Nat × Byte)) (x : Bool) : Option State := s.writeMarked e l (fun _ => x)

/-- Bytes from an address upward, with their addresses. -/
def addrBytes (a : Nat) (l : List Byte) : List (Nat × Byte) := (List.range l.length).map (fun i => (a + i, l.getD i 0))

/-! ### Requests to a peer package (R305, R306) -/

/-- True for an entry of space 3, at a peer package. -/
def entPeer (r : Nat) : Bool := entSpace r == 3

/-- A request flit (R305). The data field holds the identity, the length, the poison and the valid lanes of the data, then the data (log entry
14). -/
def flitBytes (kind pkg src : Nat) (source seq asid va op ident len : Nat) (mask : Nat) (x : Bool) (data : List Byte) : List Byte :=
  sliceB (toBytes 1 kind ++ toBytes 1 0 ++ toBytes 2 pkg ++ toBytes 2 src ++ toBytes 2 source ++ toBytes 2 seq ++
    toBytes 2 asid ++ toBytes 7 va ++ toBytes 1 op ++ toBytes 4 0 ++ toBytes 1 ident ++ toBytes 1 len ++ toBytes 1 (b2n x) ++
    toBytes 1 mask ++ data) 0 64

/-- A request of an ME for one lane sent; it waits while 128 are outstanding. -/
def State.sendPeer (s : State) (e : Nat) (a : Access) (kind lane va len : Nat) (x : Bool) (data : List Byte) : State :=
  let y := s.elem e
  let r := s.accEntry e a
  if 128 ≤ y.peerOut.length then s
  else
    let q := y.peerSeq
    let aop := if kind = 2 then dAop a.desc.toNat else 0
    let f := flitBytes kind (entPkg r) s.package e q.toNat (s.work (s.owner e)).asid va aop (entIdent r) len (if kind = 1 && a.op = 0xC1 then a.b.m.toNat else 0xFF) x data
    let s := s.modElem e (fun y => { y with peerSeq := q + 1, peerOut := y.peerOut ++ [q] })
    let s := s.modAcc e a.seq (fun b => { b with peers := b.peers ++ [(q, lane)] })
    s.haul (s.owner e) [FlitOut.mk f []]

end Sys2Proof.Machine
end

