-- ==== Sys2Proof/Machine/ElemMem.lean ====
section
/-! DEFINITION. Firings of the scratchpad and memory-port instructions (R217 to R234): what each issues, and speculation. What an
access does when it performs stands in Machine/MemEvents.lean. -/

namespace Sys2Proof.Machine

open Sys2Proof

/-- A firing that issues one access. -/
def State.issueMem (s : State) (op : Nat) (w : EWord) (macOp data : Bool) (f : Access → Access) : State :=
  let e := s.cur.elem
  if s.readyMem e w macOp data then s.fireMem op w (f (s.newAccess e op w)) Elem.issue data else s

/-- SLD. -/
def execSld (w : EWord) (s : State) : Out := .next (s.issueMem 0xB0 w false false id)

/-- SST. -/
def execSst (w : EWord) (s : State) : Out := .next (s.issueMem 0xB1 w false true id)

/-! ### Watches (R219) -/

/-- SWATCH is ready while fewer than four watches are armed. -/
def State.readySwatch (s : State) (e : Nat) (w : EWord) : Bool :=
  s.readyMem e w false false && (s.elem e).watches.length < 4

/-- An access issued before one has not performed. -/
def Elem.waitsOn (x : Elem) (seq : Nat) : Bool := x.accs.any (fun b => b.seq < seq && b.stage != .performed)

/-- A watch takes its place: total is 1 once its word is compared, 2 while earlier accesses of its SE have yet to perform (R213, R242), and 0
where it never triggers. One whose word holds the value when it is armed has triggered. -/
def State.tryArm (s : State) (a : Access) : Access :=
  let a := { a with total := 1 }
  if s.watchMet a then s.trigger a else a

/-- A watch as a firing leaves it: its word, and whether it names one and holds a value. -/
def State.armed (s : State) (e : Nat) (a : Access) : Access :=
  match s.accOne e a with
  | some n =>
    let a := { a with node := n }
    if !mbit a.b.m 0 then a
    else if (s.elem e).waitsOn a.seq then { a with total := 2 }
    else s.tryArm a
  | none => a

/-- The watches of an SE whose earlier accesses have all performed are armed. -/
def State.armWatches (s : State) (e : Nat) : State :=
  if (s.elem e).watches.any (fun k => k.total == 2) then
    s.modElem e (fun x => { x with watches := x.watches.map (fun k =>
      if k.total == 2 && !x.waitsOn k.seq then s.tryArm k else k) })
  else s

/-- SWATCH. -/
def execSwatch (w : EWord) (s : State) : Out :=
  let e := s.cur.elem
  .next (if s.readySwatch e w then
    s.fireMem 0xB2 w (s.armed e (s.newAccess e 0xB2 w)) (fun x a => { x with watches := x.watches ++ [a] }) false
  else s)

/-! ### Speculation (R220) -/

/-- The bank that a descriptor of SPBEG, SPCOM or SPDIS names. -/
def State.specBank (s : State) (e : Nat) (w : EWord) : Nat := bits (s.memDesc e w) 3 0

/-- SPBEG is ready when a shadow bank of the tile is free and no speculation is open on the bank. -/
def State.readySpbeg (s : State) (e : Nat) (w : EWord) : Bool :=
  let t := s.tile (tileOf e)
  s.ready e w && t.specs.length < 2 && !t.specs.any (fun p => p.bank == s.specBank e w)

/-- The speculation that the element has open on the bank. -/
def State.ownSpec (s : State) (e : Nat) (w : EWord) : Option Spec :=
  (s.tile (tileOf e)).specs.find? (fun p => p.opener == e && p.bank == s.specBank e w)

/-- SPCOM is ready when its element has the bank's speculation open and its earlier accesses have performed: its SSTs (R220), and as it is a
release every other (R243; log entry 17). -/
def State.readySpcom (s : State) (e : Nat) (w : EWord) : Bool :=
  s.ready e w && (s.ownSpec e w).isSome && (s.elem e).accs.all (fun a => a.stage == .performed)

/-- SPDIS is ready when its element has the bank's speculation open. -/
def State.readySpdis (s : State) (e : Nat) (w : EWord) : Bool := s.ready e w && (s.ownSpec e w).isSome

/-- The result of the three: A's payload and M. -/
def State.fireSpec (s : State) (op : Nat) (w : EWord) : State :=
  let e := s.cur.elem
  s.fireResult e op w (s.opA e w, false) (s.opA e w).x

/-- A speculation closed and its shadow bank freed. -/
def State.dropSpec (s : State) (t opener bank : Nat) : State :=
  s.setTile t { s.tile t with specs := (s.tile t).specs.filter (fun p => !(p.opener == opener && p.bank == bank)) }

/-- Every sector of a speculation takes its speculative bytes and mark in one step. -/
def State.commitSpec (s : State) (h : Nat) (l : List (Nat × (List Byte × Bool))) : State :=
  l.foldl (fun s p => s.store h p.1 p.2.1 p.2.2) s

/-- SPBEG. -/
def execSpbeg (w : EWord) (s : State) : Out :=
  let e := s.cur.elem
  let t := tileOf e
  .next (if s.readySpbeg e w then
    let s' := s.fireSpec 0xB4 w
    (s'.setTile t { s'.tile t with specs := (s'.tile t).specs ++ [⟨s.specBank e w, e, (s.elem e).seq, []⟩] }).modElem e (fun x => { x with seq := x.seq + 1 })
  else s)

/-- SPCOM. -/
def execSpcom (w : EWord) (s : State) : Out :=
  let e := s.cur.elem
  .next (match s.ownSpec e w with
    | some p =>
      if s.readySpcom e w then
        ((s.fireSpec 0xB5 w).dropSpec (tileOf e) e p.bank).commitSpec (s.owner e) p.sectors
      else s
    | none => s)

/-- SPDIS. -/
def execSpdis (w : EWord) (s : State) : Out :=
  let e := s.cur.elem
  .next (if s.readySpdis e w then (s.fireSpec 0xB6 w).dropSpec (tileOf e) e (s.specBank e w) else s)

/-! ### Loads and stores in wave order -/

/-- LD and ST are ready while the wave buffer has room, or where the access can enter order at once (R223). -/
def State.readyWave (s : State) (e op : Nat) (w : EWord) (data : Bool) : Bool :=
  s.readyMem e w false data && ((s.elem e).wbuf.length < 16 || (s.elem e).canEnter (s.newAccess e op w))

/-- A firing of LD or ST. -/
def State.issueWave (s : State) (op : Nat) (w : EWord) (data : Bool) : State :=
  let e := s.cur.elem
  if s.readyWave e op w data then s.fireMem op w (s.newAccess e op w) (Elem.wavePut e) data else s

/-- LD. -/
def execLd (w : EWord) (s : State) : Out := .next (s.issueWave 0xC0 w false)

/-- ST. -/
def execSt (w : EWord) (s : State) : Out := .next (s.issueWave 0xC1 w true)

/-! ### Gathers, atomics and translation -/

/-- GATHR. -/
def execGathr (w : EWord) (s : State) : Out :=
  .next (s.issueMem 0xC2 w true false (fun a => { a with total := 8 }))

/-- SCATR. -/
def execScatr (w : EWord) (s : State) : Out :=
  .next (s.issueMem 0xC3 w true true (fun a => { a with total := 8 }))

/-- AMO. -/
def execAmo (w : EWord) (s : State) : Out := .next (s.issueMem 0xC4 w false true id)

/-- AMO.ord. -/
def execAmoOrd (w : EWord) (s : State) : Out := .next (s.issueMem 0xC5 w false true id)

/-- RED. -/
def execRed (w : EWord) (s : State) : Out := .next (s.issueMem 0xC6 w false true id)

/-- RED.ord. -/
def execRedOrd (w : EWord) (s : State) : Out := .next (s.issueMem 0xC7 w false true id)

/-- XLAT. -/
def execXlat (w : EWord) (s : State) : Out := .next (s.issueMem 0xC8 w false false id)

/-! ### Tram units and hoist commands -/

/-- TRAM.CHASE: the start record's address, or none found. -/
def execTramChase (w : EWord) (s : State) : Out :=
  .next (s.issueMem 0xC9 w true false (fun a =>
    let n := s.accOne s.cur.elem a
    { a with total := bits a.desc.toNat 23 16, node := n.getD 0, ended := n.isNone, trail := n.toList.map (fun k => (k, false)) }))

/-- The lanes that start a walk (R234). -/
def walkLanes (a : Access) : List Nat := (List.range 8).filter (fun l => mbit a.a.m l && mbit a.b.m l)

/-- TRAM.WALK. -/
def execTramWalk (w : EWord) (s : State) : Out :=
  .next (s.issueMem 0xCA w true false (fun a => { a with total := (walkLanes a).length }))

/-- HCOPYE: with an invalid lane no command is given and the reply is empty (R230). -/
def execHcopye (w : EWord) (s : State) : Out :=
  let e := s.cur.elem
  .next (if s.readyMem e w true false then
    let a := { s.newAccess e 0xCB w with desc := 0, total := 1 }
    s.fireMem 0xCB w (if a.a.m = 0xFF && a.b.m = 0xFF then a else a.reply VReg.zero) Elem.issue false
  else s)

end Sys2Proof.Machine
end

