-- ==== Sys2Proof/Machine/Sync.lean ====
section
/-! DEFINITION. Sync counters in three copies (R354, R467, R468), join counters (R191) and the task queue (R42, R190). -/

namespace Sys2Proof.Machine

open Sys2Proof

/-- The value that at least two of three copies hold; none when no two agree (R467, R468). -/
def vote (c : DWord × DWord × DWord) : Option DWord :=
  if c.1 = c.2.1 ∨ c.1 = c.2.2 then some c.1 else if c.2.1 = c.2.2 then some c.2.1 else none

/-- A counter's copies. -/
def Quad.copies (q : Quad) (n : Nat) : DWord × DWord × DWord := SMap.get (0, 0, 0) q.sync n

/-- The voted value of a counter; the first copy where no two agree, which its reader finds as an error first (R468). -/
def State.counter (s : State) (q n : Nat) : DWord := (vote ((s.quad q).copies n)).getD ((s.quad q).copies n).1

/-- Two copies of a counter agree. -/
def State.whole (s : State) (q n : Nat) : Bool := (vote ((s.quad q).copies n)).isSome

/-- Every update writes all three copies (R354). -/
def State.setCounter (s : State) (q n : Nat) (v : DWord) : State :=
  s.modQuad q (fun x => { x with sync := SMap.set (0, 0, 0) x.sync n (v, v, v) })

/-- A counter belongs to the first thread that names it until its working ends (R377). -/
def State.ownCounter (s : State) (q n t : Nat) : State :=
  s.modQuad q (fun x => if x.syncOwner.any (fun p => p.1 == n) then x
    else { x with syncOwner := SMap.insert x.syncOwner n t })

/-- Fields of a counter in join use (R191). -/
def joinField (v : DWord) (i : Nat) : Nat := bits v.toNat (16 * i + 15) (16 * i)

/-- The counter with another field. -/
def joinSet (v : DWord) (i n : Nat) : DWord :=
  BitVec.ofNat 64 (v.toNat - joinField v i * 2 ^ (16 * i) + n * 2 ^ (16 * i))

/-- The field that a child's end counts in (R191). -/
def endField : EndKind → Nat
  | .normal => 1 | .faulted => 2 | .killed => 3

/-- A child's end applied to its join counter (R191). -/
def joinEnd (v : DWord) (k : EndKind) : DWord :=
  let v := joinSet v 0 (joinField v 0 - 1)
  joinSet v (endField k) (min (joinField v (endField k) + 1) 65535)

/-- Room for one more child: the queue has a free record and OUTSTANDING, which two copies of the counter give, is below 65,535 (R42, R192). -/
def State.taskRoom (s : State) (d q n : Nat) : Bool :=
  s.whole q n && (s.die d).tasks.length < 4096 && joinField (s.counter q n) 0 < 65535

/-- OUTSTANDING increased, then the record pushed (R192). -/
def State.pushTask (s : State) (d q n parent : Nat) (rec : List Byte) : State :=
  let v := s.counter q n
  let s := s.setCounter q n (joinSet v 0 (joinField v 0 + 1))
  let s := s.modDie d (fun x => { x with tasks := x.tasks ++ [{ bytes := rec, age := s.age, parent := parent }] })
  { s with age := s.age + 1 }

/-- The parent byte of a thread: quad * 4 + thread on its die (R190). -/
def parentByte (t : Nat) : Nat := t % 192

end Sys2Proof.Machine
end

