-- ==== Sys2Proof/Machine/Errors.lean ====
section
/-! DEFINITION. Counted errors and their windows (R442), the corrected votes of counters (R467), and the record of a lasting source (0x74). -/

namespace Sys2Proof.Machine

open Sys2Proof

/-- What a source's count has come to. -/
structure Counted where
  count : Nat
  /-- the count has reached its threshold with this error -/
  lasting : Bool

/-- A window that reached no threshold. -/
def ErrWin.below (w : ErrWin) : Bool := w.ce < w.ceThr && w.mm < w.mmThr

/-- A window at a cycle: one that has ended below its thresholds counts 0 again (R442). -/
def ErrWin.at' (w : ErrWin) (now : Nat) : ErrWin := if w.till ≤ now && w.below then {} else w

/-- An error counted: the first opens a window of 2^len cycles with the thresholds of that time (R443); a threshold of 0 acts as 1. -/
def ErrWin.add (w : ErrWin) (now len ceThr mmThr : Nat) (c m : Bool) : ErrWin :=
  let w := w.at' now
  let w := if w.n = 0 then { w with till := now + 2 ^ len, ceThr := max ceThr 1, mmThr := max mmThr 1 } else w
  { w with n := w.n + 1, ce := w.ce + b2n c, mm := w.mm + b2n m }

/-- The error has brought the window to a threshold. -/
def ErrWin.reached (w : ErrWin) (c m : Bool) : Bool := (c && w.ce == w.ceThr) || (m && w.mm == w.mmThr)

/-- A window of a die's element, bank, link lane or counter, with one more error. -/
def Die.count (x : Die) (w : ErrWin) (now : Nat) (c m : Bool) : ErrWin := w.add now x.ceWin.toNat x.ceThr.toNat x.mmThr.toNat c m

/-- A source's window; a new one where none is open. -/
def Die.errWin (x : Die) (src : ErrSource) : ErrWin := ((x.errs.find? (fun k => k.src == src)).map (fun k => k.win)).getD {}

/-- An error of a bank, link lane or counter of a die, by a clock; c says that it was corrected. -/
def State.countSource (s : State) (d : Nat) (src : ErrSource) (now : Nat) (c : Bool) : State × Counted :=
  let x := s.die d
  let w := x.count (x.errWin src) now c false
  (s.setDie d { x with errs := ⟨src, w⟩ :: x.errs.filter (fun k => k.src != src) }, ⟨w.n, w.reached c false⟩)

/-- An error of an element; c says that it was corrected, m that it is a mismatch. -/
def State.countElem (s : State) (e : Nat) (c m : Bool) : State × Counted :=
  let w := (s.die (dieOf e)).count (s.elem e).errs (s.quad (quadOf e)).cyc c m
  (s.modElem e (fun x => { x with errs := w }), ⟨w.n, w.reached c m⟩)

/-- The source that counts a location's errors: its tile-SRAM bank, or its HBM stack (log entry 22). -/
def bankSource (a : Nat) : ErrSource := if inWindow a then .bank (a / 2 ^ 17 * 2 ^ 17) else .bank (a / 2 ^ 36 * 2 ^ 36)

/-- The clock of a location's source. -/
def State.clockOf (s : State) (a : Nat) : Nat :=
  match windowTile a with
  | some t => (s.quad (quadOfTile t)).cyc
  | none => (s.die (dieOfAddr a)).cycles

/-- The record of a source judged lasting that is no element, or an element that is not substituted (R442). -/
def State.logLasting (s : State) (d : Nat) (c : Counted) (r : ErrRec) : State :=
  if c.lasting then s.log d { r with cause := 0x74, outcome := 1, count := c.count } else s

/-- A corrected error counted and recorded (R442, R444). -/
def State.corrected (s : State) (d : Nat) (src : ErrSource) (now : Nat) (r : ErrRec) : State :=
  let c := s.countSource d src now true
  (c.1.logCorrected d { r with outcome := 0, count := c.2.count }).logLasting d c.2 r

/-! ### Votes (R467, R468) -/

/-- A counter read by a vote: a copy that disagrees is rewritten and counted; none where no two copies agree. -/
def State.voteRead (s : State) (q n : Nat) : Option (DWord × State) :=
  let c := (s.quad q).copies n
  match vote c with
  | none => none
  | some v =>
    if c = (v, v, v) then some (v, s)
    else some (v, (s.setCounter q n v).corrected (q / 48) (.counter q n) (s.quad q).cyc { cause := 0x72, outcome := 0, quad := q % 48 })

/-- A counter that an instruction is about to change, its vote coming first (R467). -/
def State.voted (s : State) (q n : Nat) : State := ((s.voteRead q n).map (fun r => r.2)).getD s

/-- A thread that reads a counter no two copies of which agree consumes the error, whose replay fails (R468). -/
def State.counterBad (s : State) (t n : Nat) : State := s.nextRung (s.thread t).bound (counterError n)

/-- A join counter changed by the allocator, its vote coming first; none where no two copies agree (R468). -/
def State.joinUpdate (s : State) (q n : Nat) (k : EndKind) : Option State :=
  (s.voteRead q n).map (fun r => r.2.setCounter q n (joinEnd r.1 k))

end Sys2Proof.Machine
end

