-- ==== Sys2Proof/Machine/ElemSys.lean ====
section
/-! DEFINITION. Element instructions of tasks, joins and the system: SPAWN, JOIN, FENCE, ETRAP and RDSYS (R190 to R196). -/

namespace Sys2Proof.Machine

open Sys2Proof

/-- The descriptor that SB names: lane 0 of a constant, or 0 for ZERO (R190, R193, R194). -/
def State.descB (s : State) (e : Nat) (w : EWord) : Nat := (s.opB e w).p.a0.toNat

/-- The quad that holds a working's join counters: that of its foreman thread (R190). -/
def State.workQuad (s : State) (e : Nat) : Nat := quadOfThread (s.work (s.owner e)).thread

/-- The 64 bytes of a task record (R190). -/
def taskBytes (a : VReg) (desc parent : Nat) : List Byte :=
  (a.p.list.map (fun x => toBytes 4 x.toNat)).flatten ++ toBytes 1 a.m.toNat ++ toBytes 1 (b2n a.x) ++
  toBytes 1 (bits desc 7 0) ++ toBytes 1 (bits desc 13 8) ++ toBytes 1 parent ++ List.replicate 27 0#8

/-- SPAWN is ready when R61 holds, the queue has a free record and OUTSTANDING is below 65,535 (R192). -/
def State.readySpawn (s : State) (e : Nat) (w : EWord) : Bool :=
  s.ready e w && s.taskRoom (dieOf e) (s.workQuad e) (bits (s.descB e w) 13 8)

/-- SPAWN. -/
def execSpawn (w : EWord) (s : State) : Out :=
  let e := s.cur.elem
  let d := s.descB e w
  let h := s.owner e
  let t := (s.work h).thread
  .next (if s.readySpawn e w then
    let s' := (s.fire e 0xA8 w none none id (popList w) false).voted (s.workQuad e) (bits d 13 8)
    (s'.ownCounter (s.workQuad e) (bits d 13 8) t).pushTask (dieOf e) (s.workQuad e) (bits d 13 8) h
      (taskBytes (s.opA e w) d (parentByte t))
  else s)

/-- JOIN is ready when R61 holds and no child of the counter is outstanding (R193). -/
def State.readyJoin (s : State) (e : Nat) (w : EWord) : Bool :=
  s.ready e w && s.whole (s.workQuad e) (bits (s.descB e w) 5 0) && joinField (s.counter (s.workQuad e) (bits (s.descB e w) 5 0)) 0 == 0

/-- JOIN: reads NORMAL, FAULTED and KILLED and clears them. -/
def execJoin (w : EWord) (s : State) : Out :=
  let e := s.cur.elem
  let x := s.elem e
  let n := bits (s.descB e w) 5 0
  let v := s.counter (s.workQuad e) n
  let r : VReg := ⟨{ Lanes.zero with a0 := BitVec.ofNat 32 (joinField v 1), a1 := BitVec.ofNat 32 (joinField v 2),
                                     a2 := BitVec.ofNat 32 (joinField v 3) }, 7, false⟩
  let tok := fun d => { mkToken x w d r with l := true }
  .next (if s.readyJoin e w then
    (((s.fire e 0xA9 w (some (tok w.d0)) (some (tok w.d1)) id (popList w) false).voted (s.workQuad e) n).setCounter (s.workQuad e) n 0).ownCounter
      (s.workQuad e) n (s.work (s.owner e)).thread
  else s)

/-- The counter that a JOIN, or a SPAWN, would read and that no two copies give: the element consumes the error (R468). -/
def State.brokenCounter (s : State) (e : Nat) (w : EWord) (spawn : Bool) : Option Nat :=
  let n := if spawn then bits (s.descB e w) 13 8 else bits (s.descB e w) 5 0
  if s.ready e w && !s.whole (s.workQuad e) n then some n else none

/-- Every access started by an earlier firing of the element has performed; refused ones have not (R194). -/
def allPerformed (x : Elem) : Bool := x.accs.all (fun a => a.stage == .performed) && x.wbuf.isEmpty

/-- FENCE is ready when R61 holds and, in an SE or ME, every earlier access has performed (R194). -/
def State.readyFence (s : State) (e : Nat) (w : EWord) : Bool :=
  s.ready e w && (kindOf e == 0 || allPerformed (s.elem e))

/-- FENCE: A goes on (R194, R497). With every earlier access performed and none later issued, the three kinds order alike. -/
def execFenceElement (w : EWord) (s : State) : Out :=
  let e := s.cur.elem
  .next (if s.readyFence e w then s.fireResult e 0xE0 w (s.opA e w, false) (s.opA e w).x else s)

/-- ETRAP: the firing completes; the element fires nothing from the next cycle and the working freezes (R195, R432). -/
def execEtrap (w : EWord) (s : State) : Out :=
  let e := s.cur.elem
  let a := s.opA e w
  let code := if mbit a.m 0 then a.p.a0.toNat else 0
  .next (if s.ready e w then
    (s.fire e 0xE1 w none none id (popList w) false).elemFault e { cause := 0x07, eid := e, arg := code }
  else s)

/-- A firing of RDSYS: lanes f and a mask. -/
def State.fireRdsys (s : State) (w : EWord) (f : Nat → Nat) (m : BitVec 8) : State :=
  let e := s.cur.elem
  if s.ready e w then
    s.fireResult e 0xE2 w (⟨Lanes.ofFn (fun l => BitVec.ofNat 32 (f l)), m, false⟩, false) false
  else s

/-- RDSYS.clock: cycles of the element's quad in which the working has been resident. -/
def execRdsysClock (w : EWord) (s : State) : Out :=
  let c := (s.work (s.owner s.cur.elem)).clock (quadOf s.cur.elem)
  .next (s.fireRdsys w (fun l => match l with
    | 0 => c % 2 ^ 32 | 1 => c / 2 ^ 32 | _ => 0) 3)

/-- RDSYS.place. -/
def execRdsysPlace (w : EWord) (s : State) : Out :=
  let e := s.cur.elem
  let k := s.work (s.owner e)
  .next (s.fireRdsys w (fun l => match l with
    | 0 => blockIndex k e | 1 => posOf e | 2 => (s.elem e).active.toNat
    | 3 => if k.islands then k.relTile (tileOf e) else 0xFFFFFFFF
    | 4 => k.ident.toNat | _ => 0) 31)

/-- RDSYS.poison. -/
def execRdsysPoison (w : EWord) (s : State) : Out :=
  let k := s.work (s.owner s.cur.elem)
  .next (s.fireRdsys w (fun l => match l with
    | 0 => k.poison.getD 0 | 1 => b2n k.poison.isSome | _ => 0) 3)

/-- RDSYS.chains. -/
def execRdsysChains (w : EWord) (s : State) : Out :=
  let x := s.elem s.cur.elem
  .next (s.fireRdsys w (fun l => match l with
    | 0 => x.ch0.startLive.toNat | 1 => x.ch0.stepLive.toNat | 2 => x.ch0.countLive.toNat | 3 => x.ch0.x.toNat
    | 4 => x.ch1.startLive.toNat | 5 => x.ch1.stepLive.toNat | 6 => x.ch1.countLive.toNat | 7 => x.ch1.x.toNat
    | _ => 0) 0xFF)

end Sys2Proof.Machine
end

