-- ==== Sys2Proof/Machine/Flags.lean ====
section
/-! DEFINITION. The flags of a foreman thread: compares (R322), branch conditions (R133), and FSTAT (R315, R317). -/

namespace Sys2Proof.Machine

open Sys2Proof

/-- z, n, c and v from a and b (R322). -/
def Thread.compare (x : Thread) (a b : DWord) : Thread :=
  let t := a - b
  { x with z := t == 0, n := t.msb, c := decide (b.toNat ≤ a.toNat), v := a.toInt - b.toInt != t.toInt }

/-- A branch condition holds (R133). -/
def condHolds (x : Thread) : Cond → Bool
  | .al => true
  | .eq => x.z
  | .ne => !x.z
  | .lt => x.n != x.v
  | .ge => x.n == x.v
  | .gt => !x.z && x.n == x.v
  | .le => x.z || x.n != x.v
  | .hs => x.c
  | .lo => !x.c
  | .hi => x.c && !x.z
  | .ls => !x.c || x.z
  | .mi => x.n
  | .pl => !x.n
  | .vs => x.v
  | .fs => x.f
  | .fc => !x.f

/-- FSTAT of thread t (R317). -/
def fstat (t : Nat) (x : Thread) : DWord :=
  let place := if isAssay t then 2 ^ 6 + (t - 768) % 4 * 2 ^ 8 + dieOfThread t * 2 ^ 16
    else t % 4 * 2 ^ 8 + t / 4 % 48 * 2 ^ 10 + dieOfThread t * 2 ^ 16
  BitVec.ofNat 64 (b2n x.z + 2 * b2n x.n + 4 * b2n x.c + 8 * b2n x.v + 16 * b2n x.f + 32 * b2n x.intrap + place)

/-- A write of FSTAT writes the flags alone (R316, R317). -/
def Thread.setFlags (x : Thread) (v : DWord) : Thread :=
  { x with z := v.getLsbD 0, n := v.getLsbD 1, c := v.getLsbD 2, v := v.getLsbD 3, f := v.getLsbD 4 }

end Sys2Proof.Machine
end

