-- ==== Sys2Proof/Machine/Foreman.lean ====
section
/-! DEFINITION. What foreman instructions share (R477): the register-block check (R311), the system level (R536), and the access of a
thread to memory (R324, R412), with its faults and its fetch. -/

namespace Sys2Proof.Machine

open Sys2Proof

/-- An instruction of the current thread that names registers: a register of a block the thread does not hold raises the
register-block trap before any effect (R311). Of several, the trap names the first in the order rd, ra, rb. -/
def State.onThread (s : State) (regs : List Reg) (body : Nat → Thread → Out) : Out :=
  let t := s.cur.thread
  match regs.find? (fun r => !(s.thread t).holds r.toNat) with
  | none => body t (s.thread t)
  | some r => .next (s.trapHere t (blockTrap r.toNat))

/-- The same for the instructions of ops 0x30 to 0x3D and 0x3F, which an assay thread does not have (R536). -/
def State.onWorking (s : State) (regs : List Reg) (body : Nat → Thread → Out) : Out :=
  if isAssay s.cur.thread then .next (s.trapHere s.cur.thread illegalTrap) else s.onThread regs body

/-- A thread's record written and its PC moved past a one-word instruction. -/
def State.finish (s : State) (t : Nat) (x : Thread) : Out := .next (s.setThread t (x.advance 4))

/-- What becomes of a thread's access: the location, a trap, an error that its consumer must meet first (R434), each with the state that its
translation leaves (R390), or no memory. -/
inductive Touch
  | ok (a : Nat) (s : State)
  | trap (i : TrapInfo) (s : State)
  | stall (s : State)
  | noMemory (a : Nat)

/-- The trap of a refused access of a thread (R491). -/
def transTrap (va : Nat) (acc : Acc) (r : TransErr) : TrapInfo :=
  { cause := r.cause, detail := 0x7FFF + 2 ^ 16 * r.detail acc none false, va := va }

/-- The location of a thread's access at an address (R324, R389, R412, R490). -/
def State.touch (s : State) (t va : Nat) (acc : Acc) : Touch :=
  if isAssay t then (if inHbm va then .ok va s else .noMemory va)
  else
    let w := s.work (s.thread t).bound
    if 2 ^ 56 ≤ va then .trap (transTrap va acc { cause := 0x30, ast := true, wide := true }) s
    else if inWindow va then
      (if inShare w va then .ok va s else .trap (transTrap va acc { cause := 0x36 }) s)
    else match s.translate ⟨none, some (quadOfThread t), dieOfThread t⟩ w.asid va acc w.ident.toNat with
      | .ok pa _ s =>
        let s' := s.cross (s.thread t).bound (dieOfThread t) pa
        if s.cutOff (dieOfThread t) pa then .stall s' else .ok pa s'
      | .refused r => if r.cause = 0x35 then .stall s else .trap (transTrap va acc r) s
      | .miss => .stall s

/-- A read of n bytes by a thread: an uncorrectable error is not read (R434). -/
def State.touchRead (s : State) (t va : Nat) (acc : Acc) : Touch :=
  match s.touch t va acc with
  | .ok a s' => if s'.isBad a then .stall s' else .ok a s'
  | r => r

/-- A write by a thread: it needs room in the undo log (R441). -/
def State.touchWrite (s : State) (t va : Nat) (acc : Acc) : Touch :=
  match s.touch t va acc with
  | .ok a s' =>
    let h := (s.thread t).bound
    if s'.undoRoom h a then .ok a s'
    else .trap { cause := 0x61, detail := (s'.work h).relTile ((windowTile a).getD 0) } s'
  | r => r

/-- An access of the current instruction at an address that must be a multiple of n: the alignment trap (R323), a trap of the
access, a stall, or its effect. -/
def State.access (s : State) (t : Nat) (ea : DWord) (n : Nat) (find : State → Nat → Nat → Touch)
    (body : Nat → State → Out) : Out :=
  if ea.toNat % n ≠ 0 then .next (s.trapHere t (alignTrap ea.toNat))
  else match find s t ea.toNat with
    | .ok a s' => body a s'
    | .trap i s' => .next (s'.threadFault t i)
    | .stall s' => .next s'
    | .noMemory a => .fault (.noMemory a)

/-- The word that a thread fetches at an address, which must be a multiple of 4 (R329, R330). -/
def State.fetchAt (s : State) (t va : Nat) : Touch := s.touchRead t va .fetch

/-- The identifier of a thread as a source (R306). -/
def threadSource (t : Nat) : Nat :=
  let q := t / 4 % 48
  dieOfThread t * 16384 + (48 + q / 8) * 256 + (4 * (q % 8) + t % 4) * 8

end Sys2Proof.Machine
end

