-- ==== Sys2Proof/Machine/MemEvents.lean ====
section
/-! DEFINITION. Element accesses at their places: what performs (R214, R218 to R234, R242), the walk that a miss waits for (R386, R392), the
elements of the memory macros (R225, R232, R234), and the replies that leave (R211, R219, R223). -/

namespace Sys2Proof.Machine

open Sys2Proof

/-! ### When an access may perform -/

/-- The working of an element is resident and not being killed. -/
def State.alive (s : State) (e : Nat) : Bool :=
  let w := s.work (s.owner e)
  s.owner e != 0 && w.killing.isNone && w.savedAt.isNone

/-- Macros start their next element only while the working runs and nothing stops it (R280, R376, R432). -/
def State.macrosRun (s : State) (e : Nat) : Bool :=
  let w := s.work (s.owner e)
  s.alive e && w.live && w.state == .running && w.stopping.isNone && w.freeze.isNone && (s.elem e).ladder.isNone

/-- The issued accesses before one. -/
def beforeAcc (l : List Access) (seq : Nat) : List Access := l.takeWhile (fun b => b.seq != seq)

/-- The physical sector of a virtual one, as the caches or the tables give it now; none where they refuse it. -/
def State.physOf (s : State) (e va : Nat) : Option Nat :=
  if inWindow va then some va
  else
    let asid := (s.work (s.owner e)).asid
    match s.cacheFind ⟨some e, some (quadOf e), dieOf e⟩ asid va with
    | some t => some (leafAddr t.2 va)
    | none => match s.walk (dieOf e) asid va with
      | .leaf t => some (leafAddr t va)
      | _ => none

/-- Two sectors of an element's accesses hold the same locations (R238): one virtual sector, or two of one frame, whose places in a page of
64 KiB agree (R386). -/
def State.sameSector (s : State) (e x y : Nat) : Bool :=
  x == y || (x % 2 ^ 16 == y % 2 ^ 16 && !inWindow x && !inWindow y && (s.physOf e x).isSome && s.physOf e x == s.physOf e y)

/-- The package whose memory an access touches: none for this one. -/
def State.accPkg (s : State) (e : Nat) (a : Access) : Option Nat :=
  let r := s.accEntry e a
  if entPeer r then some (entPkg r) else none

/-- Two accesses of an element touch one sector (R214, R242). -/
def State.overlap (s : State) (e : Nat) (a b : Access) : Bool :=
  s.accPkg e a == s.accPkg e b &&
  ((s.accAddrs e a).map sectorOf).any (fun x => ((s.accAddrs e b).map sectorOf).any (s.sameSector e x))

/-- One of AMO.ord and RED.ord (R229). -/
def Access.stampOrd (a : Access) : Bool := a.op == 0xC5 || a.op == 0xC7

/-- An access of an element may perform now (R213, R214, R229, R244, R246): an SE in issue order; an ME after every earlier access that shares
a sector with it, that is an acquire, or that a tram unit makes, after all of them where it is a release, and AMO.ord and RED.ord in
issue order. -/
def State.inOrder (s : State) (e : Nat) (a : Access) : Bool :=
  (beforeAcc (s.elem e).accs a.seq).all (fun b =>
    b.stage == .performed ||
    (kindOf e == 2 && !a.releases && !b.acquires && !b.tram && !a.tram && !(a.stampOrd && b.stampOrd) && !s.overlap e a b))

/-- The issued access that has not performed and may perform now. -/
def State.due (s : State) (e seq : Nat) : Option Access :=
  match (s.elem e).accs.find? (fun a => a.seq == seq) with
  | some a => if s.alive e && (a.stage == .issued || a.stage == .parked) && s.inOrder e a then some a else none
  | none => none

/-- The kind of an access (R491); XLAT's is its descriptor's (R224). -/
def Access.acc (a : Access) : Acc :=
  if a.op = 0xB0 || a.op = 0xC0 || a.op = 0xC2 || a.tram then .read
  else if a.op = 0xB1 || a.op = 0xC1 || a.op = 0xC3 then .write
  else if a.op = 0xC8 then (if bit a.desc.toNat 11 then .atomic else if bit a.desc.toNat 10 then .write else .read)
  else .atomic

/-! ### Values -/

/-- 32 bytes as eight lanes. -/
def lanesOf (l : List Byte) : Lanes := Lanes.ofFn (fun i => BitVec.ofNat 32 (le l (4 * i) 4))

/-- An element of LD's result (R222). -/
def loadValue (size : Nat) (l : List Byte) (x : Bool) : VReg :=
  let m : BitVec 8 := if size = 32 then 0xFF else if size = 8 then 3 else 1
  ⟨cleanLanes (lanesOf (sliceB l 0 32)) m, m, x⟩

/-- The low n bytes of lanes from lane 0. -/
def lanesBytes (p : Lanes) (n : Nat) : List Byte := sliceB ((p.list.map (fun v => toBytes 4 v.toNat)).flatten) 0 n

/-- A lane's element extended by SX (R209, R225). -/
def gatherValue (d size : Nat) (l : List Byte) : Word :=
  let v := le l 0 (min size 4)
  if dSx d && size < 4 then BitVec.ofInt 32 (sextInt (8 * size) v) else BitVec.ofNat 32 v

/-- No lane valid. -/
def emptyReply (x : Bool) : VReg := ⟨Lanes.zero, 0, x⟩

/-! ### Rows (R218) -/

/-- The address of byte j of a row. -/
def State.rowByte (s : State) (e : Nat) (a : Access) (j : Nat) : Option Nat :=
  let size := entSize (s.accEntry e a)
  (s.rowAt e a (j / size)).map (fun n => n + j % size)

/-- A lane of a row holds elements in range only. -/
def State.rowLane (s : State) (e : Nat) (a : Access) (l : Nat) : Bool :=
  (List.range 4).all (fun k => (s.rowByte e a (4 * l + k)).isSome)

/-- SLD at its row. -/
def State.performSld (s : State) (e : Nat) (a : Access) : State :=
  let addrs := (List.range 32).filterMap (fun j => if s.rowLane e a (j / 4) then s.rowByte e a j else none)
  if addrs.any s.isBad then s
  else
    let m := maskOf (fun l => s.rowLane e a l)
    let byte := fun j => match s.rowByte e a j with
      | some n => ((s.sectorFor e a (sectorOf n)).1.getD (n % 32) 0)
      | none => 0
    let p := cleanLanes (lanesOf ((List.range 32).map byte)) m
    s.modAcc e a.seq (fun b => b.reply ⟨p, m, addrs.any (fun n => (s.sectorFor e a (sectorOf n)).2)⟩)

/-- A lane of a row is written: SLD would read it valid, and B holds it (both lanes of an 8-byte element). -/
def State.rowWrites (s : State) (e : Nat) (a : Access) (l : Nat) : Bool :=
  s.rowLane e a l && mbit a.b.m l && (entSize (s.accEntry e a) != 8 || (mbit a.b.m (l / 2 * 2) && mbit a.b.m (l / 2 * 2 + 1)))

/-- Elements that SST writes (R217). -/
def State.rowElems (s : State) (e : Nat) (a : Access) : Nat :=
  let size := entSize (s.accEntry e a)
  let lanes := ((List.range 8).filter (s.rowWrites e a)).length
  if size = 32 then min lanes 1 else if size = 8 then lanes / 2 else lanes * (4 / size)

/-- SST at its row. -/
def State.performSst (s : State) (e : Nat) (a : Access) : State :=
  let data := lanesBytes a.b.p 32
  let l := (List.range 32).filterMap (fun j =>
    if s.rowWrites e a (j / 4) then (s.rowByte e a j).map (fun n => (n, data.getD j 0)) else none)
  match s.writeSst e a l a.b.x with
  | some s' => s'.modAcc e a.seq (fun b => b.reply (ackOf (s.rowElems e a)))
  | none => s.refuseUndo e a ((l.head?.map (fun p => p.1)).getD 0)

/-! ### LD, ST and XLAT -/

/-- LD at its element. -/
def State.performLd (s : State) (e : Nat) (a : Access) : State :=
  let r := s.accEntry e a
  match s.accOne e a with
  | none => s.modAcc e a.seq (fun b => b.reply (emptyReply false))
  | some va =>
    if entPeer r then (if a.peers.isEmpty then s.sendPeer e a 0 0 va (entSize r) false [] else s)
    else match s.placeRead e a va (entSize r) .read with
      | .ok pa s' =>
        let v := s'.seen pa (entSize r)
        s'.modAcc e a.seq (fun b => b.reply (loadValue (entSize r) v.1 v.2))
      | p => s.noPlace e a va .read p

/-- The bytes that an ST writes: (offset, byte) (R222). -/
def stBytes (size : Nat) (b : VReg) : List (Nat × Byte) :=
  let data := lanesBytes b.p size
  (List.range size).filterMap (fun j =>
    let ok := if size = 32 then mbit b.m (j / 4) else if size = 8 then mbit b.m 0 && mbit b.m 1 else mbit b.m 0
    if ok then some (j, data.getD j 0) else none)

/-- ST at its element. One that writes nothing performs at once. -/
def State.performSt (s : State) (e : Nat) (a : Access) : State :=
  let r := s.accEntry e a
  let l := stBytes (entSize r) a.b
  match s.accOne e a with
  | none => s.modAcc e a.seq (fun b => b.reply (ackOf 0))
  | some va =>
    if l.isEmpty then s.modAcc e a.seq (fun b => b.reply (ackOf 0))
    else if entPeer r then
      (if a.peers.isEmpty then s.sendPeer e a 1 a.b.m.toNat va (entSize r) a.b.x (lanesBytes a.b.p (entSize r)) else s)
    else match s.place e a va .write with
      | .ok pa s' =>
        (match s'.writeBytes e (l.map (fun p => (pa + p.1, p.2))) a.b.x with
        | some s'' => s''.modAcc e a.seq (fun b => b.reply (ackOf 1))
        | none => s'.refuseUndo e a pa)
      | p => s.noPlace e a va .write p

/-- XLAT's page-size code and permissions (R224, R388). -/
def leafBits (t : Tlb) : Nat :=
  let v := t.leaf.toNat
  (if t.size = 30 then 2 else if t.size = 21 then 1 else 0) + 4 * b2n (bit v 2) + 8 * b2n (bit v 3) + 16 * b2n (bit v 3)

/-- XLAT's reply: five lanes (R224). -/
def xlatReply (va pa l4 : Nat) : VReg :=
  ⟨{ Lanes.zero with a0 := BitVec.ofNat 32 va, a1 := BitVec.ofNat 32 (va / 2 ^ 32), a2 := BitVec.ofNat 32 pa,
                     a3 := BitVec.ofNat 32 (pa / 2 ^ 32), a4 := BitVec.ofNat 32 l4 }, 0x1F, false⟩

/-- A refused XLAT: the fault token where SOFT asks for it, else the fault (R493). -/
def State.refuseXlat (s : State) (e : Nat) (a : Access) (va : Nat) (r : TransErr) : State :=
  if bit a.desc.toNat 9 then s.modAcc e a.seq (fun b => b.reply (xlatReply va 0 (0x80000000 + r.cause)))
  else s.refuseTrans e a va a.acc r false

/-- XLAT through the caches; its leaf goes into those of its ME and its quad (R395). -/
def State.performXlat (s : State) (e : Nat) (a : Access) : State :=
  match s.accOne e a with
  | none => s.modAcc e a.seq (fun b => b.reply (emptyReply false))
  | some va =>
    match s.transCached ⟨some e, some (quadOf e), dieOf e⟩ (s.work (s.owner e)).asid va a.acc (entIdent (s.accEntry e a)) with
    | .ok pa t s' =>
      (s'.cachePut ⟨some e, some (quadOf e), dieOf e⟩ 2 t).modAcc e a.seq (fun b => b.reply (xlatReply va pa (leafBits t)))
    | .refused r => s.refuseXlat e a va r
    | .miss => s.noPlace e a va a.acc .park

/-! ### Atomics and reductions (R227 to R229) -/

/-- True for AMO and AMO.ord, which return old values. -/
def Access.amo (a : Access) : Bool := a.op == 0xC4 || a.op == 0xC5

/-- The lanes that act and have not performed. -/
def State.lanesLeft (s : State) (e : Nat) (a : Access) : List Nat :=
  (List.range 8).filter (fun l => !a.done.getLsbD l && (s.laneActs e a l).isSome)

/-- A lane's old value kept, and its atomic done. -/
def Access.lanePerformed (a : Access) (l old : Nat) (x : Bool) : Access :=
  { a with done := a.done ||| BitVec.ofNat 8 (2 ^ l), count := a.count + 1,
           got := ⟨a.got.p.set l (BitVec.ofNat 32 old), a.got.m ||| BitVec.ofNat 8 (2 ^ l), a.got.x || x⟩ }

/-- A request of atomics whose lanes have all performed replies. -/
def State.amoFinish (s : State) (e seq : Nat) : State :=
  match (s.elem e).accs.find? (fun a => a.seq == seq) with
  | some a =>
    if a.stage != .performed && (s.lanesLeft e a).isEmpty then
      s.modAcc e seq (fun b => b.reply (if a.amo then a.got else ⟨(ackOf a.count).p, 1, false⟩))
    else s
  | none => s

/-- One lane's atomic at its home. -/
def State.amoLane (s : State) (e : Nat) (a : Access) (l va : Nat) : State :=
  let r := s.accEntry e a
  let x := (a.b.p.get l).toNat
  if entPeer r then
    (if a.peers.any (fun p => p.2 == l) then s
     else s.sendPeer e a 2 l va 4 a.b.x (toBytes 4 x ++ (if a.cas then toBytes 4 (a.b.p.get (l + 4)).toNat else [])))
  else match s.placeRead e a va 4 .atomic with
    | .ok pa s' =>
      let w := s'.word pa 4
      let n := if a.cas then (if w = (a.b.p.get (l + 4)).toNat then x else w, false) else amoNew (dAop a.desc.toNat) w x
      let exc := n.2 && !a.x
      (match s'.writeBytes e (addrBytes pa (toBytes 4 n.1)) (a.b.x || n.2) with
      | some s2 =>
        let s3 := if exc then s2.createPoison (s.owner e) e (quadOf e) else s2
        s3.modAcc e a.seq (fun b => b.lanePerformed l w (exc || (a.amo && s'.poisoned pa)))
      | none => s'.refuseUndo e a pa)
    | p => s.noPlace e a va .atomic p

/-- The first lane left performs, with what follows from it. -/
def State.amoFirst (s : State) (e seq : Nat) : State :=
  match s.due e seq with
  | some a => match s.lanesLeft e a with
    | [] => s
    | l :: _ => match s.laneActs e a l with
      | some va => s.amoLane e a l va
      | none => s
  | none => s

/-- All lanes in order, as far as each finds its place. -/
def State.performAmo (s : State) (e seq : Nat) : State := (forN (fun _ s => s.amoFirst e seq) 8 0 s).amoFinish e seq

/-- STAMP_ATOMIC_PERFORM: one lane; lanes of one index, and every lane of an ordered request, go in lane order. -/
def execStampAtomicPerform (e seq lane : Nat) (s : State) : Out :=
  .next (match s.due e seq with
    | some a =>
      if a.op < 0xC4 || 0xC7 < a.op then s
      else if (s.lanesLeft e a).contains lane &&
          (s.lanesLeft e a).all (fun l => lane ≤ l || (!a.stampOrd && s.laneActs e a l != s.laneActs e a lane)) then
        (match s.laneActs e a lane with
        | some va => (s.amoLane e a lane va).amoFinish e seq
        | none => s)
      else s.amoFinish e seq
    | none => s)

/-- ACCESS_PERFORM: an issued access performs at its location (R242); after one of an SE, the watches that waited for it
are armed. Macros perform by their elements. -/
def execAccessPerform (e seq : Nat) (s : State) : Out :=
  .next (match s.due e seq with
    | none => s
    | some a => match a.op with
      | 0xB0 => (s.performSld e a).armWatches e
      | 0xB1 => (s.performSst e a).armWatches e
      | 0xC0 => s.performLd e a
      | 0xC1 => s.performSt e a
      | 0xC8 => s.performXlat e a
      | _ => if 0xC4 ≤ a.op && a.op ≤ 0xC7 then s.performAmo e seq else s)

/-- The walk of a parked access (R386, R390, R392): its leaf goes into the caches and the access tries again; a refusal is the access's own. -/
def State.walkParked (s : State) (e : Nat) (a : Access) : State :=
  let ident := entIdent (s.accEntry e a)
  match s.walk (dieOf e) (s.work (s.owner e)).asid a.va with
  | .leaf t =>
    (match leafRefuses t a.acc ident with
    | none => ((s.useLeaf t a.acc).cachePut ⟨some e, some (quadOf e), dieOf e⟩ 3 (leafUsed t a.acc)).modAcc e a.seq (fun b => { b with stage := .issued })
    | some r => if a.op = 0xC8 then s.refuseXlat e a a.va r else s.refuseTrans e a a.va a.acc r false)
  | .refuse r =>
    if r.cause = 0x35 then s
    else if a.op = 0xC8 then s.refuseXlat e a a.va r
    else s.refuseTrans e a a.va a.acc r false
  | .table _ => s

/-- The accesses of a quad's MEs that are parked on a page of 64 KiB in an address space: one walk of the die serves them all (R392). -/
def State.parkedOn (s : State) (q asid page : Nat) : List (Nat × Access) :=
  (s.elems.filter (fun p => quadOf p.1 == q && s.alive p.1 && (s.work (s.owner p.1)).asid == asid)).flatMap (fun p =>
    (p.2.accs.filter (fun a => a.stage == .parked && a.va / 2 ^ 16 == page)).map (fun a => (p.1, a)))

/-- TRANSLATION_WALK: the walk that a parked access waits for, and with it those of its quad that wait for the same page. -/
def execTranslationWalk (e seq : Nat) (s : State) : Out :=
  .next (match (s.elem e).accs.find? (fun a => a.seq == seq) with
    | none => s
    | some a =>
      if a.stage != .parked || !s.alive e then s
      else (s.parkedOn (quadOf e) (s.work (s.owner e)).asid (a.va / 2 ^ 16)).foldl (fun s p => s.walkParked p.1 p.2) s)

/-! ### Macros of the memory port -/

/-- The element's macro, where it may take its next element: it is in order, and no token of an earlier element waits (R211). -/
def State.macroDue (s : State) (e : Nat) : Option Access :=
  match (s.elem e).mac with
  | some a =>
    if s.macrosRun e && (a.stage == .issued || a.stage == .parked) && a.out0.isEmpty && a.out1.isEmpty && s.inOrder e a then some a
    else none
  | none => none

/-- A completed element of a macro: the PRG, and the canary (R279, R462). -/
def State.macElemDone (s : State) (e : Nat) (a : Access) (f : Access → Access) : State :=
  (s.modAcc e a.seq f).canaryEvent (s.owner e)

/-- The next lane of GATHR or SCATR that acts. -/
def State.nextLane (s : State) (e : Nat) (a : Access) : Option Nat :=
  findFrom (fun l => (s.laneActs e a l).isSome) (8 - a.prg) a.prg

/-- GATHR's last reply: its token, or nothing more where tokens of 32 bytes have been sent. -/
def State.gatherFinish (s : State) (e : Nat) (a : Access) : Access :=
  let a := { a with prg := 8 }
  if a.op = 0xC3 then a.reply (ackOf a.count)
  else if entSize (s.accEntry e a) = 32 then (if a.count = 0 then a.reply (emptyReply false) else { a with stage := .performed })
  else a.reply a.got

/-- A lane of GATHR taken in from its bytes. -/
def State.gatherLane (s : State) (e : Nat) (a : Access) (l : Nat) (v : List Byte × Bool) : Access :=
  let r := s.accEntry e a
  let last := (findFrom (fun k => (s.laneActs e a k).isSome) (7 - l) (l + 1)).isNone
  let a := { a with prg := l + 1, count := a.count + 1, stage := .issued }
  let a := if entSize r = 32 then a.addOut ⟨lanesOf v.1, 0xFF, v.2⟩ last
    else { a with got := ⟨a.got.p.set l (gatherValue a.desc.toNat (entSize r) v.1), a.got.m ||| BitVec.ofNat 8 (2 ^ l), a.got.x || v.2⟩ }
  if last then s.gatherFinish e a else a

/-- A lane of SCATR done. -/
def State.scatterLane (s : State) (e : Nat) (a : Access) (l : Nat) : Access :=
  let last := (findFrom (fun k => (s.laneActs e a k).isSome) (7 - l) (l + 1)).isNone
  let a := { a with prg := l + 1, count := a.count + 1, stage := .issued }
  if last then s.gatherFinish e a else a

/-- The next lane of a GATHR or SCATR is done, or taken as far as it goes (R225). -/
def State.gatherStep (s : State) (e : Nat) (a : Access) : State :=
  let r := s.accEntry e a
  let size := entSize r
  match s.nextLane e a with
  | none => s.macElemDone e a (fun b => s.gatherFinish e b)
  | some l =>
    let s := s.modAcc e a.seq (fun b => { b with prg := l })
    let a := { a with prg := l }
    let va := (s.laneActs e a l).getD 0
    let data := toBytes (min size 4) (a.b.p.get l).toNat
    if entPeer r then
      (if a.peers.isEmpty then
        s.sendPeer e a (if a.op = 0xC2 then 0 else 1) l va size a.b.x (if a.op = 0xC2 then [] else data) else s)
    else if a.op = 0xC2 then
      match s.placeRead e a va size .read with
      | .ok pa s' => s'.macElemDone e a (fun b => s.gatherLane e b l (s'.seen pa size))
      | p => s.noPlace e a va .read p
    else
      match s.place e a va .write with
      | .ok pa s' =>
        (match s'.writeBytes e (addrBytes pa data) a.b.x with
        | some s'' => s''.macElemDone e a (fun b => s.scatterLane e b l)
        | none => s'.refuseUndo e a pa)
      | p => s.noPlace e a va .write p

/-- GATHER_SCATTER_LANE: the next lane of the element's GATHR or SCATR completes (R225); PRG counts the lanes before it, which do not act, as
done (R279, R480). -/
def execGatherScatterLane (e : Nat) (s : State) : Out :=
  .next (match s.macroDue e with
    | none => s
    | some a => if a.op ≠ 0xC2 && a.op ≠ 0xC3 then s else s.gatherStep e a)

/-- The record at the address that a chase has reached is read; its pointer is followed, or the chase replies (R232, R502). The reply returns
the last record, and as its address the pointer of the record before, with the poison of both (R212). A chase whose start names no element
sends D1 the count 0 in lane 0, the one valid lane (log entry 37). -/
def State.chaseStep (s : State) (e : Nat) (a : Access) : State :=
  if a.ended then s.macElemDone e a (fun b =>
    { b with stage := .performed, out0 := [b.token false (emptyReply false) true], out1 := [b.token true (ackOf 0) true] })
  else
    let sec := sectorOf a.node
    match s.placeRead e a sec 32 .read with
    | .ok pa s' =>
      let r := s'.seen pa 32
      let p := le r.1 (8 * bits a.desc.toNat 9 8) 8
      if a.prg < a.total && p ≠ 0 then
        s'.macElemDone e a (fun b => { b with node := p, prg := b.prg + 1, trail := (p, r.2) :: b.trail })
      else
        let x := r.2 || (a.trail.headD (0, false)).2
        let at1 : VReg := ⟨{ Lanes.zero with a0 := BitVec.ofNat 32 a.prg, a1 := BitVec.ofNat 32 a.node,
                                             a2 := BitVec.ofNat 32 (a.node / 2 ^ 32) }, 7, x⟩
        s'.macElemDone e a (fun b =>
          { b with stage := .performed, out0 := [b.token false ⟨lanesOf r.1, 0xFF, x⟩ true], out1 := [b.token true at1 true] })
    | p => s.noPlace e a sec .read p

/-- TRAM_CHASE_HOP: the next hop of the element's chase. -/
def execTramChaseHop (e : Nat) (s : State) : Out :=
  .next (match s.macroDue e with
    | none => s
    | some a => if a.op ≠ 0xC9 then s else s.chaseStep e a)

/-! ### Walks (R234) -/

/-- A read of a tram unit: bytes and mark, or a place that is no location, with the state that the reads before it have left (R390). -/
def State.tramRead (s : State) (e : Nat) (a : Access) (va n : Nat) : Except (Nat × Place × State) ((List Byte × Bool) × State) :=
  match s.placeRead e a va n .read with
  | .ok pa s' => .ok (s'.seen pa n, s')
  | p => .error (va, p, s)

/-- The steps of a walk from node v: nodes appended, newest first. The reply returns bytes of the neighbour arrays alone, whose poison x is
(R212). -/
def State.walkSteps (s : State) (e : Nat) (a : Access) (st : DWord) (v : Nat) (path : List Nat) (x : Bool) :
    Nat → Except (Nat × Place × State) (List Nat × Bool × State)
  | 0 => .ok (path, x, s)
  | n + 1 =>
    match s.accAt e a (fun i => if i = 0 then v else 0) with
    | none => .ok (path, x, s)
    | some va => match s.tramRead e a va 32 with
      | .error p => .error p
      | .ok (r, s1) =>
        let deg := le r.1 0 4
        let ptr := le r.1 8 8
        if deg = 0 then .ok (path, x, s1)
        else
          let z := splitmix st
          let j := z.2.toNat % 2 ^ 32 * deg / 2 ^ 32
          match s1.tramRead e a (ptr + 4 * j) 4 with
          | .error p => .error p
          | .ok (u, s2) =>
            let un := le u.1 0 4
            if entExt (s.accEntry e a) 0 ≤ un then .ok (path, x, s2)
            else State.walkSteps s2 e a z.1 un (un :: path) (x || u.2) n

/-- One whole walk of lane l. -/
def State.walkOne (s : State) (e : Nat) (a : Access) (l : Nat) : Except (Nat × Place × State) (List Nat × Bool × State) :=
  let v := (a.a.p.get l).toNat
  let st := BitVec.ofNat 64 (a.seed.toNat * 2 ^ 32 + (a.b.p.get l).toNat)
  if v < entExt (s.accEntry e a) 0 then s.walkSteps e a st v [v] false (bits a.desc.toNat 15 8) else .ok ([], false, s)

/-- A path as tokens of eight nodes, with fuel; the last has L = 1 and the others L = 0. -/
def pathTokens (x : Bool) : Nat → List Nat → List (VReg × Bool)
  | 0, _ => []
  | f + 1, l =>
    let v : VReg := ⟨Lanes.ofFn (fun i => BitVec.ofNat 32 (l.getD i 0)), maskOf (fun i => i < l.length), x⟩
    if l.length ≤ 8 then [(v, true)] else (v, false) :: pathTokens x f (l.drop 8)

/-- The tokens of a walk added to the reply; their L is the path's own (R234). -/
def Access.addPath (a : Access) (l : List (VReg × Bool)) : Access :=
  { a with out0 := a.out0 ++ l.map (fun p => { a.token false p.1 true with l := p.2 }),
           out1 := a.out1 ++ l.map (fun p => { a.token true p.1 true with l := p.2 }) }

/-- TRAM_WALK_DELIVER: the next walk of the firing completes and is delivered whole (R234). -/
def execTramWalkDeliver (e : Nat) (s : State) : Out :=
  .next (match s.macroDue e with
    | none => s
    | some a =>
      if a.op ≠ 0xCA then s
      else match (walkLanes a)[a.prg]? with
        | none => s.macElemDone e a (fun b =>
            { (if a.total = 0 then b.addPath [(emptyReply false, true)] else b) with stage := .performed })
        | some l => match s.walkOne e a l with
          | .ok (path, x, s') => s'.macElemDone e a (fun b =>
              let b := { b.addPath (pathTokens x 64 path.reverse) with prg := b.prg + 1 }
              if b.prg = b.total then { b with stage := .performed } else b)
          | .error (va, p, s') => s'.noPlace e a va .read p)

/-! ### Replies and waves -/

/-- The access whose reply may leave: the oldest of the element, or any island command (R213, R267). -/
def Elem.leaves (x : Elem) (seq : Nat) : Option Access :=
  match x.accs.find? (fun a => a.seq == seq) with
  | some a => if 0xD0 ≤ a.op || (x.accs.head?.map (fun b => b.seq)) = some seq then some a else none
  | none => none

/-- An access as it was issued, to be issued again (R448). -/
def Access.bare (a : Access) : Access :=
  { a with stage := .issued, prg := 0, got := VReg.zero, done := 0, count := 0, node := (a.trail.getLast?.getD (a.node, false)).1, trail := a.trail.drop (a.trail.length - 1),
           va := 0, peers := [], retry := false, res0 := false, res1 := false, out0 := [], out1 := [], sent0 := 0, sent1 := 0 }

/-- PENDING_REPLY_LEAVE: the waiting tokens of a reply leave, one on each destination, where they have room (R211, R213). -/
def execPendingReplyLeave (e seq : Nat) (s : State) : Out :=
  .next (match (s.elem e).leaves seq with
    | none => s
    | some a =>
      if !s.alive e || s.cycleHeld e then s
      else
        let r0 := s.leaveOne e a.r0 (destOf a.d0) a.out0 a.res0 (.reply e a.bare false a.sent0)
        let r1 := r0.1.leaveOne e a.r1 (destOf a.d1) a.out1 a.res1 (.reply e a.bare true a.sent1)
        let done := a.stage == .performed && r0.2.1.isEmpty && r1.2.1.isEmpty
        if done then r1.1.modElem e (fun x => { x with accs := x.accs.filter (fun b => b.seq != seq) })
        else r1.1.modAcc e seq (fun b => { b with
          out0 := r0.2.1, res0 := r0.2.2, sent0 := b.sent0 + (a.out0.length - r0.2.1.length),
          out1 := r1.2.1, res1 := r1.2.2, sent1 := b.sent1 + (a.out1.length - r1.2.1.length) }))

/-- WAVE_ENTER_ORDER: the next waiting LD or ST enters order once its link holds and the element has room for it (R223). -/
def execWaveEnterOrder (e seq : Nat) (s : State) : Out :=
  let x := s.elem e
  .next (match x.nextEnter with
    | some a => if a.seq = seq && memRoom e x && s.alive e then s.setElem e (Elem.drain e x 1) else s
    | none => s)

/-- SWATCH_TRIGGER: a watch that has triggered delivers its reply and frees its entry (R219). -/
def execSwatchTrigger (e seq : Nat) (s : State) : Out :=
  .next (match (s.elem e).watches.find? (fun a => a.seq == seq) with
    | some a =>
      if a.stage != .performed || !s.alive e || s.cycleHeld e then s
      else
        let v : VReg := ⟨{ Lanes.zero with a0 := a.b.p.a0 }, 1, a.got.x⟩
        let s0 := if a.res0 then s.giveRoom e a.r0 (destOf a.d0) else s
        let s1 := if a.res1 then s0.giveRoom e a.r1 (destOf a.d1) else s0
        if s1.roomVia e a.r0 (destOf a.d0) && s1.roomVia e a.r1 (destOf a.d1) then
          ((s1.writeVia e a.r0 (destOf a.d0) (a.token false v true) (.reply e a.bare false 0)).writeVia e a.r1 (destOf a.d1) (a.token true v true)
            (.reply e a.bare true 0)).modElem e
            (fun x => { x with watches := x.watches.filter (fun b => b.seq != seq) })
        else s
    | none => s)

/-! ### Arrivals (R60, R76) -/

/-- The head of a sender's path: the oldest token in flight on it. -/
def firstFlight (l : List Flight) (e path : Nat) : Option Flight := l.find? (fun f => f.src == e && f.path == path)

/-- TOKEN_ARRIVAL: the oldest token on a sender's path enters the receiver's queue, in a later cycle than its send (R76). -/
def execTokenArrival (e path : Nat) (s : State) : Out :=
  .next (match firstFlight s.flights e path with
    | none => s
    | some f =>
      if f.stamp < (s.quad (quadOf e)).cyc && (s.elem f.dst).ladder.isNone && !s.cycleHeld f.dst then
        { s.modElem f.dst (fun x => x.setQueue f.queue (x.queue f.queue ++ [⟨f.tok, f.origin⟩])) with
          flights := s.flights.erase f }
      else s)

/-- CREDIT_RETURN: the oldest credit of a queue of an element reaches its senders and raises their count, in a later cycle than the pop
(R76). -/
def execCreditReturn (e queue : Nat) (s : State) : Out :=
  .next (match s.credits.find? (fun c => c.elem == e && c.queue == queue) with
    | none => s
    | some c =>
      if c.stamp < (s.quad (quadOf e)).cyc then
        { s.setSpace (spaceKey e queue) (s.spaceOf (spaceKey e queue) + 1) with credits := s.credits.erase c }
      else s)

end Sys2Proof.Machine
end

