-- ==== Sys2Proof/Machine/Island.lean ====
section
/-! DEFINITION. The matrix islands (09_islands): formats, slots and their status words (R257 to R261), the island instructions (R264 to
R276) with their misuse (R478), rows and k-blocks (R271, R273, R275, R95 to R105), the slot table (R283 to R285) and the re-scale trap
(R484). -/

namespace Sys2Proof.Machine

open Sys2Proof

/-! ### Formats (R257) -/

/-- k-blocks per row. -/
def fmtBlocks (f : Nat) : Nat := if f ≤ 1 then 2 else if f = 7 then 8 else 4
/-- Element format of a float FMT; s8 has none. -/
def fmtOf (f : Nat) : Fmt :=
  match f with
  | 0 => .bf16 | 1 => .f16 | 2 => .e4m3 | 3 => .e5m2 | 5 => .e4m3 | 6 => .e5m2 | _ => .e2m1
def fmtMx (f : Nat) : Bool := 5 ≤ f && f ≤ 7
/-- epb of R271. -/
def fmtEpb (f : Nat) : Nat := if f = 7 then 2 else 1
/-- Blocks of one step of the array (R284). -/
def fmtPerStep (f : Nat) : Nat := if f ≤ 1 then 1 else if f = 7 then 4 else 2

/-- The pairs that a TMUL may multiply (R272). -/
def fmtPair (a w : Nat) : Bool :=
  (a == w && (a ≤ 1 || a == 4 || a == 7)) || ((a == 2 || a == 3) && (w == 2 || w == 3)) ||
  ((a == 5 || a == 6) && (w == 5 || w == 6))

/-- A byte of an operand slot; the scale area begins at 8192. -/
def OSlot.byte (o : OSlot) (i : Nat) : Byte := SMap.get 0 o.data i
def OSlot.setBytes (o : OSlot) (i : Nat) (l : List Byte) : OSlot :=
  { o with data := ((List.range l.length).foldl (fun m k => SMap.set 0 m (i + k) (l.getD k 0)) o.data) }

/-- Element k of row r as an encoding (R258). -/
def OSlot.code (o : OSlot) (r k : Nat) : Nat :=
  if o.fmt ≤ 1 then (o.byte (128 * r + 2 * k)).toNat + 256 * (o.byte (128 * r + 2 * k + 1)).toNat
  else if o.fmt = 7 then (o.byte (128 * r + k / 2)).toNat / 16 ^ (k % 2) % 16
  else (o.byte (128 * r + k)).toNat

/-- The scale of row r, block b. -/
def OSlot.scale (o : OSlot) (r b : Nat) : Nat := (o.byte (8192 + r * fmtBlocks o.fmt + b)).toNat

/-- Element (i, j) of an accumulator slot; kind none reads zero (R259). -/
def ASlot.elem (a : ASlot) (i j : Nat) : Nat := if a.kind = 0 then 0 else (SMap.get 0 a.val (64 * i + j)).toNat

/-! ### Status words (R261) -/

def claimBits (c : Option (BitVec 2)) : Nat :=
  match c with
  | some n => 1 + 2 * n.toNat
  | none => 0

/-- An operand slot's word. -/
def OSlot.status (o : OSlot) : Nat :=
  claimBits o.claim + o.fill * 2 ^ 3 + o.fmt * 2 ^ 5 + b2n o.psn * 2 ^ 9 + o.rdr * 2 ^ 10

/-- An accumulator slot's word. -/
def ASlot.status (a : ASlot) : Nat :=
  claimBits a.claim + b2n a.chain.isSome * 2 ^ 3 + a.chain.getD 0 * 2 ^ 4 + b2n a.busy * 2 ^ 12 + a.kind * 2 ^ 13 +
  b2n a.psn * 2 ^ 15

/-! ### Slots named by a token (R264, R266) -/

/-- The island context of a firing: the C of its result. -/
def islCtx (x : Elem) (w : EWord) : BitVec 2 := (sideCI x w).1

/-- A lane that is valid, as a number. -/
def laneNum (v : VReg) (l : Nat) : Option Nat := if mbit v.m l then some (v.p.get l).toNat else none

/-- The operand slot that a lane names for a context. -/
def Island.opNamed (i : Island) (c : BitVec 2) (v : VReg) (l : Nat) : Option Nat :=
  match laneNum v l with
  | some n => if n < 64 && (i.op n).claim == some c then some n else none
  | none => none

/-- The accumulator slot that a lane names for a context. -/
def Island.accNamed (i : Island) (c : BitVec 2) (v : VReg) (l : Nat) : Option Nat :=
  match laneNum v l with
  | some n => if n < 8 && (i.acc n).claim == some c then some n else none
  | none => none

/-- An island instruction's slot is ready by R61, with room on the port and on D1. -/
def State.readyPort (s : State) (e : Nat) (w : EWord) (macOp : Bool) : Bool :=
  s.mayFire e && triggerPass (s.elem e) w macOp && s.rooms e w

/-- The island of an element's tile. -/
def State.isl (s : State) (e : Nat) : Island := s.island (tileOf e)
def State.modIsl (s : State) (t : Nat) (f : Island → Island) : State := s.setIsland t (f (s.island t))

/-- An island command as accepted: its reply goes to D1 alone. -/
def State.portAccess (s : State) (e op : Nat) (w : EWord) : Access :=
  let a := s.newAccess e op w
  { a with desc := if 0xD2 ≤ op && op ≤ 0xD4 then a.desc else 0 }

/-- The reply of an island command to D1. -/
def Access.portReply (a : Access) (v : VReg) : Access := { a with stage := .performed, out1 := [a.token true v true] }

/-- A reply of the first lanes of a list. -/
def portLanes (l : List Nat) (x : Bool) : VReg :=
  ⟨Lanes.ofFn (fun i => BitVec.ofNat 32 (l.getD i 0)), maskOf (fun i => i < l.length), x⟩

/-- A firing of an island command, with its change of the island. -/
def State.firePort (s : State) (op : Nat) (w : EWord) (a : Access) (f : Island → Island) : State :=
  let e := s.cur.elem
  (s.fireMem op w a Elem.issue false).modIsl (tileOf e) f

/-! ### Claims (R268, R269) -/

/-- The lowest unclaimed slot of a kind. -/
def Island.freeOp (i : Island) : Option Nat := findFrom (fun n => (i.op n).claim.isNone) 64 0
def Island.freeAcc (i : Island) : Option Nat := findFrom (fun n => (i.acc n).claim.isNone) 8 0

/-- What OCLM finds: a slot to claim afresh, one already held, no slot, or a slot held by another context. -/
inductive Claiming
  | fresh (n : Nat)
  | held (n : Nat)
  | noSlot
  | wait
deriving DecidableEq, Repr

/-- OCLM's slot from lane 0 of A (R266, R268). -/
def claiming (n : Option Nat) (count : Nat) (claim : Nat → Option (BitVec 2)) (free : Option Nat) (c : BitVec 2) : Claiming :=
  match n with
  | none => .noSlot
  | some n =>
    if n = 0xFFFFFFFF then (match free with
      | some k => .fresh k
      | none => .wait)
    else if count ≤ n then .noSlot
    else match claim n with
      | none => .fresh n
      | some d => if d = c then .held n else .wait

/-- OCLM of an element. -/
def State.oclmFinds (s : State) (e : Nat) (w : EWord) : Claiming :=
  let i := s.isl e
  let n := laneNum (s.opA e w) 0
  if w.ty = .c12 then claiming n 64 (fun k => (i.op k).claim) i.freeOp (islCtx (s.elem e) w)
  else claiming n 8 (fun k => (i.acc k).claim) i.freeAcc (islCtx (s.elem e) w)

/-- OCLM is ready unless another context holds its slot. -/
def State.readyOclm (s : State) (e : Nat) (w : EWord) : Bool := s.readyPort e w false && s.oclmFinds e w != .wait

/-- Errors of a slot cleared by a write of all of it (R426, R487). -/
def Island.clearBad (i : Island) (n : Nat) (acc : Bool) : Island := { i with bad := i.bad.filter (fun p => p != (n, acc)) }

/-- A slot claimed afresh: an operand slot empty, its poison bit as it was until a fill (R260), an accumulator slot of kind none. -/
def Island.claimFresh (i : Island) (op : Bool) (n : Nat) (c : BitVec 2) : Island :=
  if op then i.setOp n { i.op n with claim := some c, fill := 0 }
  else i.setAcc n { claim := some c }

/-- A slot released (R269): an accumulator slot as TZERO leaves it. -/
def Island.release (i : Island) (op : Bool) (n : Nat) : Island :=
  if op then i.setOp n { i.op n with claim := none, fill := 0 } else (i.setAcc n {}).clearBad n true

/-- OCLM. -/
def execOclm (w : EWord) (s : State) : Out :=
  let e := s.cur.elem
  let a := s.portAccess e 0xD0 w
  let c := islCtx (s.elem e) w
  .next (if s.readyOclm e w then
    match s.oclmFinds e w with
    | .fresh n =>
      let x := w.ty == .c12 && ((s.isl e).op n).psn
      s.firePort 0xD0 w (a.portReply (portLanes [n] x)) (fun i => i.claimFresh (w.ty == .c12) n c)
    | .held n =>
      let x := if w.ty = .c12 then ((s.isl e).op n).psn else ((s.isl e).acc n).psn
      s.firePort 0xD0 w (a.portReply (portLanes [n] x)) id
    | _ => s.firePort 0xD0 w (a.portReply (portLanes [] false)) id
  else s)

/-- The slot that ORLS names. -/
def State.orlsSlot (s : State) (e : Nat) (w : EWord) : Option Nat :=
  let c := islCtx (s.elem e) w
  if w.ty = .c12 then (s.isl e).opNamed c (s.opA e w) 0 else (s.isl e).accNamed c (s.opA e w) 0

/-- ORLS is ready when its slot is neither filling nor read, or not busy. -/
def State.readyOrls (s : State) (e : Nat) (w : EWord) : Bool :=
  s.readyPort e w false &&
  (match s.orlsSlot e w with
  | none => true
  | some n => if w.ty = .c12 then ((s.isl e).op n).fill != 1 && ((s.isl e).op n).rdr == 0 else !((s.isl e).acc n).busy)

/-- ORLS. -/
def execOrls (w : EWord) (s : State) : Out :=
  let e := s.cur.elem
  let a := s.portAccess e 0xD1 w
  .next (if s.readyOrls e w then
    match s.orlsSlot e w with
    | some n =>
      let x := w.ty == .c12 && ((s.isl e).op n).psn
      s.firePort 0xD1 w (a.portReply (portLanes [n] x)) (fun i => i.release (w.ty == .c12) n)
    | none => s.firePort 0xD1 w (a.portReply (portLanes [] false)) id
  else s)

/-! ### TZERO (R276) -/

/-- The accumulator slot that TZERO names. -/
def State.tzeroSlot (s : State) (e : Nat) (w : EWord) : Option Nat :=
  (s.isl e).accNamed (islCtx (s.elem e) w) (s.opA e w) 0

/-- TZERO is ready when its slot is not busy. -/
def State.readyTzero (s : State) (e : Nat) (w : EWord) : Bool :=
  s.readyPort e w false &&
  (match s.tzeroSlot e w with
  | some n => !((s.isl e).acc n).busy
  | none => true)

/-- TZERO. -/
def execTzero (w : EWord) (s : State) : Out :=
  let e := s.cur.elem
  let a := s.portAccess e 0xD5 w
  .next (if s.readyTzero e w then
    match s.tzeroSlot e w with
    | some n => s.firePort 0xD5 w (a.portReply (portLanes [n] false))
        (fun i => (i.setAcc n { claim := (i.acc n).claim }).clearBad n true)
    | none => s.firePort 0xD5 w (a.portReply (portLanes [] false)) id
  else s)

/-! ### TLOAD (R270, R271) -/

def tloadFmt (d : Nat) : Nat := bits d 17 14
def tileSent (d : Nat) : Nat := bits d 25 18

/-- The operand slot that TLOAD names. -/
def State.tloadSlot (s : State) (e : Nat) (w : EWord) : Option Nat :=
  (s.isl e).opNamed (islCtx (s.elem e) w) (s.opB e w) 0

/-- TLOAD is ready when its slot is empty. -/
def State.readyTload (s : State) (e : Nat) (w : EWord) : Bool :=
  s.readyPort e w true &&
  (match s.tloadSlot e w with
  | some n => ((s.isl e).op n).fill == 0
  | none => true)

/-- The base of SENT: the side named where it has a shadow, else its front (R270). -/
def State.sentBase (s : State) (e d : Nat) : Nat :=
  let r := (s.work (s.owner e)).entry (tileSent d)
  sideBase r (if entShv r then dSide d else 0)

/-- A macro's access: total elements, and the base of SENT. -/
def State.tileAccess (s : State) (e op : Nat) (w : EWord) (total : Nat) : Access :=
  let a := s.portAccess e op w
  let r := (s.work (s.owner e)).entry (dEnt a.desc.toNat)
  { a with total := total, base := sideBase r (dSide a.desc.toNat), sbase := s.sentBase e a.desc.toNat, node := s.age }

/-- TLOAD. -/
def execTload (w : EWord) (s : State) : Out :=
  let e := s.cur.elem
  let a := s.tileAccess e 0xD2 w 64
  .next (if s.readyTload e w then
    match s.tloadSlot e w with
    | some n => s.firePort 0xD2 w a (fun i =>
        (i.setOp n { i.op n with fill := 1, fmt := tloadFmt a.desc.toNat, psn := a.x }))
    | none => s.firePort 0xD2 w (a.portReply (portLanes [] false)) id
  else s)

/-- The address of element (c0 + i, c1 + r, c2, c3) of an entry of an access's tile. -/
def State.tileAt (s : State) (e : Nat) (ent base : Nat) (c : Option (Nat → Nat)) (i r : Nat) : Option Nat :=
  let w := s.work (s.owner e)
  c.bind (fun c => resolve w (w.entry ent) base (tileOf e) (fun k => if k = 0 then c 0 + i else if k = 1 then c 1 + r else c k))

/-- The same for SENT: element (floor(e0 / 32) + b, c1 + r, c2, c3). -/
def State.scaleAt (s : State) (e : Nat) (a : Access) (fmt b r : Nat) : Option Nat :=
  let d := a.desc.toNat
  let w := s.work (s.owner e)
  let ent := w.entry (dEnt d)
  (coordsOf a.a (entDims ent)).bind (fun c =>
    let e0 := c 0 * entSize ent * fmtEpb fmt
    resolve w (w.entry (tileSent d)) a.sbase (tileOf e)
      (fun k => if k = 0 then e0 / 32 + b else if k = 1 then c 1 + r
        else if k < entDims ent then c k else 0))

/-- The addresses of the elements of a TLOAD row, of its data and of its scales. -/
def State.tloadRow (s : State) (e : Nat) (a : Access) (r : Nat) : List (Option Nat) × List (Option Nat) :=
  let d := a.desc.toNat
  let ent := (s.work (s.owner e)).entry (dEnt d)
  let c := coordsOf a.a (entDims ent)
  ((List.range (128 / entSize ent)).map (fun i => s.tileAt e (dEnt d) a.base c i r),
   if fmtMx (tloadFmt d) then (List.range (fmtBlocks (tloadFmt d))).map (fun b => s.scaleAt e a (tloadFmt d) b r) else [])

/-- n bytes at an optional address, zero where there is none. -/
def State.seenOpt (s : State) (n : Nat) (a : Option Nat) : List Byte :=
  match a with
  | some p => (s.seen p n).1
  | none => List.replicate n 0#8

/-- The island command of an element with its access's slot number still claimed: slots are named at the firing. -/
def macSlot (a : Access) : Nat := if a.op = 0xD3 then a.a.p.a2.toNat else a.b.p.a0.toNat

/-- TLOAD_ROW_FILL: one row is read and written into the slot (R271). A row that holds an uncorrectable word waits (R434). -/
def execTloadRowFill (e : Nat) (s : State) : Out :=
  .next (match s.macroDue e with
    | none => s
    | some a =>
      if a.op ≠ 0xD2 then s
      else
        let rows := s.tloadRow e a a.prg
        let addrs := (rows.1 ++ rows.2).filterMap id
        let size := entSize ((s.work (s.owner e)).entry (dEnt a.desc.toNat))
        if (rows.1.filterMap id).any (fun p => s.badIn p size) || (rows.2.filterMap id).any s.isBad then s
        else
          let data := (rows.1.map (s.seenOpt size)).flatten
          let scales := (rows.2.map (s.seenOpt 1)).flatten
          let psn := addrs.any s.poisoned
          let n := macSlot a
          let last := a.prg + 1 = 64
          let nb := fmtBlocks (tloadFmt a.desc.toNat)
          let s := s.modIsl (tileOf e) (fun i =>
            let o := ((i.op n).setBytes (128 * a.prg) data).setBytes (8192 + a.prg * nb) scales
            let i := i.setOp n { o with psn := o.psn || psn, fill := if last then 2 else 1 }
            if last then i.clearBad n false else i)
          s.macElemDone e a (fun b =>
            let b := { b with prg := b.prg + 1 }
            if last then b.portReply (portLanes [n] ((s.isl e).op n).psn) else b))

/-! ### TMUL (R272, R273) -/

/-- KB' of a TMUL. -/
def tmulBlocks (d fmt : Nat) : Nat := if bits d 3 0 = 0 then fmtBlocks fmt else bits d 3 0

/-- The slots that TMUL names: A, W and z. -/
def State.tmulSlots (s : State) (e : Nat) (w : EWord) : Option (Nat × Nat × Nat) :=
  let c := islCtx (s.elem e) w
  let v := s.opA e w
  let i := s.isl e
  match i.opNamed c v 0, i.opNamed c v 1, i.accNamed c v 2 with
  | some a, some b, some z => some (a, b, z)
  | _, _, _ => none

/-- The chain of a TMUL: lane 3, or 0 where it is invalid. -/
def tmulChain (v : VReg) : Nat := ((laneNum v 3).getD 0) % 256

/-- The kind that a TMUL produces. -/
def tmulKind (i : Island) (a b : Nat) : Nat := if (i.op a).fmt = 4 && (i.op b).fmt = 4 then 2 else 1

/-- TMUL is ready by R61 and R272, misuse apart. -/
def State.readyTmul (s : State) (e : Nat) (w : EWord) : Bool :=
  s.readyPort e w true &&
  (match s.tmulSlots e w with
  | none => true
  | some (a, b, z) =>
    let i := s.isl e
    (i.op a).fill == 2 && (i.op b).fill == 2 && !(i.acc z).busy &&
    ((i.acc z).chain.isNone || (i.acc z).chain == some (tmulChain (s.opA e w))))

/-- The misuse of a ready TMUL (R478). -/
def State.tmulMisuse (s : State) (e : Nat) (w : EWord) : Option Nat :=
  match s.tmulSlots e w with
  | none => none
  | some (a, b, z) =>
    let i := s.isl e
    let d := s.memDesc e w
    if !fmtPair (i.op a).fmt (i.op b).fmt then some 1
    else if fmtBlocks (i.op a).fmt < bits d 3 0 then some 2
    else if !bit d 4 && (i.acc z).kind ≠ 0 && (i.acc z).kind ≠ tmulKind i a b then some 3
    else none

/-- The freeze of a misused island (R478). -/
def State.misuse (s : State) (e reason : Nat) : State :=
  s.elemFault e { cause := 0x11, eid := e, detail := blockIndex (s.work (s.owner e)) e * 8 + posOf e + reason * 2 ^ 16 }

/-- The island as a TMUL starts: readers, busy, chain, kind, and ZA's zero (R273). -/
def tmulStart (i : Island) (a b z h : Nat) (za : Bool) : Island :=
  let kind := tmulKind i a b
  let psn := (i.op a).psn || (i.op b).psn
  let i := i.setOp a { i.op a with rdr := (i.op a).rdr + 1 }
  let i := i.setOp b { i.op b with rdr := (i.op b).rdr + 1 }
  let v := i.acc z
  let v := if za || v.kind = 0 then { v with val := [] } else v
  let i := i.setAcc z { v with busy := true, chain := some h, kind := kind, psn := (v.psn && !za) || psn }
  if za then i.clearBad z true else i

/-- TMUL. -/
def execTmul (w : EWord) (s : State) : Out :=
  let e := s.cur.elem
  .next (if s.readyTmul e w then
    match s.tmulMisuse e w with
    | some r => s.misuse e r
    | none =>
      match s.tmulSlots e w with
      | none => s.firePort 0xD3 w ((s.portAccess e 0xD3 w).portReply (portLanes [] false)) id
      | some (a, b, z) =>
        let acc := { s.portAccess e 0xD3 w with
          total := tmulBlocks (s.memDesc e w) ((s.isl e).op a).fmt, node := s.age }
        let h := tmulChain (s.opA e w)
        let za := bit (s.memDesc e w) 4
        let s := s.firePort 0xD3 w acc (fun i => tmulStart i a b z h za)
        { s with age := s.age + 1 }
  else s)

/-- Row r of an operand slot in block b, as values. -/
def OSlot.fblock (o : OSlot) (r b : Nat) : List FVal :=
  (List.range 32).map (fun t => fdec (fmtOf o.fmt) (o.code r (32 * b + t)))
def OSlot.iblock (o : OSlot) (r b : Nat) : List Int :=
  (List.range 32).map (fun t => sextInt 8 (o.code r (32 * b + t)))

/-- The scaling of a value by an E8M0 code (R95, R100). -/
def scaleBy (k : Nat) (v : FVal) : FVal :=
  if k = 255 then .nan
  else match v with
    | .fin s m e => .fin s m (e + (k : Int) - 127)
    | v => v

/-- The sum of products of one block; adding to +0 keeps its sign rule (R100). -/
def dotF (l : List (FVal × FVal)) : FVal := fsumX (.fin false 0 0 :: l.map (fun p => fmulX p.1 p.2))
def dotI (l : List (Int × Int)) : Int := (l.map (fun p => p.1 * p.2)).foldr (· + ·) 0

/-- One f32 element's step: the new value, and whether it is exceptional (R100, R101). -/
def fstep (mx : Bool) (a b : List FVal) (sa sw old : Nat) : Nat × Bool :=
  let p := a.zip b
  let s := dotF p
  let s := if mx then scaleBy sw (scaleBy sa s) else s
  let o := fdec .f32 old
  let v := faddX o s
  let nanIn := o.isNan || a.any FVal.isNan || b.any FVal.isNan || (mx && (sa == 255 || sw == 255))
  (fround .f32 .rne v, v.isNan && !nanIn)

/-- The new elements of a slot after one k-block, by rows, each with its mark of an exceptional result. -/
def kBlock (a w : OSlot) (z : ASlot) (b : Nat) : List (List (Nat × Bool)) :=
  let idx := List.range 64
  if z.kind = 2 then
    let ws := idx.map (fun j => (j, w.iblock j b))
    idx.map (fun i =>
      let ai := a.iblock i b
      ws.map (fun q => (wrapN 32 (sextInt 32 (z.elem i q.1) + dotI (ai.zip q.2)), false)))
  else
    let mx := fmtMx a.fmt
    let ws := idx.map (fun j => (j, w.fblock j b, w.scale j b))
    idx.map (fun i =>
      let ai := a.fblock i b
      let sa := a.scale i b
      ws.map (fun q => fstep mx ai q.2.1 sa q.2.2 (z.elem i q.1)))

/-- The slot with a block's elements. -/
def ASlot.take (z : ASlot) (l : List (List (Nat × Bool))) : ASlot :=
  let words := l.flatten
  let val := (words.foldr (fun p (acc : Nat × SMap Word) =>
    let k := acc.1 - 1
    let v := BitVec.ofNat 32 p.1
    (k, if v = 0 then acc.2 else (k, v) :: acc.2)) (4096, [])).2
  { z with val := val, psn := z.psn || words.any (fun p => p.2) }

/-- One k-block of an element's TMUL, all 4,096 updates at once (R273); its last ends the macro. -/
def State.tmulBlock (s : State) (e : Nat) (a : Access) : State :=
  let t := tileOf e
  let i := s.island t
  let na := a.a.p.a0.toNat
  let nw := a.a.p.a1.toNat
  let nz := macSlot a
  let z := i.acc nz
  let r := kBlock (i.op na) (i.op nw) z a.prg
  let last := a.prg + 1 = a.total
  let z' := z.take r
  let i := i.setAcc nz { z' with busy := !last }
  let i := if last then
      let i := i.setOp na { i.op na with rdr := (i.op na).rdr - 1 }
      i.setOp nw { i.op nw with rdr := (i.op nw).rdr - 1 }
    else i
  let s := s.setIsland t i
  let s := if z'.psn && !z.psn && !a.x then s.createPoison (s.owner e) e (quadOf e) else s
  s.macElemDone e a (fun b =>
    let b := { b with prg := b.prg + 1 }
    if last then b.portReply (portLanes [nz, b.prg] z'.psn) else b)

/-! ### Steps of the array (R284, R285) -/

/-- The port elements of a tile: positions 0 and 4 of the claims of its west column (R25). -/
def portElems (t : Nat) : List Nat :=
  let k := claimKey (t / 192) (t % 192 / 16 * 4) (t % 16 * 2)
  (List.range 4).flatMap (fun j => [(k + 32 * j) * 8, (k + 32 * j) * 8 + 4])

/-- No word that a TMUL's next block reads is found bad (R486). -/
def Island.blockClean (i : Island) (a : Access) : Bool :=
  !i.bad.contains (a.a.p.a0.toNat, false) && !i.bad.contains (a.a.p.a1.toNat, false) && !i.bad.contains (macSlot a, true)

/-- The earliest-fired TMUL of a context that has a block to add. -/
def State.tmulReady (s : State) (t : Nat) (c : BitVec 2) : Option (Nat × Access) :=
  ((portElems t).filterMap (fun e => match s.macroDue e with
    | some a => if a.op = 0xD3 && a.c = c && (s.island t).blockClean a then some (e, a) else none
    | none => none)).foldl (fun o p => match o with
      | none => some p
      | some q => if p.2.node < q.2.node then some p else some q) none

/-- Entry n of a table: its context, and its EN bit. -/
def tabCtx (tab : DWord) (n : Nat) : BitVec 2 := BitVec.ofNat 2 (bits tab.toNat (2 * n + 1) (2 * n))
def tabEn (tab : DWord) (n : Nat) : Bool := bit tab.toNat (32 + n)
def tabNext (tab : DWord) : Nat := bits tab.toNat 55 52

/-- The enabled entry at or after n, cyclically. -/
def tabSeek (tab : DWord) (n : Nat) : Option Nat := (findFrom (fun k => tabEn tab ((n + k) % 16)) 16 0).map (fun k => (n + k) % 16)

/-- The table with another NEXT. -/
def tabSetNext (tab : DWord) (n : Nat) : DWord :=
  BitVec.ofNat 64 (tab.toNat % 2 ^ 52 + n * 2 ^ 52 + tab.toNat / 2 ^ 56 * 2 ^ 56)

/-- The table at a step boundary: a written one takes effect, and NEXT leaves an entry that is not enabled (R283, R284). -/
def Island.boundary (i : Island) : Island :=
  let tab := i.tabRead
  let i := { i with tab := tab, tabNew := none }
  match tabSeek tab (tabNext tab) with
  | some n => { i with tab := tabSetNext tab n }
  | none => i

/-- The entry that takes the step: NEXT, or in work-conserving mode the next enabled entry whose context has a block. -/
def State.stepEntry (s : State) (t : Nat) (tab : DWord) : Option (Nat × Access) :=
  let n := tabNext tab
  match s.tmulReady t (tabCtx tab n) with
  | some p => some p
  | none =>
    if bit tab.toNat 48 then none
    else ((List.range 15).filterMap (fun k =>
      let m := (n + 1 + k) % 16
      if tabEn tab m then s.tmulReady t (tabCtx tab m) else none)).head?

/-- Blocks of one TMUL added in a step, as many as the array takes and the TMUL has left. -/
def State.stepBlocks (s : State) (e seq : Nat) : Nat → State
  | 0 => s
  | n + 1 =>
    match s.macroDue e with
    | some a =>
      if a.seq = seq && (s.island (tileOf e)).blockClean a then State.stepBlocks (s.tmulBlock e a) e seq n else s
    | none => s

/-- The cycles of a throttling window in which the MAC array has worked, as a quad cycle finds them (R419). -/
def Island.workedIn (i : Island) (cyc : Nat) : Nat := if i.workedAt / 16 = cyc / 16 then i.worked else 0

/-- The MAC array may work in a quad cycle (R419). -/
def Island.throttleOk (i : Island) (step cyc : Nat) : Bool :=
  step == 0 || (i.workedAt == cyc && 0 < i.worked) || i.workedIn cyc < 16 - step

/-- The MAC array works in a quad cycle. -/
def Island.noteWork (i : Island) (cyc : Nat) : Island :=
  if i.workedAt = cyc && 0 < i.worked then i else { i with workedAt := cyc, worked := i.workedIn cyc + 1 }

/-- ISLAND_STEP: none while throttling leaves the array no cycle of the window. -/
def execIslandStep (isl : Nat) (s : State) : Out :=
  let q := s.quad (quadOfTile isl)
  if !(s.island isl).throttleOk q.step.toNat q.cyc then .next s
  else
  let s := s.modIsl isl Island.boundary
  let tab := (s.island isl).tab
  .next (match tabSeek tab (tabNext tab) with
    | none => s
    | some _ =>
      let r := s.stepEntry isl tab
      let s := match tabSeek tab ((tabNext tab + 1) % 16) with
        | some n => s.modIsl isl (fun i => { i with tab := tabSetNext i.tab n })
        | none => s
      match r with
      | some (e, a) => (s.modIsl isl (fun i => i.noteWork q.cyc)).stepBlocks e a.seq (fmtPerStep ((s.island isl).op a.a.p.a0.toNat).fmt)
      | none => s)

/-! ### TOUT (R274, R275, R484) -/

def toutFmt (d : Nat) : Nat := bits d 17 14
def toutSmode (d : Nat) : Bool := bit d 26
def toutEnd (d : Nat) : Bool := bit d 27

/-- Bytes per row of OFMT, ob. -/
def toutBytes (o : Nat) : Nat :=
  match o with
  | 0 => 256 | 1 => 128 | 2 => 128 | 3 => 64 | 4 => 64 | 5 => 64 | 6 => 64 | 7 => 32 | 8 => 256 | 9 => 128 | _ => 64

/-- The element format of OFMT 1 to 7. -/
def toutElem (o : Nat) : Fmt :=
  match o with
  | 1 => .bf16 | 2 => .f16 | 3 => .e4m3 | 4 => .e5m2 | 5 => .e4m3 | 6 => .e5m2 | _ => .e2m1

def toutMx (o : Nat) : Bool := 5 ≤ o && o ≤ 7

/-- emax of R98. -/
def emaxOf (f : Fmt) : Int :=
  match f with
  | .e2m1 => 2 | .e4m3 => 8 | _ => 15

/-- The magnitude's floor(log2) of a finite value that is not zero. -/
def log2Of (v : FVal) : Option Int :=
  match v with
  | .fin _ m e => if m = 0 then none else some (flog2 m + e)
  | _ => none

/-- floor(log2 amax) of the finite values of a block; none when they are all zero. -/
def blockTop (l : List FVal) : Option Int :=
  (l.filterMap log2Of).foldl (fun o k => match o with
    | none => some k
    | some m => some (max m k)) none

def FVal.isFin : FVal → Bool
  | .fin _ _ _ => true | _ => false

/-- v / 2^x. -/
def scaleDown (v : FVal) (x : Int) : FVal :=
  match v with
  | .fin s m e => .fin s m (e - x)
  | v => v

/-- The block holds a NaN or an infinity. -/
def blockExc (l : List FVal) : Bool := l.any (fun v => !v.isFin)

/-- X of R98 before clamping. -/
def rawX (f : Fmt) (top : Int) : Int := top - emaxOf f
def clampX (x : Int) : Int := max (-127) (min 127 x)

/-- The computed scale of a block and its elements (R98). -/
def computedBlock (f : Fmt) (l : List FVal) : Nat × List Nat :=
  if blockExc l then (255, l.map (fun _ => 0))
  else match blockTop l with
    | none => (0, l.map (fround f .rne))
    | some top =>
      let x := clampX (rawX f top)
      ((x + 127).toNat, l.map (fun v => fround f .rne (scaleDown v x)))

/-- A finite value rounded under a scale exceeds the largest finite magnitude (R99). -/
def overflowsAt (f : Fmt) (x : Int) (v : FVal) : Bool :=
  match v with
  | .fin _ m e =>
    let e := e - x
    m != 0 && (let q := gridExp f ((flog2 m : Int) + e); overMax f (roundUnits .rne m e q) q)
  | _ => false

/-- An element under the fixed scale (R99). -/
def fixedElem (f : Fmt) (x : Int) (v : FVal) : Nat :=
  match v with
  | .fin _ _ _ => fround f .rne (scaleDown v x)
  | v => if f = .e2m1 then 0 else fround f .rne v

/-- The smallest scale that converts a block with no cause of R99; 0xFF where none does (R484). -/
def bestScale (f : Fmt) (l : List FVal) : Nat :=
  match blockTop l with
  | none => 0
  | some top =>
    if !blockExc l && rawX f top ≠ clampX (rawX f top) then 255
    else
      let x := clampX (rawX f top)
      min 255 ((x + 127).toNat + b2n (l.any (overflowsAt f x)))

/-- The re-scale cause of a block under a fixed scale: WHY and CSCALE (R99, R484). -/
def rescale (f : Fmt) (k : Nat) (l : List FVal) : Option (Nat × Nat) :=
  let wide := match blockTop l with
    | none => false
    | some top => !blockExc l && rawX f top != clampX (rawX f top)
  if k = 255 then some (0, bestScale f l)
  else if wide then some (2, match blockTop l with
    | none => 0
    | some top => (clampX (rawX f top) + 127).toNat)
  else if l.any (overflowsAt f ((k : Int) - 127)) then some (1, bestScale f l)
  else none

/-- Row r of an accumulator slot as f32 values, and its blocks. -/
def ASlot.frow (z : ASlot) (r : Nat) : List FVal := (List.range 64).map (fun j => fdec .f32 (z.elem r j))
def ASlot.blockOf (z : ASlot) (r b : Nat) : List FVal := ((z.frow r).drop (32 * b)).take 32

/-- Four-bit codes packed two to a byte (R97). -/
def packNibbles : List Nat → List Byte
  | a :: b :: r => BitVec.ofNat 8 (a % 16 + 16 * (b % 16)) :: packNibbles r
  | [a] => [BitVec.ofNat 8 (a % 16)]
  | [] => []

/-- The bytes of a row and its scales (R275), under fixed scale k where SMODE is 1. -/
def toutRow (z : ASlot) (d k r : Nat) : List Byte × List Byte :=
  let o := toutFmt d
  let idx := List.range 64
  if o = 0 || o = 8 then ((idx.map (fun j => toBytes 4 (z.elem r j))).flatten, [])
  else if o = 9 then ((idx.map (fun j => toBytes 2 (finInt 16 true true (sextInt 32 (z.elem r j))))).flatten, [])
  else if o = 10 then (idx.map (fun j => BitVec.ofNat 8 (finInt 8 true true (sextInt 32 (z.elem r j)))), [])
  else if toutMx o then
    let f := toutElem o
    let blocks := [z.blockOf r 0, z.blockOf r 1].map (fun l =>
      if toutSmode d then (k, l.map (fixedElem f ((k : Int) - 127))) else computedBlock f l)
    let codes := (blocks.map (fun p => p.2)).flatten
    (if o = 7 then packNibbles codes else codes.map (BitVec.ofNat 8), blocks.map (fun p => BitVec.ofNat 8 p.1))
  else
    let f := toutElem o
    ((z.frow r).flatMap (fun v => toBytes (f.width / 8) (fround f .rne v)), [])

/-- The accumulator slot that TOUT names. -/
def State.toutSlot (s : State) (e : Nat) (w : EWord) : Option Nat :=
  (s.isl e).accNamed (islCtx (s.elem e) w) (s.opB e w) 0

/-- TOUT is ready when its slot is not busy, and a poisoned slot has a free report entry. -/
def State.readyTout (s : State) (e : Nat) (w : EWord) : Bool :=
  s.readyPort e w true &&
  (match s.toutSlot e w with
  | none => true
  | some n => !((s.isl e).acc n).busy && (!((s.isl e).acc n).psn || s.reportRoom (s.owner e)))

/-- The misuse of a ready TOUT (R478). -/
def State.toutMisuse (s : State) (e : Nat) (w : EWord) : Option Nat :=
  match s.toutSlot e w with
  | none => none
  | some n =>
    let k := ((s.isl e).acc n).kind
    let o := toutFmt (s.memDesc e w)
    if (o ≤ 7 && k = 2) || (8 ≤ o && k = 1) then some 4 else none

/-- TOUT. -/
def execTout (w : EWord) (s : State) : Out :=
  let e := s.cur.elem
  .next (if s.readyTout e w then
    match s.toutMisuse e w with
    | some r => s.misuse e r
    | none =>
      let a := s.tileAccess e 0xD4 w 64
      match s.toutSlot e w with
      | none => s.firePort 0xD4 w (a.portReply (portLanes [] false)) id
      | some n =>
        let z := (s.isl e).acc n
        let h := s.owner e
        let s := s.firePort 0xD4 w a (fun i => i.setAcc n { i.acc n with busy := true })
        if z.psn then
          s.report h (reportToken (fun l => match l with
            | 0 => 2 | 1 => poisonWord (s.work h) | 2 => e | 3 => dEnt a.desc.toNat | 4 => n | _ => 0))
        else s
  else s)

/-- The writes of a TOUT row: (address, byte, block of an MX format). -/
def State.toutWrites (s : State) (e : Nat) (a : Access) (data scales : List Byte) : List (Nat × Byte × Nat) :=
  let d := a.desc.toNat
  let o := toutFmt d
  let ent := (s.work (s.owner e)).entry (dEnt d)
  let size := entSize ent
  let c := coordsOf a.a (entDims ent)
  let perBlock := toutBytes o / 2
  (List.range (toutBytes o / size)).flatMap (fun i =>
    match s.tileAt e (dEnt d) a.base c i a.prg with
    | some p => (List.range size).map (fun k => (p + k, data.getD (size * i + k) 0, (size * i + k) / perBlock))
    | none => []) ++
  (List.range scales.length).flatMap (fun b =>
    match s.scaleAt e a (if o = 7 then 7 else 5) b a.prg with
    | some p => [(p, scales.getD b 0, b)]
    | none => [])

/-- TOUT_ROW_WRITE: a row is tested, converted and written (R275, R484). -/
def execToutRowWrite (e : Nat) (s : State) : Out :=
  .next (match s.macroDue e with
    | none => s
    | some a =>
      let t := tileOf e
      let n := macSlot a
      let z := (s.island t).acc n
      let d := a.desc.toNat
      let o := toutFmt d
      let k := a.b.p.a1.toNat % 256
      let r := a.prg
      if a.op ≠ 0xD4 || (s.island t).bad.contains (n, true) then s
      else
        let why := fun b => if toutMx o && toutSmode d then (rescale (toutElem o) k (z.blockOf r b)).map (fun p => (p.1, p.2, b)) else none
        match (why 0).orElse (fun _ => why 1) with
        | some (y, cs, b) => s.refuseAcc e a { cause := 0x10, detail := s.accDetail e a (cs + y * 2 ^ 8 + b * 2 ^ 10) }
        | none =>
          let row := toutRow z d k r
          let l := s.toutWrites e a row.1 row.2
          let exc := fun b => toutMx o && blockExc (z.blockOf r b)
          let mark := fun sec => z.psn || l.any (fun p => sectorOf p.1 == sec && exc p.2.2)
          match s.writeMarked e (l.map (fun p => (p.1, p.2.1))) mark with
          | none => s.refuseUndo e a ((l.head?.map (fun p => p.1)).getD 0)
          | some s' =>
            let made := exc 0 || exc 1
            let s' := if made && !z.psn && !a.x then s'.createPoison (s.owner e) e (quadOf e) else s'
            let last := r + 1 = 64
            let s' := if last then s'.modIsl t (fun i => i.setAcc n
                { i.acc n with busy := false, chain := if toutEnd d then none else (i.acc n).chain }) else s'
            s'.macElemDone e a (fun b =>
              let b := { b with prg := r + 1, got := { b.got with x := b.got.x || made } }
              if last then b.portReply (portLanes [n, 64] (z.psn || b.got.x)) else b))

end Sys2Proof.Machine
end

