-- ==== Sys2Proof/Machine/Image.lean ====
section
/-! DEFINITION. Configuration images (R37, R120 to R129) and the loader's checks of one (R58, R149, R369, R472 to R475, R509, R510): CRC-64, headers,
blocks, instruction words, element records, layout entries and race declarations. -/

namespace Sys2Proof.Machine

open Sys2Proof

/-! ### CRC-64 (R122) -/

/-- One bit of the reflected register. -/
def crcBit (c : Nat) : Nat := if c % 2 = 1 then (c / 2) ^^^ 0xC96C5795D7870F42 else c / 2

/-- One byte. -/
def crcByte (c b : Nat) : Nat := forN (fun _ c => crcBit c) 8 0 (c ^^^ b)

/-- CRC-64 of a list of bytes. -/
def crc64 (l : List Byte) : Nat := (l.foldl (fun c b => crcByte c b.toNat) 0xFFFFFFFFFFFFFFFF) ^^^ 0xFFFFFFFFFFFFFFFF

/-- The bytes with the eight from an offset taken as zero. -/
def zeroCrc (l : List Byte) (off : Nat) : List Byte := l.take off ++ List.replicate 8 0#8 ++ l.drop (off + 8)

/-- The CRC field at an offset is that of the image. -/
def crcOk (l : List Byte) (off : Nat) : Bool := le l off 8 == crc64 (zeroCrc l off)

/-! ### Refusals (R472) -/

/-- A refusal by the loader: its cause, where it lies, and the address it names. -/
structure LoadErr where
  cause : Nat
  block : Nat := 0xFFF
  pos : Nat := 0
  slot : Nat := 0
  ctx : Nat := 0
  reason : Nat := 0
  offset : Nat := 0
  va : Nat := 0
deriving DecidableEq, Repr

/-- DETAIL of a refusal. -/
def LoadErr.detail (e : LoadErr) : Nat :=
  e.block % 2 ^ 12 + e.pos % 8 * 2 ^ 12 + e.slot % 16 * 2 ^ 16 + e.ctx % 4 * 2 ^ 20 + e.reason * 2 ^ 24 + e.offset % 2 ^ 32 * 2 ^ 32

/-- The first refusal of a list of checks. -/
def firstErr {α : Type} (f : α → Option LoadErr) : List α → Option LoadErr
  | [] => none
  | a :: r => (f a).or (firstErr f r)

/-- The lowest offset whose rule is broken. -/
def lowestOff (l : List (Nat × Bool)) : Option Nat :=
  (l.filter (fun p => p.2)).foldl (fun m p => match m with
    | none => some p.1
    | some k => some (min k p.1)) none

/-! ### The header (R126) -/

/-- What the loader knows of an image. -/
structure Image where
  bytes : List Byte
  ident : Nat
  width : Nat
  height : Nat
  islands : Bool
  contexts : Nat
  blocks : Nat
  layouts : Nat
  races : Nat
  blockOff : Nat
  layoutOff : Nat
  raceOff : Nat
  length : Nat

/-- The fields of a header. -/
def imageOf (l : List Byte) : Image :=
  { bytes := l, ident := le l 3 1, width := le l 4 1, height := le l 5 1, islands := bit (le l 6 1) 0, contexts := le l 7 1 % 16,
    blocks := le l 8 2, layouts := le l 10 2, races := le l 12 2, blockOff := le l 16 8, layoutOff := le l 24 8, raceOff := le l 32 8,
    length := le l 40 8 }

/-- The end of the sections before the layout table, and before the race declarations; a section of no entries lies nowhere (log entry 63). -/
def Image.blocksEnd (m : Image) : Nat := if m.blocks = 0 then 64 else m.blockOff + 1936 * m.blocks
def Image.layoutEnd (m : Image) : Nat := if m.layouts = 0 then m.blocksEnd else m.layoutOff + 64 * m.layouts

/-- The lowest header field that breaks R126: each section follows the one before it, and the image holds them all. -/
def Image.fieldErr (m : Image) : Option Nat :=
  let l := m.bytes
  lowestOff [(0, le l 0 2 != 0xC0F6), (2, le l 2 1 != 3), (4, m.width == 0 || 32 < m.width), (5, m.height == 0 || 48 < m.height),
    (6, 1 < le l 6 1), (7, 15 < le l 7 1), (10, 256 < m.layouts), (14, le l 14 2 != 0), (16, m.blockOff % 16 != 0),
    (24, m.layoutOff % 16 != 0), (32, m.raceOff % 16 != 0), (48, le l 48 8 != 0), (40, m.length < 64),
    (16, 0 < m.blocks && m.blockOff < 64), (if m.blocks = 0 then 24 else 8, 0 < m.layouts && m.layoutOff < m.blocksEnd),
    (if m.layouts = 0 then (if m.blocks = 0 then 32 else 8) else 10, 0 < m.races && m.raceOff < m.layoutEnd),
    (8, 0 < m.blocks && m.length < m.blockOff + 1936 * m.blocks), (10, 0 < m.layouts && m.length < m.layoutOff + 64 * m.layouts),
    (12, 0 < m.races && m.length < m.raceOff + 16 * m.races)]

/-- Check 1: header, length and CRC. -/
def Image.headerErr (m : Image) : Option LoadErr :=
  (m.fieldErr.or (if crcOk m.bytes 56 then none else some 56)).map (fun o => { cause := 0x41, offset := o })

/-! ### Blocks (R120, R121, R127) -/

/-- A block of an image: where it begins, and its header's fields. -/
structure Block where
  off : Nat
  bytes : List Byte
  ctx : Nat
  idx : Nat
  declared : Nat

/-- Block n of an image. -/
def Image.block (m : Image) (n : Nat) : Block :=
  let off := m.blockOff + 1936 * n
  let b := sliceB m.bytes off 1936
  let h := le b 0 16
  { off := off, bytes := b, ctx := bits h 81 80, idx := bits h 99 88, declared := bits h 79 64 }

/-- The blocks of an image in order. -/
def Image.blockList (m : Image) : List Block := (List.range m.blocks).map m.block

/-- What a block breaks in check 3, after a block of a (context, index) code. -/
def Image.blockErr (m : Image) (prev : Option Nat) (b : Block) : Option LoadErr :=
  let h := le b.bytes 0 16
  (lowestOff [(14, bits h 127 112 != 0xB10C), (13, bits h 111 108 != 3), (12, bits h 107 100 != m.ident), (11, m.width * m.height ≤ b.idx),
    (10, bits h 87 82 != 0 || !bit m.contexts b.ctx), (10, match prev with
      | some p => b.ctx * 4096 + b.idx ≤ p
      | none => false), (0, !crcOk b.bytes 0)]).map
    (fun o => { cause := 0x42, block := b.idx, ctx := b.ctx, offset := b.off + o })

/-- Check 3 over the blocks. -/
def Image.blocksErr (m : Image) : Option Nat → List Block → Option LoadErr
  | _, [] => none
  | prev, b :: r => (m.blockErr prev b).or (Image.blocksErr m (some (b.ctx * 4096 + b.idx)) r)

/-- The word of a position and slot, and its offset in the block. -/
def wordOff (p n : Nat) : Nat := 16 + 12 * (16 * p + n)
def Block.word (b : Block) (p n : Nat) : Nat := le b.bytes (wordOff p n) 12

/-- The record of a position. -/
def recOff (p : Nat) : Nat := 1552 + 40 * p
def Block.const (b : Block) (p n : Nat) : Nat := le b.bytes (recOff p + 4 * n) 4
def Block.recFlags (b : Block) (p : Nat) : Nat := le b.bytes (recOff p + 35) 1

/-- A drift route. -/
def Block.route (b : Block) (n : Nat) : Nat := le b.bytes (1872 + 4 * n) 4

/-- The configuration that a position takes. -/
def Block.elemCfg (b : Block) (p : Nat) : ElemCfg :=
  { slots := (List.range 16).foldl (fun m n => SMap.set 0 m n (BitVec.ofNat 96 (b.word p n))) [],
    k := (List.range 4).foldl (fun m n => SMap.set 0 m n (BitVec.ofNat 32 (b.const p n))) [],
    conflict := BitVec.ofNat 120 (le b.bytes (recOff p + 16) 15), rotate := BitVec.ofNat 16 (le b.bytes (recOff p + 32) 2),
    preds := BitVec.ofNat 8 (le b.bytes (recOff p + 34) 1), sink := bit (b.recFlags p) 2, phase := bit (b.recFlags p) 3 }

/-- The configuration of a claim in a context; a block that an image lacks is the cleared configuration (R127). -/
def Block.cfg (b : Block) : BlockCfg :=
  { elems := (List.range 8).foldl (fun m p => SMap.set {} m p (b.elemCfg p)) [],
    routes := (List.range 16).foldl (fun m n => SMap.set 0 m n (BitVec.ofNat 32 (b.route n))) [], declared := b.declared }

/-! ### Layout entries (R201, R204, R367) -/

/-- Entry n of an image's table; none beyond its count. -/
def Image.entry (m : Image) (n : Nat) : Nat := if n < m.layouts then le m.bytes (m.layoutOff + 64 * n) 64 else 0

/-- The bases in use, with their byte offsets in the entry. -/
def usedBases (r : Nat) : List (Nat × Nat) :=
  if entShv r then [(entBase r 0, 40), (entBase r 1, 48)] else if entSel r then [(entBase r 1, 48)] else [(entBase r 0, 40)]

/-- Bytes from the base to the end of the furthest element. -/
def entSpan (r : Nat) : Nat :=
  if entSpace r = 4 then (entExt r 0 - 1) - (entExt r 0 - 1) % entSize r + entSize r
  else (((List.range (entDims r)).map (fun i => (entExt r i - 1) * entStr r i)).foldr (· + ·) 0 + 1) * entSize r

/-- The sum of R204 for a tile-SRAM entry, exact, also where an extent is 0. -/
def sramSpan (r : Nat) : Int :=
  (((List.range (entDims r)).map (fun i => ((entExt r i : Int) - 1) * entStr r i)).foldr (· + ·) 0 + 1) * entSize r

/-- The entry reaches no element. -/
def entEmpty (r : Nat) : Bool := (List.range (entDims r)).any (fun i => entExt r i == 0)

/-- What an entry breaks of R204, by the byte of the entry that breaks it. -/
def entryProblems (r ident races tiles : Nat) : List (Nat × Bool) :=
  if entSpace r = 0 then (List.range 64).map (fun i => (i, r / 256 ^ i % 256 != 0))
  else
    let sram := entSpace r == 2
    let top := fun (b : Nat) => b + entSpan r - 1
    let both := [(entBase r 0, 40), (entBase r 1, 48)]
    [(0, 4 < entSpace r || bits r 7 6 != 0 || (entOwn r && !sram)),
     (1, bits r 10 8 == 4 || 6 ≤ bits r 10 8 || bits r 15 13 != 0), (2, bits r 23 19 != 0), (3, bits r 31 28 != 0),
     (4, entIdent r != 0 && entIdent r != ident), (5, bits r 47 40 != 0), (6, entDecl r != 0xFFFF && races ≤ entDecl r),
     (57, bits r 463 457 != 0),
     (58, bits r 511 464 != 0), (1, entSpace r == 4 && entDims r != 1), (24, entSpace r == 4 && entStr r 0 != 1)] ++
    ((List.range 4).filter (fun i => entDims r ≤ i)).flatMap (fun i => [(8 + 4 * i, entExt r i != 0), (24 + 4 * i, entStr r i != 0)]) ++
    both.flatMap (fun b => [(b.2, b.1 % 32 != 0), (b.2 + (if sram then 3 else 7), if sram then 2 ^ 29 ≤ b.1 else 2 ^ 56 ≤ b.1)]) ++
    (usedBases r).flatMap (fun b =>
      [(1, sram && 2 ^ 21 < (bits b.1 20 0 : Int) + sramSpan r),
       (1, !sram && !entEmpty r && (2 ^ 56 ≤ top b.1 || (b.1 < 2 ^ 40 + 2 ^ 34 && 2 ^ 40 ≤ top b.1))),
       (0, sram && !entOwn r && tiles ≤ bits b.1 28 21)])

/-- A tile-SRAM entry on a base holds a byte of some element in a bank, after the permutation. -/
def entInBank (r base bank : Nat) : Bool :=
  let b := bits base 20 0
  let lo := (bank ^^^ entBx r) * 2 ^ 17
  !entEmpty r && decide (b < lo + 2 ^ 17) && reaches (entDimList r) ((lo - b + entSize r - 1) / entSize r) ((lo + 2 ^ 17 - 1 - b) / entSize r)

/-- A working of an image's rectangle at a claim row and column of a die. -/
def Image.at (m : Image) (die row col : Nat) : Working :=
  { ident := BitVec.ofNat 8 m.ident, width := m.width, height := m.height, islands := m.islands, die := die, row := row, col := col }

/-- Every bank that an entry can reach lies in the share of a working, and nothing of it lies beyond the slice or the working's tiles (R204,
R367). -/
def shareOk (w : Working) (r : Nat) : Bool :=
  entSpace r != 2 ||
  (usedBases r).all (fun b => (entEmpty r || bits b.1 20 0 + entSpan r ≤ 2 ^ 21) && (entOwn r || bits b.1 28 21 < w.tileCount) &&
    (List.range 16).all (fun bank =>
    !entInBank r b.1 bank ||
    ((List.range w.tileCount).filter (fun t => entOwn r || t == bits b.1 28 21)).all (fun t => ownsBank w (w.tileAt t) bank)))

/-- The alignments at which every entry keeps to the share: row mod 4 and column mod 2. -/
def Image.aligned (m : Image) (row col : Nat) : Bool :=
  if m.islands then row % 4 == 0 && col % 2 == 0
  else (List.range m.layouts).all (fun n => shareOk (m.at 0 (row % 4) (col % 2)) (m.entry n))

/-- Check 6: the entries, then the shares under the eight alignments. The tiles counted for a base are those of the alignment (log entry 27). -/
def Image.layoutErr (m : Image) (w : Working) : Option LoadErr :=
  let at' := fun (n o : Nat) => ({ cause := 0x45, offset := m.layoutOff + 64 * n + o } : LoadErr)
  (firstErr (fun n => (lowestOff (entryProblems (m.entry n) m.ident m.races w.tileCount)).map (at' n)) (List.range m.layouts)).or
  (if m.islands || (List.range 8).any (fun k => m.aligned (k / 2) (k % 2)) then none
   else (((List.range m.layouts).find? (fun n => entSpace (m.entry n) == 2)).map (fun n => at' n 0)))

/-! ### Descriptors (reason 14) -/

/-- A usable SE or island entry: tile SRAM with OWN = 1 and at least d dimensions. -/
def ownEntry (r d : Nat) : Bool := entSpace r == 2 && entOwn r && d ≤ entDims r

/-- A descriptor of R209 keeps its layout for an opcode (R217). -/
def r209Ok (op d r : Nat) : Bool :=
  let ord := dOrd d
  let aop := dAop d
  let size := entSize r
  entSpace r != 0 && bits d 15 15 == 0 && bits d 31 21 == 0 && bits d 11 9 != 7 && (dSide d == 0 || entShv r) &&
  (match op with
   | 0xB0 => ord ≤ 1 && aop == 0 && entRead r && ownEntry r 1
   | 0xB1 => (ord == 0 || ord == 2) && !dSx d && aop == 0 && entWrite r && ownEntry r 1
   | 0xB2 => ord == 1 && !dSx d && aop == 0 && size == 4 && entRead r && ownEntry r 1
   | 0xC2 => ord ≤ 1 && aop == 0 && size != 8 && entRead r
   | 0xC3 => (ord == 0 || ord == 2) && !dSx d && aop == 0 && size ≤ 4 && entWrite r
   | 0xC4 => !dSx d && aop ≤ 12 && size == 4 && entAtomic r
   | 0xC5 => !dSx d && aop ≤ 12 && size == 4 && entAtomic r
   | _ => (ord == 0 || ord == 2) && !dSx d && aop ≤ 10 && size == 4 && entAtomic r)

/-- A descriptor with its constant's value is one that the opcode can use; entries come from a table, sub-graphs by their count. -/
def descOk (op d : Nat) (entry : Nat → Nat) (subs : Nat) : Bool :=
  let r := entry (bits d 7 0)
  let far := entSpace r == 1 || entSpace r == 4
  let sent := entry (bits d 25 18)
  let mx := 5 ≤ bits d 17 14 && bits d 17 14 ≤ 7
  let sentOk := fun (right : Bool) => if mx then ownEntry sent 2 && entSize sent == 1 && right else bits d 25 18 == 0
  match op with
  | 0xB4 => d < 16
  | 0xB5 => d < 16
  | 0xB6 => d < 16
  | 0xC0 => entSpace r != 0 && entRead r && 1 ≤ bits d 23 16 && bits d 23 16 ≤ 254
  | 0xC1 => entSpace r != 0 && entWrite r && 1 ≤ bits d 23 16 && bits d 23 16 ≤ 254
  | 0xC8 => far && bits d 31 12 == 0 && (dSide d == 0 || entShv r)
  | 0xC9 => far && entSize r == 32 && bits d 15 10 == 0 && bits d 31 24 == 0 && bits d 23 16 != 0 && entRead r
  | 0xCA => far && entSize r == 32 && entDims r == 1 && bits d 15 8 != 0 && bits d 31 16 == 0 && entRead r
  | 0xD2 => ownEntry r 2 && (dSide d == 0 || entShv r) && entRead r && bits d 11 9 != 7 && dOrd d ≤ 1 && bits d 17 14 ≤ 7 &&
            bits d 31 26 == 0 && sentOk (entRead sent)
  | 0xD3 => d < 32
  | 0xD4 => ownEntry r 2 && (dSide d == 0 || entShv r) && entWrite r && bits d 11 9 != 7 && (dOrd d == 0 || dOrd d == 2) &&
            bits d 17 14 ≤ 10 && bits d 31 28 == 0 && (mx || !bit d 26) && sentOk (entWrite sent)
  | 0xA8 => bits d 31 14 == 0 && bits d 7 0 < subs
  | 0xA9 => d < 64
  | 0xE0 => bits d 2 0 != 7 && bits d 4 3 != 3 && d < 32
  | _ => if opR209 op then r209Ok op d r else true

/-- The constant that holds a word's descriptor: SB for SPAWN, JOIN and FENCE, else TY. -/
def descConst (r : RawWord) : Option Nat :=
  if r.op = 0xA8 || r.op = 0xA9 || r.op = 0xE0 then (if 22 ≤ r.sb && r.sb ≤ 25 then some (r.sb - 22) else none)
  else if (0xB0 ≤ r.op && r.op ≤ 0xCA) || (0xD2 ≤ r.op && r.op ≤ 0xD4) then (if 12 ≤ r.ty then some (r.ty - 12) else none)
  else none

/-! ### Words and routes (check 4, R473) -/

/-- The kind of element at a position (R20), and the island port of a position of a block (R25). -/
def posKind (p : Nat) : Nat := if p = 3 then 1 else if p = 7 then 2 else 0
def Image.portOf (m : Image) (idx p : Nat) : Option Nat :=
  if m.islands && idx % m.width % 2 = 0 && (p = 0 || p = 4) then some (idx / m.width % 4) else none

/-- A drift route from a position of a block ends in the rectangle, at another element (R59). -/
def Image.routeOk (m : Image) (idx p r : Nat) : Bool :=
  let x : Int := (4 * (idx % m.width) + p % 4 : Nat) + sextInt 8 (bits r 28 21)
  let y : Int := (2 * (idx / m.width) + p / 4 : Nat) + sextInt 8 (bits r 20 13)
  bit r 31 && bits r 12 0 == 0 && 0 ≤ x && x < (4 * m.width : Nat) && 0 ≤ y && y < (2 * m.height : Nat) &&
  !(bits r 28 21 == 0 && bits r 20 13 == 0)

/-- The lowest byte of a bad route that breaks R59: its reserved bits, its offsets, or V. -/
def routeByte (r : Nat) : Nat := if bit r 31 && bits r 12 0 != 0 then 0 else if bit r 31 then 1 else 3

/-- The drift routes that a word names. -/
def namedRoutes (r : RawWord) : List Nat := ([r.d0, r.d1].filter (fun c => bits c 9 7 == 5)).map (fun c => bits c 6 3)

/-- The first word of a block that names a route: its position and slot (R472). -/
def Block.namer (b : Block) (k : Nat) : Nat × Nat :=
  let n := ((List.range 128).find? (fun n => bit (b.word (n / 16) (n % 16)) 95 && (namedRoutes (rawOf (b.word (n / 16) (n % 16)))).contains k)).getD 0
  (n / 16, n % 16)

/-- What a word breaks where it stands: reasons and bytes of the word (R473). Its opcode is held against the kind that its record expects
(R116, R123). -/
def Image.wordProblems (m : Image) (b : Block) (p : Nat) (r : RawWord) (entry : Nat → Nat) (subs : Nat) : List (Nat × Nat) :=
  let isl := 0xD0 ≤ r.op && r.op ≤ 0xD5
  let port := m.portOf b.idx p
  r.problems ++ prob (opAssigned r.op && !opKindOk r.op (bits (b.recFlags p) 1 0)) 2 7 ++
  prob (isl && port.isNone) 12 7 ++
  prob (isl && port.isSome && destPort r.d0 && some (bits r.d0 6 3 - 10) != port) 11 4 ++
  prob ((namedRoutes r).any (fun n => !m.routeOk b.idx p (b.route n))) 13 12 ++
  (match descConst r with
   | some k => prob (!descOk r.op (b.const p k) entry subs) 14 (if r.op == 0xA8 || r.op == 0xA9 || r.op == 0xE0 then 5 else 6)
   | none => [])

/-- The refusal of a word. -/
def Image.wordErr (m : Image) (b : Block) (entry : Nat → Nat) (subs p n : Nat) : Option LoadErr :=
  let v := b.word p n
  let e : LoadErr := { cause := 0x43, block := b.idx, ctx := b.ctx, pos := p, slot := n }
  if v = 0 then none
  else if !bit v 95 then
    some { e with reason := 4, offset := b.off + wordOff p n + ((List.range 12).find? (fun i => v / 256 ^ i % 256 != 0)).getD 0 }
  else
    let r := rawOf v
    match lowestProblem (m.wordProblems b p r entry subs) with
    | (0, _) => none
    | (13, _) =>
      let k := ((namedRoutes r).find? (fun k => !m.routeOk b.idx p (b.route k))).getD 0
      some { e with pos := (b.namer k).1, slot := (b.namer k).2, reason := 13, offset := b.off + 1872 + 4 * k + routeByte (b.route k) }
    | (c, o) => some { e with reason := c, offset := b.off + wordOff p n + o }

/-- Check 4 over a block. -/
def Image.wordsErr (m : Image) (entry : Nat → Nat) (subs : Nat) (b : Block) : Option LoadErr :=
  firstErr (fun k => m.wordErr b entry subs (k / 16) (k % 16)) (List.range 128)

/-! ### Records (check 5, R474) -/

/-- What a record breaks. -/
def Block.recProblems (b : Block) (p : Nat) : List (Nat × Nat) :=
  let o := recOff p
  let f := b.recFlags p
  let rot := le b.bytes (o + 32) 2
  prob (bits f 1 0 != 3 && bits f 1 0 != posKind p) 1 35 ++ prob (bits f 1 0 == 3) 2 35 ++
  prob (le b.bytes (o + 31) 1 != 0) 3 31 ++ prob (bits f 7 4 != 0) 3 35 ++ prob (le b.bytes (o + 36) 4 != 0) 3 36 ++
  prob (rot &&& (rot + 1) != 0) 4 32

/-- The refusal of a record; offsets within a record reach past the twelve bytes of a word. -/
def Block.recErr (b : Block) (p : Nat) : Option LoadErr :=
  match b.recProblems p with
  | [] => none
  | l =>
    let r := l.foldl (fun m q => if q.1 < m then q.1 else m) 16
    let o := (l.filter (fun q => q.1 == r)).foldl (fun m q => min m q.2) 40
    some { cause := 0x44, block := b.idx, ctx := b.ctx, pos := p, reason := r, offset := b.off + recOff p + o }

/-- The elements that the blocks flag as phase element: block index and position, each once. -/
def phaseFlags (l : List Block) : List (Nat × Nat) :=
  (l.flatMap (fun b => ((List.range 8).filter (fun p => bit (b.recFlags p) 3)).map (fun p => (b.idx, p)))).eraseDups

/-- A refusal at a phase-element flag: the flag of position p of the first block that satisfies f, in block order. -/
def flagErr (l : List Block) (f : Block → Bool) (p reason : Nat) : LoadErr :=
  match l.find? f with
  | some b => { cause := 0x44, block := b.idx, ctx := b.ctx, pos := p, reason := reason, offset := b.off + recOff p + 35 }
  | none => { cause := 0x44, reason := reason }

/-- Check 5: the records, then the phase element; at WLOAD it must be the working's. A refusal names the lowest flag in the relation: the first
that is set, or the first of the claim, or, where none is set, the first of the image (R472, R474). -/
def Image.recordsErr (_m : Image) (l : List Block) (own : Option (Nat × Nat)) : Option LoadErr :=
  (firstErr (fun b => firstErr b.recErr (List.range 8)) l).or
  (match phaseFlags l with
   | [q] =>
     (if l.any (fun b => b.idx == q.1 && !bit (b.recFlags q.2) 3) then some (flagErr l (fun b => b.idx == q.1) q.2 6) else none).or
     (match own with
      | some o => if o = q then none else some (flagErr l (fun b => b.idx == q.1) q.2 7)
      | none => none)
   | [] => some (flagErr l (fun _ => true) 0 5)
   | q :: _ => some (flagErr l (fun b => b.idx == q.1 && bit (b.recFlags q.2) 3) q.2 5))

/-! ### Race declarations (check 7, R235, R236, R509) -/

/-- Declaration n, and its fields. -/
def Image.decl (m : Image) (n : Nat) : Nat := le m.bytes (m.raceOff + 16 * n) 16
def dcEnt (v : Nat) : Nat := bits v 7 0
def dcPos (v : Nat) : Nat := bits v 10 8
def dcWrites (v : Nat) : Bool := bit v 11
def dcNext (v : Nat) : Nat := bits v 31 16
def dcLo (v : Nat) : Nat := bits v 63 32
def dcHi (v : Nat) : Nat := bits v 95 64
def dcChain (v : Nat) : Nat := bits v 111 96

/-- What a declaration breaks by itself: reasons 1 and 2, and 3 for its next field. -/
def Image.declErr (m : Image) (entry : Nat → Nat) (n : Nat) : Option LoadErr :=
  let v := m.decl n
  let e : LoadErr := { cause := 0x46, offset := m.raceOff + 16 * n }
  if bits v 15 14 ≠ 0 then some { e with reason := 1, offset := e.offset + 1 }
  else if dcHi v < dcLo v then some { e with reason := 1, offset := e.offset + 4 }
  else if bits v 127 112 ≠ 0 then some { e with reason := 1, offset := e.offset + 14 }
  else if entSpace (entry (dcEnt v)) = 0 then some { e with reason := 2 }
  else if posKind (dcPos v) = 0 then some { e with reason := 2, offset := e.offset + 1 }
  else if dcNext v ≠ 0xFFFF && m.races ≤ dcNext v then some { e with reason := 3, offset := e.offset + 2 }
  else none

/-- The declarations that follow from an index, with fuel; none for a chain that names no declaration or does not end. -/
def Image.declChain (m : Image) : Nat → Nat → Option (List Nat)
  | 0, n => if n = 0xFFFF then some [] else none
  | f + 1, n => if n = 0xFFFF then some [] else if m.races ≤ n then none else (Image.declChain m f (dcNext (m.decl n))).map (n :: ·)

/-- A declaration of an element: its index, the position that makes the accesses, and the record. -/
structure Decl where
  idx : Nat
  ctx : Nat
  block : Nat
  pos : Nat
  v : Nat

/-- The entries that the slots of a position name through a descriptor. -/
def Block.names (b : Block) (p : Nat) : List Nat :=
  ((List.range 16).filterMap (fun n =>
    let v := b.word p n
    if !bit v 95 then none
    else
      let r := rawOf v
      if (0xB0 ≤ r.op && r.op ≤ 0xB2) || (0xC0 ≤ r.op && r.op ≤ 0xCA) then (descConst r).map (fun k => bits (b.const p k) 7 0) else none)).eraseDups

/-- The declarations of a block: its own, then the defaults of entries that a position names and has none for. -/
def Image.blockDecls (m : Image) (entry : Nat → Nat) (b : Block) : List Decl :=
  let own := ((m.declChain m.races b.declared).getD []).map (fun n => (⟨n, b.ctx, b.idx, dcPos (m.decl n), m.decl n⟩ : Decl))
  own ++ [3, 7].flatMap (fun p => (b.names p).filterMap (fun n =>
    let k := entDecl (entry n)
    if own.any (fun d => d.pos == p && dcEnt d.v == n) || k = 0xFFFF || m.races ≤ k then none
    else some ⟨k, b.ctx, b.idx, p, m.decl k⟩))

/-- The byte ranges of a declaration: a space (0 virtual, 1 + package for a peer, or a window) and the first and end address. Virtual spaces
meet one another; a tile-SRAM range lies in its tile. -/
def declRanges (w : Working) (entry : Nat → Nat) (d : Decl) : List (Nat × Nat × Nat) :=
  let r := entry (dcEnt d.v)
  let size := entSize r
  (usedBases r).map (fun b =>
    if entSpace r = 2 then
      let t := if entOwn r then tileOf (elemOfBlock w d.block d.pos) else w.tileAt (bits b.1 28 21)
      (0, windowAddr t (bits b.1 20 0) + dcLo d.v * size, windowAddr t (bits b.1 20 0) + dcHi d.v * size)
    else (if entSpace r = 3 then 1 + entPkg r else 0, b.1 + dcLo d.v * size, b.1 + dcHi d.v * size))

/-- The lowest address at which the ranges of two declarations meet. -/
def rangesMeet (a b : List (Nat × Nat × Nat)) : Option Nat :=
  (a.flatMap (fun x => b.filterMap (fun y =>
    if x.1 = y.1 && max x.2.1 y.2.1 < min x.2.2 y.2.2 then some (max x.2.1 y.2.1) else none))).foldl (fun m v => match m with
      | none => some v
      | some k => some (min k v)) none

/-- An overlap: both declarations, the context and the lowest address. -/
structure Overlap where
  first : Nat
  second : Nat
  ctx : Nat
  va : Nat

/-- The overlaps of one declaration with later ones. -/
def overlapsOf (w : Working) (entry : Nat → Nat) (d : Decl) (l : List Decl) : List Overlap :=
  l.filterMap (fun e =>
    if (d.block, d.pos) = (e.block, e.pos) || !(dcWrites d.v || dcWrites e.v) || (dcChain d.v = dcChain e.v && dcChain d.v ≠ 0xFFFF) then none
    else (rangesMeet (declRanges w entry d) (declRanges w entry e)).map (fun a => ⟨d.idx, e.idx, d.ctx, a⟩))

/-- All overlaps of a list, in order of the first member. -/
def overlapsIn (w : Working) (entry : Nat → Nat) : List Decl → List Overlap
  | [] => []
  | d :: r => overlapsOf w entry d r ++ overlapsIn w entry r

/-- The overlaps of an image, context by context. -/
def Image.overlaps (m : Image) (w : Working) (entry : Nat → Nat) (l : List Block) : List Overlap :=
  (List.range 4).flatMap (fun c => overlapsIn w entry ((l.filter (fun b => b.ctx == c)).flatMap (m.blockDecls entry)))

/-- Check 7 but for its overlaps: the declarations, then the chains. -/
def Image.declsErr (m : Image) (entry : Nat → Nat) (l : List Block) : Option LoadErr :=
  (firstErr (m.declErr entry) (List.range m.races)).or
  (firstErr (fun b => if (m.declChain m.races b.declared).isNone then
    some { cause := 0x46, block := b.idx, ctx := b.ctx, reason := 3, offset := b.off + 8 } else none) l)

/-- An overlap under the basic policy. -/
def Image.overlapErr (m : Image) (o : Overlap) : LoadErr :=
  { cause := 0x46, ctx := o.ctx, reason := 4, offset := m.raceOff + 16 * max o.first o.second, va := o.va }

/-- Checks 3 to 5 and 7 of some blocks of an image (R369): what a launch and a WLOAD share. -/
def Image.blockChecks (m : Image) (l : List Block) (entry : Nat → Nat) (subs : Nat) (own : Option (Nat × Nat)) : Option LoadErr :=
  ((m.blocksErr none l).or (firstErr (m.wordsErr entry subs) l)).or (m.recordsErr l own)

end Sys2Proof.Machine
end

