-- ==== Sys2Proof/Machine/Reading.lean ====
section
/-! DEFINITION. The reading of images from memory (R369, R381, R450, R511), and the reload of a configuration word from the image that committed
its context (R450). -/

namespace Sys2Proof.Machine

open Sys2Proof

/-! ### Reading -/

/-- What a reader does: it places an address, and it makes a good sector of one with an uncorrectable error, or nothing (R511). -/
structure Reader where
  find : State → Nat → Touch
  bad : State → Nat → Option State

/-- Bytes read, a sector that stays bad, or a refused address; each with the state that the reading leaves (R390). -/
inductive Span
  | ok (l : List Byte) (s : State)
  | bad (pa : Nat) (s : State)
  | trap (i : TrapInfo) (s : State)

/-- n sectors from an address. -/
def State.readSectors (s : State) (r : Reader) : Nat → Nat → Span
  | 0, _ => .ok [] s
  | n + 1, va =>
    match r.find s va with
    | .ok pa s1 =>
      (match (if s1.isBad pa then r.bad s1 pa else some s1) with
      | none => .bad pa s1
      | some s2 => match State.readSectors s2 r n (va + 32) with
        | .ok l s3 => .ok (s2.bytesAt pa 32 ++ l) s3
        | e => e)
    | .trap i s1 => .trap i s1
    | .stall s1 => .bad va s1
    | .noMemory _ => .bad va s

/-- n bytes from an address. -/
def State.readSpan (s : State) (r : Reader) (va n : Nat) : Span :=
  match s.readSectors r ((va % 32 + n + 31) / 32) (va / 32 * 32) with
  | .ok l s' => .ok (sliceB l (va % 32) n) s'
  | e => e

/-- An image: its header, and the rest of it where the header is sound. -/
def State.readImage (s : State) (r : Reader) (va : Nat) : Span :=
  match s.readSpan r va 64 with
  | .ok l s1 => if (imageOf l).fieldErr.isSome then .ok l s1 else s1.readSpan r va (imageOf l).length
  | e => e

/-- The place of an address for the banksman and the loader: they present identity 0, and a window address is refused (log entry 25). -/
def State.loadFind (d asid : Nat) (s : State) (va : Nat) : Touch :=
  if 2 ^ 56 ≤ va then .trap (transTrap va .read { cause := 0x30, ast := true, wide := true }) s
  else if inWindow va then .trap (transTrap va .read { cause := 0x36 }) s
  else match s.translate ⟨none, none, d⟩ asid va .read 0 with
    | .ok pa _ s => .ok pa s
    | .refused r => if r.cause = 0x35 then .stall s else .trap (transTrap va .read r) s
    | .miss => .stall s

/-- A reader that takes the bytes as they stand, before a load. -/
def peekReader (d asid : Nat) : Reader := ⟨State.loadFind d asid, fun s _ => some s⟩

/-! ### Reload of a configuration word (R450) -/

/-- The block of an element's claim in a context, reloaded from the image that committed the context; none where a sector of it is bad, its CRC
fails or it does not stand there. -/
def State.reload (s : State) (e ctx : Nat) : Option Block :=
  let h := s.owner e
  let w := s.work h
  match (w.ctxFrom.find? (fun p => p.1 == ctx)).map (fun p => p.2) with
  | none => none
  | some va =>
    let r : Reader := ⟨State.loadFind w.die w.asid, fun _ _ => none⟩
    match s.readSpan r va 64 with
    | .ok l _ =>
      let m := imageOf l
      (List.range m.blocks).findSome? (fun n => match s.readSpan r (va + m.blockOff + 1936 * n) 1936 with
        | .ok b _ =>
          let k : Block := { ({ m with bytes := b, blockOff := 0 } : Image).block 0 with off := m.blockOff + 1936 * n }
          if k.ctx = ctx && k.idx = blockIndex w e && crcOk b 0 then some k else none
        | _ => none)
    | _ => none

/-- A record with one word of it as another record has it: slot word 0 to 15, 16 + n for constant kn, else every other word. -/
def ElemCfg.reword (c d : ElemCfg) (k : Nat) : ElemCfg :=
  if k < 16 then { c with slots := SMap.set 0 c.slots k (SMap.get 0 d.slots k) }
  else if k < 20 then { c with k := SMap.set 0 c.k (k - 16) (SMap.get 0 d.k (k - 16)) }
  else { c with conflict := d.conflict, rotate := d.rotate, preds := d.preds, sink := d.sink, phase := d.phase }

/-- A word of the active context of an element as its image holds it. -/
def State.reloaded (s : State) (e k : Nat) (b : Block) : State :=
  let x := s.claim (e / 8)
  let c := (s.elem e).active.toNat
  let o := x.block c
  let o := { o with elems := SMap.set {} o.elems (posOf e) ((o.elem (posOf e)).reword (b.cfg.elem (posOf e)) k), routes := if k < 20 then o.routes else b.cfg.routes }
  s.setClaim (e / 8) { x with blocks := SMap.set {} x.blocks c o }

end Sys2Proof.Machine
end

