-- ==== Sys2Proof/Machine/ForemanMem.lean ====
section
/-! DEFINITION. Foreman loads, stores, atomics, FENCE and WAITA (R323 to R327). A thread's accesses perform at their
instruction, in program order, so every fence finds the accesses before it performed. -/

namespace Sys2Proof.Machine

open Sys2Proof

/-- ea := ra + sext(imm14). -/
def effAddr (x : Thread) (ra : Reg) (imm : BitVec 14) : DWord := x.reg ra + imm.signExtend 64

/-- A load of n bytes, extended by f (R323). -/
def State.load (s : State) (rd ra : Reg) (imm : BitVec 14) (n : Nat) (f : Nat → DWord) : Out :=
  s.onThread [rd, ra] (fun t x =>
    s.access t (effAddr x ra imm) n (fun s t va => s.touchRead t va .read) (fun a s =>
      s.finish t ((s.thread t).setReg rd (f (s.word a n)))))

/-- A store of the low n bytes of rd (R323). -/
def State.storeReg (s : State) (rd ra : Reg) (imm : BitVec 14) (n : Nat) : Out :=
  s.onThread [rd, ra] (fun t x =>
    s.access t (effAddr x ra imm) n (fun s t va => s.touchWrite t va .write) (fun a s =>
      let s' := s.store x.bound a (toBytes n (x.reg rd).toNat) false
      s'.finish t (s'.thread t)))

/-- LD.n8. -/
def execLdN8 (rd ra : Reg) (imm : BitVec 14) (s : State) : Out := s.load rd ra imm 1 (fun v => BitVec.ofNat 64 v)
/-- LD.s8. -/
def execLdS8 (rd ra : Reg) (imm : BitVec 14) (s : State) : Out := s.load rd ra imm 1 (sext64 8)
/-- LD.n16. -/
def execLdN16 (rd ra : Reg) (imm : BitVec 14) (s : State) : Out := s.load rd ra imm 2 (fun v => BitVec.ofNat 64 v)
/-- LD.s16. -/
def execLdS16 (rd ra : Reg) (imm : BitVec 14) (s : State) : Out := s.load rd ra imm 2 (sext64 16)
/-- LD.n32. -/
def execLdN32 (rd ra : Reg) (imm : BitVec 14) (s : State) : Out := s.load rd ra imm 4 (fun v => BitVec.ofNat 64 v)
/-- LD.s32. -/
def execLdS32 (rd ra : Reg) (imm : BitVec 14) (s : State) : Out := s.load rd ra imm 4 (sext64 32)
/-- LD.b64. -/
def execLdB64 (rd ra : Reg) (imm : BitVec 14) (s : State) : Out := s.load rd ra imm 8 (fun v => BitVec.ofNat 64 v)

/-- ST.b8. -/
def execStB8 (rd ra : Reg) (imm : BitVec 14) (s : State) : Out := s.storeReg rd ra imm 1
/-- ST.b16. -/
def execStB16 (rd ra : Reg) (imm : BitVec 14) (s : State) : Out := s.storeReg rd ra imm 2
/-- ST.b32. -/
def execStB32 (rd ra : Reg) (imm : BitVec 14) (s : State) : Out := s.storeReg rd ra imm 4
/-- ST.b64. -/
def execStB64 (rd ra : Reg) (imm : BitVec 14) (s : State) : Out := s.storeReg rd ra imm 8

/-! ### Atomics (R325) -/

/-- An atomic of a thread on a word, with its new value and whether that is exceptional, from the old word. -/
def State.threadAmo (s : State) (rd ra rb : Reg) (f : Thread → Nat → Nat × Bool) (flag : Thread → Nat → Bool) : Out :=
  s.onThread [rd, ra, rb] (fun t x =>
    s.access t (x.reg ra) 4 (fun s t va => match s.touchWrite t va .atomic with
      | .ok a s' => if s'.isBad a then .stall s' else .ok a s'
      | r => r) (fun a s =>
      let w := s.word a 4
      let n := f x w
      let s1 := s.store x.bound a (toBytes 4 n.1) n.2
      let s2 := if n.2 && x.bound ≠ 0 then s1.createPoison x.bound (threadSource t) (quadOfThread t) else s1
      let y := s2.thread t
      s2.finish t ({ y with f := flag y w }.setReg rd (BitVec.ofNat 64 w))))

/-- An atomic of R227 but CAS: f is unchanged. -/
def State.threadAmoOp (s : State) (rd ra rb : Reg) (aop : Nat) : Out :=
  s.threadAmo rd ra rb (fun x w => amoNew aop w ((x.reg rb).toNat % 2 ^ 32)) (fun x _ => x.f)

/-- AMO.ADD. The scope and ORD order accesses only (R251). -/
def execForemanAmoAdd (rd ra rb : Reg) (_ord : Ord) (_sc : AScope) (s : State) : Out := s.threadAmoOp rd ra rb 0
/-- AMO.AND. -/
def execForemanAmoAnd (rd ra rb : Reg) (_ord : Ord) (_sc : AScope) (s : State) : Out := s.threadAmoOp rd ra rb 1
/-- AMO.OR. -/
def execForemanAmoOr (rd ra rb : Reg) (_ord : Ord) (_sc : AScope) (s : State) : Out := s.threadAmoOp rd ra rb 2
/-- AMO.XOR. -/
def execForemanAmoXor (rd ra rb : Reg) (_ord : Ord) (_sc : AScope) (s : State) : Out := s.threadAmoOp rd ra rb 3
/-- AMO.MINS. -/
def execForemanAmoMins (rd ra rb : Reg) (_ord : Ord) (_sc : AScope) (s : State) : Out := s.threadAmoOp rd ra rb 4
/-- AMO.MAXS. -/
def execForemanAmoMaxs (rd ra rb : Reg) (_ord : Ord) (_sc : AScope) (s : State) : Out := s.threadAmoOp rd ra rb 5
/-- AMO.MINU. -/
def execForemanAmoMinu (rd ra rb : Reg) (_ord : Ord) (_sc : AScope) (s : State) : Out := s.threadAmoOp rd ra rb 6
/-- AMO.MAXU. -/
def execForemanAmoMaxu (rd ra rb : Reg) (_ord : Ord) (_sc : AScope) (s : State) : Out := s.threadAmoOp rd ra rb 7
/-- AMO.FADD. -/
def execForemanAmoFadd (rd ra rb : Reg) (_ord : Ord) (_sc : AScope) (s : State) : Out := s.threadAmoOp rd ra rb 8
/-- AMO.FMIN. -/
def execForemanAmoFmin (rd ra rb : Reg) (_ord : Ord) (_sc : AScope) (s : State) : Out := s.threadAmoOp rd ra rb 9
/-- AMO.FMAX. -/
def execForemanAmoFmax (rd ra rb : Reg) (_ord : Ord) (_sc : AScope) (s : State) : Out := s.threadAmoOp rd ra rb 10
/-- AMO.XCHG. -/
def execForemanAmoXchg (rd ra rb : Reg) (_ord : Ord) (_sc : AScope) (s : State) : Out := s.threadAmoOp rd ra rb 11

/-- AMO.CAS: the expected value is rd[31:0]; f := 1 where it fails. -/
def execForemanAmoCas (rd ra rb : Reg) (_ord : Ord) (_sc : AScope) (s : State) : Out :=
  s.threadAmo rd ra rb
    (fun x w => (if w = (x.reg rd).toNat % 2 ^ 32 then (x.reg rb).toNat % 2 ^ 32 else w, false))
    (fun x w => w != (x.reg rd).toNat % 2 ^ 32)

/-! ### FENCE and WAITA (R326, R327) -/

/-- A fence of the current thread: every access before it has performed. -/
def State.threadFence (s : State) : Out := s.finish s.cur.thread (s.thread s.cur.thread)

/-- FENCE.full. -/
def execFenceFull (_sc : Scope) (s : State) : Out := s.threadFence
/-- FENCE.acq. -/
def execFenceAcq (_sc : Scope) (s : State) : Out := s.threadFence
/-- FENCE.rel. -/
def execFenceRel (_sc : Scope) (s : State) : Out := s.threadFence

/-- A thread put to wait, in the order of its core's waits. -/
def State.sleep (s : State) (t : Nat) (w : Wait) : State :=
  let s' := s.modThread t (fun x => { x with wait := w, since := s.age, waitAt := (s.quad (quadOfThread t)).cyc })
  { s' with age := s'.age + 1 }

/-- The read of a WAITA: the word equals the value and the thread goes on, or it sleeps (R327). -/
def State.waitWord (s : State) (t rd : Nat) (ea value : Nat) : Out :=
  s.access t (BitVec.ofNat 64 ea) 4 (fun s t va => s.touchRead t va .read) (fun a s =>
    if s.word a 4 = value then
      s.finish t ({ s.thread t with wait := .none }.setReg rd (BitVec.ofNat 64 value))
    else .next (if (s.thread t).wait == .waita ea (BitVec.ofNat 32 value) rd then s
      else s.sleep t (.waita ea (BitVec.ofNat 32 value) rd)))

/-- WAITA. -/
def execWaita (rd ra rb : Reg) (_sc : Scope) (s : State) : Out :=
  s.onThread [rd, ra, rb] (fun t x => s.waitWord t rd (x.reg ra).toNat ((x.reg rb).toNat % 2 ^ 32))

/-- A waiting WAITA reads its word again after a write to it has performed (R327). -/
def execWaitaWake (t : Nat) (s : State) : Out :=
  match s.waitOf t with
  | .waita ea value rd => s.waitWord t rd ea value.toNat
  | _ => .next s

end Sys2Proof.Machine
end

