-- ==== Sys2Proof/Machine/ForemanCtl.lean ====
section
/-! DEFINITION. Foreman control flow: branches (R328, R329), register blocks (R312, R313, R520, R521), traps and the return from
one (R330 to R332, R433), WFI (R333), and the events that end a wait. -/

namespace Sys2Proof.Machine

open Sys2Proof

/-! ### Branches -/

/-- The target a + 4 × off22. -/
def branchTarget (x : Thread) (off : BitVec 22) : DWord := x.pc + off.signExtend 64 * 4

/-- BC. -/
def execBc (cond : Cond) (off : BitVec 22) (s : State) : Out :=
  s.onThread [] (fun t x => .next (s.setThread t (if condHolds x cond then { x with pc := branchTarget x off } else x.advance 4)))

/-- BL: g1 takes the address of the next word. -/
def execBl (off : BitVec 22) (s : State) : Out :=
  s.onThread [] (fun t x => .next (s.setThread t { x.setReg 1 (x.pc + 4) with pc := branchTarget x off }))

/-- The word of ENTRY with a label (R130, R329). -/
def entryWord (label : BitVec 8) : Nat := 0x8C000000 + label.toNat

/-- JR: every trap comes before rd is written (R329). -/
def execJr (rd ra : Reg) (label : BitVec 8) (s : State) : Out :=
  s.onThread [rd, ra] (fun t x =>
    s.access t (x.reg ra) 4 (fun s t va => s.fetchAt t va) (fun a s =>
      if s.word a 4 ≠ entryWord label then
        .next (s.trapHere t { cause := 0x03, detail := (x.reg ra).toNat % 2 ^ 32 })
      else .next (s.setThread t { (s.thread t).setReg rd (x.pc + 4) with pc := x.reg ra })))

/-- ENTRY in line. -/
def execEntry (_label : BitVec 8) (s : State) : Out := s.onThread [] (fun t x => s.finish t x)

/-! ### Register blocks -/

/-- The blocks that a MASK names; bit n - 1 of the field names block n. -/
def maskBlocks (mask : BitVec 7) : List Nat := (List.range 8).filter (fun n => n ≠ 0 && mask.getLsbD (n - 1))

/-- The eight registers of a block. -/
def Thread.blockRegs (x : Thread) (n : Nat) : List DWord := (List.range 8).map (fun i => x.reg (8 * n + i))

/-- A block's registers written. -/
def Thread.setBlock (x : Thread) (n : Nat) (l : List DWord) : Thread :=
  ((List.range 8).zip l).foldl (fun x p => x.setReg (8 * n + p.1) p.2) x

/-- held bit n set or cleared. -/
def heldSet (h : BitVec 8) (n : Nat) (v : Bool) : BitVec 8 :=
  if v then h ||| BitVec.ofNat 8 (2 ^ n) else h &&& ~~~BitVec.ofNat 8 (2 ^ n)

/-- A frame pushed and its blocks bound, every register zero; f := 0 (R312). -/
def Thread.bindBlocks (x : Thread) (mask : BitVec 7) : Thread :=
  let l := maskBlocks mask
  let fr : Frame := ⟨mask, l.map (fun n => (n, if x.held.getLsbD n then some (x.blockRegs n) else none))⟩
  let y := l.foldl (fun y n => { y.setBlock n (List.replicate 8 0) with held := heldSet y.held n true }) x
  { y with frames := fr :: x.frames, f := false, wait := .none }

/-- The top frame popped: each block returned and its earlier binding restored (R312). -/
def Thread.popFrame (x : Thread) : Thread :=
  match x.frames with
  | [] => x
  | fr :: r =>
    let y := fr.old.foldl (fun y p => match p.2 with
      | some l => y.setBlock p.1 l
      | none => { y.setBlock p.1 (List.replicate 8 0) with held := heldSet y.held p.1 false }) x
    { y with frames := r }

/-- Blocks that an acquisition needs. -/
def maskCount (mask : BitVec 7) : Nat := (maskBlocks mask).length

/-- Blocks of a core's pool that RBREL has freed in the present cycle: they can be taken in the next (R313). -/
def State.justFreed (s : State) (core : Nat) : Nat :=
  let q := s.quad core
  if q.relAt = some q.cyc then q.relN else 0

/-- The core pool has the blocks that a mask names. -/
def State.poolHas (s : State) (t : Nat) (mask : BitVec 7) : Bool := maskCount mask + s.justFreed (t / 4) ≤ s.freePool (t / 4)

/-- Blocks freed by a thread's RBREL noted. -/
def State.noteFreed (s : State) (t n : Nat) : State :=
  s.modQuad (t / 4) (fun q => { q with relN := if q.relAt = some q.cyc then q.relN + n else n, relAt := some q.cyc })

/-- Another thread of the core has waited longer in RBACQ (R313). -/
def State.olderRbacq (s : State) (t : Nat) : Bool :=
  let me := s.thread t
  (List.range 4).any (fun i =>
    let u := t / 4 * 4 + i
    match (s.thread u).wait with
    | .rbacq _ => u ≠ t && (me.wait == .none || (s.thread u).since < me.since)
    | _ => false)

/-- A thread that waits in RBACQ can take its blocks now, as the oldest of its core. -/
def State.grantable (s : State) (t : Nat) : Option (BitVec 7) :=
  match s.waitOf t with
  | .rbacq m => if s.poolHas t (BitVec.ofNat 7 m) && !s.olderRbacq t then some (BitVec.ofNat 7 m) else none
  | _ => none

/-- Waiting threads of a core below one that take their blocks in this cycle take them before it (R313). -/
def State.grantBelow (s : State) (t : Nat) : State :=
  forN (fun i s =>
    let u := t / 4 * 4 + i
    match s.grantable u with
    | some m => s.setThread u (((s.thread u).bindBlocks m).advance 4)
    | none => s) (t % 4) 0 s

/-- RBACQ, the stall form (R312). -/
def execRbacq (mask : BitVec 7) (s : State) : Out :=
  s.onThread [] (fun t x =>
    if mask = 0 then .next (s.trapHere t illegalTrap)
    else if x.frames.length = 16 then .next (s.trapHere t (maskTrap 3 mask.toNat))
    else
      let s := s.grantBelow t
      if s.poolHas t mask then s.finish t (x.bindBlocks mask) else .next (s.sleep t (.rbacq mask.toNat)))

/-- RBACQ.try: f := 1 where the frames are full or the pool is short. -/
def execRbacqTry (mask : BitVec 7) (s : State) : Out :=
  s.onThread [] (fun t x =>
    if mask = 0 then .next (s.trapHere t illegalTrap)
    else
      let s := s.grantBelow t
      if x.frames.length = 16 || !s.poolHas t mask then s.finish t { x with f := true } else s.finish t (x.bindBlocks mask))

/-- RBREL. -/
def execRbrel (mask : BitVec 7) (s : State) : Out :=
  s.onThread [] (fun t x =>
    if mask = 0 then .next (s.trapHere t illegalTrap)
    else match x.frames with
      | fr :: _ => if fr.mask = mask then (s.noteFreed t (maskCount mask)).finish t x.popFrame else .next (s.trapHere t (maskTrap 2 mask.toNat))
      | [] => .next (s.trapHere t (maskTrap 2 mask.toNat)))

/-- A thread may issue: it is bound to a resident working, or is an assay thread of a started die, and it waits for nothing, or in a stall form of
TQPUSH that finds room (R309, R344). -/
def State.mayIssue (s : State) (t : Nat) : Bool :=
  let x := s.thread t
  (match x.wait with
  | .none => true
  | .tqpush n => s.taskRoom (dieOfThread t) (t / 4) n || !s.whole (t / 4) n
  | _ => false) && !x.stopped &&
  (if isAssay t then (s.die (dieOfThread t)).started
   else x.bound != 0 && (s.work x.bound).live)

/-- A thread of the core below this one may still issue in the present cycle, so that what it acquires would come first (R313). -/
def State.lowerIssues (s : State) (t : Nat) : Bool :=
  let q := s.quad (t / 4)
  q.issued != some q.cyc && (List.range (t % 4)).any (fun i => s.mayIssue (t / 4 * 4 + i))

/-- A waiting RBACQ takes its blocks, oldest first (R313). -/
def execRbacqGrant (t : Nat) (s : State) : Out :=
  match s.grantable t with
  | some m => if s.lowerIssues t then .next s else s.finish t ((s.thread t).bindBlocks m)
  | none => .next s

/-- A stalled RBACQ that has waited 2^WIN cycles traps (R521). -/
def execRbacqStallTimeout (t : Nat) (s : State) : Out :=
  let x := s.thread t
  match s.waitOf t with
  | .rbacq m =>
    if x.canEn && 2 ^ x.canWin.toNat ≤ (s.quad (quadOfThread t)).cyc - x.waitAt then
      .next ((s.setThread t { x with wait := .none }).trapHere t (maskTrap 4 m))
    else .next s
  | _ => .next s

/-! ### Traps -/

/-- A word that names no instruction (R134). -/
def execIllegalInstruction (_w : Word) (s : State) : Out := .next (s.trapHere s.cur.thread illegalTrap)

/-- TRAP with a code below 0x2000: cause 0x06 with TRAPPC past the TRAP (R332). -/
def execTrap (code : BitVec 13) (s : State) : Out :=
  s.onThread [] (fun t x => .next (s.raiseTrap t (x.pc + 4) { cause := 0x06, arg := code.toNat }))

/-- TRAP with a code 0x2000 or above: a call to system software, at the user level (R332); code 0x2000 ends the working, with g4
its end value (R374). -/
def execTrapSyscall (code : BitVec 13) (s : State) : Out :=
  s.onThread [] (fun t x =>
    if isAssay t then .next (s.raiseTrap t (x.pc + 4) { cause := 0x06, arg := 0x2000 + code.toNat })
    else
      let s := s.sleep t (.syscall (0x2000 + code.toNat))
      .next (if code = 0 then s.modWork x.bound (fun w => { w with ending := some (x.reg 4) }) else s))

/-- System code has completed a call: the thread resumes after its TRAP with g4 to g7 as left (R332). -/
def execSyscallReturn (t : Nat) (g4 g5 g6 g7 : DWord) (s : State) : Out :=
  let x := s.thread t
  match s.waitOf t with
  | .syscall c =>
    if c = 0x2000 then .next s
    else s.finish t { (((x.setReg 4 g4).setReg 5 g5).setReg 6 g6).setReg 7 g7 with wait := .none }
  | _ => .next s

/-- The oldest held trap of a thread is taken (R330, R433). -/
def State.takeHeld (s : State) (t : Nat) : State :=
  match (s.thread t).heldTraps with
  | [] => s
  | i :: r =>
    let s := s.modThread t (fun x => { x with heldTraps := r })
    s.takeTrap t (s.thread t).pc i

/-- ERET: PC := TRAPPC, INTRAP := 0, and a held trap is then taken at once. -/
def execEret (s : State) : Out :=
  s.onThread [] (fun t x => .next ((s.setThread t x.leaveTrap).takeHeld t))

/-- A wait that a trap from the working abandons: TRAPPC names the waiting instruction (R330). WSTOP and a call to system software
are not among them; RVEND, which has no effect before it completes, is (log entry 18). -/
def Wait.abandoned : Wait → Bool
  | .syscall _ => false
  | .wstop _ => false
  | .rvbeg _ => false
  | .wload _ _ _ => false
  | .invr _ _ _ _ _ => false
  | _ => true

/-- A thread takes a trap of its working between instructions, while INTRAP is 0 (R330). -/
def execTrapTake (t : Nat) (s : State) : Out :=
  let x := s.thread t
  .next (if !x.intrap && x.wait.abandoned && !x.stopped && (isAssay t || (s.work x.bound).live) then s.takeHeld t else s)

/-! ### WFI (R333) -/

/-- The four conditions as bits, with the observations of R341; on an assay core
only the last can hold, while its die has an alert (R413). -/
def State.wfiBits (s : State) (t : Nat) : Nat :=
  let x := s.thread t
  let w := s.work x.bound
  let o := s.observable x.bound
  if x.bound = 0 then 8 * b2n !(s.die (dieOfThread t)).alerts.isEmpty
  else b2n (o && x.phaseEnded) + 2 * b2n (o && w.state == .idle) + 4 * b2n (o && w.state == .paused) + 8 * b2n (!w.report.isEmpty)

/-- WFI returns where a selected condition holds, with all four bits in rd. -/
def State.wfiTry (s : State) (t rd mask : Nat) : State :=
  let x := s.thread t
  let b := s.wfiBits t
  if b &&& mask = 0 then
    (if x.wait == .wfi rd mask then s else s.sleep t (.wfi rd mask))
  else
    let x := if bit b 0 then { x with phaseEnded := false } else x
    s.setThread t (({ x with wait := .none }.setReg rd (BitVec.ofNat 64 b)).advance 4)

/-- WFI. A mask of 0 is an illegal instruction. -/
def execWfi (rd : Reg) (mask : BitVec 4) (s : State) : Out :=
  if mask = 0 then .next (s.trapHere s.cur.thread illegalTrap)
  else s.onThread [rd] (fun t _ => .next (s.wfiTry t rd mask.toNat))

/-- A waiting WFI looks at its conditions again. -/
def execWfiWake (t : Nat) (s : State) : Out :=
  match s.waitOf t with
  | .wfi rd mask => .next (s.wfiTry t rd mask)
  | _ => .next s

end Sys2Proof.Machine
end

