-- ==== Sys2Proof/Machine/SysRegs.lean ====
section
/-! DEFINITION. System registers (R7, R9, R10, R316): the list of numbers, every read with its RC fields, every write with its clamps,
SYSR and SYSW, and the events that are reads and writes of registers. -/

namespace Sys2Proof.Machine

open Sys2Proof

/-! ### The list of registers -/

/-- Registers that every foreman thread has its own of (R316, R465, R471, R481, R492). -/
def threadReg (num : Nat) : Bool := num ≤ 0x00B || num == 0x010

/-- Registers of a die (R365, R385, R414, R429, R443, R444, R453, R454, R463, R500, R525). -/
def dieReg (num : Nat) : Bool :=
  num == 0x100 || num == 0x101 || num == 0x110 || (0x120 ≤ num && num ≤ 0x128) || (0x130 ≤ num && num ≤ 0x134) ||
  (0x138 ≤ num && num ≤ 0x13D)

/-- Registers that a program may write (R316, R465, R481). -/
def userReg (num : Nat) : Bool :=
  num == 0x000 || num == 0x001 || num == 0x003 || num == 0x007 || num == 0x009 || num == 0x00A || num == 0x010

/-- Registers that take an index. -/
def indexedReg (num : Nat) : Bool :=
  num == 0x010 || (0x121 ≤ num && num ≤ 0x125) || num == 0x127 || (0x139 ≤ num && num ≤ 0x13B)

/-- A value clamped to a range. -/
def clamp (lo hi v : Nat) : Nat := max lo (min hi v)

/-! ### Registers of a thread -/

/-- RVSTAT (R318). -/
def rvstat (w : Working) : DWord :=
  BitVec.ofNat 64 (regionDepth w + w.keeps.length * 2 ^ 3 + regionRetry w * 2 ^ 8)

/-- The element that MACSEL names; none where its INDEX names none of the working (R481). -/
def macElem (w : Working) (x : Thread) : Option Nat :=
  let i := x.macsel.toNat
  if i / 8 < w.width * w.height then some (elemOfBlock w (i / 8) (i % 8)) else none

/-- SCALE and SMODE of a TOUT's access: bits [7:0] of lane 1 of B and bit 26 of the descriptor (R274, R482). -/
def macScale (a : Access) : Nat := if a.op = 0xD4 then a.b.p.a1.toNat % 256 else 0
def macSmode (a : Access) : Bool := a.op == 0xD4 && bit a.desc.toNat 26

/-- MACEDIT (R481). -/
def State.maceditRead (s : State) (t : Nat) : DWord :=
  let x := s.thread t
  match (macElem (s.work x.bound) x).bind (fun e => (s.elem e).mac) with
  | none => 0
  | some a => BitVec.ofNat 64 (a.op + 2 ^ 8 + macScale a * 2 ^ 16 + b2n (macSmode a) * 2 ^ 24 + a.prg % 2 ^ 32 * 2 ^ 32)

/-- Macros whose PRG may be rewound (R282). -/
def rewindable (op : Nat) : Bool := op == 0xC2 || op == 0xC9 || op == 0xCA || op == 0xD2 || op == 0xD4

/-- A macro's access as a write of MACEDIT leaves it (R482). -/
def macEdited (a : Access) (v : Nat) : Access :=
  let a := if a.op = 0xD4 then
      { a with b := { a.b with p := { a.b.p with a1 := BitVec.ofNat 32 (a.b.p.a1.toNat / 256 * 256 + bits v 23 16) } },
               desc := BitVec.ofNat 32 (a.desc.toNat - b2n (bit a.desc.toNat 26) * 2 ^ 26 + b2n (bit v 24) * 2 ^ 26) }
    else a
  let n := bits v 63 32
  if rewindable a.op && n ≤ a.prg then
    let tr := a.trail.drop (a.prg - n)
    if a.op = 0xC9 then { a with prg := n, trail := tr, node := (tr.headD (a.node, false)).1 } else { a with prg := n }
  else a

/-- A write of MACEDIT (R482). -/
def State.maceditWrite (s : State) (t : Nat) (v : Nat) : State :=
  let x := s.thread t
  let w := s.work x.bound
  match macElem w x with
  | none => s
  | some e => match (s.elem e).mac with
    | none => s
    | some m =>
      if w.state = .paused then
        s.modElem e (fun y => { y with accs := y.accs.map (fun a => if a.seq = m.seq then macEdited a v else a) })
      else s

/-- The island of a relative index of a thread's working; none beyond its count (R316). -/
def State.islandOf (s : State) (t idx : Nat) : Option Nat :=
  let w := s.work (s.thread t).bound
  if w.islands && idx < w.tileCount then some (w.tileAt idx) else none

/-- A write of POISREC: 1 to VALID clears it, but a creation of the thread's present cycle stands after it (R10, R465, R466; log entry 70). -/
def State.poisrecWrite (s : State) (t : Nat) (v : Nat) : State :=
  let h := (s.thread t).bound
  let w := s.work h
  let c := w.poisonLast.filter (fun c => c.tcyc == (s.quad (quadOfThread t)).cyc)
  if bit v 16 then s.setWork h { w with poison := c.map (fun c => c.origin), poisonBy := c } else s

/-- A read of GUARDDROP clears COUNT; a drop of the thread's present cycle is not returned and is kept (R10, R471). -/
def State.guardRead (s : State) (t : Nat) : DWord × State :=
  let h := (s.thread t).bound
  let w := s.work h
  let now := (s.quad (quadOfThread t)).cyc
  let n := w.guardSide.left now
  (BitVec.ofNat 64 (w.guardSide.read now w.guardCount + w.guardFirst.toNat * 2 ^ 32),
    if w.guardCount = 0 then s else s.setWork h { w with
      guardCount := n, guardFirst := if n = 0 then w.guardFirst else w.guardNew, guardSide := w.guardSide.cleared })

/-- A read of a register of a thread, with the state after it. -/
def State.threadRegRead (s : State) (t num idx : Nat) : DWord × State :=
  let x := s.thread t
  let w := s.work x.bound
  match num with
  | 0x000 => (fstat t x, s)
  | 0x001 => (x.trappc, s)
  | 0x002 => (x.trapcause, s)
  | 0x003 => (x.trapvec, s)
  | 0x004 => (x.traparg.setWidth 64, s)
  | 0x005 => (rvstat w, s)
  | 0x006 => (BitVec.ofNat 64 x.cycle, s)
  | 0x007 => (BitVec.ofNat 64 (poisonWord w), s)
  | 0x008 => s.guardRead t
  | 0x009 => (x.macsel.setWidth 64, s)
  | 0x00A => (s.maceditRead t, s)
  | 0x00B => (x.faultva.setWidth 64, s)
  | _ => (match s.islandOf t idx with
    | some i => (s.island i).tabRead
    | none => 0, s)

/-- A write of a register of a thread; read-only registers ignore it. -/
def State.threadRegWrite (s : State) (t num idx : Nat) (v : DWord) : State :=
  match num with
  | 0x000 => s.modThread t (fun x => x.setFlags v)
  | 0x001 => s.modThread t (fun x => { x with trappc := v })
  | 0x003 => s.modThread t (fun x => { x with trapvec := v &&& ~~~3 })
  | 0x007 => s.poisrecWrite t v.toNat
  | 0x009 => s.modThread t (fun x => { x with macsel := v.setWidth 15 })
  | 0x00A => s.maceditWrite t v.toNat
  | 0x010 => match s.islandOf t idx with
    | some i => s.setIsland i { s.island i with tabNew := some (v &&& isltabWritable) }
    | none => s
  | _ => s

/-! ### Registers of a die -/

/-- QCLK's FMAX and FNOW (R415). -/
def Quad.fmax (q : Quad) : Nat := 28 - q.derate.toNat
def Quad.fnow (q : Quad) : Nat := min q.fset.toNat q.fmax

/-- Every watch of the die ended: WATCH is 0 while EN = 0 (R455). -/
def Die.unwatched (x : Die) : SMap CwRow :=
  (List.range 96).foldl (fun m r => SMap.mod {} m r (fun c => { c with watch := false, pending := 0, slot := none })) x.cwrow

/-- CWCTL written (R453): while EN = 0 nothing is watched; as HOLD goes to 0 the cycles that wait are given up (R532). -/
def Die.cwctlWrite (x : Die) (v : Nat) : Die :=
  let rows := if !bit v 5 then x.unwatched
    else if x.cwHold && !bit v 6 then x.cwrow.map (fun p => (p.1, { p.2 with pending := 0, slot := none })) else x.cwrow
  { x with cwInt := BitVec.ofNat 8 (clamp 12 30 (bits v 4 0)), cwEn := bit v 5, cwHold := bit v 6, cwrow := rows }

/-- CWROW of a row, with MISMATCH as a read in a cycle returns it, and the row after the read (R10, R454). -/
def CwRow.read (c : CwRow) (now : Nat) : DWord × CwRow :=
  (BitVec.ofNat 64 (c.col.toNat + b2n c.watch * 2 ^ 7 + c.subcol.toNat * 2 ^ 8 + b2n c.sub * 2 ^ 15 + b2n c.spsus * 2 ^ 16 +
      c.mmSide.read now c.mismatch.toNat * 2 ^ 32),
    { c with mismatch := BitVec.ofNat 16 (c.mmSide.left now), mmSide := c.mmSide.cleared })

/-- CANARY of a thread, with STALLS as a read in a cycle returns it, and the thread after the read (R10, R463). -/
def Thread.canaryRead (x : Thread) (now : Nat) : DWord × Thread :=
  (BitVec.ofNat 64 (x.canWin.toNat % 32 + b2n x.canEn * 2 ^ 5 + x.canIdle % 2 ^ 32 * 2 ^ 8 + x.canSide.read now x.canStalls % 256 * 2 ^ 40),
    { x with canStalls := x.canSide.left now, canSide := x.canSide.cleared })

/-- A read of ALERT: the oldest alert, which a sample of the present assay cycle did not raise, removed (R421, R422). -/
def Die.alertRead (x : Die) : DWord × Die :=
  match x.alertWas with
  | some (c, l) =>
    if c = x.cycles then (match l with
      | [] => (0, x)
      | a :: r => (a, { x with alerts := x.alerts.erase a, alertWas := some (c, r) }))
    else (x.alerts.headD 0, { x with alerts := x.alerts.tail })
  | none => (x.alerts.headD 0, { x with alerts := x.alerts.tail })

/-- A write of SUSPECT: bits written 1 clear, but one set in the present cycle stays (R10, R453). -/
def Die.suspectWrite (x : Die) (idx v : Nat) : Die :=
  let k := SMap.get (0, 0) x.suspectAt idx
  let keep := if k.1 = x.cycles then k.2 else 0
  { x with suspect := SMap.mod 0 x.suspect idx (fun m => m &&& (~~~BitVec.ofNat 64 v ||| keep)) }

/-- A read of a register indexed by quad in an assay cycle of its die, with the state after it (R10, R414 to R419). -/
def State.quadRegRead (s : State) (q num : Nat) : DWord × State :=
  let x := s.quad q
  let now := (s.die (q / 48)).cycles
  match num with
  | 0x121 => (BitVec.ofNat 64 (x.temp.toNat + x.peakSide.read now x.peak.toNat * 2 ^ 16),
      s.setQuad q { x with peak := BitVec.ofNat 12 (x.peakSide.left now), peakSide := x.peakSide.cleared })
  | 0x122 => (((x.stepNew.getD x.step).setWidth 64), s)
  | 0x123 => (BitVec.ofNat 64 (x.fset.toNat + x.fmax * 2 ^ 8 + x.fnow * 2 ^ 16), s)
  | 0x124 => (BitVec.ofNat 64 ((Config.fuseBirth q).toNat + x.wearNow.toNat * 2 ^ 16 + x.derate.toNat * 2 ^ 32 +
      x.limit.toNat * 2 ^ 40), s)
  | _ => (BitVec.ofNat 64 (x.thresh.toNat + x.droopSide.read now x.droopCount.toNat * 2 ^ 16),
      s.setQuad q { x with droopCount := BitVec.ofNat 32 (x.droopSide.left now), droopSide := x.droopSide.cleared })

/-- A read of a system register of a die, with the state after it; at is true on the assay core of die 0. -/
def State.dieRegRead (s : State) (d num idx : Nat) (at0 : Bool) : DWord × State :=
  let x := s.die d
  match num with
  | 0x100 => (if at0 then BitVec.ofNat 64 (x.arbBypass.toNat + b2n x.raceOk * 2 ^ 8 + b2n x.compact * 2 ^ 9) else 0, s)
  | 0x101 => (0xFF, s)
  | 0x110 => (x.astbase, s)
  | 0x120 => (BitVec.ofNat 64 (x.thot.toNat + x.tcool.toNat * 2 ^ 16 + x.thPeriod.toNat * 2 ^ 32 + b2n x.thEn * 2 ^ 40), s)
  | 0x126 => (BitVec.ofNat 64 (s.ptpNs.toNat + b2n s.ptpLock * 2 ^ 62 + b2n s.ptpValid * 2 ^ 63), s)
  | 0x127 => (if idx < 64 && idx % 8 < 6 then
      BitVec.ofNat 64 ((SMap.get 0 x.meas (idx / 8)).toNat / 2 ^ (64 * (idx % 8))) else 0, s)
  | 0x128 => (x.alertRead.1, s.setDie d x.alertRead.2)
  | 0x130 => (BitVec.ofNat 64 (b2n x.ringEn + x.ringSize.toNat * 2 + x.ringBase % 2 ^ 36 * 2 ^ 12), s)
  | 0x131 => (BitVec.ofNat 64 (x.head + x.tail * 2 ^ 32), s)
  | 0x132 => (BitVec.ofNat 64 (x.dropSide.read x.cycles x.dropped.toNat),
      s.setDie d { x with dropped := BitVec.ofNat 32 (x.dropSide.left x.cycles), dropSide := x.dropSide.cleared })
  | 0x133 => (x.errctl.setWidth 64, s)
  | 0x134 => (BitVec.ofNat 64 (x.ceThr.toNat + x.ceWin.toNat * 2 ^ 8 + x.mmThr.toNat * 2 ^ 16 + x.rpThr.toNat * 2 ^ 20 +
      x.rpWin.toNat * 2 ^ 24 + x.rvMax.toNat * 2 ^ 32), s)
  | 0x138 => (BitVec.ofNat 64 (x.cwInt.toNat + b2n x.cwEn * 2 ^ 5 + b2n x.cwHold * 2 ^ 6), s)
  | 0x139 => if idx < 96 then
      (((SMap.get {} x.cwrow idx).read x.cycles).1, s.setDie d { x with cwrow := SMap.mod {} x.cwrow idx (fun c => (c.read x.cycles).2) })
    else (0, s)
  | 0x13A => (if idx < 192 then SMap.get 0 x.suspect idx else 0, s)
  | 0x13B =>
    let t := d * 192 + idx
    if idx < 192 && (s.thread t).bound ≠ 0 then (((s.thread t).canaryRead x.cycles).1, s.modThread t (fun y => (y.canaryRead x.cycles).2))
    else (0, s)
  | 0x13C => (BitVec.ofNat 64 (x.wkHandle.toNat + x.wkCause.toNat * 2 ^ 16 + b2n x.wkGo * 2 ^ 24), s)
  | 0x13D => (x.bootstat, s)
  | _ => if idx < 48 then s.quadRegRead (d * 48 + idx) num else (0, s)

/-- A write of WKILL: with GO, a kill starts unless the handle names no working (R500). -/
def State.wkillWrite (s : State) (d : Nat) (v : Nat) : State :=
  let x := s.die d
  if x.wkGo then s
  else
    let h := bits v 15 0
    let cause := if bits v 23 16 = 0x3A then 0x3A else 0x4D
    let go := bit v 24 && s.hasWork h && h ≠ 0
    let s := s.setDie d { x with wkHandle := BitVec.ofNat 16 h, wkCause := BitVec.ofNat 8 cause, wkGo := go }
    if go then s.startKill h { cause := cause } (if cause = 0x3A then .faulted else .killed) else s

/-- A write of THROTTLE takes effect at the next window (R419); a sample of the same assay cycle takes the STEP from before it (R422). -/
def State.throttleWrite (s : State) (q : Nat) (v : Nat) : State :=
  let now := (s.die (q / 48)).cycles
  s.modQuad q (fun x => { x with
    stepNew := some (BitVec.ofNat 8 (bits v 3 0)),
    stepWas := if x.stepWas.any (fun p => p.1 == now) then x.stepWas else some (now, x.stepNew.getD x.step) })

/-- A write of QCLK (R415). -/
def State.qclkWrite (s : State) (q : Nat) (v : Nat) : State :=
  s.modQuad q (fun x => { x with fset := BitVec.ofNat 16 (clamp 8 28 (bits v 4 0)) })

/-- A write of ERRRING sets HEAD and TAIL to 0 (R429). -/
def State.errringWrite (s : State) (d : Nat) (v : Nat) : State :=
  s.modDie d (fun x => { x with ringEn := bit v 0, ringSize := BitVec.ofNat 5 (clamp 6 16 (bits v 5 1)),
                                ringBase := bits v 47 12, head := 0, tail := 0 })

/-- A write of HEAD that leaves TAIL − HEAD within the ring (R429). -/
def State.errptrWrite (s : State) (d : Nat) (v : Nat) : State :=
  s.modDie d (fun x =>
    if (x.tail + 2 ^ 32 - bits v 31 0) % 2 ^ 32 ≤ 2 ^ x.ringSize.toNat then { x with head := bits v 31 0 } else x)

/-- ERRTHR written (R443). -/
def Die.errthrWrite (x : Die) (v : Nat) : Die :=
  { x with ceThr := BitVec.ofNat 8 (bits v 7 0), ceWin := BitVec.ofNat 8 (clamp 16 40 (bits v 13 8)),
           mmThr := BitVec.ofNat 8 (bits v 19 16), rpThr := BitVec.ofNat 8 (bits v 23 20),
           rpWin := BitVec.ofNat 8 (clamp 10 40 (bits v 29 24)), rvMax := BitVec.ofNat 8 (bits v 39 32) }

/-- THERMCTL written (R418). -/
def Die.thermctlWrite (x : Die) (v : Nat) : Die :=
  { x with thot := BitVec.ofNat 12 (bits v 9 0), tcool := BitVec.ofNat 12 (bits v 25 16),
           thPeriod := BitVec.ofNat 8 (clamp 16 24 (bits v 36 32)), thEn := bit v 40 }

/-- A write of a system register of a die, by its access codes; at0 is true on the assay core of die 0. -/
def State.dieRegWrite (s : State) (d num idx : Nat) (v : Nat) (at0 : Bool) : State :=
  match num with
  | 0x100 => if at0 then s.modDie d (fun x =>
      { x with arbBypass := BitVec.ofNat 8 (bits v 7 0), raceOk := bit v 8, compact := bit v 9 }) else s
  | 0x110 => s.modDie d (fun x => { x with astbase := BitVec.ofNat 64 (v % 2 + bits v 47 20 * 2 ^ 20) })
  | 0x120 => s.modDie d (fun x => x.thermctlWrite v)
  | 0x122 => if idx < 48 then s.throttleWrite (d * 48 + idx) v else s
  | 0x123 => if idx < 48 then s.qclkWrite (d * 48 + idx) v else s
  | 0x124 => if idx < 48 then s.modQuad (d * 48 + idx) (fun x => { x with limit := BitVec.ofNat 16 (bits v 47 40) }) else s
  | 0x125 => if idx < 48 then s.modQuad (d * 48 + idx) (fun x => { x with thresh := BitVec.ofNat 16 (bits v 7 0) }) else s
  | 0x130 => s.errringWrite d v
  | 0x131 => s.errptrWrite d v
  | 0x133 => s.modDie d (fun x => { x with errctl := BitVec.ofNat 5 v })
  | 0x134 => s.modDie d (fun x => x.errthrWrite v)
  | 0x138 => s.modDie d (fun x => x.cwctlWrite v)
  | 0x13A => if idx < 192 then s.modDie d (fun x => x.suspectWrite idx v) else s
  | 0x13B =>
    let t := d * 192 + idx
    if idx < 192 && (s.thread t).bound ≠ 0 then
      s.modThread t (fun y => { y with canWin := BitVec.ofNat 8 (clamp 10 30 (bits v 4 0)), canEn := bit v 5 }) else s
  | 0x13C => s.wkillWrite d v
  | _ => s

/-! ### SYSR and SYSW -/

/-- True on the assay core of die 0, which alone holds ARBCTL (R365). -/
def onDie0Assay (t : Nat) : Bool := isAssay t && dieOfThread t == 0

/-- A register read by a thread, with the state after it. -/
def State.regRead (s : State) (t num idx : Nat) : DWord × State :=
  if threadReg num then s.threadRegRead t num idx else s.dieRegRead (dieOfThread t) num idx (onDie0Assay t)

/-- A register written by a thread. -/
def State.regWrite (s : State) (t num idx : Nat) (v : DWord) : State :=
  if threadReg num then s.threadRegWrite t num idx v else s.dieRegWrite (dieOfThread t) num idx v.toNat (onDie0Assay t)

/-- The number is listed, and the index field is g0 where the register has no index (R316, R134). -/
def regUse (num : Nat) (idx : Reg) : Bool := (threadReg num || dieReg num) && (indexedReg num || idx == 0)

/-- SYSR. -/
def execSysr (rd ra : Reg) (num : BitVec 14) (s : State) : Out :=
  if !regUse num.toNat ra then .next (s.trapHere s.cur.thread illegalTrap)
  else s.onThread [rd, ra] (fun t x =>
    let r := s.regRead t num.toNat (x.reg ra).toNat
    r.2.finish t ((r.2.thread t).setReg rd r.1))

/-- SYSW. -/
def execSysw (rd ra : Reg) (num : BitVec 14) (s : State) : Out :=
  if !regUse num.toNat rd then .next (s.trapHere s.cur.thread illegalTrap)
  else s.onThread [rd, ra] (fun t x =>
    if !isAssay t && !userReg num.toNat then .next (s.trapHere t privTrap)
    else
      let s := s.regWrite t num.toNat (x.reg rd).toNat (x.reg ra)
      s.finish t (s.thread t))

/-! ### Events that are register accesses -/

/-- A thread may write a register. -/
def mayWrite (t num : Nat) : Bool := isAssay t || userReg num

/-- A write to any other register (R9). -/
def execRegisterWrite (t num idx : Nat) (v : DWord) (s : State) : Out :=
  .next (if (threadReg num || dieReg num) && mayWrite t num then s.regWrite t num idx v else s)

/-- A read of an RC field clears it (R9, R10). -/
def execReadClear (t num idx : Nat) (s : State) : Out :=
  .next (if threadReg num || dieReg num then (s.regRead t num idx).2 else s)

/-- A read of ALERT removes the oldest alert (R421). -/
def execAlert (d : Nat) (s : State) : Out := .next (s.dieRegRead d 0x128 0 false).2

/-- A write of THROTTLE. -/
def execThrottle (d q : Nat) (v : DWord) (s : State) : Out := .next (s.dieRegWrite d 0x122 q v.toNat false)

/-- A write of QCLK. -/
def execQclk (d q : Nat) (v : DWord) (s : State) : Out := .next (s.dieRegWrite d 0x123 q v.toNat false)

/-- A write of ERRRING. -/
def execErrring (d : Nat) (v : DWord) (s : State) : Out := .next (s.errringWrite d v.toNat)

/-- A write of ERRPTR. -/
def execErrptr (d : Nat) (v : DWord) (s : State) : Out := .next (s.errptrWrite d v.toNat)

/-- A write of WKILL. -/
def execWkill (d : Nat) (v : DWord) (s : State) : Out := .next (s.wkillWrite d v.toNat)

/-- A kill of WKILL is complete: its working is gone, and GO clears (R500). -/
def execWkillComplete (d : Nat) (s : State) : Out :=
  let x := s.die d
  .next (if x.wkGo && !s.hasWork x.wkHandle.toNat then s.setDie d { x with wkGo := false } else s)

/-- A write of MACEDIT. -/
def execMacedit (t : Nat) (v : DWord) (s : State) : Out := .next (s.maceditWrite t v.toNat)

/-- A write of POISREC. -/
def execPoisrec (t : Nat) (v : DWord) (s : State) : Out := .next (s.poisrecWrite t v.toNat)

/-- A vendor MCTP message reads a system register of any die (R411); the value is the last answer of the platform. The registers
of threads are not named by a die and read zero. -/
def execMctpRegisterRead (d num idx : Nat) (s : State) : Out :=
  let r := if d < 4 && dieReg num then s.dieRegRead d num idx (d == 0) else (0, s)
  .next { r.2 with platform := { r.2.platform with answers := r.2.platform.answers ++ [toBytes 8 r.1.toNat] } }

end Sys2Proof.Machine
end

