-- ==== Sys2Proof/Machine/WorkingCtl.lean ====
section
/-! DEFINITION. Working control: WGO, WPHASE, WSTOP, WQUERY and RDS (R335 to R343), the start and end of phases (R338, R375, R376), and the end of
a stop (R339, R341). -/

namespace Sys2Proof.Machine

open Sys2Proof

/-- f written by an instruction that then ends. -/
def State.finishF (s : State) (t : Nat) (f : Bool) : Out := s.finish t { s.thread t with f := f, wait := .none }

/-- rd and f written by an instruction that then ends. -/
def State.finishRd (s : State) (t rd : Nat) (v : DWord) (f : Bool) : Out :=
  s.finish t ({ s.thread t with f := f, wait := .none }.setReg rd v)

/-- rd written, f as it was. -/
def State.finishReg (s : State) (t rd : Nat) (v : DWord) : Out :=
  s.finish t ({ s.thread t with wait := .none }.setReg rd v)

/-! ### WGO and WPHASE (R338) -/

/-- WGO.start. -/
def execWgoStart (ra : Reg) (s : State) : Out :=
  s.onWorking [ra] (fun t x =>
    let w := s.work x.bound
    if w.state = .idle then
      let n := (x.reg ra).toNat % 2 ^ 32
      let s := s.setWork x.bound { w with budget := n, state := if n = 0 then .idle else .running }
      (s.canaryEvent x.bound).finishF t false
    else s.finishF t true)

/-- WGO.resume: the working runs on in its phase, macros from their PRG and slots that trapped again ready (R479, R483, R485); one stopped between phases with no budget left becomes idle. -/
def execWgoResume (ra : Reg) (s : State) : Out :=
  s.onWorking [ra] (fun t x =>
    let w := s.work x.bound
    if w.state = .paused then
      let s := s.setWork x.bound { w with state := if !w.inPhase && w.budget = 0 then .idle else .running }
      (((s.unbarAll x.bound).unhalt x.bound).canaryEvent x.bound).finishF t false
    else s.finishF t true)

/-- WPHASE's write: of NEXT and EXPL; in the cycle in which a phase has ended it counts as set before that end, which has consumed EXPL
(R340). -/
def Working.setNext (w : Working) (v : Nat) (same : Bool) : Working :=
  if same then { w with next := if bit v 2 then w.endNet else BitVec.ofNat 2 v }
  else if bit v 2 then { w with expl := false } else { w with next := BitVec.ofNat 2 v, expl := true }

/-- A phase whose last sink counted in an earlier cycle of a quad has ended (R375). -/
def State.endMarked (s : State) (h q : Nat) : State :=
  let w := s.work h
  if s.sinksDone h && w.state == .running && w.pastMark q (s.quad q).cyc then (s.endPhase h).canaryEvent h else s

/-- WPHASE. -/
def execWphase (ra : Reg) (s : State) : Out :=
  s.onWorking [ra] (fun t x =>
    let s := s.endMarked x.bound (t / 4)
    let w := s.work x.bound
    let same := !w.inPhase && !w.mark.isEmpty && !w.pastMark (t / 4) (s.quad (t / 4)).cyc
    (s.setWork x.bound (w.setNext (x.reg ra).toNat same)).finish t (s.thread t))

/-! ### WSTOP (R339, R340) -/

/-- A stop decided: a phase that has ended by its barriers, or none, leaves only BUDGET := 0; a running or paused phase is stopped. -/
def State.beginStop (s : State) (h : Nat) (ends : Bool) : State :=
  let w := s.work h
  if w.state = .running && s.sinksDone h then s.setWork h { w with budget := 0 }
  else if !w.inPhase then
    s.setWork h { w with budget := 0, state := if w.state = .paused && !ends then .paused else .idle, awaited := s.toAwait h }
  else if w.state = .paused && !ends then s
  else s.setWork h { w with stopping := some ends, awaited := s.toAwait h }

/-- WSTOP: f := 1 on an idle working, else the thread waits until the stop is complete. -/
def State.wstop (s : State) (ends : Bool) : Out :=
  s.onWorking [] (fun t x =>
    if (s.work x.bound).state = .idle then s.finishF t true
    else .next ((s.beginStop x.bound ends).sleep t (.wstop ends)))

/-- WSTOP.end. -/
def execWstopEnd (s : State) : Out := s.wstop true

/-- WSTOP.pause. -/
def execWstopPause (s : State) : Out := s.wstop false

/-- The stop of a phase complete: the phase ends with BUDGET := 0, or the working is paused; where the phase has ended by itself meanwhile,
only BUDGET := 0 is left of it (R340). -/
def State.stopPhase (s : State) (h : Nat) (ends : Bool) : State :=
  let w := s.work h
  let s := s.setWork h { w with stopping := none, budget := if ends || !w.inPhase then 0 else w.budget }
  if !w.inPhase then s.modWork h (fun w => { w with state := if w.state = .paused && !ends then .paused else .idle })
  else if ends then s.endPhase h else s.modWork h (fun w => { w with state := .paused })

/-! ### Phases (R338, R375, R376) -/

/-- A WLOAD of a context is in progress. -/
def State.loadingOf (s : State) (h ctx : Nat) : Bool :=
  let w := s.work h
  match (s.thread w.thread).wait with
  | .wload _ m _ => w.loading && bit m ctx
  | _ => false

/-- The generator's seed from block index, position and context (R92). -/
def seedOf (b pos c : Nat) : Word :=
  0x9E3779B9#32 ^^^ BitVec.ofNat 32 (b * 2 ^ 5) ^^^ BitVec.ofNat 32 (pos * 2 ^ 2) ^^^ BitVec.ofNat 32 c

/-- What every element takes at the start of a phase (R77, R92); one that a fault of an earlier phase barred may fire (R432). -/
def State.enterContext (s : State) (h : Nat) (c : BitVec 2) : State :=
  let w := s.work h
  w.elems.foldl (fun s e => s.modElem e (fun x =>
    { x with active := c, p := (s.cfg e c.toNat).preds, rr := 0, barAt := none, gen := seedOf (blockIndex w e) (posOf e) c.toNat })) s

/-- A phase can start. -/
def State.phaseReady (s : State) (h : Nat) : Bool :=
  let w := s.work h
  w.state == .running && !w.inPhase && 0 < w.budget && w.live && w.freeze.isNone && w.stopping.isNone &&
  !s.loadingOf h w.next.toNat

/-- A phase started: its context active in every element. -/
def State.startPhase (s : State) (h : Nat) : State :=
  let w := s.work h
  (s.setWork h { w with budget := w.budget - 1, active := w.next, inPhase := true, sinks := [], mark := [] }).enterContext h w.next

/-- PHASE_END: the last sink has counted (R375). -/
def execPhaseEnd (h : Nat) (s : State) : Out :=
  let w := s.work h
  .next (if s.sinksDone h && w.state == .running && w.live then (s.endPhase h).canaryEvent h else s)

/-! ### WQUERY (R335, R336, R341) -/

/-- WQUERY of a value that observes the working's state: it waits for the accesses that R341 names. -/
def State.wquery (s : State) (rd : Reg) (f : Working → DWord) : Out :=
  s.onWorking [rd] (fun t x => if s.observable x.bound then s.finishReg t rd (f (s.work x.bound)) else .next s)

/-- WQUERY fn 0. -/
def execWqueryWstat (rd : Reg) (s : State) : Out := s.wquery rd Working.wstat

/-- WQUERY fn 1. -/
def execWqueryPhases (rd : Reg) (s : State) : Out := s.wquery rd (fun w => BitVec.ofNat 64 w.phases)

/-! ### RDS (R343) -/

/-- A word of the report channel's head. -/
def reportWord (l : List Token) (n : Nat) : DWord :=
  match l with
  | [] => 0
  | k :: _ => if n < 4 then (payWords k.p).getD n 0 else if n = 4 then BitVec.ofNat 64 (k.side + 2 ^ 63) else 0

/-- RDS fn 0. -/
def execRdsReportHead (rd ra : Reg) (s : State) : Out :=
  s.onWorking [rd, ra] (fun t x => s.finishReg t rd (reportWord (s.work x.bound).report (x.reg ra).toNat))

/-- RDS fn 1: the head removed; rd takes the entries left. -/
def execRdsReportPop (rd : Reg) (s : State) : Out :=
  s.onWorking [rd] (fun t x =>
    let l := (s.work x.bound).report.drop 1
    (s.modWork x.bound (fun w => { w with report := l })).finishReg t rd (BitVec.ofNat 64 l.length))

/-- RDS fn 2. -/
def execRdsOperandStatus (rd ra rb : Reg) (s : State) : Out :=
  s.onWorking [rd, ra, rb] (fun t x =>
    let n := (x.reg rb).toNat
    s.finishReg t rd (match s.islandOf t (x.reg ra).toNat with
      | some i => if n < 64 then BitVec.ofNat 64 ((s.island i).op n).status else 0
      | none => 0))

/-- RDS fn 3. -/
def execRdsAccumulatorStatus (rd ra rb : Reg) (s : State) : Out :=
  s.onWorking [rd, ra, rb] (fun t x =>
    let n := (x.reg rb).toNat
    s.finishReg t rd (match s.islandOf t (x.reg ra).toNat with
      | some i => if n < 8 then BitVec.ofNat 64 ((s.island i).acc n).status else 0
      | none => 0))

/-- RDS fn 4: the voted value of a counter; where no two copies agree the thread consumes the error (R468). -/
def execRdsSyncCounter (rd ra : Reg) (s : State) : Out :=
  s.onWorking [rd, ra] (fun t x =>
    let n := (x.reg ra).toNat
    if 64 ≤ n then s.finishReg t rd 0
    else match (s.ownCounter (t / 4) n t).voteRead (t / 4) n with
      | some (v, s') => s'.finishReg t rd v
      | none => .next ((s.ownCounter (t / 4) n t).counterBad t n))

/-- RDS fn 5. -/
def execRdsPoisonRecord (rd : Reg) (s : State) : Out :=
  s.onWorking [rd] (fun t x => s.finishReg t rd (BitVec.ofNat 64 (poisonWord (s.work x.bound))))

end Sys2Proof.Machine
end

