-- ==== Sys2Proof/Machine/SyncCtl.lean ====
section
/-! DEFINITION. The SYNC group (R354 to R356) and the task queue (R344, R345). -/

namespace Sys2Proof.Machine

open Sys2Proof

/-- An instruction on a counter of the thread's quad: the counter becomes the thread's (R377), and its voted value is read; where no two copies
agree the thread consumes the error (R468). -/
def State.onCounter (s : State) (regs : List Reg) (ra : Reg) (body : Nat → Thread → Nat → DWord → State → Out) : Out :=
  s.onWorking regs (fun t x =>
    let n := (x.reg ra).toNat % 64
    match (s.ownCounter (t / 4) n t).voteRead (t / 4) n with
    | some (v, s') => body t x n v s'
    | none => .next ((s.ownCounter (t / 4) n t).counterBad t n))

/-! ### BARW (R355) -/

/-- ARRIVED and GEN of a counter. -/
def arrivedOf (v : DWord) : Nat := v.toNat % 2 ^ 32
def genOf (v : DWord) : Nat := v.toNat / 2 ^ 32

/-- A barrier passed: rd takes GEN. -/
def State.passBarrier (s : State) (t rd gen : Nat) : Out :=
  (s.modThread t (fun x => { x with arrival := none })).finishReg t rd (BitVec.ofNat 64 gen)

/-- The thread waits in a barrier with its arrival kept. -/
def State.awaitBarrier (s : State) (t c gen rd : Nat) : Out :=
  .next ((s.modThread t (fun x => { x with arrival := some (c, gen) })).sleep t (.barw c gen rd))

/-- An arrival of n parties: the new value, and the GEN after it. -/
def arrive (v : DWord) (n : Nat) : DWord :=
  if arrivedOf v + 1 = n then BitVec.ofNat 64 ((genOf v + 1) % 2 ^ 32 * 2 ^ 32)
  else BitVec.ofNat 64 ((arrivedOf v + 1) % 2 ^ 32 + genOf v * 2 ^ 32)

/-- BARW. A count of 0 or above 4 is an illegal instruction. -/
def execBarw (rd ra rb : Reg) (_sc : Scope) (s : State) : Out :=
  s.onWorking [rd, ra, rb] (fun t x =>
    let n := (x.reg rb).toNat % 8
    if n = 0 || 4 < n then .next (s.trapHere t illegalTrap)
    else s.onCounter [] ra (fun t _ c v s =>
      match x.arrival with
      | some (k, gen) =>
        if k = c then (if genOf v ≠ gen then s.passBarrier t rd (genOf v) else s.awaitBarrier t c gen rd)
        else
          let v' := arrive v n
          let s := s.setCounter (t / 4) c v'
          if genOf v' ≠ genOf v then s.passBarrier t rd (genOf v') else s.awaitBarrier t c (genOf v) rd
      | none =>
        let v' := arrive v n
        let s := s.setCounter (t / 4) c v'
        if genOf v' ≠ genOf v then s.passBarrier t rd (genOf v') else s.awaitBarrier t c (genOf v) rd))

/-- BARW_RELEASE: a waiting thread finds GEN changed. -/
def execBarwRelease (t : Nat) (s : State) : Out :=
  match s.waitOf t with
  | .barw c gen rd => match s.voteRead (t / 4) c with
    | some (v, s') => if genOf v ≠ gen then s'.passBarrier t rd (genOf v) else .next s
    | none => .next (s.counterBad t c)
  | _ => .next s

/-! ### SEMA (R354, R356) -/

/-- Another thread of the core has waited longer on a counter in SEMA.p. -/
def State.olderSema (s : State) (t c : Nat) : Bool :=
  let me := s.thread t
  (List.range 4).any (fun i =>
    let u := t / 4 * 4 + i
    match (s.thread u).wait with
    | .semaP k _ => u ≠ t && k = c && (me.wait == .none || (s.thread u).since < me.since)
    | _ => false)

/-- One taken from a counter above 0. -/
def State.takeOne (s : State) (t rd c : Nat) (v : DWord) : Out := (s.setCounter (t / 4) c (v - 1)).finishReg t rd (v - 1)

/-- SEMA.p. -/
def execSemaP (rd ra : Reg) (_sc : Scope) (s : State) : Out :=
  s.onCounter [rd, ra] ra (fun t _ c v s =>
    if v = 0 || s.olderSema t c then .next (s.sleep t (.semaP c rd)) else s.takeOne t rd c v)

/-- SEMA_P_GRANT: the oldest thread waiting on a counter above 0 takes one. -/
def execSemaPGrant (t : Nat) (s : State) : Out :=
  match s.waitOf t with
  | .semaP c rd => match s.voteRead (t / 4) c with
    | some (v, s') => if v = 0 || s'.olderSema t c then .next s else s'.takeOne t rd c v
    | none => .next (s.counterBad t c)
  | _ => .next s

/-- SEMA.try. -/
def execSemaTry (rd ra : Reg) (_sc : Scope) (s : State) : Out :=
  s.onCounter [rd, ra] ra (fun t _ c v s =>
    if v = 0 then s.finishRd t rd 0 true else (s.setCounter (t / 4) c (v - 1)).finishRd t rd (v - 1) false)

/-- SEMA.v: the sum saturates at 2^64 - 1, and f says so. -/
def execSemaV (rd ra rb : Reg) (_sc : Scope) (s : State) : Out :=
  s.onCounter [rd, ra, rb] ra (fun t x c v s =>
    let sum := v.toNat + (x.reg rb).toNat
    let n : DWord := BitVec.ofNat 64 (min sum (2 ^ 64 - 1))
    (s.setCounter (t / 4) c n).finishRd t rd n (decide (2 ^ 64 ≤ sum)))

/-- SEMA.set writes all copies without reading them (R468). -/
def execSemaSet (rd ra rb : Reg) (_sc : Scope) (s : State) : Out :=
  s.onWorking [rd, ra, rb] (fun t x =>
    let n := (x.reg ra).toNat % 64
    ((s.ownCounter (t / 4) n t).setCounter (t / 4) n (x.reg rb)).finishReg t rd (x.reg rb))

/-! ### Tasks (R344, R345) -/

/-- A 64-byte record read by a thread at an address that must be a multiple of 64. -/
def State.readRecord (s : State) (t : Nat) (ea : DWord) (body : List Byte → State → Out) : Out :=
  s.access t ea 64 (fun s t va => match s.touchRead t va .read with
    | .ok a s' => if s'.badIn a 64 then .stall s' else .ok a s'
    | r => r) (fun a s => body (s.bytesAt a 64) s)

/-- The counter that a task record names. -/
def recCounter (l : List Byte) : Nat := le l 35 1 % 64

/-- A record pushed for a thread, as SPAWN does. -/
def State.pushFor (s : State) (t : Nat) (l : List Byte) : State :=
  let c := recCounter l
  ((s.ownCounter (t / 4) c t).voted (t / 4) c).pushTask (dieOfThread t) (t / 4) c (s.thread t).bound
    (sliceB l 0 36 ++ toBytes 1 (parentByte t) ++ sliceB l 37 27)

/-- A record pushed, or what a push that finds no room comes to; a counter no two copies of which agree is an error that the thread consumes (R468;
log entry 76). -/
def State.tryPush (s : State) (t : Nat) (l : List Byte) (pushed full : State → Out) : Out :=
  if !s.whole (t / 4) (recCounter l) then .next (s.counterBad t (recCounter l))
  else if s.taskRoom (dieOfThread t) (t / 4) (recCounter l) then pushed (s.pushFor t l)
  else full s

/-- TQPUSH: with no room the thread waits in the stall form, and is ready again once there is room (R309, R344). -/
def execTqpush (ra : Reg) (s : State) : Out :=
  s.onWorking [ra] (fun t x => s.readRecord t (x.reg ra) (fun l s =>
    s.tryPush t l (fun s => s.finish t { s.thread t with wait := .none }) (fun s => .next (s.sleep t (.tqpush (recCounter l))))))

/-- TQPUSH.try. -/
def execTqpushTry (ra : Reg) (s : State) : Out :=
  s.onWorking [ra] (fun t x => s.readRecord t (x.reg ra) (fun l s => s.tryPush t l (fun s => s.finishF t false) (fun s => s.finishF t true)))

/-- The thread's oldest record in its die's queue. -/
def State.ownTask (s : State) (t : Nat) : Option Task :=
  (s.die (dieOfThread t)).tasks.find? (fun k => k.parent == (s.thread t).bound && le k.bytes 36 1 == parentByte t)

/-- A write of 64 bytes by a thread, both sectors of which find room in the undo log. -/
def State.touchWrite64 (s : State) (t va : Nat) : Touch :=
  match s.touchWrite t va .write with
  | .ok a s' =>
    if s'.undoRoom (s'.thread t).bound (a + 32) then .ok a s'
    else .trap { cause := 0x61, detail := (s'.work (s'.thread t).bound).relTile ((windowTile a).getD 0) } s'
  | r => r

/-- TQPOP: the record leaves the queue and memory takes it; OUTSTANDING falls by one and no other field changes. -/
def execTqpop (rd ra : Reg) (s : State) : Out :=
  s.onWorking [rd, ra] (fun t x =>
    match s.ownTask t with
    | none => s.finishRd t rd 0 true
    | some k => if !s.whole (t / 4) (recCounter k.bytes) then .next (s.counterBad t (recCounter k.bytes))
      else s.access t (x.reg ra) 64 State.touchWrite64 (fun a s =>
        let c := recCounter k.bytes
        let s := s.voted (t / 4) c
        let s := (s.store x.bound a (sliceB k.bytes 0 32) false).store x.bound (a + 32) (sliceB k.bytes 32 32) false
        let s := s.modDie (dieOfThread t) (fun d => { d with tasks := d.tasks.erase k })
        let v := s.counter (t / 4) c
        (s.setCounter (t / 4) c (joinSet v 0 (joinField v 0 - 1))).finishRd t rd 1 false))

end Sys2Proof.Machine
end

