-- ==== Sys2Proof/Machine/Hoists.lean ====
section
/-! DEFINITION. Hoists: the command and its acceptance (R290 to R292, R501), HCOPY and HQUERY (R308, R346), PUBLISH (R296, R347, R507), copies by
units (R293, R294), and the completion word (R295). -/

namespace Sys2Proof.Machine

open Sys2Proof

/-! ### The command (R290) -/

def hKind (c : Nat) : Nat := bits c 2 0
def hFlags (c : Nat) : Nat := bits c 15 8
def hSside (c : Nat) : Nat := bits c 8 8
def hDside (c : Nat) : Nat := bits c 9 9
def hNcw (c : Nat) : Bool := bit c 10
def hSent (c : Nat) : Nat := bits c 23 16
def hDent (c : Nat) : Nat := bits c 31 24
def hCent (c : Nat) : Nat := bits c 39 32
def hSub (c : Nat) : Nat := bits c 47 40
def hId (c : Nat) : Nat := bits c 63 48
def hSc (c i : Nat) : Nat := bits c (64 + 32 * i + 31) (64 + 32 * i)
def hDc (c i : Nat) : Nat := bits c (192 + 32 * i + 31) (192 + 32 * i)
def hN (c i : Nat) : Nat := bits c (320 + 32 * i + 31) (320 + 32 * i)
def hCc (c : Nat) : Nat := bits c 479 448
def hCv (c : Nat) : Nat := bits c 511 480

/-- Elements of a command: N0 × N1 × N2 × N3. -/
def hCount (c : Nat) : Nat := hN c 0 * hN c 1 * hN c 2 * hN c 3

/-- Digit k of an element's place in copy order, i0 fastest (R293). -/
def hIndex (c q k : Nat) : Nat :=
  (match k with
   | 0 => q
   | 1 => q / hN c 0
   | 2 => q / (hN c 0 * hN c 1)
   | _ => q / (hN c 0 * hN c 1 * hN c 2)) % hN c k

/-- The address that a fixed entry gives coordinates. -/
def fixedAt (w : Working) (f : Fixed) (c : Nat → Nat) : Option Nat := resolve w f.raw.toNat f.base (w.tileAt f.tile) c

/-- Source and destination of element q of a copy. -/
def hSrc (w : Working) (h : Hoist) (q : Nat) : Option Nat :=
  fixedAt w h.src (fun k => hSc h.cmd.toNat k + hIndex h.cmd.toNat q k)
def hDst (w : Working) (h : Hoist) (q : Nat) : Option Nat :=
  fixedAt w h.dst (fun k => hDc h.cmd.toNat k + hIndex h.cmd.toNat q k)

/-- Elements after q that join its unit, with fuel: those whose destination lies in the same sector (R294). -/
def unitMore (w : Working) (h : Hoist) (sec : Nat) : Nat → Nat → Nat
  | 0, _ => 0
  | f + 1, q =>
    if hCount h.cmd.toNat ≤ q then 0
    else match hDst w h q with
      | some a => if sectorOf a = sec then 1 + unitMore w h sec f (q + 1) else 0
      | none => 0

/-- The length of the unit that begins at element q. -/
def unitLen (w : Working) (h : Hoist) (q : Nat) : Nat :=
  match hDst w h q with
  | some a => 1 + unitMore w h (sectorOf a) (hCount h.cmd.toNat) (q + 1)
  | none => 1

/-- Units of a list of destinations: the runs in one sector, and each that is out of range (R294). -/
def unitRuns (cur : Option Nat) : List (Option Nat) → Nat
  | [] => 0
  | none :: r => 1 + unitRuns none r
  | some a :: r => if cur = some (sectorOf a) then unitRuns cur r else 1 + unitRuns (some (sectorOf a)) r

/-- Units from element q to the end, with fuel. -/
def unitsFrom (w : Working) (h : Hoist) : Nat → Nat → Nat
  | 0, _ => 0
  | f + 1, q => if hCount h.cmd.toNat ≤ q then 0 else 1 + unitsFrom w h f (q + unitLen w h q)

/-! ### Acceptance (R291, R292, R501) -/

/-- The entries that a command names. -/
def hNames (c : Nat) : List Nat :=
  (if hKind c = 4 then [] else [hSent c]) ++ (if hKind c = 1 || hKind c = 3 then [] else [hDent c]) ++ [hCent c]

/-- A field that must be zero is not, or a code is reserved, or an extent is 0 (R290, R303). -/
def hMalformed (c : Nat) : Bool :=
  4 < hKind c || bits c 7 3 != 0 || bits c 15 11 != 0 ||
  (hKind c ≤ 1 && hId c != 0) || ((hKind c == 0 || 3 ≤ hKind c) && hSub c != 0) ||
  (hKind c == 2 && (bits c 47 46 != 0 || 11 ≤ bits c 45 42)) ||
  (hKind c == 1 && (List.range 4).any (fun i => hDc c i != 0)) || (List.range 4).any (fun i => hN c i == 0)

/-- The stream binding of an identifier: the entry of the launch's list with its role (0 sends, 1 receives). -/
def Working.bindsStream (w : Working) (ident role : Nat) : Bool :=
  w.streams.any (fun b => bit b.toNat 31 && bits b.toNat 15 0 == ident && bits b.toNat 16 16 == role)

/-- The collective binding of an identifier. -/
def Working.coll (w : Working) (ident : Nat) : Option CollBind := w.colls.find? (fun b => b.id == ident)

/-- The busy hoists of the package: (die, number, hoist). -/
def State.busyHoists (s : State) : List (Nat × Nat × Hoist) :=
  (List.range 4).flatMap (fun d => ((s.die d).hoists.filter (fun p => p.2.busy)).map (fun p => (d, p.1, p.2)))

/-- The command of a working in flight with a kind and an identifier. -/
def State.inFlight (s : State) (h kind ident : Nat) : Option (Nat × Nat × Hoist) :=
  s.busyHoists.find? (fun p => p.2.2.handle == h && p.2.2.kind.toNat == kind && p.2.2.id.toNat == ident)

/-- A stream's other end: a command of the opposite kind with its identifier, of the working bound to the opposite role (R299). -/
def State.otherEnd (s : State) (kind ident : Nat) : Option (Nat × Nat × Hoist) :=
  s.busyHoists.find? (fun p => p.2.2.kind.toNat == 7 - kind && p.2.2.id.toNat == ident &&
    (s.work p.2.2.handle).bindsStream ident (4 - kind))

/-- A command breaks R299. -/
def State.breaksStream (s : State) (h c : Nat) : Bool :=
  let w := s.work h
  let ring := w.entry (if hKind c = 3 then hSent c else hDent c)
  !w.bindsStream (hId c) (hKind c - 3) || entSize ring != 32 || entDims ring != 1 ||
  (List.range 3).any (fun i => hN c (i + 1) != 1) || (List.range 4).any (fun i => hSc c i != 0 || hDc c i != 0) ||
  hCv c != 0 || hNcw c || (s.inFlight h (hKind c) (hId c)).isSome ||
  (match s.otherEnd (hKind c) (hId c) with
   | some p => hN p.2.2.cmd.toNat 0 != hN c 0
   | none => false)

/-- Two commands of a collective give the same SUB and extents (R301). -/
def hAgree (c c' : Nat) : Bool := hSub c == hSub c' && (List.range 4).all (fun i => hN c i == hN c' i)

/-- A command of another party of the collective is in flight and gives another SUB or other extents (R301). -/
def State.collDiffers (s : State) (c : Nat) : Bool :=
  s.busyHoists.any (fun p => p.2.2.kind == 2 && p.2.2.id.toNat == hId c && p.2.2.prg != p.2.2.total && !hAgree c p.2.2.cmd.toNat)

/-- A command breaks R301 or what R303 asks of the element sizes. -/
def State.breaksColl (s : State) (h c : Nat) : Bool :=
  let w := s.work h
  let src := w.entry (hSent c)
  let dst := w.entry (hDent c)
  let kind := bits c 41 40
  (w.coll (hId c)).isNone || !entShv dst || (s.inFlight h 2 (hId c)).isSome || s.collDiffers c ||
  (if kind = 0 || kind = 2 then entSize src != 4 || entSize dst != 4 else bits c 45 42 != 0 || entSize src != entSize dst)

/-- The slot of a sluice fill: its island and number; none where DENT names no island of the working. -/
def sluiceIsland (w : Working) (c : Nat) : Option Nat :=
  if w.islands && hDent c < w.tileCount then some (w.tileAt (hDent c)) else none

/-- The hoist changed. -/
def State.modHoist (s : State) (d n : Nat) (f : Hoist → Hoist) : State := s.modDie d (fun x => x.setHoist n (f (x.hoist n)))

/-! ### Peer packages (R306) -/

/-- The source identifier of a hoist (R306). -/
def hoistSource (d n : Nat) : Nat := d * 16384 + 63 * 256 + n * 8

/-- A request of a hoist for an element of its unit; it waits while 128 are outstanding. -/
def State.hoistSend (s : State) (d n kind k : Nat) (f : Fixed) (va len : Nat) (x : Bool) (data : List Byte) : State :=
  let h := (s.die d).hoist n
  let r := f.raw.toNat
  if 128 ≤ h.peers.length then s
  else
  let b := flitBytes kind (entPkg r) s.package (hoistSource d n) h.peerSeq.toNat (s.work h.handle).asid va 0 (entIdent r) len 0xFF x data
  let s := s.modHoist d n (fun h => { h with peerSeq := h.peerSeq + 1, peers := h.peers ++ [(h.peerSeq, k)] })
  s.haul h.handle [FlitOut.mk b []]

/-- What a peer package has answered to the read of an address, under its address as key; else the read is asked for. -/
def State.peerGet (s : State) (d n : Nat) (f : Fixed) (va len : Nat) : Except Place (List Byte × Bool) :=
  let h := (s.die d).hoist n
  match h.got.find? (fun p => p.1 == va) with
  | some p => .ok p.2
  | none => .error (if h.peers.any (fun p => p.2 == va) then .wait else .sent (s.hoistSend d n 0 va f va len false []))

/-- A write to a peer package, under its address plus 2^56 as key: done once it has been answered. -/
def State.peerPut (s : State) (d n : Nat) (f : Fixed) (va : Nat) (data : List Byte) (x : Bool) : Except Place State :=
  let h := (s.die d).hoist n
  let k := va + 2 ^ 56
  if h.got.any (fun p => p.1 == k) then .ok s
  else .error (if h.peers.any (fun p => p.2 == k) then .wait else .sent (s.hoistSend d n 1 k f va data.length x data))

/-- Answers of peer packages are forgotten, so that their words are read again. -/
def State.forgetPeers (s : State) (d n : Nat) : State := s.modHoist d n (fun h => { h with got := [] })

/-! ### Reading a stream (R287) -/

/-- A location of a hoist's access: through the die's cache, or the fabric window. -/
def State.hoistPlace (s : State) (d h : Nat) (f : Fixed) (va : Nat) (acc : Acc) : Place :=
  if inWindow va then .ok va s
  else match s.translate ⟨none, none, d⟩ (s.work h).asid va acc (entIdent f.raw.toNat) with
    | .ok pa _ s => if s.cutOff d pa then .held (s.cross h d pa) else .ok pa (s.cross h d pa)
    | .refused r => if r.cause = 0x35 then .wait else .refuse r
    | .miss => .wait

/-- A location of n bytes to be read: an uncorrectable error is not read (R434). -/
def State.hoistRead (s : State) (d h : Nat) (f : Fixed) (va n : Nat) (acc : Acc) : Place :=
  match s.hoistPlace d h f va acc with
  | .ok pa s' => if s'.badIn pa n then .held s' else .ok pa s'
  | p => p

/-- Bytes read by a hoist with their poison mark, from memory or from a peer package. -/
def State.hoistBytes (s : State) (d n h : Nat) (f : Fixed) (va len : Nat) : Except Place ((List Byte × Bool) × State) :=
  if entPeer f.raw.toNat then (s.peerGet d n f va len).map (fun v => (v, s))
  else match s.hoistRead d h f va len .read with
    | .ok pa s' => .ok ((s'.bytesAt pa len, s'.poisoned pa), s')
    | p => .error p

/-- Sector i of a stream: its address. -/
def sluiceSector (w : Working) (h : Hoist) (i : Nat) : Option Nat :=
  fixedAt w h.src (fun k => hSc h.cmd.toNat k + if k = 0 then i else 0)

/-- Where an access of a hoist has stopped: its address, its place, and the state that the accesses before it have left (R390). -/
structure Stop where
  va : Nat
  place : Place
  st : State

/-- The bytes of n sectors of a stream from sector i, read in order; or where that stops. -/
def State.sluiceRead (s : State) (d n : Nat) (w : Working) (h : Hoist) :
    Nat → Nat → Except Stop (List Byte × Bool × State)
  | 0, _ => .ok ([], false, s)
  | f + 1, i =>
    match sluiceSector w h i with
    | none =>
      (match State.sluiceRead s d n w h f (i + 1) with
      | .ok (l, x, s') => .ok (List.replicate 32 0#8 ++ l, x, s')
      | .error p => .error p)
    | some va => match s.hoistBytes d n h.handle h.src va 32 with
      | .ok (v, s1) =>
        (match State.sluiceRead s1 d n w h f (i + 1) with
        | .ok (l, x, s') => .ok (v.1 ++ l, x || v.2, s')
        | .error p => .error p)
      | .error p => .error ⟨va, p, s⟩

/-- Code lengths of the table in 144 bytes of header and table (R288). -/
def codeLens (l : List Byte) : List Nat := (List.range 16).map (fun n => le l (16 + 8 * n + 4) 1)

/-- The first code of a length, in the canonical assignment; codes of a length follow one another in entry order (R288). -/
def firstCode (lens : List Nat) : Nat → Nat
  | 0 => 0
  | n + 1 => 2 * (firstCode lens n + (if n = 0 then 0 else (lens.filter (· == n)).length))

/-- The entry with a code of a length. -/
def codeEntry (lens : List Nat) (len code : Nat) : Option Nat :=
  let l := (List.range 16).filter (fun n => lens.getD n 0 == len)
  if firstCode lens len ≤ code then l[code - firstCode lens len]? else none

/-- A header and table that R287 and R288 allow, with the stream's length in sectors. -/
def sluiceHeaderOk (l : List Byte) (sectors : Nat) : Bool :=
  let lens := codeLens l
  let fmt := le l 3 1
  let cols := le l 6 2
  le l 0 2 == 0x51C3 && le l 2 1 == 1 && fmt ≤ 4 && 1 ≤ le l 4 2 && le l 4 2 ≤ 64 && cols % 32 == 0 && 32 ≤ cols &&
  cols ≤ 32 * fmtBlocks fmt && le l 12 4 == 0 && lens.all (fun n => n ≤ 15) &&
  (List.range 16).all (fun n => le l (16 + 8 * n + 5) 3 == 0) && le l (16 + 8 * 15) 4 == 0 && lens.getD 15 0 != 0 &&
  (List.range 15).all (fun n => firstCode lens (n + 1) + (lens.filter (· == n + 1)).length ≤ 2 ^ (n + 1)) &&
  sectors == (144 + (le l 8 4 + 7) / 8 + 31) / 32

/-- A sluice command breaks R286, R298 or, where its header can be read at once, R287 and R288. -/
def State.breaksSluice (s : State) (d h c : Nat) (hst : Hoist) : Bool :=
  let w := s.work h
  let src := w.entry (hSent c)
  entSize src != 32 || entDims src != 1 || (List.range 3).any (fun i => hN c (i + 1) != 1) ||
  (match sluiceIsland w c with
   | none => true
   | some i =>
     let o := (s.island i).op (bits c 45 40)
     o.claim != some (BitVec.ofNat 2 (bits c 47 46)) || o.fill != 0) ||
  (!entPeer src && match s.sluiceRead d 0 w hst 5 0 with
   | .ok (l, _, _) => !sluiceHeaderOk l (hN c 0)
   | .error _ => false)

/-! ### The fate of a command -/

/-- A hoist with a command, its bases and sides fixed (R291). -/
def State.takeCommand (s : State) (h owner : Nat) (issuer : Option Nat) (tile : Nat) (cmd : BitVec 512) : Hoist :=
  let w := s.work h
  let c := cmd.toNat
  let fix := fun n side => (⟨BitVec.ofNat 512 (w.entry n), sideBase (w.entry n) side, if entOwn (w.entry n) then tile else 0⟩ : Fixed)
  { busy := true, kind := BitVec.ofNat 3 (hKind c), id := BitVec.ofNat 16 (hId c), owner := BitVec.ofNat 8 owner, handle := h, issuer := issuer,
    cmd := cmd, src := fix (hSent c) (hSside c), dst := fix (hDent c) (if hKind c = 2 then 1 else hDside c), cmp := fix (hCent c) 0,
    depth := w.regions.length, bitPos := 144 * 8 }

/-- The lowest reason for which a command is refused (R501). -/
def State.hoistReason (s : State) (d h : Nat) (hst : Hoist) : Option Nat :=
  let w := s.work h
  let c := hst.cmd.toNat
  let k := hKind c
  let src := w.entry (hSent c)
  let dst := w.entry (hDent c)
  let cen := w.entry (hCent c)
  ([(1, hMalformed c),
    (2, (hNames c).any (fun n => entSpace (w.entry n) == 0)),
    (3, k != 4 && !entRead src),
    (4, (k != 1 && k != 3 && !entWrite dst) || !entWrite cen),
    (5, k == 0 && entSize src != entSize dst),
    (6, entSize cen != 4 || entDims cen != 1),
    (7, (hSside c == 1 && k != 4 && !entShv src) || (hDside c == 1 && k != 1 && k != 3 && !entShv dst)),
    (8, ((k == 3 || k == 4) && s.breaksStream h c) || (k == 2 && s.breaksColl h c)),
    (9, k == 1 && s.breaksSluice d h c hst),
    (10, k == 2 && w.regions.any (fun g => (keptEntries g).contains (hDent c)))].find? (fun p => p.2)).map (fun p => p.1)

/-- The lowest-numbered idle hoist of a die. -/
def Die.idleHoist (x : Die) : Option Nat := findFrom (fun n => !(x.hoist n).busy) 32 0

/-- SUB's collective and reduction (R302, R303). -/
def collKind (c : Nat) : Nat := bits c 41 40
def collOp (c : Nat) : Nat := bits c 45 42

/-- Coordinate k of element q of block b, blocks stacked along dimension d - 1 of an entry. -/
def blockCoord (c r : Nat) (start : Nat → Nat) (b q k : Nat) : Nat :=
  start k + hIndex c q k + if k + 1 = entDims r then b * hN c k else 0

/-- The addresses of a party's contribution, P blocks or one; and of its result. -/
def collSrc (w : Working) (h : Hoist) (p : Nat) : List (Option Nat) :=
  let c := h.cmd.toNat
  (List.range (if collKind c ≤ 1 then 1 else p)).flatMap (fun b =>
    (List.range (hCount c)).map (fun q => fixedAt w h.src (blockCoord c h.src.raw.toNat (hSc c) b q)))
def collDst (w : Working) (h : Hoist) (p : Nat) : List (Option Nat) :=
  let c := h.cmd.toNat
  (List.range (if collKind c = 0 || collKind c = 2 then 1 else p)).flatMap (fun b =>
    (List.range (hCount c)).map (fun q => fixedAt w h.dst (blockCoord c h.dst.raw.toNat (hDc c) b q)))

/-- TOTAL at acceptance (R308). -/
def hoistTotal (w : Working) (h : Hoist) : Nat :=
  let c := h.cmd.toNat
  match hKind c with
  | 0 => unitsFrom w h (hCount c) 0
  | 1 => 0xFFFFFFFF
  | 2 => unitRuns none (collDst w h (((w.coll (hId c)).map (fun b => b.parties)).getD 1))
  | _ => hN c 0

/-- What comes of a command: no idle hoist, a refusal with its reason, or an acceptance by a hoist. -/
inductive Handed
  | none
  | refused (reason : Nat)
  | accepted (n : Nat) (s : State)

/-- A command of a working handed to the hoists of a die. -/
def State.hand (s : State) (d h owner : Nat) (issuer : Option Nat) (tile : Nat) (cmd : BitVec 512) : Handed :=
  match (s.die d).idleHoist with
  | none => .none
  | some n =>
    let x := s.takeCommand h owner issuer tile cmd
    match s.hoistReason d h x with
    | some r => .refused r
    | none =>
      let x := { x with total := hoistTotal (s.work h) x, peerSeq := ((s.die d).hoist n).peerSeq }
      let s := s.modDie d (fun y => y.setHoist n x)
      .accepted n (match if hKind cmd.toNat = 1 then sluiceIsland (s.work h) cmd.toNat else none with
        | some i =>
          let k := bits cmd.toNat 45 40
          let o := (s.island i).op k
          (s.setIsland i (((s.island i).setOp k { o with fill := 1, data := [] }).clearBad k false)).modDie d (fun y => y.setHoist n x)
        | none => s)

/-- OWNER: quad × 4 + thread of a working's foreman thread. -/
def ownerByte (t : Nat) : Nat := t % 192

/-! ### HCOPY, HCOPYE and HQUERY -/

/-- HCOPY with its command read; idle says what it does where every hoist is busy. -/
def State.hcopyWith (s : State) (t rd : Nat) (l : List Byte) (tries : Bool) (busy : State → Out) : Out :=
  let h := (s.thread t).bound
  match s.hand (dieOfThread t) h (ownerByte t) none 0 (BitVec.ofNat 512 (ofBytes l)) with
  | .none => busy s
  | .refused r => .next (s.trapHere t { cause := 0x29, detail := r * 2 ^ 16 })
  | .accepted n s' =>
    let v := BitVec.ofNat 64 n
    if tries then s'.finishRd t rd v false else s'.finishReg t rd v

/-- HCOPY: the thread waits for an idle hoist. -/
def execHcopy (rd ra : Reg) (s : State) : Out :=
  s.onWorking [rd, ra] (fun t x => s.readRecord t (x.reg ra) (fun l s =>
    s.hcopyWith t rd l false (fun s => .next (s.sleep t (.hcopy (x.reg ra).toNat rd)))))

/-- HCOPY.try. -/
def execHcopyTry (rd ra : Reg) (s : State) : Out :=
  s.onWorking [rd, ra] (fun t x => s.readRecord t (x.reg ra) (fun l s =>
    s.hcopyWith t rd l true (fun s => s.finishF t true)))

/-- The command of an HCOPYE: A's lanes, then B's (R230). -/
def hcopyeCmd (a : Access) : BitVec 512 := BitVec.ofNat 512 (ofBytes (lanesBytes a.a.p 32 ++ lanesBytes a.b.p 32))

/-- HOIST_ACCEPT: a waiting command is accepted by an idle hoist, or refused (R291, R501). -/
def execHoistAccept (req : Requester) (s : State) : Out :=
  match req with
  | .thread t => match s.waitOf t with
    | .hcopy ea rd => s.readRecord t (BitVec.ofNat 64 ea) (fun l s => s.hcopyWith t rd l false (fun s => .next s))
    | _ => .next s
  | .elem e => match s.macroDue e with
    | none => .next s
    | some a =>
      if a.op ≠ 0xCB then .next s
      else
        let h := s.owner e
        let w := s.work h
        match s.hand (dieOf e) h (ownerByte w.thread) (some e) (w.relTile (tileOf e)) (hcopyeCmd a) with
        | .none => .next s
        | .refused r => .next (s.refuseAcc e a { cause := 0x29, detail := s.accDetail e a r })
        | .accepted n s' => .next (s'.macElemDone e a (fun b => { b with prg := 1 }.reply (scalar n)))

/-- HSTAT0 and HSTAT1 (R308). -/
def Hoist.hstat0 (h : Hoist) : DWord :=
  BitVec.ofNat 64 (b2n h.busy + h.kind.toNat * 2 + h.id.toNat * 2 ^ 16 + h.prg % 2 ^ 32 * 2 ^ 32)
def Hoist.hstat1 (h : Hoist) : DWord := BitVec.ofNat 64 (h.total % 2 ^ 32 + h.owner.toNat * 2 ^ 32)

/-- HQUERY fn 0. -/
def execHqueryHstat0 (rd ra : Reg) (s : State) : Out :=
  s.onWorking [rd, ra] (fun t x => s.finishReg t rd ((s.die (dieOfThread t)).hoist ((x.reg ra).toNat % 32)).hstat0)

/-- HQUERY fn 1. -/
def execHqueryHstat1 (rd ra : Reg) (s : State) : Out :=
  s.onWorking [rd, ra] (fun t x => s.finishReg t rd ((s.die (dieOfThread t)).hoist ((x.reg ra).toNat % 32)).hstat1)

/-! ### PUBLISH (R296, R347, R507) -/

/-- The flip of an entry's SEL. -/
def Working.flip (w : Working) (n : Nat) : Working :=
  { w with layout := SMap.set 0 w.layout n (BitVec.ofNat 512 (w.entry n) ^^^ 8#512) }

/-- PUBLISH. -/
def execPublish (ra : Reg) (_sc : Scope) (s : State) : Out :=
  s.onWorking [ra] (fun t x =>
    let w := s.work x.bound
    let n := (x.reg ra).toNat % 256
    if entSpace (w.entry n) = 0 || !entShv (w.entry n) then .next (s.trapHere t { cause := 0x01, detail := n })
    else if w.regions.any (fun g => (keptEntries g).contains n) then .next (s.trapHere t { cause := 0x60 })
    else (s.setWork x.bound (w.flip n)).finish t x)

/-! ### Faults of a unit (R486, R491, R494) -/

/-- Bits [15:0] of the DETAIL of a hoist's fault: INDEX of the issuing element, or 0x7FFF. -/
def State.hoistIndex (s : State) (h : Hoist) : Nat :=
  match h.issuer with
  | some e => blockIndex (s.work h.handle) e * 8 + posOf e
  | none => 0x7FFF

/-- A hoist stopped at a unit by a fault: the working freezes, and the unit is retried on resume. -/
def State.hoistFault (s : State) (d n : Nat) (i : TrapInfo) : State :=
  let h := (s.die d).hoist n
  (s.modHoist d n (fun h => { h with halted := true })).raiseFault h.handle ((s.work h.handle).thread / 4)
    { i with eid := h.issuer.getD 0xFFFF }

/-- What becomes of a unit whose place is no location. -/
def State.hoistNoPlace (s : State) (d n va : Nat) (acc : Acc) (p : Place) : State :=
  let h := (s.die d).hoist n
  match p with
  | .refuse r => s.hoistFault d n { cause := r.cause, detail := s.hoistIndex h + 2 ^ 16 * r.detail acc (some n) false, va := va }
  | .sent s' => s'
  | .held s' => s'
  | _ => s

/-- Bytes of one sector written by a hoist; none where the undo log is full (R351, R441). -/
def State.putSector (s : State) (h : Nat) (l : List (Nat × Byte)) (x : Bool) : Option State :=
  match l with
  | [] => some s
  | p :: _ =>
    let sec := sectorOf p.1
    if !s.undoRoom h sec then none
    else
      let k := coversCount sec l
      let s := (s.saveUndo h sec).setBytes sec (overSector sec ((s.saveUndo h sec).bytesAt sec 32) l)
      some (((s.markWrite sec k x).partWrite h sec (inList l)).touchWatches sec 32)

/-- Bytes of one sector written by a hoist of a working, in memory or at a peer package. -/
def State.hoistPut (s : State) (d n h : Nat) (f : Fixed) (va : Nat) (l : List Byte) (x : Bool) : Except Place State :=
  if entPeer f.raw.toNat then s.peerPut d n f va l x
  else match s.hoistPlace d h f va .write with
    | .ok pa s' => (match s'.putSector h (addrBytes pa l) x with
      | some s'' => .ok s''
      | none => .error (.ok pa s'))
    | p => .error p

/-- A write that finds the undo log full. -/
def State.hoistFull (s : State) (d n pa : Nat) : State :=
  s.hoistFault d n { cause := 0x61, detail := (s.work ((s.die d).hoist n).handle).relTile ((windowTile pa).getD 0) }

/-- What becomes of a read, or a write, of a hoist that has stopped; a write at a location has found the undo log full. -/
def Stop.readFails (p : Stop) (d n : Nat) : State := p.st.hoistNoPlace d n p.va .read p.place
def Stop.writeFails (p : Stop) (d n : Nat) : State :=
  match p.place with
  | .ok pa s => s.hoistFull d n pa
  | q => p.st.hoistNoPlace d n p.va .write q

/-- The hoist is at work: busy, not stopped, and its working neither killed, saved nor about to be saved. -/
def State.hoistLive (s : State) (d n : Nat) : Bool :=
  let h := (s.die d).hoist n
  h.busy && !h.halted && (s.work h.handle).killing.isNone && (s.work h.handle).savedAt.isNone && !(s.work h.handle).gated

/-! ### Copies (R293, R294) -/

/-- A source element: its bytes and poison; out of range it reads zero. -/
def State.copyRead (s : State) (d : Nat) (w : Working) (h : Hoist) (k q : Nat) : Except Stop ((List Byte × Bool) × State) :=
  let size := entSize h.src.raw.toNat
  match hSrc w h q with
  | none => .ok ((List.replicate size 0#8, false), s)
  | some va =>
    if entPeer h.src.raw.toNat then
      match h.got.find? (fun p => p.1 == k) with
      | some p => .ok (p.2, s)
      | none => .error ⟨va, .park, s⟩
    else match s.hoistRead d h.handle h.src va size .read with
      | .ok pa s' => .ok ((s'.bytesAt pa size, s'.poisoned pa), s')
      | p => .error ⟨va, p, s⟩

/-- The sources of a unit, from element k on. -/
def State.copyReads (s : State) (d : Nat) (w : Working) (h : Hoist) :
    Nat → Nat → Except (Nat × Stop) (List (List Byte × Bool) × State)
  | 0, _ => .ok ([], s)
  | f + 1, k =>
    match s.copyRead d w h k (h.pos + k) with
    | .error p => .error (k, p)
    | .ok (v, s1) => match State.copyReads s1 d w h f (k + 1) with
      | .error p => .error p
      | .ok (l, s2) => .ok (v :: l, s2)

/-- A unit done. -/
def State.unitDone (s : State) (d n len : Nat) : State :=
  let h := (s.die d).hoist n
  (s.modHoist d n (fun h => { h with prg := h.prg + 1, pos := h.pos + len, got := [], sent := false, again := [] })).canaryEvent h.handle

/-- The writes of a unit, in copy order, so that a later element stands over an earlier one. -/
def unitBytes (w : Working) (h : Hoist) (pa : Nat) (l : List (List Byte × Bool)) : List (Nat × Byte) :=
  ((List.range l.length).flatMap (fun k =>
    match hDst w h (h.pos + k) with
    | some va => addrBytes (pa + va % 32) (l.getD k ([], false)).1
    | none => [])).reverse

/-- A unit of a copy: every source is read, then the sector is written. Writes to a peer package, once sent, are awaited, and nothing of the unit
is translated again (R392, R396). -/
def State.copyUnit (s : State) (d n : Nat) : State :=
  let h := (s.die d).hoist n
  let w := s.work h.handle
  let len := unitLen w h h.pos
  if h.sent then (if h.peers.isEmpty then s.unitDone d n len else s)
  else match s.copyReads d w h len 0 with
  | .error (k, ⟨va, .park, s1⟩) =>
    if h.peers.any (fun p => p.2 == k) then s1 else s1.hoistSend d n 0 k h.src va (entSize h.src.raw.toNat) false []
  | .error (_, p) => p.readFails d n
  | .ok (l, s1) =>
    let x := l.any (fun v => v.2)
    match hDst w h h.pos with
    | none => s1.unitDone d n len
    | some va =>
      if entPeer h.dst.raw.toNat then
        (forN (fun k s => match hDst w h (h.pos + k) with
          | some va => s.hoistSend d n 1 k h.dst va (entSize h.dst.raw.toNat) (l.getD k ([], false)).2 (l.getD k ([], false)).1
          | none => s) len 0 s1).modHoist d n (fun h => { h with sent := true })
      else match s1.hoistPlace d h.handle h.dst va .write with
        | .ok pa s2 => (match s2.putSector h.handle (unitBytes w h (sectorOf pa) l) x with
          | some s3 => s3.unitDone d n len
          | none => s2.hoistFull d n pa)
        | p => s1.hoistNoPlace d n va .write p

/-- HOIST_UNIT: the next unit of a copy. -/
def execHoistUnit (d n : Nat) (s : State) : Out :=
  let h := (s.die d).hoist n
  .next (if s.hoistLive d n && h.kind = 0 && h.pos < hCount h.cmd.toNat then s.copyUnit d n else s)

/-! ### Completion (R295) -/

/-- A word written by a hoist to an element of its completion entry; out of range it writes nothing. -/
def State.writeWord (s : State) (d n : Nat) (h : Hoist) (cc v : Nat) : Except Stop State :=
  match fixedAt (s.work h.handle) h.cmp (fun k => if k = 0 then cc else 0) with
  | none => .ok s
  | some va => (s.hoistPut d n h.handle h.cmp va (toBytes 4 v) false).mapError (fun p => ⟨va, p, s⟩)

/-- The hoist becomes idle; its last command's status stays (R308). -/
def State.freeHoist (s : State) (d n : Nat) : State :=
  s.modHoist d n (fun h => { h with busy := false, halted := false, peers := [], got := [], sent := false, again := [], flipped := false })

/-- Every payload write of a command has performed: a copy's elements, a sluice's blocks, a collective's results at every party. -/
def Hoist.payloadDone (h : Hoist) : Bool :=
  (h.kind == 0 && hCount h.cmd.toNat ≤ h.pos) || ((h.kind == 1 || h.kind == 2) && h.prg == h.total)

/-- The completion word of a hoist, and its end. -/
def State.completeHoist (s : State) (d n : Nat) : State :=
  let h := (s.die d).hoist n
  if hNcw h.cmd.toNat then s.freeHoist d n
  else if entPeer h.cmp.raw.toNat then
    (if h.sent then (if h.peers.isEmpty then s.freeHoist d n else s)
     else match fixedAt (s.work h.handle) h.cmp (fun k => if k = 0 then hCc h.cmd.toNat else 0) with
      | some va => (s.hoistSend d n 1 0 h.cmp va 4 false (toBytes 4 (hCv h.cmd.toNat))).modHoist d n (fun h => { h with sent := true })
      | none => s.freeHoist d n)
  else match s.writeWord d n h (hCc h.cmd.toNat) (hCv h.cmd.toNat) with
    | .ok s' => (s'.freeHoist d n).canaryEvent h.handle
    | .error p => p.writeFails d n

/-- HOIST_COMPLETION_WORD; that of a collective follows the flip (R304). -/
def execHoistCompletionWord (d n : Nat) (s : State) : Out :=
  let h := (s.die d).hoist n
  .next (if s.hoistLive d n && h.payloadDone && (h.kind != 2 || h.flipped) then s.completeHoist d n else s)

end Sys2Proof.Machine
end

