-- ==== Sys2Proof/Machine/Engines.lean ====
section
/-! DEFINITION. Sluice fills (R286 to R289, R298), streams between dies (R299, R300), and collectives with their aborts (R301 to R304, R517,
R518). -/

namespace Sys2Proof.Machine

open Sys2Proof

/-! ### Sluice fills -/

/-- Bit k of bytes (R289). -/
def bitOf (l : List Byte) (k : Nat) : Bool := bit (l.getD (k / 8) 0).toNat (k % 8)

/-- n bits from bit k, the first least significant; and the first most significant. -/
def bitsLow (l : List Byte) (k n : Nat) : Nat := (List.range n).foldr (fun i v => 2 * v + b2n (bitOf l (k + i))) 0
def bitsHigh (l : List Byte) (k n : Nat) : Nat := (List.range n).foldl (fun v i => 2 * v + b2n (bitOf l (k + i))) 0

/-- The sectors that hold bits pos to pos + len - 1 of a stream, and where bit pos stands in them; none where the stream ends before
them. -/
def State.sluiceBits (s : State) (d n : Nat) (w : Working) (h : Hoist) (pos len : Nat) :
    Except Stop (Option (List Byte × Nat) × Bool × State) :=
  let first := pos / 256
  if hN h.cmd.toNat 0 * 256 < pos + len then .ok (none, false, s)
  else match s.sluiceRead d n w h ((pos + len + 255) / 256 - first) first with
    | .ok (l, x, s') => .ok (some (l, pos - first * 256), x, s')
    | .error p => .error p

/-- The entry and length of the code that begins at a bit; codes are tried from length len on, with fuel. -/
def State.sluiceCode (s : State) (d n : Nat) (w : Working) (h : Hoist) (lens : List Nat) :
    Nat → Nat → Except Stop (Option (Nat × Nat) × Bool × State)
  | 0, _ => .ok (none, false, s)
  | f + 1, len =>
    match s.sluiceBits d n w h h.bitPos len with
    | .error p => .error p
    | .ok (none, x, s') => .ok (none, x, s')
    | .ok (some (l, k), x, s') =>
      match codeEntry lens len (bitsHigh l k len) with
      | some c => .ok (some (c, len), x, s')
      | none => match State.sluiceCode s' d n w h lens f (len + 1) with
        | .ok (r, y, s'') => .ok (r, x || y, s'')
        | .error p => .error p

/-- The set bits of a mask below n, lowest first. -/
def maskBits (m n : Nat) : List Nat := (List.range n).filter (fun j => bit m j)

/-- A block: the value of each of its 32 columns and the bit after it. A body that no code of the table matches, or that ends early, gives
none. -/
def State.sluiceDecode (s : State) (d n : Nat) (w : Working) (h : Hoist) (head : List Byte) :
    Except Stop (Option (List Nat × Nat) × Bool × State) :=
  let lens := codeLens head
  let wide := if le head 3 1 ≤ 1 then 16 else 8
  match s.sluiceCode d n w h lens 15 1 with
  | .error p => .error p
  | .ok (none, x, s1) => .ok (none, x, s1)
  | .ok (some (c, len), x, s1) =>
    let pos := h.bitPos + len
    match (if c = 15 then s1.sluiceBits d n w h pos 32 else .ok (some ([], 0), false, s1)) with
    | .error p => .error p
    | .ok (none, y, s2) => .ok (none, x || y, s2)
    | .ok (some (l, k), y, s2) =>
      let mask := if c = 15 then bitsLow l k 32 else le head (16 + 8 * c) 4
      let pos := if c = 15 then pos + 32 else pos
      let set := maskBits mask 32
      match s2.sluiceBits d n w h pos (wide * set.length) with
      | .error p => .error p
      | .ok (none, z, s3) => .ok (none, x || y || z, s3)
      | .ok (some (v, i), z, s3) =>
        let vals := (List.range 32).map (fun j =>
          if bit mask j then bitsLow v (i + wide * popc j mask) wide else 0)
        .ok (some (vals, pos + wide * set.length), x || y || z, s3)

/-- 32 free values, for a block that R289 does not decode. -/
def State.freeColumns (s : State) : List Nat × State :=
  ((List.range 32).map (fun j => (Config.freeValue (s.free + j)).toNat), { s with free := s.free + 32 })

/-- A block written into the slot; after the last the slot is full. A block that a restored command has had before is only passed over (R308). -/
def State.sluicePut (s : State) (d n isl : Nat) (head : List Byte) (vals : List Nat) (pos : Nat) (x : Bool) : State :=
  let h := (s.die d).hoist n
  let wide := if le head 3 1 ≤ 1 then 2 else 1
  let perRow := le head 6 2 / 32
  let total := le head 4 2 * perRow
  let k := bits h.cmd.toNat 45 40
  let o := (s.island isl).op k
  let o := o.setBytes (128 * (h.prg / perRow) + 32 * wide * (h.prg % perRow)) ((vals.map (toBytes wide)).flatten)
  let o := { o with fmt := le head 3 1, psn := o.psn || x, fill := if h.prg + 1 = total then 2 else 1 }
  if h.skip = 0 then
    ((s.setIsland isl ((s.island isl).setOp k o)).modHoist d n (fun h =>
      { h with prg := h.prg + 1, bitPos := pos, total := if total ≤ h.prg + 2 then total else 0xFFFFFFFF })).canaryEvent h.handle
  else s.modHoist d n (fun h => { h with bitPos := pos, skip := h.skip - 1 })

/-- SLUICE_BLOCK: the next block of a sluice fill (R289). A stream whose header or code table is found bad only here stops the command as R501
says, with the slot left as it is (log entry 64). -/
def execSluiceBlock (d n : Nat) (s : State) : Out :=
  let h := (s.die d).hoist n
  let w := s.work h.handle
  .next (if !s.hoistLive d n || h.kind ≠ 1 || h.payloadDone then s
  else match sluiceIsland w h.cmd.toNat with
    | none => s
    | some isl => match s.sluiceRead d n w h 5 0 with
      | .error p => p.readFails d n
      | .ok (head, x, s1) =>
        if !sluiceHeaderOk head (hN h.cmd.toNat 0) then s1.hoistFault d n { cause := 0x29, detail := s.hoistIndex h + 9 * 2 ^ 16 }
        else match s1.sluiceDecode d n w h head with
          | .error p => p.readFails d n
          | .ok (some (vals, pos), y, s2) => s2.sluicePut d n isl head vals pos (x || y)
          | .ok (none, y, s2) =>
            let r := s2.freeColumns
            r.2.sluicePut d n isl head r.1 h.bitPos (x || y))

/-! ### Streams (R300) -/

/-- A 32-bit control word read by a hoist; one out of range reads zero. -/
def State.readWord (s : State) (d n : Nat) (h : Hoist) (cc : Nat) : Except Stop (Nat × State) :=
  match fixedAt (s.work h.handle) h.cmp (fun k => if k = 0 then cc else 0) with
  | none => .ok (0, s)
  | some va => match s.hoistBytes d n h.handle h.cmp va 4 with
    | .ok (v, s') => .ok (ofBytes v.1, s')
    | .error p => .error ⟨va, p, s⟩

/-- A record moved from the send ring to the receive ring. -/
def State.moveRecord (s : State) (d n : Nat) (h : Hoist) (d' n' : Nat) (h' : Hoist) (i : Nat) : State :=
  let w := s.work h.handle
  let w' := s.work h'.handle
  let src := fixedAt w h.src (fun k => if k = 0 then i % entExt h.src.raw.toNat 0 else 0)
  let dst := fixedAt w' h'.dst (fun k => if k = 0 then i % entExt h'.dst.raw.toNat 0 else 0)
  match (match src with
    | none => Except.ok ((List.replicate 32 0#8, false), s)
    | some va => s.hoistBytes d n h.handle h.src va 32) with
  | .error p => (⟨src.getD 0, p, s⟩ : Stop).readFails d n
  | .ok (data, s1) =>
    match (match dst with
      | none => Except.ok s1
      | some va => s1.hoistPut d' n' h'.handle h'.dst va data.1 data.2) with
    | .error p => (⟨dst.getD 0, p, s1⟩ : Stop).writeFails d' n'
    | .ok s3 => match s3.writeWord d' n' h' (hCc h'.cmd.toNat) (i + 1) with
      | .error p => p.writeFails d' n'
      | .ok s4 => match s4.writeWord d n h (hCc h.cmd.toNat) (i + 1) with
        | .error p => p.writeFails d n
        | .ok s5 =>
          let s6 := (s5.modHoist d n (fun h => { h with prg := i + 1, got := [] })).modHoist d' n' (fun h => { h with prg := i + 1, got := [] })
          let s7 := (s6.canaryEvent h.handle).canaryEvent h'.handle
          if i + 1 = hN h.cmd.toNat 0 then (s7.freeHoist d n).freeHoist d' n' else s7

/-- STREAM_RECORD_MOVE: the sender's hoist moves its next record once it is posted and the receive ring has room. -/
def execStreamRecordMove (d n : Nat) (s : State) : Out :=
  let h := (s.die d).hoist n
  .next (if !s.hoistLive d n || h.kind ≠ 3 then s
  else match s.otherEnd 3 h.id.toNat with
    | none => s
    | some (d', n', h') =>
      if !s.hoistLive d' n' then s
      else match s.readWord d n h (hCc h.cmd.toNat + 1) with
        | .error p => p.readFails d n
        | .ok (posted, s1) => match s1.readWord d' n' h' (hCc h'.cmd.toNat + 1) with
          | .error p => p.readFails d' n'
          | .ok (consumed, s2) =>
            if h.prg < posted && h.prg < consumed + entExt h'.dst.raw.toNat 0 then s2.moveRecord d n h d' n' h' h.prg
            else (s2.forgetPeers d n).forgetPeers d' n')

/-! ### Collectives (R301 to R304) -/

/-- A contribution read, element by element; out of range it is zero. -/
def State.collRead (s : State) (d n h : Nat) (f : Fixed) (size : Nat) :
    List (Option Nat) → Except Stop (List (List Byte × Bool) × State)
  | [] => .ok ([], s)
  | none :: r => (match State.collRead s d n h f size r with
    | .ok (l, s') => .ok ((List.replicate size 0#8, false) :: l, s')
    | .error p => .error p)
  | some va :: r => match s.hoistBytes d n h f va size with
    | .ok (v, s1) => (match State.collRead s1 d n h f size r with
      | .ok (l, s') => .ok (v :: l, s')
      | .error p => .error p)
    | .error p => .error ⟨va, p, s⟩

/-- The elements of a list of bytes. -/
def elemsOf (size : Nat) (l : List Byte) : List (List Byte × Bool) :=
  (List.range (l.length / max size 1)).map (fun i => (sliceB l (size * i) size, false))

/-- A reduction of one element over the parties (R303): its bytes, and whether the sector is poisoned. -/
def collReduce (op : Nat) (l : List (List Byte × Bool)) : List Byte × Bool :=
  let vs := l.map (fun v => ofBytes v.1)
  let r := if op = 8 then sumFloats .f32 vs
    else match vs with
      | [] => (0, false)
      | v :: r => (r.foldl (fun a b => (amoNew op a b).1) v, false)
  (toBytes 4 r.1, r.2 || l.any (fun v => v.2))

/-- What party k receives from the contributions in rank order, n elements to a block. -/
def collResult (c n k : Nat) (all : List (List (List Byte × Bool))) : List (List Byte × Bool) :=
  let at' := fun (l : List (List Byte × Bool)) (i : Nat) => l.getD i ([], false)
  match collKind c with
  | 0 => (List.range n).map (fun q => collReduce (collOp c) (all.map (fun l => at' l q)))
  | 1 => all.flatMap (fun l => (List.range n).map (fun q => at' l q))
  | 2 => (List.range n).map (fun q => collReduce (collOp c) (all.map (fun l => at' l (k * n + q))))
  | _ => all.flatMap (fun l => (List.range n).map (fun q => at' l (k * n + q)))

/-- A result written to the shadow side, element by element. -/
def State.collWrite (s : State) (d n h : Nat) (f : Fixed) :
    List (Option Nat × (List Byte × Bool)) → Except Stop State
  | [] => .ok s
  | (none, _) :: r => State.collWrite s d n h f r
  | (some va, v) :: r => match s.hoistPut d n h f va v.1 v.2 with
    | .ok s1 => State.collWrite s1 d n h f r
    | .error p => .error ⟨va, p, s⟩

/-- A party of this package: its hoist, its rank and what it contributes. -/
structure Party where
  handle : Nat
  die : Nat
  num : Nat
  hoist : Hoist
  bind : CollBind

/-- The party of a working in a collective, until its side is published. -/
def State.party (s : State) (ident h : Nat) : Option Party :=
  match s.inFlight h 2 ident, (s.work h).coll ident with
  | some (d, n, x), some b => if s.hoistLive d n && !x.flipped then some ⟨h, d, n, x, b⟩ else none
  | _, _ => none

/-- The contributions of parties of this package, by rank. -/
def State.contributions (s : State) : List Party → Except (Party × Stop) (List (Nat × List (List Byte × Bool)) × State)
  | [] => .ok ([], s)
  | p :: r =>
    let w := s.work p.handle
    match s.collRead p.die p.num p.handle p.hoist.src (entSize p.hoist.src.raw.toNat) (collSrc w p.hoist p.bind.parties) with
    | .error q => .error (p, q)
    | .ok (l, s1) => match State.contributions s1 r with
      | .error e => .error e
      | .ok (m, s2) => .ok ((p.bind.rank, l) :: m, s2)

/-- The results of parties of this package. -/
def State.results (s : State) (all : List (List (List Byte × Bool))) : List Party → Except (Party × Stop) State
  | [] => .ok s
  | p :: r =>
    let w := s.work p.handle
    let c := p.hoist.cmd.toNat
    match s.collWrite p.die p.num p.handle p.hoist.dst ((collDst w p.hoist p.bind.parties).zip (collResult c (hCount c) p.bind.rank all)) with
    | .error q => .error (p, q)
    | .ok s1 => State.results s1 all r

/-- The source identifier of the haulage engine of a die's port 0, which carries its collectives (R306, log entry 14). -/
def engineSource (d : Nat) : Nat := d * 16384 + 63 * 256 + 1

/-- A flit of a collective to the party of a rank, and the payload flits that follow it (R305): bytes 24 to 63 are data. -/
def State.collFlit (s : State) (h kind : Nat) (b : CollBind) (dst seq : Nat) (data : List Byte) (payload : List Byte) : FlitOut :=
  let e := (b.table.getD dst 0).toNat
  ⟨sliceB (toBytes 1 kind ++ toBytes 1 ((payload.length + 63) / 64) ++ toBytes 2 (bits e 8 0) ++ toBytes 2 s.package ++
    toBytes 2 (engineSource (s.work h).die) ++ toBytes 2 seq ++ toBytes 2 (s.work h).asid ++ toBytes 7 0 ++ toBytes 1 0 ++
    toBytes 2 b.id ++ toBytes 2 dst ++ data) 0 64, payload⟩

/-- A flit of type 5: 0 says finished, 1 aborts with a cause and the killed party's rank (R517). -/
def State.controlFlit (s : State) (h : Nat) (b : CollBind) (dst what cause rank : Nat) : FlitOut :=
  s.collFlit h 5 b dst (s.die (s.work h).die).engineSeq.toNat (toBytes 1 what ++ toBytes 1 cause ++ toBytes 2 rank) []

/-- A flit sent by the haulage engine of a working's die, under its next number. -/
def State.engineSend (s : State) (h : Nat) (f : FlitOut) : State :=
  (s.modDie (s.work h).die (fun x => { x with engineSeq := x.engineSeq + 1 })).haul h [f]

/-- The ranks of a collective that other packages hold. -/
def State.farRanks (s : State) (b : CollBind) : List Nat :=
  (List.range b.parties).filter (fun k => bits (b.table.getD k 0).toNat 8 0 != s.package)

/-- A contribution cut into flits of type 4 of at most 64 payload flits; one of 40 bytes or fewer goes in the header flit (R305, log entry
14). -/
def chunks : Nat → List Byte → List (List Byte)
  | 0, _ => []
  | f + 1, l => if l.length ≤ 4096 then [l] else l.take 4096 :: chunks f (l.drop 4096)

/-- A party's contribution sent to the parties of other packages. -/
def State.sendData (s : State) (h : Nat) (b : CollBind) (l : List Byte) : State :=
  (s.farRanks b).foldl (fun s k => (chunks (l.length / 4096 + 1) l).foldl (fun s c =>
    s.engineSend h (s.collFlit h 4 b k (s.die (s.work h).die).engineSeq.toNat (if c.length ≤ 40 then c else [])
      (if c.length ≤ 40 then [] else c))) s) s

/-- A party's results have performed: its finished notices go to the parties of other packages, in one step (R518). -/
def State.partyWrote (s : State) (p : Party) : State :=
  let s := s.modHoist p.die p.num (fun h => { h with prg := h.total })
  (s.farRanks p.bind).foldl (fun s k => s.engineSend p.handle (s.controlFlit p.handle p.bind k 0 0 0)) s

/-- A party's end: its entry is flipped, then its completion word written, at once or, after a fault of it, on resume (R304, R494). -/
def State.finishParty (s : State) (p : Party) : State :=
  let s := (s.modWork p.handle (fun w => w.flip (hDent p.hoist.cmd.toNat))).modHoist p.die p.num (fun h => { h with flipped := true })
  (s.completeHoist p.die p.num).canaryEvent p.handle

/-- The parties' contributions and results: every party has contributed, those of other packages by the bytes given with their ranks. Or where
that stops. -/
def State.collRun (s : State) (ps : List Party) (remote : List (Nat × List Byte)) : Option State :=
  match ps with
  | [] => none
  | p :: _ =>
    let c := p.hoist.cmd.toNat
    let far := remote.filter (fun r => (s.farRanks p.bind).contains r.1)
    let size := entSize p.hoist.src.raw.toNat
    let len := (if collKind c ≤ 1 then 1 else p.bind.parties) * hCount c * size
    if ps.any (fun q => q.hoist.payloadDone) || !(ps.all (fun q => hAgree c q.hoist.cmd.toNat)) ||
        !((List.range p.bind.parties).all (fun k => ps.any (fun q => q.bind.rank == k) || far.any (fun r => r.1 == k))) ||
        !(far.all (fun r => r.2.length == len)) then none
    else match s.contributions ps with
      | .error (q, t) => some (t.readFails q.die q.num)
      | .ok (l, s1) =>
        let all := (List.range p.bind.parties).map (fun k => match l.find? (fun r => r.1 == k) with
          | some r => r.2
          | none => match far.find? (fun r => r.1 == k) with
            | some r => elemsOf size r.2
            | none => [])
        match s1.results all ps with
        | .error (q, t) => some (t.writeFails q.die q.num)
        | .ok s2 =>
          let s3 := ps.foldl (fun s q => match l.find? (fun r => r.1 == q.bind.rank) with
            | some r => s.sendData q.handle q.bind (r.2.flatMap (fun v => v.1))
            | none => s) s2
          some (ps.foldl State.partyWrote s3)

/-- COLLECTIVE_COMPLETE: the parties of this package write their results once every party has contributed, and finish once every party of another
package has sent its finished notice; contributions and notices of other packages are given (R304, R518, log entry 14). -/
def execCollectiveComplete (h ident : Nat) (peers : List Nat) (far : FarParties) (s : State) : Out :=
  let hs := (h :: peers).eraseDups
  let parties := fun (s : State) => hs.filterMap (s.party ident)
  let ps := parties s
  .next (if ps.length ≠ hs.length then s
  else
    let s1 := (s.collRun ps far.given).getD s
    let ps1 := parties s1
    if ps1.all (fun p => p.hoist.payloadDone && (s1.farRanks p.bind).all far.finished.contains) then ps1.foldl State.finishParty s1 else s1)

/-! ### Aborts (R517) -/

/-- A party of this package learns of an abort: its command stops and its working freezes; one that has finished completes (R518). -/
def State.abortParty (s : State) (h ident cause detail : Nat) (kind : Nat) : State :=
  match s.inFlight h kind ident with
  | none => s
  | some (d, n, x) =>
    if x.flipped || (kind != 2 && x.payloadDone) then s else (s.freeHoist d n).raiseFault h ((s.work h).thread / 4) { cause := cause, detail := detail }

/-- DETAIL of cause 0x53. -/
def abortDetail (ident pkg die rank : Nat) : Nat := ident + pkg % 2 ^ 9 * 2 ^ 16 + die % 4 * 2 ^ 25 + rank % 2 ^ 16 * 2 ^ 32

/-- The working of this package bound to an identifier and a rank. -/
def State.boundTo (s : State) (ident rank : Nat) : Option Nat :=
  (s.works.find? (fun p => p.2.colls.any (fun b => b.id == ident && b.rank == rank))).map (fun p => p.1)

/-- A collective command of a working cancelled: its package tells every other party. -/
def State.abortColl (s : State) (h : Nat) (x : Hoist) (cause : Nat) : State :=
  match (s.work h).coll x.id.toNat with
  | none => s
  | some b =>
    let s := (s.farRanks b).foldl (fun s k => s.engineSend h (s.controlFlit h b k 1 cause b.rank)) s
    (List.range b.parties).foldl (fun s k =>
      if k = b.rank then s
      else match s.boundTo b.id k with
        | some g => s.abortParty g b.id 0x53 (abortDetail b.id s.package (s.work h).die b.rank) 2
        | none => s) s

/-- A stream command of a working cancelled: the other working's end is aborted with cause 0x54. -/
def State.abortStream (s : State) (x : Hoist) : State :=
  match s.otherEnd x.kind.toNat x.id.toNat with
  | some (_, _, y) => s.abortParty y.handle y.id.toNat 0x54 y.id.toNat y.kind.toNat
  | none => s

/-- A command cancelled: a slot that a sluice was filling stays as it is; the other parties of a collective or stream are told. -/
def State.cancelHoist (s : State) (d n cause : Nat) : State :=
  let x := (s.die d).hoist n
  let s := s.freeHoist d n
  if x.kind = 2 then (if x.payloadDone then s else s.abortColl x.handle x cause) else if x.kind = 3 || x.kind = 4 then s.abortStream x else s

/-- COLLECTIVE_ABORT_RECEIVE. -/
def execCollectiveAbortReceive (f : AbortFlit) (s : State) : Out :=
  .next (match s.boundTo f.ident f.dest with
    | some h => s.abortParty h f.ident 0x53 (abortDetail f.ident f.package f.die f.rank) 2
    | none => s)

end Sys2Proof.Machine
end

