-- ==== Sys2Proof/Machine/Regions.lean ====
section
/-! DEFINITION. Recovery regions: RVKEEP, RVBEG and RVEND (R349 to R352, R507, R532), the completion of a stop (R339 to R341, R350), and INVR with
its acknowledgement (R348, R396). -/

namespace Sys2Proof.Machine

open Sys2Proof

/-! ### Items (R349) -/

def itemKind (k : Nat) : Nat := bits k 1 0
def itemEntry (k : Nat) : Nat := bits k 15 8

/-- An entry is kept by an open region. -/
def Working.keepsEntry (w : Working) (n : Nat) : Bool := w.regions.any (fun g => (keptEntries g).contains n)

/-- An item that RVKEEP takes: its kind and its fields are those of the table, it names what the working has (log entry 21), and an entry that a
flip would publish is free to be kept. -/
def State.itemOk (s : State) (h k : Nat) : Bool :=
  let w := s.work h
  let r := w.entry (itemEntry k)
  bits k 7 2 == 0 && bits k 63 40 == 0 &&
  match itemKind k with
  | 0 => bits k 39 16 == 0 && (entSpace r == 2 || (entSpace r != 0 && entShv r && !w.keepsEntry (itemEntry k))) &&
         !s.busyHoists.any (fun p => p.2.2.handle == h && p.2.2.kind == 2 && hDent p.2.2.cmd.toNat == itemEntry k)
  | 1 => bits k 19 8 == 0xFFF || bits k 19 8 < w.width * w.height
  | 2 => bits k 39 24 == 0 && w.islands && bits k 15 8 < w.tileCount
  | _ => false

/-- RVKEEP. -/
def execRvkeep (ra : Reg) (s : State) : Out :=
  s.onWorking [ra] (fun t x =>
    let w := s.work x.bound
    if 31 ≤ w.keeps.length || !s.itemOk x.bound (x.reg ra).toNat then .next (s.trapHere t { cause := 0x60 })
    else (s.setWork x.bound { w with keeps := w.keeps ++ [x.reg ra] }).finish t x)

/-! ### The checkpoint (R350) -/

/-- The registers that items keep: element and register number, each once. -/
def Working.keptRegs (w : Working) (l : List DWord) : List (Nat × Nat) :=
  ((l.filter (fun k => itemKind k.toNat == 1)).flatMap (fun d =>
    let k := d.toNat
    let bs := if bits k 19 8 = 0xFFF then List.range (w.width * w.height) else [bits k 19 8]
    let ps := if bit k 23 then List.range 8 else [bits k 22 20]
    bs.flatMap (fun b => ps.flatMap (fun p =>
      ((List.range 16).filter (fun n => bit k (24 + n))).map (fun n => (elemOfBlock w b p, n)))))).eraseDups

/-- The relative islands that items keep, and their accumulator slots, each once. -/
def keptIslands (l : List DWord) : List Nat :=
  ((l.filter (fun k => itemKind k.toNat == 2)).map (fun k => bits k.toNat 15 8)).eraseDups
def keptAccs (l : List DWord) (i : Nat) : List Nat :=
  (List.range 8).filter (fun n => l.any (fun k => itemKind k.toNat == 2 && bits k.toNat 15 8 == i && bit k.toNat (16 + n)))

/-- Checkpoint bytes that items need on a tile: 64 for each register, 16 KiB for each accumulator slot. -/
def Working.checkpointBytes (w : Working) (l : List DWord) (tile : Nat) : Nat :=
  64 * ((w.keptRegs l).filter (fun p => tileOf p.1 == tile)).length +
  16384 * ((keptIslands l).map (fun i => if w.tileAt i = tile then (keptAccs l i).length else 0)).foldr (· + ·) 0

/-- The tiles of a working in relative order. -/
def Working.tiles (w : Working) : List Nat := (List.range w.tileCount).map w.tileAt

/-- The lowest-numbered tile whose undo log lacks room for the checkpoints. -/
def State.checkpointFull (s : State) (w : Working) : Option Nat :=
  w.tiles.find? (fun t => 65536 < s.undoUsed t + w.checkpointBytes w.keeps t && 0 < w.checkpointBytes w.keeps t)

/-- What a region saves of an island: claims, fills and chains of every slot, and the values of the named accumulators. -/
def saveIsland (x : Island) (accs : List Nat) : List (Nat × OSlot) × List (Nat × ASlot) :=
  ((List.range 64).map (fun n => (n, { x.op n with data := [] })),
   (List.range 8).map (fun n => (n, if accs.contains n then x.acc n else { x.acc n with val := [] })))

/-- The region opened by a thread's RVBEG, with its checkpoint. -/
def State.newRegion (s : State) (h t rd : Nat) : Region :=
  let w := s.work h
  { restart := (s.thread t).pc + 4, rd := rd, retry := 0, keeps := w.keeps,
    regs := (w.keptRegs w.keeps).map (fun p => (p.1, p.2, (s.elem p.1).reg p.2)),
    macs := w.elems.filterMap (fun e => ((s.elem e).mac).map (fun a => (e, a))),
    isls := (keptIslands w.keeps).map (fun i => (i, saveIsland (s.island (w.tileAt i)) (keptAccs w.keeps i))),
    state := w.state, active := w.active, next := w.next, expl := w.expl, budget := w.budget, inPhase := w.inPhase, sinks := w.sinks,
    room := (w.tiles.map (fun t => (t, w.checkpointBytes w.keeps t))).filter (fun p => p.2 != 0) }

/-- The checkpoint taken and the region open: DEPTH grows, the pending set is empty, rd and f are 0. -/
def State.openRegion (s : State) (h t rd : Nat) : Out :=
  (s.modWork h (fun w => { w with regions := s.newRegion h t rd :: w.regions, keeps := [], stopping := none })).finishRd t rd 0 false

/-- RVBEG: a running working is first stopped as WSTOP.pause stops it, macros at an element boundary; WORKING_STOP_COMPLETE then takes the
checkpoint. -/
def execRvbeg (rd : Reg) (s : State) : Out :=
  s.onWorking [rd] (fun t x =>
    let w := s.work x.bound
    if 4 ≤ w.regions.length then .next (s.trapHere t { cause := 0x60 })
    else match s.checkpointFull w with
      | some tile => .next ((s.setWork x.bound { w with keeps := [] }).trapHere t
          { cause := 0x61, detail := w.relTile tile + w.checkpointBytes w.keeps tile * 2 ^ 32 })
      | none =>
        if w.state = .running then
          .next ((s.setWork x.bound { w with stopping := some false, awaited := s.toAwait x.bound }).sleep t (.rvbeg rd))
        else if s.observable x.bound then s.openRegion x.bound t rd
        else .next (s.sleep t (.rvbeg rd)))

/-- WORKING_STOP_COMPLETE: the accesses of the stopped elements have performed; the WSTOP or RVBEG that asked for the stop goes on. -/
def execWorkingStopComplete (h : Nat) (s : State) : Out :=
  let w := s.work h
  let t := w.thread
  if !s.observable h || !w.live || (s.thread t).bound ≠ h then .next s
  else match (s.thread t).wait, w.stopping with
    | .rvbeg rd, _ => s.openRegion h t rd
    | .wstop _, some ends => (s.stopPhase h ends).finishF t false
    | .wstop _, none => if w.state = .running then .next s else s.finishF t false
    | _, _ => .next s

/-! ### RVEND (R352, R532) -/

/-- The entries that RVEND publishes: kept by the region and outside tile SRAM, in increasing order. -/
def flipEntries (w : Working) (g : Region) : List Nat :=
  (List.range 256).filter (fun n => (keptEntries g).contains n && entSpace (w.entry n) != 2)

/-- The checkweigher has compared every watched firing of the working's elements, on a die without HOLD. -/
def State.weighed (s : State) (h : Nat) : Bool :=
  let w := s.work h
  (s.die w.die).cwHold || w.elems.all (fun e => !s.watched e || (s.cwRowOf e).pending == 0)

/-- Step 1 of R352: issued accesses have performed, and the thread's hoist commands of the region are done. -/
def State.rvendReady (s : State) (h : Nat) : Bool :=
  (s.unperformed h).isEmpty && s.weighed h &&
  !s.busyHoists.any (fun p => p.2.2.handle == h && p.2.2.issuer.isNone && (s.work h).regions.length ≤ p.2.2.depth)

/-- The nearest enclosing region of a depth that keeps an entry holding a sector: its depth. -/
def Working.outerKeeper (w : Working) (depth t sec : Nat) : Option (Nat × Nat) :=
  let n := w.regions.length
  (w.regions.zip (List.range n)).findSome? (fun p =>
    if n - p.2 < depth then (p.1.keeper w t sec).map (fun k => (n - p.2, k)) else none)

/-- The records of a closing region on a tile: each passes to the nearest enclosing region that keeps its sector and has no record of it. -/
def passUndo (w : Working) (h depth t : Nat) (l : List Undo) : List Undo :=
  l.filterMap (fun u =>
    if u.handle ≠ h || u.depth ≠ depth then some u
    else match w.outerKeeper depth t u.sector with
      | none => none
      | some p => if l.any (fun v => v.handle == h && v.depth == p.1 && v.sector == u.sector) then none
                  else some { u with depth := p.1, entry := p.2 })

/-- The innermost region closed. -/
def State.closeRegion (s : State) (h : Nat) : State :=
  let w := s.work h
  match w.regions with
  | [] => s
  | g :: r =>
    let s := w.tiles.foldl (fun s t => s.setTile t { s.tile t with undo := passUndo w h w.regions.length t (s.tile t).undo }) s
    s.setWork h { (flipEntries w g).foldl Working.flip w with regions := r }

/-- RVEND: the thread waits for what the region has in flight. -/
def execRvend (ra : Reg) (s : State) : Out :=
  s.onWorking [ra] (fun t x =>
    if (x.reg ra).toNat % 8 = 7 then .next (s.trapHere t illegalTrap)
    else if (s.work x.bound).regions.isEmpty then .next (s.trapHere t { cause := 0x60 })
    else .next (s.sleep t (.rvend ((x.reg ra).toNat % 8))))

/-- RVEND_COMPLETE. -/
def execRvendComplete (t : Nat) (s : State) : Out :=
  let x := s.thread t
  match s.waitOf t with
  | .rvend _ =>
    if s.rvendReady x.bound then
      let s := s.closeRegion x.bound
      s.finish t { s.thread t with wait := .none }
    else .next s
  | _ => .next s

/-! ### INVR (R348, R396) -/

/-- Dies whose caches an invalidation of a scope reaches. -/
def scopeDies (sc d : Nat) : List Nat := if sc = 3 then [d] else List.range 4

/-- Copies in a range removed from every cache of a die (R391). -/
def State.dropDie (s : State) (all : Bool) (asid start len d : Nat) : State :=
  let cut := tlbDrop all asid start len
  let s := s.modDie d (fun x => { x with tlb := cut x.tlb })
  let s := forN (fun i s => s.modQuad (d * 48 + i) (fun x => { x with tlb := cut x.tlb })) 48 0 s
  ((s.elems.map (fun p => p.1)).filter (fun e => dieOf e == d)).foldl (fun s e => s.modElem e (fun x => { x with tlb := cut x.tlb })) s

/-- The same for the dies of a scope. -/
def State.dropCopies (s : State) (all : Bool) (asid start len sc d : Nat) : State :=
  (scopeDies sc d).foldl (fun s d => s.dropDie all asid start len d) s

/-- The drain of an INVR: an access translates in the step in which it performs, so that what still holds a removed translation is a hoist unit whose
source has been read and whose writes to a peer package have not all been answered. Any unit of the identifier on the dies reached is awaited (R396). -/
def State.drains (s : State) (all : Bool) (asid sc d : Nat) : Bool :=
  s.busyHoists.any (fun p => (scopeDies sc d).contains p.1 && (all || (s.work p.2.2.handle).asid == asid) && p.2.2.sent && !p.2.2.peers.isEmpty)

/-- INVR: the copies go, and the thread waits for the acknowledgement. An access that has not performed translates afresh, so none of them holds
a removed translation, and a later one is refused (R496; log entry 5). -/
def execInvr (rd ra rb : Reg) (all : Bool) (sc : Scope) (s : State) : Out :=
  s.onThread [rd, ra, rb] (fun t x =>
    let asid := (x.reg rd).toNat % 2 ^ 16
    if scopeCode sc < 3 || 5 < scopeCode sc then .next (s.trapHere t illegalTrap)
    else if !isAssay t && (all || asid ≠ (s.work x.bound).asid) then .next (s.trapHere t privTrap)
    else if x.reg rb = 0 then s.finish t x
    else
      let start := (x.reg ra).toNat
      let len := (x.reg rb).toNat
      .next ((s.dropCopies all asid start len (scopeCode sc) (dieOfThread t)).sleep t (.invr asid start len all (scopeCode sc))))

/-- INVR_ACKNOWLEDGE: once what is in the drain has performed, a copy put back meanwhile goes too, and the thread goes on. -/
def execInvrAcknowledge (t : Nat) (s : State) : Out :=
  match s.waitOf t with
  | .invr asid start len all sc =>
    if s.drains all asid sc (dieOfThread t) then .next s else
    let s := s.dropCopies all asid start len sc (dieOfThread t)
    s.finish t { s.thread t with wait := .none }
  | _ => .next s

end Sys2Proof.Machine
end

