-- ==== Sys2Proof/Machine/Ladder.lean ====
section
/-! DEFINITION. The containment ladder (R434 to R439): errors consumed, element replay (R435, R448, R449), spare substitution (R436, R460, R461),
the rollback of a region (R440, R441, R487, R533), and the checkweigher (R453 to R459, R532). -/

namespace Sys2Proof.Machine

open Sys2Proof

/-! ### Errors consumed (R434, R486) -/

/-- INDEX and MAC of an element that consumes an error, with the PRG of its macro (R480, R486). -/
def State.consumerDetail (s : State) (e : Nat) (mac : Bool) : Nat :=
  let w := s.work (s.owner e)
  let prg := match (s.elem e).mac with
    | some a => if mac then a.prg else 0
    | none => 0
  blockIndex w e * 8 + posOf e + 2 ^ 15 * b2n mac + prg * 2 ^ 32

/-- The cause and addresses of a consumed error: its DETAIL is that of the item, or of its consumer; for a foreman register it is 0 (log entry
75). -/
def badInfo (it : BadItem) (eid own : Nat) : TrapInfo :=
  match it with
  | .reg n => { cause := 0x27, eid := eid, detail := n }
  | .elemState => { cause := 0x27, eid := eid, detail := 0x10 }
  | .foreman _ => { cause := 0x27, eid := eid }
  | .queue _ => { cause := 0x28, eid := eid }
  | .config _ => { cause := 0x25, eid := eid }
  | .inactive _ _ => { cause := 0x25, eid := eid }
  | .layout n => { cause := 0x25, eid := eid, detail := n }
  | .hbm pa va => { cause := 0x21, eid := eid, detail := own, va := va, pa := sectorOf pa }
  | .sram a => { cause := 0x23, eid := eid, detail := own, va := sectorOf a, pa := sectorOf a }
  | .island _ _ _ => { cause := 0x24, eid := eid, detail := own }
  | .tableEntry pa va => { cause := 0x35, eid := eid, detail := own, va := va, pa := pa }
  | .counter n => { counterError n with eid := eid }
  | .undo => { cause := 0x62, eid := eid }
  | .corrected => { cause := 0x2F, eid := eid }

/-- An address of an element's access lies in a bad item, or is translated through it. -/
def State.addrMeets (s : State) (e : Nat) (it : BadItem) (va : Nat) : Bool :=
  match it with
  | .hbm pa v => ((s.physOf e va).map sectorOf == some (sectorOf pa)) || sectorOf va == sectorOf v
  | .sram a => sectorOf va == sectorOf a
  | .tableEntry _ v => va / 2 ^ 16 == v / 2 ^ 16
  | _ => false

/-- The access, no macro, of an element that consumes an item of memory. -/
def State.plainConsumer (s : State) (e : Nat) (it : BadItem) : Option Access :=
  (s.elem e).accs.find? (fun a => !opMac a.op && a.stage != .performed && (s.accAddrs e a).any (s.addrMeets e it))

/-- An item of memory is consumed by the element's macro: one is in flight, and no other access of the element meets the item (R486). -/
def State.macroConsumes (s : State) (e : Nat) (it : BadItem) : Bool :=
  (s.elem e).mac.isSome && (match it with
    | .island _ _ _ => true
    | .hbm _ _ => (s.plainConsumer e it).isNone
    | .sram _ => (s.plainConsumer e it).isNone
    | .tableEntry _ _ => (s.plainConsumer e it).isNone
    | _ => false)

/-- The fault that an element's item makes of it. -/
def State.elemInfo (s : State) (e : Nat) (it : BadItem) : TrapInfo := badInfo it e (s.consumerDetail e (s.macroConsumes e it))

/-- The store's mark of an item that a check has found bad. -/
def State.markItem (s : State) (w : Working) (it : BadItem) (x : Bool) : State :=
  match it with
  | .hbm pa _ => if inHbm pa then s.setBad pa x else s
  | .sram a => if inWindow a then s.setBad a x else s
  | .tableEntry pa _ => if inHbm pa then s.setBad pa x else s
  | .island i n acc =>
    if x && i < w.tileCount then
      let k := w.tileAt i
      s.setIsland k { s.island k with bad := (n, acc) :: ((s.island k).clearBad n acc).bad }
    else s
  | _ => s

/-- An item that an element can consume. -/
def State.elemConsumes (s : State) (e : Nat) (it : BadItem) : Bool :=
  let x := s.elem e
  match it with
  | .queue q => !(x.queue q).isEmpty
  | .hbm _ _ => kindOf e == 2 && (s.macroConsumes e it || (s.plainConsumer e it).isSome)
  | .sram _ => s.macroConsumes e it || (s.plainConsumer e it).isSome
  | .tableEntry _ _ => kindOf e == 2 && (s.macroConsumes e it || (s.plainConsumer e it).isSome)
  | .island _ _ _ => x.mac.isSome
  | .undo => false
  | .corrected => false
  | .foreman _ => false
  | .inactive _ _ => false
  | _ => true

/-- An element's place can go to its row's spare: no other element of the row has it, or is on its way to it. -/
def State.spareFree (s : State) (e : Nat) : Bool :=
  !(s.die (dieOf e)).errctl.getLsbD 4 && !(s.cwRowOf e).spsus && !(s.cwRowOf e).sub &&
  s.works.all (fun p => p.2.subst.all (fun k => k == e || dieOf k != dieOf e || rowOf k != rowOf e))

/-- An element is to be substituted, or, where it cannot be, its claim will be retired; the answer says which. -/
def State.judge (s : State) (e : Nat) : Bool × State :=
  let h := s.owner e
  if h = 0 then (false, s)
  else if s.spareFree e then (true, s.modWork h (fun w => { w with subst := if w.subst.contains e then w.subst else w.subst ++ [e] }))
  else (false, s.modWork h (fun w => { w with retire := if w.retire.any (fun x => x / 8 == e / 8) then w.retire else w.retire ++ [e] }))

/-- An element judged lasting by its mismatches or its corrected errors (R442): the record 0x74, and the second rung. -/
def State.judgeLasting (s : State) (e count : Nat) : State :=
  let h := s.owner e
  let r := s.judge e
  let w := r.2.work h
  r.2.log (dieOf e) { faultRec h w { cause := 0x74, eid := e } (if r.1 then 3 else 1) with count := count }

/-- The source that counts a consumed item of a memory (R442). -/
def itemSource : BadItem → Option Nat
  | .hbm pa _ => if inHbm pa then some pa else none
  | .sram a => some a
  | .tableEntry pa _ => some pa
  | _ => none

/-- A consumed error counted against its source: the memory's bank, or else the element, if any consumed it; with the count. -/
def State.countItem (s : State) (it : BadItem) (e : Option Nat) : State × Nat :=
  match itemSource it with
  | some a => let r := s.countSource (dieOfAddr a) (bankSource a) (s.clockOf a) false
    (r.1, r.2.count)
  | none => match e with
    | some e => let r := s.countElem e false false
      (r.1, r.2.count)
    | none => (s, 0)

/-- The count that stands against an item's source. -/
def State.itemCount (s : State) (it : BadItem) (e : Nat) : Nat :=
  match itemSource it with
  | some a => ((s.die (dieOfAddr a)).errWin (bankSource a)).n
  | none => (s.elem e).errs.n

/-- An item of an element on the ladder, with its count. -/
def State.ladderInfo (s : State) (e : Nat) (it : BadItem) : TrapInfo := { s.elemInfo e it with count := s.itemCount it e }

/-- A corrected error in a store of an element (0x2F): counted, recorded where LOGC says so, and an element that it shows to be lasting is
judged so. -/
def State.elemCorrected (s : State) (e : Nat) : State :=
  let h := s.owner e
  let r := s.countElem e true false
  let s := r.1.logCorrected (dieOf e) (faultRec h (r.1.work h) { cause := 0x2F, eid := e, count := r.2.count } 0)
  if r.2.lasting then s.judgeLasting e r.2.count else s

/-- A unit or a thread does not read again: NORPL is set, or a rollback is already in progress (R435, R439). -/
def State.noReplay (s : State) (h : Nat) : Bool :=
  (s.die (s.work h).die).errctl.getLsbD 3 || (match (s.work h).rolling with
  | some (_, t) => t != (s.quad ((s.work h).thread / 4)).cyc
  | none => false)

/-- Errors of a working are consumed: it is neither killed, saved, about to be saved nor at a substitution; a rollback in progress still records
them (R439). -/
def Working.consumes (w : Working) : Bool := w.killing.isNone && w.savedAt.isNone && w.subst.isEmpty && !w.gated

/-- An element consumes an item: it goes on the ladder, or while a rollback is in progress straight to the next rung (R434, R439). -/
def State.consumeElem (s : State) (e : Nat) (it : BadItem) : State :=
  let h := s.owner e
  let w := s.work h
  if h = 0 || !w.consumes || (s.elem e).ladder.isSome || !s.elemConsumes e it then s
  else
    let s := (s.countItem it (some e)).1
    if w.rolling.isSome then s.nextRung h (s.ladderInfo e it)
    else (s.markItem w it true).modElem e (fun x => { x with ladder := some it })

/-- A word of an inactive context is bad: it waits in the element until its context becomes active (R451). -/
def Elem.lieBad (x : Elem) (ctx k : Nat) : Elem :=
  if x.latent.contains (ctx, .config k) then x else { x with latent := x.latent ++ [(ctx, .config k)] }

/-- ERROR_CONSUMED. An element waits for its replay; a thread's own read fails at once, and what a unit reads for it is read once more. One in an
undo record or a checkpoint, met by a rollback, kills the working (R441). -/
def execErrorConsumed (c : Consumer) (it : BadItem) (s : State) : Out :=
  let reread := fun (s : State) (h : Nat) (i : TrapInfo) (bad : Bool) =>
    if bad || s.noReplay h then s.nextRung h i else s.log (s.work h).die (faultRec h (s.work h) i 2)
  .next (match c with
  | .elem e =>
    (match it with
    | .corrected => if e < 65536 then s.elemCorrected e else s
    | .inactive ctx k => if s.alive e && ctx < 4 then s.modElem e (fun x => x.lieBad ctx k) else s
    | _ => s.consumeElem e it)
  | .stamp t =>
    let h := (s.thread t).bound
    let w := s.work h
    let c := s.countItem it none
    let i := { badInfo it 0xFFFF 0x7FFF with count := c.2 }
    if h = 0 || !w.consumes then s
    else match it with
      | .hbm pa _ => reread c.1 h i (s.isBad pa)
      | .sram a => reread c.1 h i (s.isBad a)
      | _ => s
  | .thread t =>
    let h := (s.thread t).bound
    let w := s.work h
    let c := s.countItem it none
    let i := { badInfo it 0xFFFF 0x7FFF with count := c.2 }
    if it == .corrected then
      (if t < 784 then s.logCorrected (dieOfThread t) { cause := 0x2F, outcome := 0, handle := h, quad := threadQuad t } else s)
    else if h ≠ 0 && it == .undo && w.rolling.isSome then s.startKill h i .faulted
    else if h = 0 || !w.consumes then s
    else
      let s0 := s
      let s := c.1
      match it with
      | .hbm _ _ => (s.markItem w it true).nextRung h i
      | .sram _ => (s.markItem w it true).nextRung h i
      | .foreman n => if n < 64 && (s.thread t).holds n then s.nextRung h i else s0
      | .counter n => if s.whole (t / 4) n then s0 else s.nextRung h i
      | .layout _ => reread s h i false
      | .tableEntry pa _ => reread s h i (s.isBad pa)
      | _ => s0
  | .hoist d n =>
    let x := (s.die d).hoist n
    let h := x.handle
    let w := s.work h
    let c := s.countItem it none
    let i := { badInfo it (x.issuer.getD 0xFFFF) (s.hoistIndex x) with count := c.2 }
    if !s.hoistLive d n || !w.consumes then s
    else
      let s0 := s
      let s := c.1
      match it with
      | .hbm pa _ => reread s h i (s.isBad pa)
      | .sram a => reread s h i (s.isBad a)
      | .tableEntry pa _ => reread s h i (s.isBad pa)
      | .layout _ => reread s h i false
      | _ => s0)

/-! ### Spare substitution (R436, R442, R460, R461) -/

/-- A row's registers changed. -/
def State.modRow (s : State) (d row : Nat) (f : CwRow → CwRow) : State :=
  s.modDie d (fun x => { x with cwrow := SMap.mod {} x.cwrow row f })

/-- SPARE_SUBSTITUTION: the spare holds the element's place under its identifier, with an empty ME cache, and the row's watch is over. -/
def execSpareSubstitution (e : Nat) (s : State) : Out :=
  let h := s.owner e
  .next (if (s.work h).subst.contains e && (s.work h).killing.isNone then
    ((s.modWork h (fun w => { w with subst := w.subst.filter (· != e) })).modElem e (fun x => { x with tlb := [] })).modRow (dieOf e) (rowOf e)
      (fun r => { r with sub := true, subcol := BitVec.ofNat 8 (colOf e), watch := false, pending := 0, slot := none })
  else s)

/-! ### Element replay (R435, R448, R449) -/

/-- The operation, slot word and logged consumer slot of a history entry. -/
def histOp (h : History) : Nat := bits (h.getD 0 0).toNat 15 8
def State.histWord (s : State) (e : Nat) (h : History) : EWord :=
  let v := (h.getD 0 0).toNat
  (rawOf (SMap.get 0 (s.cfg e (bits v 5 4)).slots (bits v 3 0)).toNat).word
def histSlot (h : History) : Option Nat :=
  let v := (h.getD 15 0).toNat
  if bit v 63 then some (bits v 31 22) else none

/-- A firing writes a register by other means than its logged result: P of PACK, the map of TAGA or TAGF, or a D1 that is not the logged one. -/
def writesOtherwise (h : History) (w : EWord) (n : Nat) : Bool :=
  let op := histOp h
  ((op == 0x97 || op == 0xA0 || op == 0xA1) && srcReg w.sb == n) ||
  (destIsReg w.d0 && (match w.d1 with
    | .reg k => k.toNat == n
    | _ => false))

/-- Register vn can be had again from the history. -/
def State.regAgain (s : State) (e n : Nat) : Bool :=
  let l := (s.elem e).hist
  let newer := l.takeWhile (fun h => histSlot h != some (8 * n))
  let upto := l.take (newer.length + 1)
  newer.length < l.length && upto.all (fun h => !writesOtherwise h (s.histWord e h) n)

/-- An access as it was issued, with no reply, alone in its element. -/
def Elem.only (x : Elem) (k : Access) : Elem := { x with accs := [{ k with seq := x.seq }] }

/-- One access of an element taken as far as it goes at once: what a read that is issued again performs (R448). -/
def State.runRead (s : State) (e op : Nat) : State :=
  let q := (s.elem e).seq
  let one := fun (s : State) => match (s.elem e).accs.find? (fun a => a.seq == q) with
    | none => s
    | some a => match op with
      | 0xB0 => s.performSld e a
      | 0xC0 => s.performLd e a
      | 0xC2 => s.gatherStep e a
      | 0xC8 => s.performXlat e a
      | _ => s.chaseStep e a
  forN (fun _ s => match (s.elem e).accs with
    | [a] => if a.stage == .issued then one s else if a.stage == .parked then s.walkParked e a else s
    | _ => s) 520 0 s

/-- The token that a read issued again returns in the place of another of its reply; none where it cannot perform. -/
def State.readAgain (s : State) (e : Nat) (k : Access) (second : Bool) (n : Nat) : Option (Token × State) :=
  let x := s.elem e
  let t := (s.setElem e (x.only k)).runRead e k.op
  match (t.elem e).accs with
  | [a] =>
    if a.stage == .performed then
      ((if second then a.out1 else a.out0)[n]?).map (fun k => (k, t.setElem e { t.elem e with accs := x.accs }))
    else none
  | _ => none

/-- Reads whose replies can be had again (R448). -/
def rereads (op : Nat) : Bool := op == 0xB0 || op == 0xC0 || op == 0xC2 || op == 0xC8 || op == 0xC9

/-- A queue's head had again: from the firing of its sender's history that sent it and logged it for its slot, or by a read issued again; with
the token that it then is. -/
def State.queueAgain (s : State) (e q : Nat) : Option (Token × State) :=
  match (s.elem e).queue q with
  | [] => none
  | k :: _ => match k.origin with
    | .fired f slot n =>
      let x := s.elem f
      let h := if n < x.count then x.hist[x.count - 1 - n]? else none
      (match h with
      | some h => if histSlot h = some slot then some (k.tok, s) else none
      | none => none)
    | .reply f a second n => if rereads a.op && s.owner f == s.owner e then s.readAgain f a second n else none
    | .restored _ => none

/-- A bad item can be obtained again at all (R448). -/
def State.canReplay (s : State) (e : Nat) (it : BadItem) : Bool :=
  !(s.die (dieOf e)).errctl.getLsbD 3 &&
  match it with
  | .reg n => s.regAgain e n
  | .queue q => (s.queueAgain e q).isSome
  | .config _ => (s.reload e (s.elem e).active.toNat).isSome
  | .layout _ => true
  | .hbm _ _ => true
  | .sram _ => true
  | .tableEntry _ _ => true
  | _ => false

/-- Items that waited in an element are gone. -/
def State.dropLatent (s : State) (e : Nat) (f : Nat × BadItem → Bool) : State :=
  s.modElem e (fun x => { x with latent := x.latent.filter (fun p => !f p) })

/-- An item had again: a queue's head is the token obtained, any other is as it was. -/
def State.haveAgain (s : State) (e : Nat) (it : BadItem) : State :=
  match it with
  | .queue q => match s.queueAgain e q with
    | some (k, s) => s.modElem e (fun x => x.setHead q k)
    | none => s
  | .reg _ => s.dropLatent e (fun p => p.2 == it)
  | .config k => match s.reload e (s.elem e).active.toNat with
    | some b => (s.dropLatent e (fun p => p == ((s.elem e).active.toNat, it))).reloaded e k b
    | none => s
  | .layout _ => (s.work (s.owner e)).elems.foldl (fun s f => s.dropLatent f (fun p => p.2 == it)) s
  | _ => s.markItem (s.work (s.owner e)) it false

/-- A replay of an element counted (R442), and whether it is the RPTHR-th of its window. -/
def State.countReplay (s : State) (e : Nat) : State × Bool :=
  let d := s.die (dieOf e)
  let c := (s.elem e).reps.add (s.quad (quadOf e)).cyc d.rpWin.toNat d.rpThr.toNat 1 true false
  (s.modElem e (fun x => { x with reps := c }), c.reached true false)

/-- A replay that has succeeded is counted, and at RPTHR the element is judged; with the outcome of its record (R436). -/
def State.replayed (s : State) (e : Nat) : State × Nat :=
  let c := s.countReplay e
  let r := if c.2 then c.1.judge e else (false, c.1)
  (r.2, if r.1 then 3 else 2)

/-- An item of a peer package's memory: its request is sent again, and the reply tells what comes of it (R503). -/
def itemAtPeer : BadItem → Bool
  | .hbm pa _ => !inHbm pa
  | _ => false

/-- ELEMENT_REPLAY: the items are had again and the firing is made afterwards as any other; or replay fails. -/
def execElementReplay (e : Nat) (good : Bool) (s : State) : Out :=
  let h := s.owner e
  let x := s.elem e
  let w := s.work h
  .next (match x.ladder with
  | none => s
  | some it =>
    if !s.alive e || !w.consumes then s
    else if w.rolling.isNone && good && s.canReplay e it && itemAtPeer it then s.modElem e (fun x => { x with ladder := none })
    else if w.rolling.isNone && good && s.canReplay e it then
      let i := s.ladderInfo e it
      let r := ((s.haveAgain e it).modElem e (fun x => { x with ladder := none })).replayed e
      r.1.log (dieOf e) (faultRec h w i r.2)
    else (s.nextRung h (s.ladderInfo e it)).modElem e (fun x => { x with ladder := none }))

/-! ### Rolling back a region (R440) -/

/-- Accesses that the drain waits for: those to memory that write and have neither performed nor been refused; what a read would bring is
discarded in any case. -/
def Elem.drains (x : Elem) : Bool :=
  x.accs.any (fun a => !opMac a.op && a.op < 0xD0 && (a.stage == .issued || a.stage == .parked) && a.acc != .read)

/-- The records of a region's depth on the tiles of the working are written back. -/
def State.undoDepth (s : State) (h depth : Nat) : State :=
  (s.work h).tiles.foldl (fun s t =>
    ((s.tile t).undo.filter (fun u => u.handle == h && u.depth == depth)).foldl (fun s u =>
      ((s.setBytes u.sector u.old).clearSector u.sector).setPoison u.sector u.poison) s) s

/-- Records of a depth and deeper freed. -/
def State.freeUndo (s : State) (h depth : Nat) : State :=
  (s.work h).tiles.foldl (fun s t =>
    s.setTile t { s.tile t with undo := (s.tile t).undo.filter (fun u => !(u.handle == h && depth ≤ u.depth)) }) s

/-- An island's checkpoint restored; an operand slot with a bad word is emptied (R487). -/
def restoreIsland (x : Island) (ops : List (Nat × OSlot)) (accs : List (Nat × ASlot)) (named : List Nat) : Island :=
  let x := ops.foldl (fun x p =>
    let bad := x.bad.contains (p.1, false)
    x.setOp p.1 { p.2 with data := (x.op p.1).data, fill := if bad then 0 else p.2.fill, psn := if bad then false else p.2.psn }) x
  let x := accs.foldl (fun x p =>
    x.setAcc p.1 (if named.contains p.1 then p.2 else { x.acc p.1 with claim := p.2.claim, chain := p.2.chain, busy := p.2.busy })) x
  { x with bad := x.bad.filter (fun b => b.2 && !named.contains b.1) }

/-- What an element is after a rollback: its macro that of the checkpoint, its queues, accesses and replies gone, its predicates those of the
context. -/
def Elem.rolled (x : Elem) (c : ElemCfg) (ctx : BitVec 2) (mac : Option Access) : Elem :=
  { x with active := ctx, p := c.preds, rr := 0, q := [], accs := mac.toList, watches := [], wbuf := [], waves := [],
           ch0 := { x.ch0 with countLive := 0 }, ch1 := { x.ch1 with countLive := 0 },
           ladder := none, barAt := none }

/-- A path or a credit belongs to the working: its sender does. -/
def State.sentBy (s : State) (h e : Nat) : Bool := s.owner e == h

/-- The queues of a working take no tokens in flight and give back no credits; every credit is full but for the room that the pending replies
of its elements hold (R57, R210, R440). -/
def State.resetSpace (s : State) (h : Nat) : State :=
  let s := { s with flights := s.flights.filter (fun f => !s.sentBy h f.src), credits := s.credits.filter (fun c => !s.sentBy h c.elem),
                    space := s.space.filter (fun p => !s.sentBy h (p.1 / 8)) }
  (s.work h).elems.foldl (fun s e =>
    let x := s.elem e
    let s := forN (fun q s => s.setSpace (spaceKey e q) (s.spaceOf (spaceKey e q) - (x.queue q).length)) 6 0 s
    (x.accs ++ x.watches ++ x.wbuf).foldl (fun s a =>
      let s := if a.res0 then s.takeRoom e a.r0 (destOf a.d0) else s
      if a.res1 then s.takeRoom e a.r1 (destOf a.d1) else s) s) s

/-- Thread commands of a depth or deeper cancelled (step 3). -/
def State.cancelFrom (s : State) (h depth : Nat) : State :=
  (s.busyHoists.filter (fun p => p.2.2.handle == h && p.2.2.issuer.isNone && depth ≤ p.2.2.depth)).foldl
    (fun s p => s.cancelHoist p.1 p.2.1 0x53) s

/-- The tile-SRAM or HBM bytes of the shadow sides that a region keeps: an address is among them where the entry's shadow reaches its sector. -/
def shadowHolds (w : Working) (g : Region) (a : Nat) : Bool :=
  (flipEntries w g).any (fun n =>
    let r := w.entry n
    let base := sideBase r 1
    entSpace r != 3 && base ≤ a && reaches (entDimList r) ((a + 1 - base + (entSize r - 1)) / entSize r - 1) ((a - base) / entSize r))

/-- Shadow bytes take contents that the manual leaves open (step 8; log entry 10). -/
def State.spoilShadow (s : State) (w : Working) (g : Region) (l : List (Nat × Byte)) : State :=
  l.foldl (fun s p =>
    if shadowHolds w g p.1 then
      match s.translate ⟨none, none, w.die⟩ w.asid p.1 .read w.ident.toNat with
      | .ok pa _ _ => if inHbm pa then s.setByte pa p.2 else s
      | _ => s
    else s) s

/-- Steps 4 to 7 and 9 of R440 for the region g at depth d, with outer regions r. -/
def State.rollTo (s : State) (h d : Nat) (g : Region) (r : List Region) : State :=
  let n := (s.work h).regions.length
  let s := forN (fun k s => s.undoDepth h (n - k)) (n + 1 - d) 0 s
  let s := s.freeUndo h d
  let w := s.work h
  let s := g.isls.foldl (fun s p =>
    let k := w.tileAt p.1
    s.setIsland k (restoreIsland (s.island k) p.2.1 p.2.2 (keptAccs g.keeps p.1))) s
  let s := w.elems.foldl (fun s e =>
    s.modElem e (fun x => x.rolled (s.cfg e g.active.toNat) g.active ((g.macs.find? (fun p => p.1 == e)).map (fun p => p.2)))) s
  let s := g.regs.foldl (fun s p => s.modElem p.1 (fun x => x.setReg p.2.1 p.2.2)) s
  let s := s.resetSpace h
  let g' := { g with retry := min (g.retry + 1) 255 }
  let s := s.setWork h { w with regions := g' :: r, keeps := [], state := g.state, active := g.active, next := g.next, expl := g.expl,
                                budget := g.budget, inPhase := g.inPhase, sinks := g.sinks, mark := [], awaited := [], freeze := none, faults := [],
                                stopping := none, rolling := none, rollFor := [] }
  s.modThread w.thread (fun x =>
    { x with f := true, intrap := false, heldTraps := [], wait := .none, pc := g.restart }.setReg g.rd (BitVec.ofNat 64 g'.retry))

/-- Traps that the working holds when its rollback begins: all are recorded with outcome 1 (R439). -/
def State.discardTraps (s : State) (h : Nat) : State :=
  let w := s.work h
  ((w.freeze.toList ++ w.faults) ++ (s.thread w.thread).heldTraps).foldl (fun s i => s.log w.die (faultRec h (s.work h) i 1)) s

/-- Errors that elements have consumed and whose replays a rollback overtakes: all are recorded with outcome 1 (R439). -/
def State.discardLadders (s : State) (h : Nat) : State :=
  (s.work h).elems.foldl (fun s e => match (s.elem e).ladder with
    | some it => s.log (s.work h).die (faultRec h (s.work h) (s.ladderInfo e it) 1)
    | none => s) s

/-- Firing cycles of watched elements of a working that wait for a verdict are given up (R440, R457). -/
def State.dropHolds (s : State) (h : Nat) : State :=
  let w := s.work h
  s.modDie w.die (fun x => if x.cwHold then { x with cwrow := x.cwrow.map (fun p =>
    if w.covers (eidAt w.die p.2.col.toNat p.1) then (p.1, { p.2 with pending := 0, slot := none }) else p) } else x)

/-- REGION_ROLLBACK: the region at the decided depth goes back to its checkpoint, once the drain is done. -/
def execRegionRollback (h : Nat) (shadow : List (Nat × Byte)) (s : State) : Out :=
  let w := s.work h
  .next (match w.rolling with
  | none => s
  | some (d, _) =>
    match w.regions.drop (w.regions.length - d) with
    | [] => s
    | g :: r =>
      if w.killing.isSome || w.savedAt.isSome || w.loading || w.elems.any (fun e => (s.elem e).drains) then s
      else
        let s := (((s.discardTraps h).discardLadders h).cancelFrom h d).dropHolds h
        let l := (s.work h).rollFor
        let s := (w.regions.take (w.regions.length - d + 1)).foldl (fun s g => s.spoilShadow w g shadow) (s.rollTo h d g r)
        l.foldl (fun s i => s.log w.die (faultRec h (s.work h) i 4)) s)

/-! ### The start of a phase (R338, R451) -/

/-- Bad words of a context that has become active are consumed before the phase's first firing (R451). -/
def State.consumeActive (s : State) (h : Nat) : State :=
  (s.work h).elems.foldl (fun s e =>
    let x := s.elem e
    match x.latent.find? (fun p => p.1 == x.active.toNat && (match p.2 with
      | .config _ => true
      | _ => false)) with
    | some p => s.consumeElem e p.2
    | none => s) s

/-- PHASE_START. -/
def execPhaseStart (h : Nat) (s : State) : Out :=
  .next (if s.phaseReady h then ((s.startPhase h).dropHolds h).consumeActive h else s)

/-! ### The checkweigher (R455 to R459) -/

/-- A mismatch counted against an element (R459). -/
def State.countMismatch (s : State) (e : Nat) : State × Counted :=
  let c := s.countElem e false true
  let i := 2 * rowOf e + colOf e / 64
  let b := BitVec.ofNat 64 (2 ^ (colOf e % 64))
  let s := c.1.modDie (dieOf e) (fun d => { d with
    suspect := SMap.set 0 d.suspect i (SMap.get 0 d.suspect i ||| b),
    suspectAt := SMap.mod (0, 0) d.suspectAt i (fun p => (d.cycles, if p.1 = d.cycles then p.2 ||| b else b)) })
  let now := (s.die (dieOf e)).cycles
  (s.modRow (dieOf e) (rowOf e) (fun r => { r with mismatch := BitVec.ofNat 16 (min (r.mismatch.toNat + 1) 65535),
                                                   mmSide := r.mmSide.note now r.mismatch.toNat 1 }), c.2)

/-- The mismatch counted, with the element judged lasting where its count reaches MMTHR. -/
def State.noteMismatch (s : State) (e : Nat) : State :=
  let r := s.countMismatch e
  if r.2.lasting then r.1.judgeLasting e r.2.count else r.1

/-- The record of a mismatch that the element's second computation settles. -/
def State.logMismatch (s : State) (e detail count outcome : Nat) : State :=
  let h := s.owner e
  s.log (dieOf e) (faultRec h (s.work h) { cause := 0x70, eid := e, detail := detail, count := count } outcome)

/-- The second computation equals the checkweigher's: a replay has repaired the mismatch. Both are counted, the mismatch is recorded, and the
element is judged lasting at MMTHR (R436, R459; log entry 77). -/
def State.secondRight (s : State) (e : Nat) : State :=
  let r := s.countMismatch e
  let p := r.1.replayed e
  let s := p.1.logMismatch e 0 r.2.count p.2
  if r.2.lasting then s.judgeLasting e r.2.count else s

/-- Registers and predicates that a slot's word reads, and those that it writes. -/
def wordReads (op : Nat) (w : EWord) : List Nat × BitVec 8 :=
  let src := fun (x : Src) => match x with
    | .v n => [n.toNat]
    | _ => []
  let c := if op = 0x04 || op = 0x24 || op = 0x15 || op = 0x43 then (match w.d0 with
    | .reg n => [n.toNat]
    | _ => []) else []
  let p := (eRule op (tyCode w.ty)).sa == .pred || (eRule op (tyCode w.ty)).sb == .pred
  (src w.sa ++ src w.sb ++ c, if p then 0xFF else w.pm)
def wordWrites (op : Nat) (w : EWord) : List Nat × BitVec 8 :=
  let reg := fun (x : Dest) => match x with
    | .reg n => [n.toNat]
    | _ => []
  let prd := fun (x : Dest) => match x with
    | .pred n => BitVec.ofNat 8 (2 ^ n.toNat)
    | _ => 0
  (reg w.d0 ++ reg w.d1 ++ (if op = 0x97 || op = 0xA0 || op = 0xA1 then [srcReg w.sb] else []), prd w.d0 ||| prd w.d1 ||| w.ps ||| w.pc)

/-- A firing found wrong after it took effect can be made again (R457): nothing of it has left, no later firing has read what it wrote, and its
C is in the history. -/
def State.canRedo (s : State) (e k : Nat) : Bool :=
  let l := (s.elem e).hist
  match l[k]? with
  | none => false
  | some h =>
    let op := histOp h
    let wr := wordWrites op (s.histWord e h)
    !bit (h.getD 0 0).toNat 20 && !(op == 0x04 || op == 0x24 || op == 0x15 || op == 0x43) && !(s.die (dieOf e)).errctl.getLsbD 3 &&
    (l.take k).all (fun g =>
      let rd := wordReads (histOp g) (s.histWord e g)
      !wr.1.any rd.1.contains && wr.2 &&& rd.2 == 0)

/-- The CONF bit of history entry k (R446). -/
def Elem.confirm (x : Elem) (k : Nat) : Elem :=
  { x with hist := x.hist.modify k (fun h => h.modify 0 (fun v => v ||| 0x200000#64)) }

/-- A mismatch whose replay fails: counted, then the next rung with cause 0x70. -/
def State.mismatchFails (s : State) (e : Nat) : State :=
  let s := ((s.noteMismatch e).setPending e 0).modRow (dieOf e) (rowOf e) (fun r => { r with slot := none })
  s.nextRung (s.owner e) { cause := 0x70, eid := e, count := (s.elem e).errs.n }

/-- The spare found at fault: it watches no more, and the cycle that it held takes effect (R458, R459). -/
def State.spareWrong (s : State) (e : Nat) : State :=
  (s.logMismatch e 1 (s.elem e).errs.n 2).modRow (dieOf e) (rowOf e) (fun r => { r with spsus := true, watch := false, pending := if (s.die (dieOf e)).cwHold then 2 else 0 })

/-- CHECKWEIGHER_CONFIRM: under HOLD for the cycle that waits, else for the oldest firing not yet compared. -/
def execCheckweigherConfirm (d row : Nat) (v : Verdict) (s : State) : Out :=
  let c := SMap.get {} (s.die d).cwrow row
  let e := eidAt d c.col.toNat row
  .next (if !c.watch || c.pending = 0 || !(s.work (s.owner e)).live then s
  else if (s.die d).cwHold then
    let redo := !(s.die d).errctl.getLsbD 3
    (if c.pending ≠ 1 then s
     else match v with
      | .confirmed => s.setPending e 2
      | .second => if redo then (s.setPending e 2).secondRight e else s.mismatchFails e
      | .spareWrong => if redo then s.spareWrong e else s.mismatchFails e
      | .other => s.mismatchFails e)
  else
    let k := c.pending - 1
    let ok := (s.modElem e (fun x => x.confirm k)).setPending e k
    match v with
    | .confirmed => ok
    | .second => if s.canRedo e k then ok.secondRight e else s.mismatchFails e
    | .spareWrong => if s.canRedo e k then ok.spareWrong e else s.mismatchFails e
    | .other => s.mismatchFails e)

/-- A column of a row can be watched: its element belongs to a running working. -/
def State.canWatch (s : State) (d row col : Nat) : Bool :=
  let h := s.owner (eidAt d col row)
  h != 0 && (s.work h).live && (s.work h).state == .running

/-- A column's element is suspect. -/
def State.isSuspect (s : State) (d row col : Nat) : Bool :=
  (SMap.get 0 (s.die d).suspect (2 * row + col / 64)).getLsbD (col % 64)

/-- The columns after one, wrapping at the row's end. -/
def columnsAfter (col : Nat) : List Nat := (List.range 128).map (fun k => (col + 1 + k) % 128)

/-- The next column to watch (R455), and the last suspect column after it. -/
def State.nextWatch (s : State) (d row : Nat) (c : CwRow) : Option (Nat × Nat) :=
  let bad := if s.isSuspect d row c.col.toNat then none
    else (columnsAfter c.lastSus).find? (fun k => s.isSuspect d row k && s.canWatch d row k)
  match bad with
  | some k => some (k, k)
  | none => ((columnsAfter c.col.toNat).find? (s.canWatch d row)).map (fun k => (k, if s.isSuspect d row k then k else c.lastSus))

/-- CHECKWEIGHER_WATCH_END: the interval is over, or the element's working has stopped, or nothing was watched; the next element is chosen. What
a watch has still to compare, it compares first (R532). -/
def execCheckweigherWatchEnd (d row : Nat) (s : State) : Out :=
  let x := s.die d
  let c := SMap.get {} x.cwrow row
  let off := !x.cwEn || c.sub || c.spsus
  let cyc := fun (col : Nat) => (s.quad (quadOf (eidAt d col row))).cyc
  let done := c.pending = 0 || x.cwHold || !(s.work (s.owner (eidAt d c.col.toNat row))).live
  let ends := !c.watch || off || (!s.canWatch d row c.col.toNat && done) ||
    (c.began + 2 ^ x.cwInt.toNat ≤ cyc c.col.toNat && c.pending = 0)
  .next (if 4 ≤ d || 96 ≤ row || !ends || (c.spsus && c.pending = 2 && c.slot.isSome) then s
  else if off then s.modRow d row (fun c => { c with watch := false, pending := 0, slot := none })
  else match s.nextWatch d row c with
    | some (k, l) => s.modRow d row (fun c => { c with col := BitVec.ofNat 8 k, watch := true, began := cyc k, lastSus := l, pending := 0, slot := none })
    | none => s.modRow d row (fun c => { c with watch := false, pending := 0, slot := none }))

end Sys2Proof.Machine
end

