-- ==== Sys2Proof/Machine/Ends.lean ====
section
/-! DEFINITION. The freeze of a working (R432, R433), its end and its kill with the release of what it holds (R221, R269, R374, R438, R516), the
canary (R464), the sweep of counters (R467, R468), scrubbing (R489) and the end of counting windows (R442). -/

namespace Sys2Proof.Machine

open Sys2Proof

/-! ### The freeze (R432, R433) -/

/-- A trap put into a list in the order of taking. -/
def trapInsert (i : TrapInfo) : List TrapInfo → List TrapInfo
  | [] => [i]
  | j :: r => if trapBefore j i then j :: trapInsert i r else i :: j :: r

/-- WORKING_FREEZE: sixteen cycles after detection the working is paused and its thread holds the traps. -/
def execWorkingFreeze (h : Nat) (s : State) : Out :=
  let w := s.work h
  .next (match w.freeze with
  | none => s
  | some i =>
    if !w.live || (s.quad w.freezeQuad).cyc ≤ w.freezeAt + 16 then s
    else
      let l := (i :: w.faults).foldl (fun l i => trapInsert i l) []
      let s := s.setWork h { w with state := .paused, freeze := none, faults := [], awaited := s.toAwait h }
      s.modThread w.thread (fun x => { x with heldTraps := x.heldTraps ++ l }))

/-! ### Completion records (R360) -/

/-- A completion record of 32 bytes. -/
def completion (tag type status handle die col row overlaps kind value key : Nat) : List Byte :=
  toBytes 4 tag ++ toBytes 1 type ++ toBytes 1 status ++ toBytes 2 handle ++ toBytes 1 die ++ toBytes 1 col ++ toBytes 1 row ++
  toBytes 1 overlaps ++ toBytes 1 kind ++ toBytes 3 0 ++ toBytes 8 value ++ toBytes 8 key

/-- A record written to an endpoint's completion queue. -/
def State.toHost (s : State) (ep : Nat) (l : List Byte) : State := { s with hostOut := s.hostOut ++ [{ ep := ep, bytes := l }] }

/-- End kinds of R360. -/
def EndKind.code : EndKind → Nat
  | .normal => 0 | .faulted => 1 | .killed => 2

/-! ### Release -/

/-- An element whose claim is free: nothing of the working is left in it; its cache, its counts and its numbering are the die's. -/
def Elem.freed (x : Elem) : Elem :=
  { tlb := x.tlb, errs := x.errs, reps := x.reps, peerSeq := x.peerSeq,
    peerOut := x.peerOut }

/-- An island with every slot released (R269). -/
def Island.freed (i : Island) : Island :=
  { forN (fun n i => i.setOp n { i.op n with claim := none, fill := 0, rdr := 0 }) 64 0 i with accs := [], tabNew := none, bad := i.bad.filter (fun p => !p.2) }

/-- A thread that is free. -/
def Thread.freed (x : Thread) : Thread := { peerSeq := x.peerSeq, peerOut := x.peerOut }

/-- A quad without the counters of a thread; their values go with them (log entry 23). -/
def Quad.dropOwner (q : Quad) (t : Nat) : Quad :=
  { q with sync := q.sync.filter (fun p => !q.syncOwner.any (fun o => o.1 == p.1 && o.2 == t)),
           syncOwner := q.syncOwner.filter (fun o => o.2 != t) }

/-- Armed watches, accesses, macros, tokens and credits of a working gone with its elements. -/
def State.freeElems (s : State) (h : Nat) : State :=
  ((s.work h).elems.foldl (fun s e => s.modElem e Elem.freed) s).resetSpace h

/-- What the tiles hold for a working gone: open speculations as by SPDIS (R221), and its undo log. -/
def State.freeTiles (s : State) (h : Nat) : State :=
  let w := s.work h
  w.tiles.foldl (fun s t => s.setTile t { specs := (s.tile t).specs.filter (fun p => !w.covers p.opener),
                                          undo := (s.tile t).undo.filter (fun u => u.handle != h) }) s

/-- Its islands' slots released. -/
def State.freeIslands (s : State) (h : Nat) : State :=
  let w := s.work h
  if w.islands then w.tiles.foldl (fun s t => s.setIsland t (s.island t).freed) s else s

/-- Its claims free, or retired with a record (R461). -/
def State.freeClaims (s : State) (h : Nat) : State :=
  let w := s.work h
  ((List.range (w.width * w.height)).map (fun b => elemOfBlock w b 0 / 8)).foldl (fun s c =>
    match w.retire.find? (fun e => e / 8 == c) with
    | some e => (s.setClaim c { retired := true }).log w.die (faultRec h w { cause := 0x75, eid := e } 1)
    | none => s.setClaim c { retired := (s.claim c).retired }) s

/-- A working's claims, islands, tiles, counters and thread released. -/
def State.freeWorking (s : State) (h : Nat) : State :=
  let w := s.work h
  let s := (((s.freeElems h).freeIslands h).freeTiles h).freeClaims h
  let s := s.modQuad (w.thread / 4) (fun q => q.dropOwner w.thread)
  s.setThread w.thread (s.thread w.thread).freed

/-- What the tasks of a working need of it. -/
def Working.home (w : Working) : TaskHome := ⟨w.asid, w.prio, w.subTable, w.subs⟩

/-- A job of the loader is for a task of a working. -/
def Job.ofParent (j : Job) (h : Nat) : Bool :=
  match j.parent with
  | some q => q.handle == h
  | none => false

/-- The task records of a working, admitted or not: gone where it was killed (R516), else launched without a parent (R43; log entry 24). -/
def State.leaveTasks (s : State) (h : Nat) (killed : Bool) : State :=
  let home := some (s.work h).home
  let jobs := fun (l : List Job) => if killed then l.filter (fun j => !j.ofParent h)
    else l.map (fun j => if j.ofParent h then { j with parent := some ⟨0, 0⟩, home := home } else j)
  let tasks := fun (l : List Task) => if killed then l.filter (fun k => k.parent != h)
    else l.map (fun k => if k.parent = h then { k with parent := 0, home := home } else k)
  forN (fun d s => s.modDie d (fun x => { x with tasks := tasks x.tasks })) 4 0 { s with jobs := jobs s.jobs }

/-- The working is no more, and sub-workings it leaves have no parent. Commands for its handle find it ended (R361). -/
def State.forget (s : State) (h : Nat) (killed : Bool) : State :=
  let s := s.leaveTasks h killed
  { s with ended := SMap.set false s.ended h true, works := (SMap.erase s.works h).map (fun p => (p.1, { p.2 with
    parent := match p.2.parent with
      | some q => if q.handle = h then none else some q
      | none => none })) }

/-- The parent's join counter takes a child's end; it is held for a saved parent, once the parent's core has issued in a cycle until the next,
where it comes before the threads (R356), and where no two copies agree, the parent's thread having consumed the error (R44, R191, R377, R468). -/
def State.joinParent (s : State) (p : Parent) (k : EndKind) : State :=
  let w := s.work p.handle
  let held := s.modWork p.handle (fun w => { w with joins := w.joins ++ [(p.counter, k)] })
  let q := s.quad (w.thread / 4)
  if !s.hasWork p.handle || w.killing.isSome then s
  else if w.savedAt.isSome || q.issued = some q.cyc then held
  else match s.joinUpdate (w.thread / 4) p.counter k with
    | some s' => s'
    | none => held.nextRung p.handle (badInfo (.counter p.counter) 0xFFFF 0)

/-- A working's end told to its parent or to its endpoint. -/
def State.reportEnd (s : State) (h : Nat) (w : Working) (k : EndKind) (value : DWord) : State :=
  match w.parent, w.launch with
  | some p, _ => s.joinParent p k
  | none, some (ep, tag) => s.toHost ep (completion tag 0x80 0 h w.die w.col w.row 0 k.code value.toNat w.graphKey.toNat)
  | none, none => s

/-- Workings whose parent is h. -/
def State.children (s : State) (h : Nat) : List Nat :=
  (s.works.filter (fun p => match p.2.parent with
    | some q => q.handle == h
    | none => false)).map (fun p => p.1)

/-! ### End and kill -/

/-- Step 1 of R374: every access has performed, a macro's as far as macros go on. -/
def State.endReady (s : State) (h : Nat) : Bool :=
  (s.work h).elems.all (fun e => (s.elem e).accs.all (fun a =>
    a.stage == .performed || (opMac a.op && a.peers.isEmpty && !(s.work h).macrosGo))) &&
  !s.busyHoists.any (fun p => p.2.2.handle == h)

/-- WORKING_END: a call of 0x2000 by its thread, once nothing of it is in flight. -/
def execWorkingEnd (h : Nat) (s : State) : Out :=
  let w := s.work h
  .next (match w.ending with
  | none => s
  | some v => if w.live && s.endReady h then ((s.freeWorking h).forget h false).reportEnd h w .normal v else s)

/-- Every hoist command of a working cancelled; collectives and streams are aborted at their other ends (R438, R517). -/
def State.cancelAll (s : State) (h cause : Nat) : State :=
  (s.busyHoists.filter (fun p => p.2.2.handle == h)).foldl (fun s p => s.cancelHoist p.1 p.2.1 cause) s

/-- Its children killed with cause 0x4D, before the parent is forgotten; their ends make no join update (R516). -/
def State.killChildren (s : State) (h : Nat) : State :=
  (s.children h).foldl (fun s g => s.startKill g { cause := 0x4D } .killed) s

/-- WORKING_KILL. -/
def execWorkingKill (h : Nat) (s : State) : Out :=
  let w := s.work h
  .next (match w.killing with
  | none => s
  | some (k, v) =>
    let s := s.cancelAll h (v.toNat % 256)
    let s := if w.savedAt.isSome then s else s.freeWorking h
    ((s.killChildren h).forget h true).reportEnd h w k v)

/-! ### The canary (R464) -/

/-- CANARY_STALL. -/
def execCanaryStall (h : Nat) (s : State) : Out :=
  let w := s.work h
  let x := s.thread w.thread
  let side := x.canSide.note (s.die w.die).cycles x.canStalls 1
  .next (if h = 0 || !w.live || w.state != .running || w.freeze.isSome || !x.canEn || x.canIdle < 2 ^ x.canWin.toNat then s
  else (s.setThread w.thread { x with canStalls := min (x.canStalls + 1) 255, canSide := side }).raiseFault h (w.thread / 4)
    { cause := 0x71, detail := x.canWin.toNat % 32 })

/-! ### Counters (R467, R468) -/

/-- The working whose thread owns a counter; 0 for none. -/
def State.counterHandle (s : State) (q n : Nat) : Nat :=
  match (s.quad q).syncOwner.find? (fun p => p.1 == n) with
  | some p => (s.thread p.2).bound
  | none => 0

/-- Join updates that were held for a counter that is whole again. -/
def State.heldJoins (s : State) (q n : Nat) : State :=
  let h := s.counterHandle q n
  let w := s.work h
  if h = 0 || w.savedAt.isSome then s
  else if !s.whole q n then s
  else ((w.joins.filter (fun p => p.1 == n)).foldl (fun s p => (s.joinUpdate q n p.2).getD s) s).modWork h
    (fun w => { w with joins := w.joins.filter (fun p => p.1 != n) })

/-- COUNTER_SWEEP: a quad votes its next counter, one every 1,024 cycles. -/
def execCounterSweep (d q : Nat) (s : State) : Out :=
  let k := d * 48 + q
  let x := s.quad k
  let n := x.sweep % 64
  .next (if 4 ≤ d || 48 ≤ q || x.cyc < 1024 * (x.sweep + 1) then s
  else
    let s := s.setQuad k { x with sweep := x.sweep + 1 }
    match s.voteRead k n with
    | some r => if (s.work (s.counterHandle k n)).joins.isEmpty then r.2 else r.2.heldJoins k n
    | none =>
      s.log d { cause := 0x27, outcome := 1, handle := s.counterHandle k n, quad := q, detail := 0x20 + n * 2 ^ 8 })

/-! ### Scrubbing (R489) -/

/-- SCRUB: an error corrected and counted, or one that cannot be corrected, which stays. -/
def execScrub (a : Nat) (fix : Bool) (s : State) : Out :=
  let d := dieOfAddr a
  .next (if !(inHbm a || (windowTile a).isSome) then s
  else if fix then
    s.corrected d (bankSource a) (s.clockOf a) { cause := if inWindow a then 0x22 else 0x20, outcome := 0, paddr := sectorOf a }
  else
    let r := (s.setBad a true).countSource d (bankSource a) (s.clockOf a) false
    r.1.log d { cause := if inWindow a then 0x23 else 0x21, outcome := 1, paddr := sectorOf a, count := r.2.count })

/-! ### Windows (R442) -/

/-- A die's count of a source at the end of its window. -/
def State.expireSource (s : State) (d : Nat) (src : ErrSource) (now : Nat) : State :=
  s.modDie d (fun x => { x with errs := x.errs.filter (fun k => k.src != src || (k.win.at' now).n != 0) })

/-- ERROR_WINDOW_EXPIRE. -/
def execErrorWindowExpire (src : ErrSource) (s : State) : Out :=
  .next (match src with
  | .elem e => s.modElem e (fun x => { x with errs := x.errs.at' (s.quad (quadOf e)).cyc })
  | .elemReplay e => s.modElem e (fun x => { x with reps := x.reps.at' (s.quad (quadOf e)).cyc })
  | .bank a => s.expireSource (dieOfAddr a) src (s.clockOf a)
  | .link n _ => s.expireSource (linkDie n) src (s.die (linkDie n)).cycles
  | .counter q n => s.expireSource (q / 48) (.counter q n) (s.quad q).cyc)

end Sys2Proof.Machine
end

