-- ==== Sys2Proof/Machine/ForemanAlu.lean ====
section
/-! DEFINITION. Foreman integer instructions: the ALU group (R319, R320), the immediate forms (R321) and compares (R322). -/

namespace Sys2Proof.Machine

open Sys2Proof

/-- A two-operand instruction of the ALU group: rd := f a b; flags unchanged (R319). -/
def State.alu (s : State) (rd ra rb : Reg) (f : DWord → DWord → DWord) : Out :=
  s.onThread [rd, ra, rb] (fun t x => s.finish t (x.setReg rd (f (x.reg ra) (x.reg rb))))

/-- A one-operand instruction: rd := f a. -/
def State.alu1 (s : State) (rd ra : Reg) (f : DWord → DWord) : Out :=
  s.onThread [rd, ra] (fun t x => s.finish t (x.setReg rd (f (x.reg ra))))

/-- sh of R319: b mod 64. -/
def shAmount (b : DWord) : Nat := b.toNat % 64

/-- Signed division, truncated toward zero; b = 0 gives all ones (R320). -/
def divS (a b : DWord) : DWord := if b = 0 then BitVec.allOnes 64 else BitVec.ofInt 64 (a.toInt.tdiv b.toInt)
/-- Signed remainder; b = 0 gives a (R320). -/
def remS (a b : DWord) : DWord := if b = 0 then a else a - b * divS a b
/-- Unsigned division (R320). -/
def divU (a b : DWord) : DWord := if b = 0 then BitVec.allOnes 64 else BitVec.ofNat 64 (a.toNat / b.toNat)
/-- Unsigned remainder (R320). -/
def remU (a b : DWord) : DWord := if b = 0 then a else BitVec.ofNat 64 (a.toNat % b.toNat)
/-- High halves of products (R319). -/
def mulhS (a b : DWord) : DWord := BitVec.ofInt 64 ((a.toInt * b.toInt) / (2 ^ 64 : Nat))
def mulhU (a b : DWord) : DWord := BitVec.ofNat 64 (a.toNat * b.toNat / 2 ^ 64)
/-- Leading zeros of a, 64 when a = 0. -/
def clz64 (a : DWord) : DWord := BitVec.ofNat 64 (if a = 0 then 64 else 63 - flog2 a.toNat)

/-- ADD. -/
def execForemanAdd (rd ra rb : Reg) (s : State) : Out := s.alu rd ra rb (fun a b => a + b)
/-- SUB. -/
def execForemanSub (rd ra rb : Reg) (s : State) : Out := s.alu rd ra rb (fun a b => a - b)
/-- AND. -/
def execForemanAnd (rd ra rb : Reg) (s : State) : Out := s.alu rd ra rb (fun a b => a &&& b)
/-- OR. -/
def execForemanOr (rd ra rb : Reg) (s : State) : Out := s.alu rd ra rb (fun a b => a ||| b)
/-- XOR. -/
def execForemanXor (rd ra rb : Reg) (s : State) : Out := s.alu rd ra rb (fun a b => a ^^^ b)
/-- ANDN. -/
def execForemanAndn (rd ra rb : Reg) (s : State) : Out := s.alu rd ra rb (fun a b => a &&& ~~~b)
/-- SHL. -/
def execForemanShl (rd ra rb : Reg) (s : State) : Out := s.alu rd ra rb (fun a b => a <<< shAmount b)
/-- SHR. -/
def execForemanShr (rd ra rb : Reg) (s : State) : Out := s.alu rd ra rb (fun a b => a >>> shAmount b)
/-- SHA. -/
def execForemanSha (rd ra rb : Reg) (s : State) : Out := s.alu rd ra rb (fun a b => a.sshiftRight (shAmount b))
/-- MUL. -/
def execForemanMul (rd ra rb : Reg) (s : State) : Out := s.alu rd ra rb (fun a b => a * b)
/-- MULH. -/
def execForemanMulh (rd ra rb : Reg) (s : State) : Out := s.alu rd ra rb mulhS
/-- MULHU. -/
def execForemanMulhu (rd ra rb : Reg) (s : State) : Out := s.alu rd ra rb mulhU
/-- DIV. -/
def execForemanDiv (rd ra rb : Reg) (s : State) : Out := s.alu rd ra rb divS
/-- DIVU. -/
def execForemanDivu (rd ra rb : Reg) (s : State) : Out := s.alu rd ra rb divU
/-- REM. -/
def execForemanRem (rd ra rb : Reg) (s : State) : Out := s.alu rd ra rb remS
/-- REMU. -/
def execForemanRemu (rd ra rb : Reg) (s : State) : Out := s.alu rd ra rb remU
/-- MIN. -/
def execForemanMin (rd ra rb : Reg) (s : State) : Out := s.alu rd ra rb (fun a b => if b.slt a then b else a)
/-- MAX. -/
def execForemanMax (rd ra rb : Reg) (s : State) : Out := s.alu rd ra rb (fun a b => if a.slt b then b else a)
/-- MINU. -/
def execForemanMinu (rd ra rb : Reg) (s : State) : Out := s.alu rd ra rb (fun a b => if b.ult a then b else a)
/-- MAXU. -/
def execForemanMaxu (rd ra rb : Reg) (s : State) : Out := s.alu rd ra rb (fun a b => if a.ult b then b else a)
/-- CLZ. -/
def execForemanClz (rd ra : Reg) (s : State) : Out := s.alu1 rd ra clz64
/-- POPC. -/
def execForemanPopc (rd ra : Reg) (s : State) : Out := s.alu1 rd ra (fun a => BitVec.ofNat 64 (popc 64 a.toNat))

/-- ADDI. -/
def execAddi (rd ra : Reg) (imm : BitVec 14) (s : State) : Out := s.alu1 rd ra (fun a => a + imm.signExtend 64)
/-- ANDI. -/
def execAndi (rd ra : Reg) (imm : BitVec 14) (s : State) : Out := s.alu1 rd ra (fun a => a &&& imm.signExtend 64)
/-- ORI. -/
def execOri (rd ra : Reg) (imm : BitVec 14) (s : State) : Out := s.alu1 rd ra (fun a => a ||| imm.signExtend 64)
/-- XORI. -/
def execXori (rd ra : Reg) (imm : BitVec 14) (s : State) : Out := s.alu1 rd ra (fun a => a ^^^ imm.signExtend 64)
/-- SHLI. -/
def execShli (rd ra : Reg) (sh : BitVec 6) (s : State) : Out := s.alu1 rd ra (fun a => a <<< sh.toNat)
/-- SHRI. -/
def execShri (rd ra : Reg) (sh : BitVec 6) (s : State) : Out := s.alu1 rd ra (fun a => a >>> sh.toNat)
/-- SHAI. -/
def execShai (rd ra : Reg) (sh : BitVec 6) (s : State) : Out := s.alu1 rd ra (fun a => a.sshiftRight sh.toNat)

/-- LI: two words. -/
def execLi (rd : Reg) (imm : Word) (s : State) : Out :=
  s.onThread [rd] (fun t x => .next (s.setThread t ((x.setReg rd (imm.signExtend 64)).advance 8)))

/-- ADDL: two words. -/
def execAddl (rd ra : Reg) (imm : Word) (s : State) : Out :=
  s.onThread [rd, ra] (fun t x => .next (s.setThread t ((x.setReg rd (x.reg ra + imm.signExtend 64)).advance 8)))

/-- CMP. -/
def execCmp (ra rb : Reg) (s : State) : Out :=
  s.onThread [ra, rb] (fun t x => s.finish t (x.compare (x.reg ra) (x.reg rb)))

/-- CMPI. -/
def execCmpi (ra : Reg) (imm : BitVec 14) (s : State) : Out :=
  s.onThread [ra] (fun t x => s.finish t (x.compare (x.reg ra) (imm.signExtend 64)))

end Sys2Proof.Machine
end

