-- ==== Sys2Proof/Machine/Loader.lean ====
section
/-! DEFINITION. The loader (R369 to R373, R510 to R513): what a launch or a sub-working asks for, the checks in their
order, the commit, and WLOAD (R337). -/

namespace Sys2Proof.Machine

open Sys2Proof

/-! ### Second reads (R511) -/

/-- A second read of a bad sector that comes out good: the record of R511. -/
def goodAgain (d h : Nat) (s : State) (pa : Nat) : Option State :=
  some ((s.setBad pa false).log d { cause := 0x21, outcome := 2, handle := h, paddr := pa })

/-- A second read of a bad sector comes out good. -/
def loadAgain : LoadCheck → Bool
  | .sectors b => b
  | _ => false

/-- The record of a line of the configuration cache that was bad, or marked so, and has been fetched again for a load of an image (R451). -/
def State.logLine (s : State) (d h va : Nat) (c : LoadCheck) : State :=
  if c = .line || (s.die d).badLines.contains va then
    (s.modDie d (fun x => { x with badLines := x.badLines.filter (· != va) })).log d { cause := 0x25, outcome := 2, handle := h }
  else s

/-- A reader of a die, with what its second reads come to. -/
def loadReader (d asid h : Nat) (again : Bool) : Reader :=
  ⟨State.loadFind d asid, fun s pa => if again then goodAgain d h s pa else none⟩

/-! ### What is to start (R358, R372) -/

/-- A launch or a sub-working as it is asked for. -/
structure Start where
  asid : Nat
  prio : Nat
  nomove : Bool := false
  raceX : Bool := false
  config : Nat
  program : Nat
  entry : Nat
  progLen : Nat
  stack : Nat
  tp : Nat
  subTable : Nat := 0
  subs : Nat := 0
  handlerTable : Nat := 0
  handlers : Nat := 0
  streams : List (BitVec 32) := []
  colls : List (Nat × Nat × Nat × Nat) := []
  graphKey : Nat := 0
  isltab : Option DWord := none
  canary : Option Nat := none
  /-- g1 and g4 to g7 (R310, R373) -/
  g1 : Nat := 0
  args : List Nat := []
  place : Option (Nat × Nat × Nat) := none

/-- The flags of a command record. -/
def recType (l : List Byte) : Nat := le l 3 1
def recTag (l : List Byte) : Nat := le l 4 4
def recHandle (l : List Byte) : Nat := le l 8 2
def recFlag (l : List Byte) (i : Nat) : Bool := bit (le l 13 1) i

/-- The collective bindings of a launch record that are valid: identifier, rank, parties and party table. -/
def recColls (l : List Byte) : List (Nat × Nat × Nat × Nat) :=
  ((List.range 4).filter (fun n => bit (le l (160 + 16 * n + 6) 1) 0)).map (fun n =>
    let o := 160 + 16 * n
    (le l o 2, le l (o + 2) 2, le l (o + 4) 2, le l (o + 8) 8))

/-- A launch record in version 3 form. -/
def recStart (l : List Byte) (raceOk : Bool) : Start :=
  { asid := le l 10 2, prio := le l 12 1 % 16, nomove := recFlag l 1, raceX := recFlag l 2 && raceOk,
    config := le l 16 8, program := le l 24 8, entry := le l 32 8, progLen := le l 88 8, stack := le l 40 8, tp := le l 48 8,
    subTable := le l 56 8, subs := le l 64 2, handlerTable := le l 80 8, handlers := le l 70 2,
    streams := (List.range 8).map (fun n => BitVec.ofNat 32 (le l (128 + 4 * n) 4)), colls := recColls l, graphKey := le l 224 8,
    isltab := if recFlag l 3 then some (BitVec.ofNat 64 (le l 72 8)) else none,
    canary := if recFlag l 4 then some (le l 69 1) else none,
    place := if recFlag l 0 then some (le l 66 1, le l 68 1, le l 67 1) else none }

/-- A sub-working from its task record, its entry of the parent's table and its parent (R372, R373). -/
def taskStart (k e : List Byte) (w : TaskHome) : Start :=
  { asid := w.asid, prio := w.prio, config := le e 0 8, program := le e 8 8, entry := le e 16 8, progLen := le e 24 8, stack := le e 32 8,
    tp := le e 40 8, g1 := le k 32 1 + le k 33 1 % 2 * 2 ^ 8 + le k 35 1 % 64 * 2 ^ 16 + le k 34 1 * 2 ^ 24,
    args := (List.range 4).map (fun i => le k (8 * i) 8) }

/-- What a task needs of its parent, resident or ended. -/
def State.homeOf (s : State) (parent : Nat) (home : Option TaskHome) : TaskHome := home.getD (s.work parent).home

/-- The start of a task of a working: its sub-graph's entry is read by a reader; an index beyond the table names none. -/
def State.taskOf (s : State) (r : Reader) (w : TaskHome) (k : List Byte) : Except LoadErr (Start × State) :=
  let n := le k 34 1
  if w.subs ≤ n then .error { cause := 0x49 }
  else match s.readSpan r (w.subTable + 48 * n) 48 with
    | .ok e s1 => .ok (taskStart k e w, s1)
    | .bad pa _ => .error { cause := 0x21, va := pa }
    | .trap i _ => .error { cause := 0x49, va := i.va }

/-! ### Bids (R362, R366, R367) -/

/-- The alignments that an image allows, as bits 2 * (row mod 4) + col mod 2; one that allows none is judged at its load. -/
def Image.alignBits (m : Image) : Nat :=
  let v := (List.range 8).foldl (fun v k => if m.aligned (k / 2) (k % 2) then v + 2 ^ k else v) 0
  if v = 0 then (if m.islands then 1 else 255) else v

/-- An alignment bit. -/
def alignOk (aligns : BitVec 8) (row col : Nat) : Bool := aligns.getLsbD (row % 4 * 2 + col % 2)

/-- A position that a bid can ever have. -/
def Bid.fits (b : Bid) (row col : Nat) : Bool := row + b.height ≤ 48 && col + b.width ≤ 32 && alignOk b.aligns row col

/-- Rows and columns, in the order of R366. -/
def positions : List (Nat × Nat) := (List.range 1536).map (fun i => (i / 32, i % 32))

/-- The claims of a rectangle. -/
def rectClaims (row col height width : Nat) : List (Nat × Nat) :=
  (List.range (height * width)).map (fun i => (row + i / width, col + i % width))

/-- A bid can ever stand at a position of a die: none of its claims is retired (R461). -/
def State.canStand (s : State) (b : Bid) (d row col : Nat) : Bool :=
  b.fits row col && (!b.islands || (row % 4 == 0 && col % 2 == 0)) &&
  (rectClaims row col b.height b.width).all (fun p => !(s.claim (claimKey d p.1 p.2)).retired)

/-- Check 2: some position of the dies that a bid may take, or the one given, can hold the rectangle. -/
def State.possible (s : State) (dies : List Nat) (b : Bid) (place : Option (Nat × Nat × Nat)) : Bool :=
  (!b.islands || (b.width % 2 == 0 && b.height % 4 == 0)) &&
  match place with
  | some p => p.1 < 4 && s.canStand b p.1 p.2.1 p.2.2
  | none => dies.any (fun d => positions.any (fun p => s.canStand b d p.1 p.2))

/-- The bid of an image, or the refusal by checks 1 and 2. -/
def State.imageBid (s : State) (dies : List Nat) (m : Image) (prio : Nat) (place : Option (Nat × Nat × Nat)) : Except LoadErr Bid :=
  match m.headerErr with
  | some e => .error e
  | none =>
    let b : Bid := { width := m.width, height := m.height, islands := m.islands, aligns := BitVec.ofNat 8 m.alignBits, prio := prio }
    if s.possible dies b place then .ok b else .error { cause := 0x48, offset := if m.islands then 4 else 0 }

/-- The bid of a start, its image read as it stands by die d; it may take the dies given. -/
def State.startBid (s : State) (d : Nat) (dies : List Nat) (st : Start) : Except LoadErr Bid :=
  match s.readImage (peekReader d st.asid) st.config with
  | .ok l _ => s.imageBid dies (imageOf l) st.prio st.place
  | .bad pa _ => .error { cause := 0x41, va := pa }
  | .trap i _ => .error { cause := 0x41, va := i.va }

/-! ### Check 8 (R358, R372, R382) -/

/-- A party table read: P words of four bytes. -/
def State.readTable (s : State) (r : Reader) (va n size : Nat) : Except LoadErr (List Nat × State) :=
  match s.readSpan r va (n * size) with
  | .ok l s1 => .ok ((List.range n).map (fun i => le l (size * i) size), s1)
  | .bad pa _ => .error { cause := 0x21, va := pa }
  | .trap i _ => .error { cause := 0x49, va := i.va }

/-- A handler table entry keeps R382. -/
def handlerOk (v subs : Nat) (entry : Nat → Nat) : Bool :=
  let a := bits v 15 8
  let c := bits v 23 16
  bits v 63 24 == 0 &&
  match v % 256 with
  | 0 => a == 0 && c == 0
  | 1 => a < subs && c < 64
  | 2 => entSpace (entry a) != 0 && entSize (entry a) == 32 && entDims (entry a) == 1 && entWrite (entry a) &&
         entSpace (entry c) != 0 && entSize (entry c) == 4 && entWrite (entry c)
  | _ => false

/-- A collective binding of a launch on a die: the rank lies below P, its own entry names this package and die, and no resident working
binds the identifier to the rank. -/
def State.collOk (s : State) (d ident rank p : Nat) (table : List Nat) : Bool :=
  rank < p && (let e := table.getD rank 0; bits e 8 0 == s.package && bits e 10 9 == d) && table.all (fun e => e < 2048) &&
  !(s.works.any (fun w => w.2.savedAt.isNone && w.2.colls.any (fun b => b.id == ident && b.rank == rank)))

/-- The collective bindings with their tables, judged. -/
def State.checkColls (s : State) (r : Reader) (d : Nat) : List (Nat × Nat × Nat × Nat) → Except LoadErr (List CollBind × State)
  | [] => .ok ([], s)
  | b :: rest =>
    match s.readTable r b.2.2.2 b.2.2.1 4 with
    | .error e => .error e
    | .ok (t, s1) =>
      if !s1.collOk d b.1 b.2.1 b.2.2.1 t || rest.any (fun c => c.1 == b.1 && c.2.1 == b.2.1) then .error { cause := 0x49, va := b.2.2.2 }
      else match State.checkColls s1 r d rest with
        | .error e => .error e
        | .ok (l, s2) => .ok (⟨b.1, b.2.1, b.2.2.1, t.map (BitVec.ofNat 32)⟩ :: l, s2)

/-- Check 8 whole: the bindings, then the sub-graph table, then the handlers. -/
def State.tableChecks (s : State) (r : Reader) (d : Nat) (st : Start) (entry : Nat → Nat) : Except LoadErr (List CollBind × State) :=
  match s.checkColls r d st.colls with
  | .error e => .error e
  | .ok (l, s1) => match s1.readTable r st.subTable st.subs 48 with
    | .error e => .error e
    | .ok (_, s2) => match s2.readTable r st.handlerTable st.handlers 8 with
      | .error e => .error e
      | .ok (t, s3) => if t.all (fun v => handlerOk v st.subs entry) then .ok (l, s3) else .error { cause := 0x49, va := st.handlerTable }

/-! ### The checks in order (R369) -/

/-- The working that a start and its image make at a place. -/
def Start.working (st : Start) (m : Image) (d row col t : Nat) : Working :=
  { m.at d row col with
    asid := st.asid, prio := st.prio, nomove := st.nomove, raceX := st.raceX, thread := t, config := st.config, program := st.program,
    progLen := st.progLen, subTable := st.subTable, subs := st.subs, handlerTable := st.handlerTable, handlers := st.handlers,
    streams := st.streams, graphKey := BitVec.ofNat 64 st.graphKey,
    layout := (List.range 256).foldl (fun k n => SMap.set 0 k n (BitVec.ofNat 512 (m.entry n))) [],
    decls := (List.range m.races).map (fun n => BitVec.ofNat 128 (m.decl n)),
    phaseAt := (phaseFlags m.blockList).headD (0, 0),
    ctxFrom := ((List.range 4).filter (bit m.contexts)).map (fun c => (c, st.config)) }

/-- Checks 1 to 8 of a launch at a place: the working, its collectives, and the overlaps that the expert policy lets pass. -/
def State.launchChecks (s : State) (r : Reader) (st : Start) (l : List Byte) (d row col t : Nat) :
    Except LoadErr (Working × List Overlap × State) :=
  let m := imageOf l
  match (m.headerErr.or (match s.imageBid [d] m st.prio st.place with
    | .error e => some e
    | .ok _ => none)).or (m.blockChecks m.blockList m.entry st.subs none) with
  | some e => .error e
  | none =>
    let w := st.working m d row col t
    match (m.layoutErr w).or (m.declsErr m.entry m.blockList) with
    | some e => .error e
    | none =>
      let o := m.overlaps w m.entry m.blockList
      match (if st.raceX then none else o.head?) with
      | some v => .error (m.overlapErr v)
      | none => match s.tableChecks r d st m.entry with
        | .error e => .error e
        | .ok (c, s1) => .ok ({ w with colls := c }, o, s1)

/-! ### Commit (R371, R310) -/

/-- The blocks of an image for a claim index, over all contexts; a pair without a block is cleared (R127). -/
def Image.claimBlocks (m : Image) (i : Nat) : SMap BlockCfg :=
  (m.blockList.filter (fun b => b.idx == i)).foldl (fun k b => SMap.set {} k b.ctx b.cfg) []

/-- The claims of a working, by block index. -/
def Working.claimAt (w : Working) (i : Nat) : Nat := elemOfBlock w i 0 / 8

/-- Every claim takes its owner and its blocks. -/
def State.putClaims (s : State) (h : Nat) (w : Working) (blocks : Nat → SMap BlockCfg) : State :=
  forN (fun i s => s.setClaim (w.claimAt i) { owner := h, blocks := blocks i }) (w.width * w.height) 0 s

/-- The thread of R310 or R373, with the canary window that the launch gives. -/
def Start.thread (st : Start) (h : Nat) (x : Thread) : Thread :=
  let y : Thread := { bound := h, pc := BitVec.ofNat 64 st.entry, canWin := BitVec.ofNat 8 (st.canary.getD 24), peerSeq := x.peerSeq,
                      peerOut := x.peerOut }
  let y := ((y.setReg 1 (BitVec.ofNat 64 st.g1)).setReg 2 (BitVec.ofNat 64 st.stack)).setReg 3 (BitVec.ofNat 64 st.tp)
  forN (fun i y => y.setReg (4 + i) (BitVec.ofNat 64 (st.args.getD i 0))) 4 0 y

/-- The elements begin in context 0, and the islands with their tables. -/
def State.beginElems (s : State) (h : Nat) (isltab : Option DWord) : State :=
  let w := s.work h
  let s := (w.elems.foldl (fun s e => s.modElem e Elem.freed) s).enterContext h 0
  if w.islands then
    w.tiles.foldl (fun s t => s.setIsland t { (s.island t).freed with
      tab := match isltab with
        | some v => v &&& isltabWritable
        | none => isltabReset }) s
  else s

/-- The commit of a launch. -/
def State.commitLaunch (s : State) (h : Nat) (m : Image) (w : Working) (st : Start) : State :=
  let s := (s.setWork h w).putClaims h w m.claimBlocks
  let s := s.beginElems h st.isltab
  s.modThread w.thread (st.thread h)

/-- The record of an overlap that the expert policy lets pass (R510). -/
def State.logOverlap (s : State) (h : Nat) (w : Working) (o : Overlap) : State :=
  s.log w.die { cause := 0x4A, outcome := 1, handle := h, quad := threadQuad w.thread, vaddr := o.va,
                detail := o.first + o.second * 2 ^ 16 + o.ctx * 2 ^ 32 }

/-- The record of a refused load (R472). -/
def State.logRefused (s : State) (d h : Nat) (e : LoadErr) : State :=
  s.log d { cause := e.cause, outcome := 7, handle := h, vaddr := e.va, detail := e.detail }

/-! ### Jobs -/

/-- What a job is to start; none for a restore. -/
def State.jobStart (s : State) (r : Reader) (j : Job) : Except LoadErr (Start × State) :=
  if 64 ≤ j.source then
    match j.parent with
    | some p => s.taskOf r (s.homeOf p.handle j.home) j.bytes
    | none => .error { cause := 0x49 }
  else .ok (recStart j.bytes (s.die 0).raceOk, s)

/-- The address space of a job. -/
def State.jobAsid (s : State) (j : Job) : Nat :=
  match j.parent with
  | some p => (s.homeOf p.handle j.home).asid
  | none => le j.bytes 10 2

/-- A job gone from the loader. -/
def State.dropJob (s : State) (j : Job) : State := { s with jobs := s.jobs.filter (fun k => k.handle != j.handle) }

/-- A command refused: its completion record, with the place and the graph key of a working that it concerns (R360). -/
def State.replyRefused (s : State) (ep : Nat) (l : List Byte) (status h : Nat) : State :=
  let w := s.work h
  s.toHost ep (completion (recTag l) (recType l) status h w.die w.col w.row 0 0 0 (if recType l = 0 then le l 224 8 else w.graphKey.toNat))

/-- A launch job refused or aborted: its record, and its completion with handle 0, or the count of a child that faulted (log entry 26). -/
def State.refuseJob (s : State) (j : Job) (e : LoadErr) : State :=
  let s := (s.logRefused j.die 0 e).dropJob j
  match j.parent with
  | some p => s.joinParent p .faulted
  | none => s.replyRefused j.source j.bytes (if e.cause = 0x21 || e.cause = 0x25 then 0x41 else e.cause) 0

/-- The image of a start read, or the refusal of R511. -/
def State.loadBytes (s : State) (r : Reader) (va : Nat) : Except (LoadErr × State) (List Byte × State) :=
  match s.readImage r va with
  | .ok l s1 => .ok (l, s1)
  | .bad pa s1 => .error ({ cause := 0x21, va := pa }, s1)
  | .trap i s1 => .error ({ cause := 0x41, va := i.va }, s1)

/-- A launch or sub-working loaded: the checks, and the commit in one step. -/
def State.loadJob (s : State) (j : Job) (c : LoadCheck) : State :=
  let d := if 64 ≤ j.source then j.die else 0
  let r := loadReader d (s.jobAsid j) 0 (loadAgain c)
  match s.jobStart r j with
  | .error e => s.refuseJob j e
  | .ok (st, s1) => match s1.loadBytes r st.config with
    | .error (e, s2) => s2.refuseJob j e
    | .ok (l, s2) => match s2.launchChecks r st l j.die j.row j.col j.thread with
      | .error e => s2.refuseJob j e
      | .ok (w, o, s3) =>
        if c = .word then s3.refuseJob j { cause := 0x25 } else
        let s3 := s3.logLine j.die 0 st.config c
        let w := { w with launch := if 64 ≤ j.source then none else some (j.source, recTag j.bytes), parent := j.parent }
        let s4 := o.foldl (fun s v => s.logOverlap j.handle w v) ((s3.dropJob j).commitLaunch j.handle (imageOf l) w st)
        if 64 ≤ j.source then s4
        else s4.toHost j.source (completion (recTag j.bytes) 0 0 j.handle w.die w.col w.row (min o.length 255) 0 0 st.graphKey)

/-! ### WLOAD (R337, R512) -/

/-- Contexts of a mask cleared in every claim. -/
def State.clearContexts (s : State) (h mask : Nat) : State :=
  let w := s.work h
  forN (fun i s => let c := s.claim (w.claimAt i)
                   s.setClaim (w.claimAt i) { c with blocks := c.blocks.filter (fun p => !bit mask p.1) }) (w.width * w.height) 0 s

/-- The header checks that a WLOAD adds. -/
def wloadErr (w : Working) (m : Image) (mask : Nat) : Option LoadErr :=
  match lowestOff [(3, m.ident != w.ident.toNat), (4, m.width != w.width), (5, m.height != w.height), (6, m.islands != w.islands),
      (10, m.layouts != 0)] with
  | some o => some { cause := 0x41, offset := o }
  | none =>
    if (List.range 4).any (fun c => bit mask c && !bit m.contexts c) || (w.state != .idle && bit mask w.active.toNat) then
      some { cause := 0x42, offset := 7 }
    else none

/-- Checks 1, 3, 4, 5 and 7 of a WLOAD, under the race policy of the launch (log entry 28). -/
def wloadChecks (w : Working) (m : Image) (mask : Nat) : Except LoadErr (List Overlap) :=
  let l := m.blockList
  match ((m.headerErr.or (wloadErr w m mask)).or (m.blockChecks l w.entry w.subs (some w.phaseAt))).or (m.declsErr w.entry l) with
  | some e => .error e
  | none =>
    let o := m.overlaps w w.entry (l.filter (fun b => bit mask b.ctx))
    match (if w.raceX then none else o.head?) with
    | some v => .error (m.overlapErr v)
    | none => .ok o

/-- The contexts of a mask written from an image. -/
def State.commitContexts (s : State) (h mask va : Nat) (m : Image) : State :=
  let w := s.work h
  let s := forN (fun i s =>
    let c := s.claim (w.claimAt i)
    let kept := c.blocks.filter (fun p => !bit mask p.1)
    let put := (m.blockList.filter (fun b => b.idx == i && bit mask b.ctx)).foldl (fun k b => SMap.set {} k b.ctx b.cfg) kept
    s.setClaim (w.claimAt i) { c with blocks := put }) (w.width * w.height) 0 s
  s.modWork h (fun w => { w with ctxFrom := ((List.range 4).filter (bit mask)).foldl (fun k c => SMap.insert k c va) w.ctxFrom })

/-- The end of a WLOAD: rd and f written. -/
def State.endLoad (s : State) (t h rd status : Nat) : State :=
  let s := s.modWork h (fun w => { w with loading := false })
  let x := s.thread t
  s.setThread t (({ x with f := status != 0, wait := .none }.setReg rd (BitVec.ofNat 64 status)).advance 4)

/-- A WLOAD that has read and judged its image, or has been refused or aborted. -/
def State.loadContexts (s : State) (h va mask rd : Nat) (c : LoadCheck) : State :=
  let w := s.work h
  let t := w.thread
  let r : Reader := ⟨fun s a => s.touch t a .read, fun s pa => if loadAgain c then goodAgain w.die h s pa else none⟩
  let abort := fun (s : State) (cause pa : Nat) =>
    ((s.clearContexts h mask).log w.die { cause := cause, outcome := 7, handle := h, quad := threadQuad t, paddr := pa,
                                          detail := ({ cause := cause } : LoadErr).detail }).endLoad t h rd 0x41
  match s.readImage r va with
  | .trap i s => ((s.clearContexts h mask).modWork h (fun w => { w with loading := false })).threadFault t { i with va := i.va }
  | .bad pa s => abort s 0x21 pa
  | .ok l s1 => match wloadChecks w (imageOf l) mask with
    | .error e => (s1.log w.die { cause := e.cause, outcome := 7, handle := h, quad := threadQuad t, vaddr := e.va, detail := e.detail }).endLoad
        t h rd e.cause
    | .ok o =>
      if c = .word then abort s1 0x25 0
      else ((o.foldl (fun s v => s.logOverlap h w v) (s1.logLine w.die h va c)).commitContexts h mask va (imageOf l)).endLoad t h rd 0

/-- WLOAD: the load is begun, and the thread waits for it. -/
def execWload (rd ra rb : Reg) (s : State) : Out :=
  s.onWorking [rd, ra, rb] (fun t x =>
    .next ((s.modWork x.bound (fun w => { w with loading := true })).sleep t (.wload (x.reg ra).toNat ((x.reg rb).toNat % 16) rd)))

end Sys2Proof.Machine
end

