-- ==== Sys2Proof/Machine/Save.lean ====
section
/-! DEFINITION. Save images (R377 to R381): the read-back record of an element (R379), the image's bytes, what a working is made of, and its
placement anew with the translations of R368; RDS fn 6, WSAVE, WREST and WQUERY fn 2 (R342, R343). -/

namespace Sys2Proof.Machine

open Sys2Proof

/-- What section 6 holds of an element: its accesses with their replies, its watches, its wave buffer and waves, and its order of issue. -/
structure Pending where
  accs : List Access := []
  watches : List Access := []
  wbuf : List Access := []
  waves : List Wave := []
  seq : Nat := 0
deriving DecidableEq, Repr

end Sys2Proof.Machine

namespace Sys2Proof.Config

open Sys2Proof.Machine

/-! ### Layouts that R378 leaves open (log entry 30) -/

/-- A thread and its sync counters in section 0, and read back. -/
opaque threadBytes : Thread → List (Nat × DWord) → List Byte
opaque threadRead : List Byte → Option (Thread × List (Nat × DWord))

/-- The undo log and the open speculations of a tile in section 5, and read back from what follows a share, with their length. -/
opaque tileBytes : List Undo → List Spec → List Byte
opaque tileRead : List Byte → Option (List Undo × List Spec × Nat)

/-- What section 6 holds after the poison record: regions, pending items, and what each element has pending; and read back. -/
opaque restBytes : List Region → List DWord → List Pending → List Byte
opaque restRead : List Byte → Option (List Region × List DWord × List Pending)

end Sys2Proof.Config

namespace Sys2Proof.Machine

open Sys2Proof

/-! ### The element record (R379) -/

/-- The macro of an element: the oldest that is in flight. -/
def Elem.macro' (x : Elem) : Option Access := x.accs.find? (fun a => opMac a.op && a.stage != .performed)

/-- The count that lane 2 of a macro's status gives (R279). -/
def macroTotal (a : Access) : Nat := if a.op = 0xC2 || a.op = 0xC3 then 8 else a.total

/-- A queue entry's words: payload and sideband. -/
def entryWords : Option QEntry → List DWord
  | some k => payWords k.tok.p ++ [BitVec.ofNat 64 (k.tok.side + 2 ^ 63)]
  | none => List.replicate 5 0

/-- An operand's words, with the sideband that it had at the firing. -/
def operandWords (v : VReg) (side : Nat) : List DWord := payWords v.p ++ [BitVec.ofNat 64 (side + 2 ^ 63)]

/-- Words 207 to 222: the macro. -/
def macroWords : Option Access → List DWord
  | none => List.replicate 16 0
  | some a =>
    [BitVec.ofNat 64 (a.op + a.prg * 2 ^ 32)] ++ operandWords a.a a.aside ++ operandWords a.b a.bside ++
    [BitVec.ofNat 64 (a.desc.toNat + macroTotal a * 2 ^ 32), BitVec.ofNat 64 a.base, BitVec.ofNat 64 a.sbase, 0, 0]

/-- The words of a chain. -/
def chainWords (c : Chain) : List DWord :=
  [c.startLive ++ c.startSh, c.stepLive ++ c.stepSh, c.countLive ++ c.countSh, c.x.setWidth 64]

/-- A sum of fields of a width, field i at i times the width. -/
def fieldsOf (width : Nat) (l : List Nat) : DWord := BitVec.ofNat 64 (l.foldr (fun v r => v % 2 ^ width + r * 2 ^ width) 0)

/-- The credit that an element has for a path: 0 to 3 for its links, 4 + n for drift route n of the active context (R57). -/
def State.pathCredit (s : State) (e m : Nat) : Nat :=
  s.creditFor (if m < 4 then linkTarget e m else routeTarget e (s.route e (m - 4)))

/-- The 352 words of an element. -/
def State.elemWords (s : State) (e : Nat) : List DWord :=
  let x := s.elem e
  let k := fun (c i : Nat) => (SMap.get 0 (s.cfg e c).k i : Word)
  ((List.range 16).flatMap (fun n => payWords (x.reg n).p)) ++
  ((List.range 4).map (fun m => fieldsOf 16 ((List.range 4).map (fun j =>
    (x.reg (4 * m + j)).m.toNat + b2n (x.reg (4 * m + j)).x * 2 ^ 8)))) ++
  [BitVec.ofNat 64 (x.p.toNat + x.rr % 16 * 2 ^ 8 + x.active.toNat * 2 ^ 12 + b2n x.macro'.isSome * 2 ^ 14 + x.gen.toNat * 2 ^ 32)] ++
  ((List.range 4).flatMap (fun c => [k c 1 ++ k c 0, k c 3 ++ k c 2])) ++
  chainWords x.ch0 ++ chainWords x.ch1 ++
  [fieldsOf 3 ((List.range 6).map (fun q => (x.queue q).length)), fieldsOf 3 ((List.range 20).map (s.pathCredit e))] ++
  ((List.range 6).flatMap (fun q => (List.range 4).flatMap (fun n => entryWords (x.queue q)[n]?))) ++
  macroWords x.macro' ++ [0] ++
  ((List.range 8).flatMap (fun n => (List.range 16).map (fun i => (x.hist.getD n []).getD i 0)))

/-- RDS fn 6: a word of the element at index block * 8 + position; out of range reads zero. -/
def execRdsElementState (rd ra rb : Reg) (s : State) : Out :=
  s.onWorking [rd, ra, rb] (fun t x =>
    let w := s.work x.bound
    let i := (x.reg ra).toNat
    s.finishReg t rd (if i < 8 * (w.width * w.height) then (s.elemWords (elemOfBlock w (i / 8) (i % 8))).getD (x.reg rb).toNat 0 else 0))

/-! ### Sections (R378) -/

/-- A block image from a configuration (R120). -/
def blockBytes (w : Working) (b : BlockCfg) (ctx idx : Nat) : List Byte :=
  let c := (List.range 8).map (fun p => b.elem p)
  let recBytes := fun (p : Nat) (e : ElemCfg) =>
    ((List.range 4).flatMap (fun n => toBytes 4 (SMap.get 0 e.k n).toNat)) ++ toBytes 15 e.conflict.toNat ++ toBytes 1 0 ++
    toBytes 2 e.rotate.toNat ++ toBytes 1 e.preds.toNat ++ toBytes 1 (posKind p + b2n e.sink * 4 + b2n e.phase * 8) ++ toBytes 4 0
  let body := toBytes 8 (b.declared + ctx * 2 ^ 16 + idx * 2 ^ 24 + w.ident.toNat * 2 ^ 36 + 3 * 2 ^ 44 + 0xB10C * 2 ^ 48) ++
    (c.flatMap (fun e => (List.range 16).flatMap (fun n => toBytes 12 (SMap.get 0 e.slots n).toNat))) ++
    ((List.range 8).zip c).flatMap (fun p => recBytes p.1 p.2) ++
    ((List.range 16).flatMap (fun n => toBytes 4 (SMap.get 0 b.routes n).toNat))
  toBytes 8 (crc64 (toBytes 8 0 ++ body)) ++ body

/-- An operand slot's bytes with its scales, and an accumulator slot's. -/
def OSlot.bytes (o : OSlot) : List Byte := (List.range 8704).map (SMap.get 0 o.data)
def ASlot.bytes (a : ASlot) : List Byte := (List.range 4096).flatMap (fun i => toBytes 4 (SMap.get 0 a.val i).toNat)

/-- An island's part of section 4. -/
def Island.bytes (i : Island) : List Byte :=
  toBytes 8 i.tabRead.toNat ++ ((List.range 64).flatMap (fun n => toBytes 4 (i.op n).status)) ++
  ((List.range 8).flatMap (fun n => toBytes 4 (i.acc n).status)) ++
  ((List.range 64).flatMap (fun n => (i.op n).bytes)) ++ ((List.range 8).flatMap (fun n => (i.acc n).bytes))

/-- A hoist command's part of section 7. -/
def Hoist.bytes (h : Hoist) : List Byte :=
  toBytes 64 h.cmd.toNat ++ toBytes 8 h.hstat0.toNat ++ toBytes 8 h.hstat1.toNat ++ toBytes 8 h.src.base ++ toBytes 8 h.dst.base ++
  toBytes 8 h.cmp.base ++ toBytes 24 0

/-- The banks of a working's share on a tile. -/
def shareBanks (w : Working) (t : Nat) : List Nat := (List.range 16).filter (ownsBank w t)

/-- Commands of a working, by die and number. -/
def State.ownHoists (s : State) (h : Nat) : List (Nat × Nat × Hoist) := s.busyHoists.filter (fun p => p.2.2.handle == h)

/-- A part of unspecified layout, below 2^28 bytes, for the offsets of the sections are fields of four bytes (R378). -/
def area (l : List Byte) : List Byte := l.take (2 ^ 28 - 1)

/-- What section 6 begins with: WSTAT, the report channel and the poison record. -/
def Working.head (w : Working) : List Byte :=
  toBytes 8 w.wstat.toNat ++
  ((List.range 16).flatMap (fun n => match w.report[n]? with
    | some k => lanesBytes k.p 32 ++ toBytes 8 (k.side + 2 ^ 63)
    | none => List.replicate 40 0)) ++
  toBytes 8 (poisonWord w)

/-- The sync counters that a working's thread owns, with their values. -/
def State.ownCounters (s : State) (h : Nat) : List (Nat × DWord) :=
  let t := (s.work h).thread
  ((s.quad (t / 4)).syncOwner.filter (fun o => o.2 == t)).map (fun o => (o.1, s.counter (t / 4) o.1))

/-- The undo records and the open speculations of a working on a tile. -/
def State.ownUndo (s : State) (h t : Nat) : List Undo := (s.tile t).undo.filter (fun u => u.handle == h)
def State.ownSpecs (s : State) (h t : Nat) : List Spec := (s.tile t).specs.filter (fun p => (s.work h).covers p.opener)

/-- What an element has pending. -/
def Elem.pending (x : Elem) : Pending := ⟨x.accs, x.watches, x.wbuf, x.waves, x.seq⟩

/-- A tile's part of section 5. -/
def State.tilePart (s : State) (h t : Nat) : List Byte :=
  ((shareBanks (s.work h) t).flatMap (fun b => s.bytesAt (windowAddr t (b * 2 ^ 17)) (2 ^ 17))) ++
  area (Config.tileBytes (s.ownUndo h t) (s.ownSpecs h t))

/-- The bytes of section n; whole is true where section 0 is present. -/
def State.section (s : State) (h : Nat) (whole : Bool) (n : Nat) : List Byte :=
  let w := s.work h
  match n with
  | 0 => if whole then area (Config.threadBytes (s.thread w.thread) (s.ownCounters h)) else []
  | 1 => (List.range 4).flatMap (fun c => (List.range (w.width * w.height)).flatMap (fun i =>
      blockBytes w ((s.claim (w.claimAt i)).block c) c i))
  | 2 => (List.range 256).flatMap (fun i => toBytes 64 (w.entry i))
  | 3 => w.elems.flatMap (fun e => (s.elemWords e).flatMap (fun v => toBytes 8 v.toNat))
  | 4 => if w.islands then w.tiles.flatMap (fun t => (s.island t).bytes) else []
  | 5 => w.tiles.flatMap (s.tilePart h)
  | 6 => w.head ++ area (Config.restBytes w.regions w.keeps (w.elems.map (fun e => (s.elem e).pending)))
  | _ => (s.ownHoists h).flatMap (fun p => p.2.2.bytes)

/-- A list filled with zeros to a multiple of 64. -/
def pad64 (l : List Byte) : List Byte := l ++ List.replicate (alignUp l.length 64 - l.length) 0

/-- The feature map (R380). -/
def State.features (s : State) (h : Nat) : Nat :=
  let w := s.work h
  let mac := fun (lo hi : Nat) => w.elems.any (fun e => (s.elem e).accs.any (fun a => lo ≤ a.op && a.op ≤ hi && a.stage != .performed))
  let cmd := fun (k : Nat) => (s.ownHoists h).any (fun p => p.2.2.kind.toNat == k)
  let claimed := w.islands && w.tiles.any (fun t => (s.island t).ops.any (fun p => p.2.claim.isSome) || (s.island t).accs.any (fun p => p.2.claim.isSome))
  b2n (claimed || mac 0xD2 0xD4) + 2 * b2n (cmd 1) + 4 * b2n (mac 0xC9 0xCA) +
  8 * b2n (w.tiles.any (fun t => (s.tile t).specs.any (fun p => w.covers p.opener))) + 16 * b2n (!w.regions.isEmpty) +
  32 * b2n (cmd 3 || cmd 4) + 64 * b2n (cmd 2) + 128 * b2n (w.elems.any (fun e => !(s.elem e).waves.isEmpty || !(s.elem e).wbuf.isEmpty))

/-- The sections with their offsets, after the header. -/
def placeSections : Nat → List (List Byte) → List (Nat × List Byte)
  | _, [] => []
  | o, l :: r => (o, l) :: placeSections (o + alignUp l.length 64) r

/-- The image's bytes. -/
def State.saveImage (s : State) (h : Nat) (whole : Bool) : List Byte :=
  let w := s.work h
  let p := placeSections 128 ((List.range 8).map (s.section h whole))
  let body := p.flatMap (fun q => pad64 q.2)
  let head := toBytes 2 0x5A7E ++ toBytes 1 3 ++ toBytes 1 w.ident.toNat ++ toBytes 1 w.width ++ toBytes 1 w.height ++
    toBytes 1 (b2n w.islands + 2 * b2n whole) ++ toBytes 1 0 ++ toBytes 8 (s.features h) ++ toBytes 2 h ++ toBytes 2 w.asid ++
    toBytes 1 w.prio ++ toBytes 3 0 ++ toBytes 8 (128 + body.length) ++ p.flatMap (fun q => toBytes 4 q.1 ++ toBytes 4 q.2.length) ++
    toBytes 24 0
  head ++ toBytes 8 (crc64 (head ++ toBytes 8 0 ++ body)) ++ body

/-! ### Errors in an image (R452) -/

/-- Bytes of a block image. -/
def blockLen : Nat := 1936

/-- Words of an element's record that an item with an error stands in, in a context; of the state of several words, the first
(log entry 68). -/
def itemWords (ctx : Nat) : BadItem → List Nat
  | .reg n => [4 * n]
  | .queue q => (List.range 5).map (87 + 20 * q + ·)
  | .elemState => [68]
  | .config k => if 16 ≤ k && k < 20 then [69 + 2 * ctx + (k - 16) / 2] else []
  | _ => []

/-- First and last byte in its block of a configuration item of a position. -/
def itemBytes (pos : Nat) : BadItem → List Nat
  | .config k =>
    if k < 16 then [16 + 192 * pos + 12 * k, 16 + 192 * pos + 12 * k + 11]
    else [1552 + 40 * pos + if k < 20 then 4 * (k - 16) else 16]
  | _ => []

/-- Items of an element with an error, each with the context that it concerns. -/
def Elem.badItems (x : Elem) : List (Nat × BadItem) := (x.ladder.toList.map (fun i => (x.active.toNat, i))) ++ x.latent

/-- Words of an element's record with an error: those of its items, and queue entries that came so from an image. -/
def Elem.badWords (x : Elem) : List Nat :=
  x.badItems.flatMap (fun p => itemWords p.1 p.2) ++
  (List.range 6).flatMap (fun q => (List.range 4).flatMap (fun n => match (x.queue q)[n]? with
    | some k => if k.origin = .restored true then (List.range 5).map (87 + 20 * q + 5 * n + ·) else []
    | none => []))

/-- Offsets of the tiles' parts in section 5. -/
def partOffsets : Nat → List Nat → List Nat
  | _, [] => []
  | o, n :: r => o :: partOffsets (o + n) r

/-- The place in its part of section 5 of a byte of a tile. -/
def shareOffset (w : Working) (t a : Nat) : Nat :=
  ((shareBanks w t).findIdx (fun b => b == bits a 20 17)) * 2 ^ 17 + a % 2 ^ 17

/-- The sectors of an image, by number, that hold a word with an uncorrectable error. -/
def State.badSectors (s : State) (h : Nat) (img : List Byte) : List Nat :=
  let w := s.work h
  let off := fun (n : Nat) => le img (32 + 8 * n) 4
  let es := (List.range w.elems.length).zip w.elems
  let claims := w.width * w.height
  let blocks := es.flatMap (fun p => (s.elem p.2).badItems.flatMap (fun i => (itemBytes (p.1 % 8) i.2).map (fun o =>
    (off 1 + blockLen * (i.1 * claims + p.1 / 8) + o) / 32)))
  let layout := es.flatMap (fun p => (s.elem p.2).badItems.filterMap (fun i => match i.2 with
    | .layout n => some ((off 2 + 64 * n) / 32)
    | _ => none))
  let words := es.flatMap (fun p => (s.elem p.2).badWords.map (fun n => (off 3 + 2816 * p.1 + 8 * n) / 32))
  let isls := if w.islands then ((List.range w.tileCount).zip w.tiles).flatMap (fun p => (s.island p.2).bad.map (fun b =>
    (off 4 + 688424 * p.1 + if b.2 then 557352 + 16384 * b.1 else 296 + 8704 * b.1) / 32)) else []
  let parts := (partOffsets (off 5) (w.tiles.map (fun t => (s.tilePart h t).length))).zip w.tiles
  let share := parts.flatMap (fun p => (s.badSec.filter (fun b => inShare w b.1 && windowTile b.1 == some p.2)).map (fun b =>
    (p.1 + shareOffset w p.2 b.1) / 32))
  (blocks ++ layout ++ words ++ isls ++ share).eraseDups

/-! ### What a working is made of -/

/-- Tokens and credits on their way in a working arrive, as they may at any later cycle. -/
def State.settle (s : State) (h : Nat) : State :=
  let f := s.flights.filter (fun f => s.sentBy h f.src)
  let c := s.credits.filter (fun c => s.sentBy h c.elem)
  let s := { s with flights := s.flights.filter (fun f => !s.sentBy h f.src), credits := s.credits.filter (fun c => !s.sentBy h c.elem) }
  let s := f.foldl (fun s f => s.modElem f.dst (fun x => x.setQueue f.queue (x.queue f.queue ++ [⟨f.tok, f.origin⟩]))) s
  c.foldl (fun s c => s.setSpace (spaceKey c.elem c.queue) (s.spaceOf (spaceKey c.elem c.queue) + 1)) s

/-- A byte or sector at a fabric-window address lies in a working's share. -/
def State.shareCells (s : State) (w : Working) : List (Nat × Byte) := s.mem.filter (fun c => inShare w c.1)

/-- A working as it stands, with its image. Times are counted back from now. -/
def State.snapshot (s : State) (h : Nat) (whole : Bool) (img : List Byte) : Snap :=
  let w := s.work h
  let x := s.thread w.thread
  let q := s.quad (w.thread / 4)
  { handle := h, bytes := img, whole := whole,
    work := { w with freezeAt := (s.quad w.freezeQuad).cyc - w.freezeAt, gated := false },
    thread := { x with waitAt := q.cyc - x.waitAt },
    counters := s.ownCounters h,
    blocks := (List.range (w.width * w.height)).map (fun i => (s.claim (w.claimAt i)).blocks),
    elems := w.elems.map s.elem,
    isls := if w.islands then w.tiles.map s.island else [],
    specs := (List.range w.tileCount).flatMap (fun n => (s.ownSpecs h (w.tileAt n)).map (n, ·)),
    undos := (List.range w.tileCount).flatMap (fun n => (s.ownUndo h (w.tileAt n)).map (n, ·)),
    parts := partOffsets 0 (w.tiles.map (fun t => (s.tilePart h t).length)),
    share := s.shareCells w,
    marks := (s.poison.filter (fun p => inShare w p.1)).map (fun p => p.1),
    bad := (s.badSec.filter (fun p => inShare w p.1)).map (fun p => p.1),
    hoists := (s.ownHoists h).map (fun p => p.2) }

/-! ### Placement anew (R368) -/

/-- An element, and an address of the fabric window, of one placement in another. -/
def reElem (a b : Working) (e : Nat) : Nat := if a.covers e then elemOfBlock b (blockIndex a e) (posOf e) else e
def reAddr (a b : Working) (va : Nat) : Nat :=
  match windowTile va with
  | some t => if a.tiles.contains t then windowAddr (b.tileAt (a.relTile t)) (va % 2 ^ 21) else va
  | none => va

/-- An access, which is translated afresh (R498). -/
def Access.moved (a b : Working) (k : Access) : Access :=
  { k with node := reAddr a b k.node, va := reAddr a b k.va, trail := k.trail.map (fun p => (reAddr a b p.1, p.2)), peers := [], retry := false,
           stage := if k.stage == .parked then .issued else k.stage }

/-- Where a queue entry of a moved working came from. -/
def Origin.moved (a b : Working) : Origin → Origin
  | .fired e slot n => .fired (reElem a b e) slot n
  | .reply e k second n => .reply (reElem a b e) (k.moved a b) second n
  | .restored x => .restored x

/-- An element's state in its new place; caches, numbering and counts of errors stay with the place. -/
def Elem.moved (a b : Working) (x old : Elem) : Elem :=
  { x with q := x.q.map (fun p => (p.1, p.2.map (fun k => { k with origin := k.origin.moved a b }))), accs := x.accs.map (Access.moved a b),
           watches := x.watches.map (Access.moved a b), wbuf := x.wbuf.map (Access.moved a b), tlb := old.tlb, cyc := 0, first := none, rr0 := x.rr,
           second := false, used := [], win := 0, fired := 0, barAt := x.barAt.map (fun _ => 0), errs := old.errs, reps := old.reps,
           peerSeq := old.peerSeq, peerOut := old.peerOut }

/-- A trap held by a working. -/
def TrapInfo.moved (a b : Working) (i : TrapInfo) : TrapInfo := { i with eid := reElem a b i.eid }

/-- A region's checkpoint. -/
def Region.moved (a b : Working) (g : Region) : Region :=
  { g with regs := g.regs.map (fun p => (reElem a b p.1, p.2)), macs := g.macs.map (fun p => (reElem a b p.1, p.2.moved a b)),
           sinks := g.sinks.map (reElem a b), room := g.room.map (fun p => (b.tileAt (a.relTile p.1), p.2)) }

/-- A working's cycles in a placement: in a new one each quad goes on from the count of the old thread's quad (log entry 72). -/
def clocksAt (w b : Working) : SMap Nat :=
  if w.die = b.die && w.row = b.row && w.col = b.col && w.thread = b.thread then w.clocks
  else ({ w with die := b.die, row := b.row, col := b.col, thread := b.thread } : Working).quads.foldl (fun m q => SMap.set 0 m q w.cycles) []

/-- A working's own record. -/
def Working.moved (w b : Working) (cyc : Nat) : Working :=
  { w with die := b.die, row := b.row, col := b.col, thread := b.thread, sinks := w.sinks.map (reElem w b),
           awaited := w.awaited.map (fun p => (reElem w b p.1, p.2)), poison := w.poison.map (reElem w b),
           poisonBy := none, poisonLast := none, clocks := clocksAt w b, guardSide := {},
           guardFirst := if w.guardAny then BitVec.ofNat 16 (reElem w b w.guardFirst.toNat) else w.guardFirst, regions := w.regions.map (Region.moved w b),
           freeze := w.freeze.map (TrapInfo.moved w b), faults := w.faults.map (TrapInfo.moved w b), freezeAt := cyc - w.freezeAt,
           freezeQuad := b.thread / 4, retire := [], savedAt := none, gated := false }

/-- The share of a placement takes a working's bytes and marks. -/
def State.putShare (s : State) (a b : Working) (cells : List (Nat × Byte)) (marks bad : List Nat) : State :=
  let s := { s with mem := s.mem.filter (fun c => !inShare b c.1), poison := s.poison.filter (fun p => !inShare b p.1),
                    badSec := s.badSec.filter (fun p => !inShare b p.1) }
  let s := cells.foldl (fun s c => let v := reAddr a b c.1; if inShare b v then s.setByte v c.2 else s) s
  let s := marks.foldl (fun s m => s.setPoison (reAddr a b m) true) s
  bad.foldl (fun s m => s.setBad (reAddr a b m) true) s

/-- Commands resume on hoists of a die: on their own number where that is idle, else on the lowest that is. -/
def State.putHoists (s : State) (h : Nat) (a b : Working) (l : List (Nat × Hoist)) : State :=
  l.foldl (fun s p =>
    let x : Hoist := { p.2 with handle := h, owner := BitVec.ofNat 8 (ownerByte b.thread), issuer := p.2.issuer.map (reElem a b), peers := [], got := [],
                                sent := false }
    let n := if ((s.die b.die).hoist p.1).busy then ((s.die b.die).idleHoist).getD p.1 else p.1
    s.modHoist b.die n (fun _ => x)) s

/-- Enough hoists of a die are idle for a list of commands. -/
def State.hoistsFree (s : State) (d n : Nat) : Bool := n ≤ ((List.range 32).filter (fun i => !((s.die d).hoist i).busy)).length

/-- The fabric of a snapshot put at a placement: claims, elements, islands, tiles and commands. -/
def State.putFabric (s : State) (sn : Snap) (b : Working) : State :=
  let a := sn.work
  let s := s.putClaims sn.handle b (fun i => sn.blocks.getD i [])
  let s := ((List.range sn.elems.length).zip sn.elems).foldl (fun s p =>
    s.modElem (elemOfBlock b (p.1 / 8) (p.1 % 8)) (fun old => p.2.moved a b old)) s
  let s := ((List.range sn.isls.length).zip sn.isls).foldl (fun s p => s.setIsland (b.tileAt p.1) { p.2 with workedAt := 0, worked := 0 }) s
  let s := sn.specs.foldl (fun s p => let t := b.tileAt p.1
                                      s.setTile t { s.tile t with specs := (s.tile t).specs ++
    [{ p.2 with opener := reElem a b p.2.opener, sectors := p.2.sectors.map (fun q => (reAddr a b q.1, q.2)) }] }) s
  let s := sn.undos.foldl (fun s p => let t := b.tileAt p.1
                                      s.setTile t { s.tile t with undo := (s.tile t).undo ++
    [{ p.2 with handle := sn.handle, sector := reAddr a b p.2.sector }] }) s
  ((s.putShare a b sn.share sn.marks sn.bad).putHoists sn.handle a b sn.hoists).resetSpace sn.handle

/-- Its thread and the counters that belong to it, in a new quad. -/
def State.putThread (s : State) (sn : Snap) (b : Working) : State :=
  let q := b.thread / 4
  let s := sn.counters.foldl (fun s p => (s.setCounter q p.1 p.2).ownCounter q p.1 b.thread) s
  s.modThread b.thread (fun old => { sn.thread with waitAt := (s.quad q).cyc - sn.thread.waitAt, peerSeq := old.peerSeq, peerOut := old.peerOut,
                                                    canSide := {}, heldTraps := sn.thread.heldTraps.map (TrapInfo.moved sn.work b) })

/-- A whole working put at a placement, and its task records named after its new thread (R190). -/
def State.putWorking (s : State) (sn : Snap) (b : Working) : State :=
  let s := s.setWork sn.handle (sn.work.moved b (s.quad (b.thread / 4)).cyc)
  let s := (s.putFabric sn (s.work sn.handle)).putThread sn (s.work sn.handle)
  let s := forN (fun d s => s.modDie d (fun x => { x with tasks := x.tasks.map (fun k =>
    if k.parent = sn.handle then { k with bytes := k.bytes.take 36 ++ toBytes 1 (parentByte b.thread) ++ k.bytes.drop 37 } else k) })) 4 0 s
  s.canaryEvent sn.handle

/-! ### Images from elsewhere (log entry 30) -/

/-- Lanes and sideband read back. -/
def lanesAt (l : List Byte) (word : Nat) : Lanes := lanesOf (sliceB l (8 * word) 32)
def tokenAt (l : List Byte) (word : Nat) : Token :=
  let v := le l (8 * (word + 4)) 8
  { p := lanesAt l word, m := BitVec.ofNat 8 v, t := BitVec.ofNat 4 (v / 2 ^ 8), l := bit v 12, x := bit v 13, c := BitVec.ofNat 2 (v / 2 ^ 14),
    i := BitVec.ofNat 6 (v / 2 ^ 16) }

/-- A chain read back. -/
def chainAt (l : List Byte) (word : Nat) : Chain :=
  let v := fun (i : Nat) => BitVec.ofNat 32 (le l (8 * word + 4 * i) 4)
  { startSh := v 0, startLive := v 1, stepSh := v 2, stepLive := v 3, countSh := v 4, countLive := v 5, x := v 6 }

/-- A macro from words 207 to 222, with what section 6 holds of it (R281). -/
def macroAt (l : List Byte) (old : Option Access) : Access :=
  let w := fun (n : Nat) => le l (8 * n) 8
  let side := fun (n : Nat) => w n % 2 ^ 22
  let op := w 207 % 2 ^ 8
  let reg := fun (n : Nat) => (⟨lanesAt l n, BitVec.ofNat 8 (w (n + 4)), bit (w (n + 4)) 13⟩ : VReg)
  let k : Access := old.getD { seq := 0, op := op, ty := 0, a := VReg.zero, b := VReg.zero, desc := 0, d0 := destCode .none, d1 := destCode .none,
                               t0 := 0, t1 := 0, l0 := false, l1 := false, c := BitVec.ofNat 2 (side 212 / 2 ^ 14),
                               i := BitVec.ofNat 6 (side 212 / 2 ^ 16), x := bit (w 212) 13 || bit (w 217) 13 }
  { k with op := op, prg := bits (w 207) 63 32, a := reg 208, b := reg 213, desc := BitVec.ofNat 32 (w 218),
           total := if op = 0xC2 || op = 0xC3 then k.total else bits (w 218) 63 32, base := w 219, sbase := w 220, aside := side 212, bside := side 217 }

/-- The accesses of an element read back: those of section 6, with the macro of its record. -/
def accsAt (l : List Byte) (accs : List Access) : List Access :=
  let live := fun (a : Access) => opMac a.op && a.stage != .performed
  if bit (le l (8 * 68) 8) 14 then
    (if accs.any live then accs.map (fun a => if live a then macroAt l (some a) else a) else accs ++ [macroAt l none])
  else accs.filter (fun a => !live a)

/-- An element's record read back, with what it has pending. -/
def elemFrom (l : List Byte) (k : Pending) : Elem :=
  let w := fun (n : Nat) => le l (8 * n) 8
  let x : Elem := { p := BitVec.ofNat 8 (w 68), rr := bits (w 68) 11 8, active := BitVec.ofNat 2 (bits (w 68) 13 12), gen := BitVec.ofNat 32 (bits (w 68) 63 32),
                    ch0 := chainAt l 77, ch1 := chainAt l 81, accs := accsAt l k.accs, watches := k.watches, wbuf := k.wbuf, waves := k.waves, seq := k.seq,
                    hist := ((List.range 8).map (fun h => (List.range 16).map (fun i => BitVec.ofNat 64 (w (224 + 16 * h + i))))).filter
                      (fun h => bit (h.getD 0 0).toNat 7) }
  let x := forN (fun n x => x.setReg n ⟨lanesAt l (4 * n), BitVec.ofNat 8 (bits (w (64 + n / 4)) (16 * (n % 4) + 7) (16 * (n % 4))),
    bit (w (64 + n / 4)) (16 * (n % 4) + 8)⟩) 16 0 x
  forN (fun q x => x.setQueue q ((List.range (min 4 (bits (w 85) (3 * q + 2) (3 * q)))).map (fun n => ⟨tokenAt l (87 + 20 * q + 5 * n), .restored false⟩))) 6 0 x

/-- An operand slot and an accumulator slot from their status words and bytes. -/
def oslotFrom (st : Nat) (l : List Byte) : OSlot :=
  { claim := if bit st 0 then some (BitVec.ofNat 2 (bits st 2 1)) else none, fill := bits st 4 3, fmt := bits st 8 5, psn := bit st 9, rdr := bits st 13 10,
    data := ((List.range 8704).zip l).foldl (fun m p => SMap.set 0 m p.1 p.2) [] }
def aslotFrom (st : Nat) (l : List Byte) : ASlot :=
  { claim := if bit st 0 then some (BitVec.ofNat 2 (bits st 2 1)) else none, chain := if bit st 3 then some (bits st 11 4) else none, busy := bit st 12,
    kind := bits st 14 13, psn := bit st 15, val := (List.range 4096).foldl (fun m i => SMap.set 0 m i (BitVec.ofNat 32 (le l (4 * i) 4))) [] }

/-- An island from its part of section 4. -/
def islandFrom (l : List Byte) : Island :=
  let x : Island := { tab := BitVec.ofNat 64 (le l 0 8) }
  let x := forN (fun n x => x.setOp n (oslotFrom (le l (8 + 4 * n) 4) (sliceB l (296 + 8704 * n) 8704))) 64 0 x
  forN (fun n x => x.setAcc n (aslotFrom (le l (264 + 4 * n) 4) (sliceB l (557352 + 16384 * n) 16384))) 8 0 x

/-- Elements of a copy that its first n units take, with fuel (R294). -/
def unitsLen (w : Working) (h : Hoist) : Nat → Nat → Nat
  | 0, q => q
  | n + 1, q => if hCount h.cmd.toNat ≤ q then q else unitsLen w h n (q + unitLen w h q)

/-- A hoist command from its part of section 7: a copy goes on from its unit, and a sluice fill passes over the blocks decoded (R308). -/
def hoistFrom (h : Nat) (w : Working) (l : List Byte) : Hoist :=
  let cmd := BitVec.ofNat 512 (le l 0 64)
  let fixed := fun (n o : Nat) => (⟨BitVec.ofNat 512 (w.entry n), le l o 8, 0⟩ : Fixed)
  let prg := le l 68 4
  let x : Hoist :=
    { busy := true, kind := BitVec.ofNat 3 cmd.toNat, id := BitVec.ofNat 16 (hId cmd.toNat), prg := prg, total := le l 72 4, handle := h, cmd := cmd,
      src := fixed (hSent cmd.toNat) 80, dst := fixed (hDent cmd.toNat) 88, cmp := fixed (hCent cmd.toNat) 96, bitPos := 144 * 8 }
  if x.kind = 0 then { x with pos := unitsLen w x prg 0 } else if x.kind = 1 then { x with skip := prg } else x

/-- The sections of an image. -/
def sectionOf (l : List Byte) (n : Nat) : List Byte := sliceB l (le l (32 + 8 * n) 4) (le l (36 + 8 * n) 4)

/-- A tile's part of section 5 read back: the undo log and the speculations, and the part's length. -/
def tilePartAt (w : Working) (n : Nat) (l : List Byte) : List Undo × List Spec × Nat :=
  let k := (shareBanks w (w.tileAt n)).length * 2 ^ 17
  match Config.tileRead (l.drop k) with
  | some (u, p, len) => (u, p, k + len)
  | none => ([], [], k)

/-- The parts of section 5 from tile n on: each with its offset. -/
def tileParts (w : Working) (l : List Byte) : Nat → Nat → Nat → List (Nat × Nat × List Undo × List Spec)
  | 0, _, _ => []
  | f + 1, n, o =>
    let p := tilePartAt w n (l.drop o)
    (n, o, p.1, p.2.1) :: tileParts w l f (n + 1) (o + p.2.2)

/-- A working from an image that this package has not written as it stands: the parts that R378 and R379 lay out and what the others are read
back as, with the identity of a working or of a launch at rest for what they do not hold. -/
def snapFrom (h : Nat) (base : Working) (l : List Byte) : Snap :=
  let lay := sectionOf l 2
  let st := le (sectionOf l 6) 0 8
  let rest := (Config.restRead ((sectionOf l 6).drop 656)).getD ([], [], [])
  let w := { base with
    ident := BitVec.ofNat 8 (le l 3 1), width := le l 4 1, height := le l 5 1, islands := bit (le l 6 1) 0, asid := le l 18 2, prio := le l 20 1,
    layout := (List.range 256).foldl (fun m n => SMap.set 0 m n (BitVec.ofNat 512 (le lay (64 * n) 64))) [],
    state := if bits st 1 0 = 1 then .running else if bits st 1 0 = 2 then .paused else .idle, active := BitVec.ofNat 2 (bits st 3 2),
    next := BitVec.ofNat 2 (bits st 5 4), expl := bit st 6, budget := bits st 39 8, inPhase := bits st 1 0 != 0,
    report := (List.range (min 16 (bits st 44 40))).map (fun n => tokenAt (sliceB (sectionOf l 6) (8 + 40 * n) 40) 0),
    poison := if bit (le (sectionOf l 6) 648 8) 16 then some (le (sectionOf l 6) 648 8 % 2 ^ 16) else none, regions := rest.1, keeps := rest.2.1 }
  let n := w.width * w.height
  let m : Image := { imageOf (sectionOf l 1) with blockOff := 0, blocks := 4 * n }
  let blocks := m.blockList
  let parts := tileParts w (sectionOf l 5) w.tileCount 0 0
  let thread := (Config.threadRead (sectionOf l 0)).getD ({}, [])
  { handle := h, bytes := l, whole := bit (le l 6 1) 1, work := { w with phaseAt := (phaseFlags blocks).headD base.phaseAt },
    thread := { thread.1 with bound := h }, counters := thread.2,
    blocks := (List.range n).map (fun i => (blocks.filter (fun b => b.idx == i)).foldl (fun k b => SMap.set {} k b.ctx b.cfg) []),
    elems := (List.range (8 * n)).map (fun i => elemFrom (sliceB (sectionOf l 3) (2816 * i) 2816) (rest.2.2.getD i {})),
    isls := if w.islands then (List.range w.tileCount).map (fun t => islandFrom (sliceB (sectionOf l 4) (688424 * t) 688424)) else [],
    specs := parts.flatMap (fun p => p.2.2.2.map (fun k => (p.1, k))), undos := parts.flatMap (fun p => p.2.2.1.map (fun k => (p.1, k))),
    parts := parts.map (fun p => p.2.1),
    share := parts.flatMap (fun p =>
      let t := w.tileAt p.1
      let banks := shareBanks w t
      ((List.range banks.length).zip banks).flatMap (fun b =>
        ((List.range (2 ^ 17)).map (fun i => (windowAddr t (b.2 * 2 ^ 17 + i), (sectionOf l 5).getD (p.2.1 + b.1 * 2 ^ 17 + i) 0))).filter (fun c => c.2 != 0))),
    marks := [], bad := [],
    hoists := (List.range ((sectionOf l 7).length / 128)).map (fun i => (i, hoistFrom h w (sliceB (sectionOf l 7) (128 * i) 128))) }

/-! ### Errors that an image brings back (R452) -/

/-- Items of the words from word j of an element's record to word j + 3, with the context that they concern. -/
def wordItems (ctx j : Nat) : List (Nat × BadItem) :=
  (List.range 4).flatMap (fun k =>
    let n := j + k
    if n < 64 then [(ctx, .reg (n / 4))] else if n < 68 then (List.range 4).map (fun r => (ctx, .reg (4 * (n - 64) + r)))
    else if 69 ≤ n && n < 77 then [((n - 69) / 2, .config (16 + 2 * ((n - 69) % 2))), ((n - 69) / 2, .config (17 + 2 * ((n - 69) % 2)))]
    else if 87 ≤ n && n < 207 || 223 ≤ n then [] else [(ctx, .elemState)])

/-- Entries of the queues that the words from word j of a record to word j + 3 hold. -/
def wordEntries (j : Nat) : List (Nat × Nat) :=
  ((List.range 4).filter (fun k => 87 ≤ j + k && j + k < 207)).map (fun k => ((j + k - 87) / 20, (j + k - 87) % 20 / 5))

/-- An element with the sectors of its record that were poisoned, by their first word: its items with an error wait to be consumed. -/
def Elem.spoiled (x : Elem) (l : List Nat) : Elem :=
  let x := { x with ladder := none, latent := (l.flatMap (wordItems x.active.toNat)).eraseDups }
  let x := { x with q := x.q.map (fun p => (p.1, p.2.map (fun k => { k with origin := .restored false }))) }
  (l.flatMap wordEntries).foldl (fun x p => x.setQueue p.1 ((x.queue p.1).modify p.2 (fun k => { k with origin := .restored true }))) x

/-- The configuration item of a byte of a block: its context, its position and the item; 8 for a word of every position. -/
def byteItem (ctx o : Nat) : Option (Nat × Nat × BadItem) :=
  if o < 16 then none
  else if o < 1552 then some (ctx, (o - 16) / 192, .config ((o - 16) % 192 / 12))
  else if o < 1872 then some (ctx, (o - 1552) / 40, .config (if (o - 1552) % 40 < 16 then 16 + (o - 1552) % 40 / 4 else 20))
  else some (ctx, 8, .config 20)

/-- A slot of an island whose bytes stand at an offset of its part of section 4. -/
def islandItem (o : Nat) : Option (Nat × Bool) :=
  if o < 8 then none else if o < 264 then some ((o - 8) / 4, false) else if o < 296 then some ((o - 264) / 4, true)
  else if o < 557352 then some ((o - 296) / 8704, false) else some ((o - 557352) / 16384, true)

/-- A snapshot whose image had poisoned sectors, by number: the words that they hold have errors again. -/
def Snap.spoiled (sn : Snap) (l : List Byte) (bad : List Nat) : Snap :=
  let w := sn.work
  let off := fun (n : Nat) => le l (32 + 8 * n) 4
  let here := fun (n : Nat) => (bad.filter (fun k => off n ≤ 32 * k && 32 * k < off n + le l (36 + 8 * n) 4)).map (fun k => 32 * k - off n)
  let conf := (here 1).flatMap (fun o => (List.range 32).filterMap (fun i =>
    let b := (o + i) / blockLen
    (byteItem (b / max (w.width * w.height) 1) ((o + i) % blockLen)).map (fun p => (b % max (w.width * w.height) 1, p))))
  let lay : List (Nat × BadItem) := (here 2).map (fun o => (4, .layout (o / 64)))
  let parts := (List.range sn.parts.length).zip sn.parts
  { sn with
    elems := ((List.range sn.elems.length).zip sn.elems).map (fun p =>
      let x := p.2.spoiled (((here 3).filter (fun o => o / 2816 == p.1)).map (fun o => o % 2816 / 8))
      let mine := (conf.filter (fun c => c.1 == p.1 / 8 && (c.2.2.1 == p.1 % 8 || c.2.2.1 == 8))).map (fun c => (c.2.1, c.2.2.2))
      { x with latent := (x.latent ++ mine ++ lay).eraseDups }),
    isls := ((List.range sn.isls.length).zip sn.isls).map (fun p =>
      { p.2 with bad := (((here 4).flatMap (fun o => (List.range 8).filterMap (fun i =>
        if (o + 4 * i) / 688424 = p.1 then islandItem ((o + 4 * i) % 688424) else none))).eraseDups) }),
    bad := (here 5).flatMap (fun o => parts.flatMap (fun p =>
      let banks := shareBanks w (w.tileAt p.1)
      if p.2 ≤ o && o < p.2 + banks.length * 2 ^ 17 then
        (List.range 4).map (fun i => windowAddr (w.tileAt p.1) (banks.getD ((o - p.2) / 2 ^ 17) 0 * 2 ^ 17 + (o - p.2) % 2 ^ 17 + 8 * i))
      else [])) }

/-- The sectors, by number, of n bytes from an address that are poisoned. -/
def State.spanPoison (s : State) (r : Reader) (va n : Nat) : List Nat :=
  (List.range ((n + 31) / 32)).filter (fun i => match r.find s (va + 32 * i) with
    | .ok pa _ => s.poisoned pa
    | _ => false)

/-- What an image's bytes stand for: as this package has written them, or as they read (log entry 30). -/
def State.snapOf (s : State) (h : Nat) (base : Working) (l : List Byte) : Snap :=
  match s.shelf.find? (fun n => n.bytes == l) with
  | some n => n
  | none => snapFrom h base l

/-- The same with the errors of the sectors that are poisoned where it lies. -/
def State.snapAt (s : State) (r : Reader) (va h : Nat) (base : Working) (l : List Byte) : Snap :=
  (s.snapOf h base l).spoiled l (s.spanPoison r va l.length)

/-- The header of a save image is sound (R378, R381). -/
def saveHeaderOk (l : List Byte) : Bool := le l 0 2 == 0x5A7E && le l 2 1 == 3
def saveImageOk (l : List Byte) : Bool := saveHeaderOk l && le l 24 8 == l.length && crcOk l 120

/-- Features that a map asks for and the part lacks (R381, R514). -/
def lacking (map : Nat) : Nat := map / 2 ^ 8 * 2 ^ 8

/-- A save image read: its header, and the rest of it where the header is sound. -/
def State.readSave (s : State) (r : Reader) (va : Nat) : Span :=
  match s.readSpan r va 128 with
  | .ok l s1 => if saveHeaderOk l && 128 ≤ le l 24 8 then s1.readSpan r va (le l 24 8) else .ok l s1
  | e => e

/-! ### WSAVE, WREST and WQUERY fn 2 (R342) -/

/-- Sectors of an image written by a thread, with those that are written poisoned; a refused sector ends it. -/
def State.writeSectors (s : State) (t : Nat) (bad : List Nat) (va : Nat) (l : List Byte) : Nat → Nat → Except Touch State
  | 0, _ => .ok s
  | f + 1, n =>
    match s.touchWrite t (va + 32 * n) .write with
    | .ok a s1 => State.writeSectors (s1.store (s1.thread t).bound a (sliceB l (32 * n) 32) (bad.contains n)) t bad va l f (n + 1)
    | r => .error r

/-- The sectors that a thread will write, placed in turn; the first that is refused ends it. -/
def State.touchSectors (s : State) (t va : Nat) : Nat → Touch
  | 0 => .ok va s
  | f + 1 =>
    match s.touchWrite t va .write with
    | .ok _ s1 => State.touchSectors s1 t (va + 32) f
    | r => r

/-- WSAVE: its image is written once every sector of it has a place (R330). -/
def execWsave (rd ra : Reg) (s : State) : Out :=
  s.onWorking [rd, ra] (fun t x =>
    s.access t (x.reg ra) 64 (fun s t va => s.touchSectors t va (((s.settle x.bound).saveImage x.bound false).length / 32)) (fun _ s =>
      let s1 := s.settle x.bound
      let img := s1.saveImage x.bound false
      let sn := s1.snapshot x.bound false img
      match { s1 with shelf := sn :: s1.shelf }.writeSectors t (s1.badSectors x.bound img) (x.reg ra).toNat img (img.length / 32) 0 with
      | .ok s2 => s2.finishReg t rd (BitVec.ofNat 64 img.length)
      | .error (.trap i _) => .next (s.threadFault t i)
      | .error (.noMemory a) => .fault (.noMemory a)
      | .error _ => .next s))

/-- WREST's replacement: the state that the image holds goes into the working where it stands. -/
def State.restoreHere (s : State) (h : Nat) (sn : Snap) : State :=
  let w := s.work h
  let s := (s.ownHoists h).foldl (fun s p => s.freeHoist p.1 p.2.1) s
  let s := ((s.freeElems h).freeIslands h).freeTiles h
  let v := sn.work.moved w (s.quad (w.thread / 4)).cyc
  let w' := { w with layout := v.layout, phaseAt := v.phaseAt, ctxFrom := v.ctxFrom, decls := v.decls, state := v.state, active := v.active, next := v.next,
                     expl := v.expl, budget := v.budget, phases := v.phases, inPhase := v.inPhase, sinks := v.sinks, report := v.report, awaited := v.awaited,
                     poison := v.poison, poisonBy := v.poisonBy, poisonLast := v.poisonLast, regions := v.regions, keeps := v.keeps }
  (s.setWork h w').putFabric { sn with handle := h } w'

/-- WREST: an image of another identity or size, or one that is not sound, is refused with 0x41; a lacking feature with 0x47 (R514). -/
def execWrest (rd ra : Reg) (s : State) : Out :=
  s.onWorking [rd, ra] (fun t x =>
    let h := x.bound
    let w := s.work h
    let r : Reader := ⟨fun s a => s.touch t a .read, fun _ _ => none⟩
    match s.readSave r (x.reg ra).toNat with
    | .trap i s1 => .next (s1.threadFault t i)
    | .bad _ s1 => .next s1
    | .ok l s1 =>
      if !saveImageOk l || le l 3 1 ≠ w.ident.toNat || le l 4 1 ≠ w.width || le l 5 1 ≠ w.height || bit (le l 6 1) 0 ≠ w.islands then
        s1.finishReg t rd 0x41
      else if lacking (le l 8 8) ≠ 0 then s1.finishReg t rd 0x47
      else
        let sn := s1.snapAt r (x.reg ra).toNat h w l
        if s1.hoistsFree w.die (sn.hoists.length - (s1.ownHoists h).length) then (s1.restoreHere h sn).finishReg t rd (BitVec.ofNat 64 l.length)
        else .next s)

/-- WQUERY fn 2. -/
def execWquerySaveSize (rd : Reg) (s : State) : Out :=
  s.onWorking [rd] (fun t x => s.finishReg t rd (BitVec.ofNat 64 (s.saveImage x.bound false).length))

end Sys2Proof.Machine
end

