-- ==== Sys2Proof/Machine/Sched.lean ====
section
/-! DEFINITION. The banksman and the arbiter (R34, R35, R43, R46, R47, R357 to R368, R382, R404): endpoints, the fetch of command records, bids and admission, the loader's
jobs, pre-emption, restore, moves, kills, messages and queries. -/

namespace Sys2Proof.Machine

open Sys2Proof

def State.endpoint (s : State) (n : Nat) : Endpoint := SMap.get {} s.endpoints n
def State.setEndpoint (s : State) (n : Nat) (x : Endpoint) : State := { s with endpoints := SMap.set {} s.endpoints n x }
def State.modEndpoint (s : State) (n : Nat) (f : Endpoint → Endpoint) : State := s.setEndpoint n (f (s.endpoint n))

/-- The host port is up: every die's firmware has started (R409, R526). -/
def State.portUp (s : State) : Bool := !s.recovery && (List.range 4).all (fun d => (s.die d).started)

/-- An endpoint whose queue pair is set up. -/
def State.epUp (s : State) (ep : Nat) : Bool := ep < 64 && s.portUp && (s.endpoint ep).up

/-! ### Command rings (R404) -/

/-- QUEUE_PAIR_SETUP: the count of records written and the head are 0. -/
def execQueuePairSetup (ep : Nat) (s : State) : Out :=
  .next (if 64 ≤ ep || !s.portUp then s else s.modEndpoint ep (fun x => { x with up := true, doorbell := 0, fetched := 0 }))

/-- DOORBELL_WRITE: a count below the head or more than 64 above it is ignored. -/
def execDoorbellWrite (ep : Nat) (value : DWord) (s : State) : Out :=
  let v := value.toNat % 2 ^ 32
  .next (if s.epUp ep && (v + 2 ^ 32 - (s.endpoint ep).fetched) % 2 ^ 32 ≤ 64 then s.modEndpoint ep (fun x => { x with doorbell := v }) else s)

/-! ### Fetch (R357 to R359) -/

/-- The length of a record by its type and version. -/
def recLength (type version : Nat) : Nat :=
  match type with
  | 0 => if version = 1 then 128 else if version = 2 then 224 else 256
  | 1 => 32
  | 2 => 32
  | 4 => 64
  | 5 => 32
  | _ => 16

/-- The record that stands in an entry of a ring: 256 bytes in version 3 form; a version 1 launch loses bytes 64 to 127, and its priority is
doubled. -/
def recTranslate (raw : List Byte) : List Byte :=
  let v := le raw 2 1
  let l := sliceB (raw.take (recLength (recType raw) v)) 0 256
  if v = 1 && recType raw = 0 then l.take 12 ++ toBytes 1 (le l 12 1 * 2) ++ sliceB l 13 51 ++ List.replicate 192 0 else l

/-- Bytes lo to hi are zero. -/
def zeroBytes (l : List Byte) (lo hi : Nat) : Bool := le l lo (hi + 1 - lo) == 0

/-- What R357 and R358 ask of a launch in version 3 form. -/
def launchOk (l : List Byte) : Bool :=
  let c := fun (n o k : Nat) => le l (160 + 16 * n + o) k
  recHandle l == 0 && le l 12 1 < 16 && le l 13 1 < 32 && zeroBytes l 96 127 && zeroBytes l 232 255 && le l 64 2 ≤ 256 && le l 70 2 ≤ 256 &&
  (!recFlag l 0 || (le l 66 1 < 4 && le l 67 1 < 32 && le l 68 1 < 48)) && (!recFlag l 4 || (10 ≤ le l 69 1 && le l 69 1 ≤ 30)) &&
  (List.range 8).all (fun n => bits (le l (128 + 4 * n) 4) 30 17 == 0) &&
  (List.range 4).all (fun n => c n 6 1 < 2 && c n 7 1 == 0 && (c n 6 1 == 0 || (1 ≤ c n 4 2 && c n 4 2 ≤ 4096))) &&
  (le l 88 8 == 0 || (le l 24 8 ≤ le l 32 8 && le l 32 8 < le l 24 8 + le l 88 8))

/-- A record that the banksman does not refuse with 0x40 (R359); raw is what stands in the ring. -/
def recOk (raw l : List Byte) : Bool :=
  let v := le raw 2 1
  le l 0 2 == 0x1A0C && 1 ≤ v && v ≤ 3 && zeroBytes l 14 15 && (v != 1 || recType l != 0 || le raw 12 1 < 8) &&
  match recType l with
  | 0 => launchOk l
  | 1 => zeroBytes l 10 13 && le l 16 8 % 64 == 0
  | 2 => zeroBytes l 8 13 && zeroBytes l 24 31
  | 3 => zeroBytes l 10 13
  | 4 => zeroBytes l 10 13 && zeroBytes l 17 31
  | 5 => zeroBytes l 10 13 && zeroBytes l 24 31
  | _ => false

/-- The record of a refused command, written on die 0 with outcome 7, and its completion. -/
def State.refuseCommand (s : State) (ep : Nat) (l : List Byte) (cause detail : Nat) : State :=
  (s.log 0 { cause := cause, outcome := 7, handle := if recType l = 0 then 0 else recHandle l, detail := detail }).replyRefused ep l cause (recHandle l)

/-- RECORD_FETCH: the banksman takes the next record of an endpoint, and refuses one that is malformed. -/
def execRecordFetch (ep : Nat) (s : State) : Out :=
  let x := s.endpoint ep
  .next (if !s.epUp ep || x.fetched = x.doorbell then s
  else
    let raw := (List.range 256).map (fun i => SMap.get 0 x.ring (256 * (x.fetched % 64) + i))
    let l := recTranslate raw
    let s := s.setEndpoint ep { x with fetched := (x.fetched + 1) % 2 ^ 32 }
    if recOk raw l then
      { s.modEndpoint ep (fun x => { x with queue := x.queue ++ [{ bytes := l, age := s.age }] }) with age := s.age + 1 }
    else s.refuseCommand ep l 0x40 0)

/-! ### Order of commands (R361) -/

/-- The address space that a restore's image is read in: that of the saved working whose image lies at the address, else the first
(log entry 31). -/
def State.restoreAsid (s : State) (va : Nat) : Nat :=
  match s.works.find? (fun p => p.2.savedAt == some va) with
  | some p => p.2.asid
  | none => 0

/-- The handle that a record concerns: a restore's stands in its image. -/
def State.recordHandle (s : State) (l : List Byte) : Nat :=
  if recType l = 0 then 0
  else if recType l = 2 then
    match s.readSpan (peekReader 0 (s.restoreAsid (le l 16 8))) (le l 16 8) 128 with
    | .ok b _ => if saveHeaderOk b then le b 16 2 else 0
    | _ => 0
  else recHandle l

/-- An older command for a handle is not finished. A message or a pre-emption that the banksman has taken in its turn for a saved working is held
for it, and does not keep back the restore that comes after it (log entry 69). -/
def State.blocked (s : State) (h age : Nat) (restore : Bool) : Bool :=
  h != 0 &&
  ((s.jobs.any (fun j => j.handle == h)) ||
   s.endpoints.any (fun p => p.2.queue.any (fun r => r.age < age && !(restore && r.held) && recType r.bytes != 0 && s.recordHandle r.bytes == h)))

/-- The oldest command of a type on an endpoint that may act. -/
def State.commandOf (s : State) (ep type : Nat) : Option Record :=
  if s.epUp ep then (s.endpoint ep).queue.find? (fun r => recType r.bytes == type && !s.blocked (recHandle r.bytes) r.age false) else none

/-- A command finished. -/
def State.dropRecord (s : State) (ep : Nat) (r : Record) : State :=
  s.modEndpoint ep (fun x => { x with queue := x.queue.filter (fun q => q.age != r.age) })
def State.modRecord (s : State) (ep : Nat) (r : Record) (f : Record → Record) : State :=
  s.modEndpoint ep (fun x => { x with queue := x.queue.map (fun q => if q.age = r.age then f q else q) })

/-- A command that completes with a cause. -/
def State.failCommand (s : State) (ep : Nat) (r : Record) (cause : Nat) : State := (s.dropRecord ep r).refuseCommand ep r.bytes cause 0

/-- A command done. -/
def State.doneCommand (s : State) (ep : Nat) (r : Record) (value : Nat) : State :=
  let h := recHandle r.bytes
  let w := s.work h
  let p := r.begun.getD (w.die, w.col, w.row, w.graphKey)
  (s.dropRecord ep r).toHost ep (completion (recTag r.bytes) (recType r.bytes) 0 h p.1 p.2.1 p.2.2.1 0 0 value p.2.2.2.toNat)

/-! ### Bids (R362, R381) -/

/-- The head of an endpoint's queue: its oldest launch or restore. -/
def Endpoint.head (x : Endpoint) : Option Record := x.queue.find? (fun r => recType r.bytes == 0 || recType r.bytes == 2)

/-- LAUNCH: the head of an endpoint, a launch, bids with the rectangle of its image, or is refused by checks 1 and 2. -/
def execLaunch (ep : Nat) (s : State) : Out :=
  .next (match (if s.epUp ep then (s.endpoint ep).head else none) with
  | none => s
  | some r =>
    if recType r.bytes ≠ 0 || r.bid.isSome then s
    else match s.startBid 0 (List.range 4) (recStart r.bytes (s.die 0).raceOk) with
      | .ok b => s.modRecord ep r (fun q => { q with bid := some b })
      | .error e => ((s.dropRecord ep r).logRefused 0 0 e).replyRefused ep r.bytes e.cause 0)

/-- The image of a saved working's layout table and rectangle, for its alignments. -/
def saveRect (l : List Byte) : Image :=
  { imageOf l with width := le l 4 1, height := le l 5 1, islands := bit (le l 6 1) 0, layouts := 256, layoutOff := le l 48 4 }

/-- A save image's bid. -/
def State.restoreBid (s : State) (l : List Byte) : Bid :=
  let h := le l 16 2
  let m := saveRect l
  let sn := s.snapOf h (s.work h) l
  { width := m.width, height := m.height, islands := m.islands, aligns := BitVec.ofNat 8 m.alignBits, handle := h, prio := le l 20 1,
    counters := sn.counters.map (fun p => p.1), blocks := sn.thread.poolUse }

/-- A handle that a restore may bring back: one saved here, or, from another part, one that no working here has or has had (R361, R498). -/
def State.restorable (s : State) (h : Nat) : Bool :=
  if s.hasWork h then (s.work h).savedAt.isSome && (s.work h).killing.isNone else h != 0 && !SMap.get false s.ended h

/-- RESTORE: the head of an endpoint, a restore, is refused before placement or bids. -/
def execRestore (ep : Nat) (s : State) : Out :=
  .next (match (if s.epUp ep then (s.endpoint ep).head else none) with
  | none => s
  | some r =>
    let h := s.recordHandle r.bytes
    let refuse := fun (cause detail : Nat) =>
      ((s.dropRecord ep r).log 0 { cause := cause, outcome := 7, handle := h, detail := detail }).replyRefused ep r.bytes cause h
    let plain := fun (cause : Nat) => ({ cause := cause } : LoadErr).detail
    if recType r.bytes ≠ 2 || r.bid.isSome || s.blocked h r.age true then s
    else match s.readSave (peekReader 0 (s.restoreAsid (le r.bytes 16 8))) (le r.bytes 16 8) with
      | .ok l _ =>
        if !saveImageOk l || !bit (le l 6 1) 1 then refuse 0x41 (plain 0x41)
        else if lacking (le l 8 8) ≠ 0 then refuse 0x47 (lacking (le l 8 8) % 2 ^ 8)
        else if !s.restorable h then refuse 0x4B 0
        else
          let b := s.restoreBid l
          if b.width = 0 || b.height = 0 || !s.possible (List.range 4) b none then refuse 0x48 (plain 0x48) else s.modRecord ep r (fun q => { q with bid := some b })
      | _ => refuse 0x41 (plain 0x41))

/-! ### Placement (R366) -/

/-- A claim's row and column lie in a rectangle of a die. -/
def inRect (d row col height width d' r c : Nat) : Bool := d == d' && row ≤ r && r < row + height && col ≤ c && c < col + width

/-- A claim is free: no working owns it, no job has taken it, and it is not retired. -/
def State.claimFree (s : State) (d r c : Nat) : Bool :=
  let k := s.claim (claimKey d r c)
  k.owner == 0 && !k.retired && !s.jobs.any (fun j => inRect j.die j.row j.col j.bid.height j.bid.width d r c)

/-- A claim is reserved for another bid than the one with a key. -/
def State.claimReserved (s : State) (key d r c : Nat) : Bool :=
  match (s.die d).reserved with
  | some (k, row, col, h, w) => k != key && inRect d row col h w d r c
  | none => false

/-- The quad of a claim. -/
def quadAt (d row col : Nat) : Nat := d * 48 + row / 8 * 8 + col / 4

/-- A free thread of a quad, the lowest. -/
def State.freeThread (s : State) (q : Nat) : Option Nat :=
  ((List.range 4).map (4 * q + ·)).find? (fun t => (s.thread t).bound == 0 && !s.jobs.any (fun j => j.thread == t))

/-- Counters and register blocks that a restore or a move needs are free in a quad (R366, R522). -/
def State.quadHas (s : State) (q : Nat) (b : Bid) : Bool :=
  let js := s.jobs.filter (fun j => j.thread / 4 == q)
  b.counters.all (fun n => !(s.quad q).syncOwner.any (fun o => o.1 == n) && !js.any (fun j => j.bid.counters.contains n)) &&
  b.blocks + (js.map (fun j => j.bid.blocks)).foldr (· + ·) 0 ≤ s.freePool q

/-- A bid can be placed at a position: its thread. -/
def State.placeAt (s : State) (key : Nat) (b : Bid) (d row col : Nat) : Option Nat :=
  if b.fits row col && (!b.islands || (row % 4 == 0 && col % 2 == 0)) && s.quadHas (quadAt d row col) b &&
      (rectClaims row col b.height b.width).all (fun p => s.claimFree d p.1 p.2 && !s.claimReserved key d p.1 p.2) then
    s.freeThread (quadAt d row col)
  else none

/-- The number of free claims of a die. -/
def State.freeClaimCount (s : State) (d : Nat) : Nat := (positions.filter (fun p => s.claimFree d p.1 p.2)).length

/-- The first position of a die: row, column and thread. -/
def State.firstPlace (s : State) (key : Nat) (b : Bid) (d : Nat) : Option (Nat × Nat × Nat) :=
  positions.findSome? (fun p => (s.placeAt key b d p.1 p.2).map (fun t => (p.1, p.2, t)))

/-- The lowest of some numbered choices by a measure. -/
def leastBy {α : Type} (l : List (Nat × α)) : Option α :=
  (l.foldl (fun (m : Option (Nat × α)) p => match m with
    | none => some p
    | some q => if p.1 < q.1 then some p else m) none).map (fun p => p.2)

/-- A bid in a round. -/
structure Entrant where
  /-- endpoint, or 64 + die for a task -/
  key : Nat
  prio : Nat
  age : Nat
  bid : Bid
  bypass : Nat
  place : Option (Nat × Nat × Nat)
  bytes : List Byte
  parent : Option Parent
  home : Option TaskHome := none

/-- Dies where a bid may stand. -/
def Entrant.dies (e : Entrant) : List Nat :=
  if 64 ≤ e.key then [e.key - 64] else match e.place with
    | some p => [p.1]
    | none => List.range 4

/-- The reservation that a bid holds. -/
def State.reservation (s : State) (e : Entrant) : Option (Nat × Nat × Nat) :=
  (List.range 4).findSome? (fun d => match (s.die d).reserved with
    | some (k, row, col, _, _) => if k = e.key then some (d, row, col) else none
    | none => none)

/-- Where a bid is placed: die, row, column and thread. -/
def State.placement (s : State) (e : Entrant) : Option (Nat × Nat × Nat × Nat) :=
  match s.reservation e with
  | some (d, row, col) => (s.placeAt e.key e.bid d row col).map (fun t => (d, row, col, t))
  | none => match (if 64 ≤ e.key then none else e.place) with
    | some (d, row, col) => (s.placeAt e.key e.bid d row col).map (fun t => (d, row, col, t))
    | none => leastBy (e.dies.filterMap (fun d => (s.firstPlace e.key e.bid d).map (fun p => (s.freeClaimCount d, (d, p)))))

/-! ### Rounds (R363, R364) -/

/-- B of R47. -/
def State.bypassBound (s : State) : Nat := max (s.die 0).arbBypass.toNat 1

/-- The bids of the endpoints. -/
def State.hostBids (s : State) : List Entrant :=
  (List.range 64).filterMap (fun ep => match (if s.epUp ep then (s.endpoint ep).head else none) with
    | none => none
    | some r => r.bid.map (fun b => ⟨ep, b.prio, r.age, b, r.bypass,
        if recType r.bytes = 0 then (recStart r.bytes false).place else none, r.bytes, none, none⟩))

/-- The oldest task of a die, with what it asks for, or its refusal. -/
def State.taskBid (s : State) (d : Nat) : Option (Task × Except LoadErr Bid) :=
  match (s.die d).tasks with
  | [] => none
  | k :: _ =>
    let w := s.homeOf k.parent k.home
    some (k, match s.taskOf (peekReader d w.asid) w k.bytes with
      | .error e => .error e
      | .ok (st, s1) => s1.startBid d [d] st)

/-- The bids of the task queues. -/
def State.taskBids (s : State) : List Entrant :=
  (List.range 4).filterMap (fun d => match s.taskBid d with
    | some (k, .ok b) => some ⟨64 + d, b.prio, k.age, b, k.bypass, none, k.bytes, some ⟨k.parent, recCounter k.bytes⟩, k.home⟩
    | _ => none)

/-- A ranks above b: the higher priority, then the earlier fetch or push. -/
def Entrant.above (a b : Entrant) : Bool := b.prio < a.prio || (a.prio == b.prio && a.age < b.age)

/-- A bid put into a list in rank order. -/
def rankInsert (e : Entrant) : List Entrant → List Entrant
  | [] => [e]
  | a :: r => if e.above a then e :: a :: r else a :: rankInsert e r

/-- The bids in rank order. -/
def State.ranked (s : State) : List Entrant := (s.hostBids ++ s.taskBids).foldl (fun l e => rankInsert e l) []

/-- A bypass counted, on the endpoint's head or on the die's oldest task. -/
def State.countBypass (s : State) (e : Entrant) : State :=
  if 64 ≤ e.key then s.modDie (e.key - 64) (fun x => { x with tasks := x.tasks.map (fun k => if k.age = e.age then { k with bypass := k.bypass + 1 } else k) })
  else s.modEndpoint e.key (fun x => { x with queue := x.queue.map (fun q => if q.age = e.age then { q with bypass := q.bypass + 1 } else q) })

/-- Claims of resident workings in a rectangle. -/
def State.residents (s : State) (b : Bid) (d row col : Nat) : Nat :=
  ((rectClaims row col b.height b.width).filter (fun p => (s.claim (claimKey d p.1 p.2)).owner != 0)).length

/-- The position reserved for a bid: of those that it may ever take on dies without a reservation, the one with the fewest claims of resident
workings (R364). -/
def State.reserveAt (s : State) (e : Entrant) : Option (Nat × Nat × Nat) :=
  leastBy ((e.dies.filter (fun d => (s.die d).reserved.isNone)).flatMap (fun d =>
    (((match (if 64 ≤ e.key then none else e.place) with
      | some (_, row, col) => [(row, col)]
      | none => positions) : List (Nat × Nat)).filter (fun p => s.canStand e.bid d p.1 p.2)).map
      (fun p => (s.residents e.bid d p.1 p.2, (d, p.1, p.2)))))

/-- A reservation made for a bid that has been bypassed B times and holds none. -/
def State.reserve (s : State) (e : Entrant) : State :=
  if e.bypass < s.bypassBound || (s.reservation e).isSome then s
  else match s.reserveAt e with
    | some (d, row, col) => s.modDie d (fun x => { x with reserved := some (e.key, row, col, e.bid.height, e.bid.width) })
    | none => s

/-- Reservations of bids that are gone. -/
def State.dropStale (s : State) (l : List Entrant) : State :=
  forN (fun d s => match (s.die d).reserved with
    | some (k, _, _, _, _) => if l.any (fun e => e.key == k && s.bypassBound ≤ e.bypass) then s else s.modDie d (fun x => { x with reserved := none })
    | none => s) 4 0 s

/-- The first handle from one on that nothing carries (log entry 29). -/
def State.freshHandle (s : State) : Option Nat :=
  (findFrom (fun i => let h := (s.nextHandle + i - 1) % 65535 + 1
                      !s.hasWork h && !s.jobs.any (fun j => j.handle == h) && !s.shelf.any (fun n => n.handle == h)) 65535 0).map (fun i => (s.nextHandle + i - 1) % 65535 + 1)

/-- A bid admitted: it leaves its queue and becomes a job of the loader. -/
def State.admitBid (s : State) (e : Entrant) (p : Nat × Nat × Nat × Nat) (h : Nat) : State :=
  let j : Job := { bytes := e.bytes, source := e.key, bid := e.bid, die := p.1, row := p.2.1, col := p.2.2.1, thread := p.2.2.2, handle := h,
                   parent := e.parent, home := e.home }
  let s := if 64 ≤ e.key then s.modDie (e.key - 64) (fun x => { x with tasks := x.tasks.filter (fun k => k.age != e.age) })
    else s.modEndpoint e.key (fun x => { x with queue := x.queue.filter (fun q => q.age != e.age) })
  let s := forN (fun d s => match (s.die d).reserved with
    | some (k, _, _, _, _) => if k = e.key then s.modDie d (fun x => { x with reserved := none }) else s
    | none => s) 4 0 s
  let s := if e.bid.handle = 0 then { s with nextHandle := h % 65535 + 1, ended := SMap.set false s.ended h false } else s
  { s with jobs := s.jobs ++ [j] }

/-- A bid that has reached B and holds no reservation lets no lower bid pass it, but one that holds a reservation (R364). -/
def State.holds (s : State) (e : Entrant) : Bool := s.bypassBound ≤ e.bypass && (s.reservation e).isNone

/-- The first bid of a list that can be placed, with the bids before it that it passes; only bids with a reservation where a bid above holds the
others back. -/
def State.firstBid (s : State) (only : Bool) : List Entrant → List Entrant → Option (Entrant × (Nat × Nat × Nat × Nat) × List Entrant)
  | _, [] => none
  | passed, e :: r =>
    if only && (s.reservation e).isNone then State.firstBid s only passed r
    else match s.placement e with
      | some p => some (e, p, passed)
      | none => if s.holds e then State.firstBid s true passed r
                else State.firstBid s only (if (s.reservation e).isSome then passed else passed ++ [e]) r

/-- The tasks whose bids cannot be read are refused (log entry 26). -/
def State.refuseTasks (s : State) : State :=
  forN (fun d s => match s.taskBid d with
    | some (k, .error e) =>
      let s := (s.modDie d (fun x => { x with tasks := x.tasks.filter (fun q => q.age != k.age) })).logRefused d 0 e
      s.joinParent ⟨k.parent, recCounter k.bytes⟩ .faulted
    | _ => s) 4 0 s

/-- ADMISSION_ROUND. -/
def execAdmissionRound (s : State) : Out :=
  .next (if !s.portUp then s
  else
    let s := s.refuseTasks
    let l := s.ranked
    let s := (l.foldl State.reserve (s.dropStale l))
    match s.firstBid false [] l with
    | none => s
    | some (e, p, passed) =>
      match (if e.bid.handle = 0 then s.freshHandle else some e.bid.handle) with
      | none => s
      | some h =>
        let s := (passed.foldl State.countBypass s).admitBid e p h
        s.ranked.foldl State.reserve s)

/-! ### Jobs of the loader -/

/-- A restore job: the image is read again, and the working written back. -/
def State.restoreJob (s : State) (j : Job) (c : LoadCheck) : State :=
  let va := le j.bytes 16 8
  let fail := fun (s : State) (cause status : Nat) =>
    ((s.log 0 { cause := cause, outcome := 7, handle := j.handle, detail := ({ cause := cause } : LoadErr).detail }).dropJob j).replyRefused j.source
      j.bytes status j.handle
  let r := loadReader 0 (s.restoreAsid va) j.handle (loadAgain c)
  match s.readSave r va with
  | .trap _ s => fail s 0x41 0x41
  | .bad _ s => fail s 0x21 0x41
  | .ok l s1 =>
    if !saveImageOk l then fail s1 0x41 0x41
    else if !s1.restorable j.handle then fail s1 0x4B 0x4B
    else if c = .word then fail s1 0x25 0x41
    else
      let s1 := s1.logLine 0 j.handle va c
      let sn := s1.snapAt r va j.handle (s1.work j.handle) l
      if !s1.hoistsFree j.die sn.hoists.length then s
      else
        let old := s1.work j.handle
        let b := { sn.work with die := j.die, row := j.row, col := j.col, thread := j.thread }
        let sn := { sn with handle := j.handle, thread := { sn.thread with bound := j.handle },
                            work := { sn.work with joins := old.joins, launch := old.launch, parent := old.parent } }
        let s2 := (s1.dropJob j).putWorking sn b
        let s3 := ((old.joins.map (fun p => p.1)).eraseDups).foldl (fun s n => s.heldJoins (j.thread / 4) n) s2
        s3.toHost j.source (completion (recTag j.bytes) 2 0 j.handle j.die j.col j.row 0 0 0 sn.work.graphKey.toNat)

/-- LOAD_IMAGE: the job of a handle, or the WLOAD of a working; a bad line of the configuration cache that no load has used is only recorded. -/
def execLoadImage (h : Nat) (c : LoadCheck) (s : State) : Out :=
  .next (if c = .unused then
    (if s.hasWork h then
      (s.modDie (s.work h).die (fun x => { x with badLines := (s.work h).config :: x.badLines.filter (· != (s.work h).config) })).log (s.work h).die
        { cause := 0x26, outcome := 1, handle := h }
    else s)
  else match s.jobs.find? (fun j => j.handle == h) with
  | some j => if j.source < 64 && recType j.bytes = 2 then s.restoreJob j c else s.loadJob j c
  | none =>
    let w := s.work h
    match (s.thread w.thread).wait with
    | .wload va mask rd => if w.loading && w.killing.isNone && w.savedAt.isNone then s.loadContexts h va mask rd c else s
    | _ => s)

/-! ### Pre-emption and moves (R368, R377) -/

/-- Every access issued has performed, been parked or been refused, and nothing waits for a peer package. -/
def State.quiet (s : State) (h : Nat) : Bool :=
  (s.work h).elems.all (fun e => (s.elem e).accs.all (fun a => a.peers.isEmpty && (opMac a.op || a.stage != .issued))) &&
  (s.ownHoists h).all (fun p => p.2.2.peers.isEmpty)

/-- Bytes written at virtual addresses by the banksman or the host port; a refused page ends it. -/
def State.writeSpan (s : State) (d asid ident : Nat) : Nat → Nat → List Byte → Except (Nat × TransErr × State) State
  | 0, _, _ => .ok s
  | f + 1, va, l =>
    if l.isEmpty then .ok s
    else if 2 ^ 56 ≤ va then .error (va, { cause := 0x30, ast := true, wide := true }, s)
    else if inWindow va then .error (va, { cause := 0x36 }, s)
    else match s.translate ⟨none, none, d⟩ asid va .write ident with
      | .ok pa _ s1 => State.writeSpan (s1.store 0 pa (l.take (32 - va % 32)) false) d asid ident f (va + (32 - va % 32)) (l.drop (32 - va % 32))
      | .refused r => .error (va, r, s)
      | .miss => .error (va, { cause := 0x30 }, s)

/-- Sectors of a save image marked poisoned (R452). -/
def State.poisonSectors (s : State) (d asid va : Nat) (l : List Nat) : State :=
  l.foldl (fun s n => match s.translate ⟨none, none, d⟩ asid (va + 32 * n) .write 0 with
    | .ok pa _ s => s.setPoison pa true
    | _ => s) s

/-- A phase end of the last cycle before the boundary is complete (R377). -/
def State.lastPhaseEnd (s : State) (h : Nat) : State :=
  if s.sinksDone h && (s.work h).state == .running then s.endPhase h else s

/-- PREEMPT: the working's claims are gated; once its accesses have performed it is read out, and its claims, thread, slots and counters are
free. -/
def execPreempt (ep : Nat) (s : State) : Out :=
  .next (match s.commandOf ep 1 with
  | none => s
  | some r =>
    let h := recHandle r.bytes
    let w := s.work h
    if !s.hasWork h then s.failCommand ep r 0x4B
    else if w.savedAt.isSome then s.modRecord ep r (fun q => { q with held := true })
    else if w.killing.isSome || w.rolling.isSome || !w.subst.isEmpty || w.loading then s
    else if !w.gated then (s.lastPhaseEnd h).modWork h (fun w => { w with gated := true })
    else if !s.quiet h then s
    else
      let s1 := s.settle h
      let img := s1.saveImage h true
      let va := le r.bytes 16 8
      if le r.bytes 24 8 < img.length then (s.setWork h { w with gated := false }).failCommand ep r 0x4C
      else match s1.writeSpan 0 w.asid 0 (img.length / 32 + 1) va img with
        | .error _ => (s.setWork h { w with gated := false }).failCommand ep r 0x4C
        | .ok s2 =>
          let s3 := s2.poisonSectors 0 w.asid va (s1.badSectors h img)
          let s4 := { s3 with shelf := s1.snapshot h true img :: s3.shelf }
          let s5 := (s4.ownHoists h).foldl (fun s p => s.freeHoist p.1 p.2.1) s4
          let s6 := (s5.freeWorking h).setWork h { w with savedAt := some va, gated := false, retire := [] }
          s6.doneCommand ep r img.length)

/-- MOVE: a movable working that is quiet goes to free claims of its die; WRK and relative indices go by the working, so they follow it (R33,
R368). -/
def execMove (h row col : Nat) (s : State) : Out :=
  let w := s.work h
  .next (if !s.hasWork h || w.nomove || !(s.die 0).compact || !w.live || w.loading || !w.retire.isEmpty || !s.quiet h then s
  else
    let s1 := s.settle h
    let sn := s1.snapshot h true []
    let m := { saveRect [] with width := w.width, height := w.height, islands := w.islands, layoutOff := 0,
                                bytes := (List.range 256).flatMap (fun i => toBytes 64 (w.entry i)) }
    let b : Bid := { width := w.width, height := w.height, islands := w.islands, aligns := BitVec.ofNat 8 m.alignBits,
                     counters := sn.counters.map (fun p => p.1), blocks := sn.thread.poolUse }
    match s.placeAt 255 b w.die row col with
    | none => s
    | some t =>
      let s2 := ((s1.ownHoists h).foldl (fun s p => s.freeHoist p.1 p.2.1) s1).freeWorking h
      s2.putWorking sn { w with row := row, col := col, thread := t })

/-! ### Kill, message and query (R361, R382) -/

/-- KILL: the working is killed with cause 0x4D; the command completes once it is gone. -/
def execKill (ep : Nat) (s : State) : Out :=
  .next (match s.commandOf ep 3 with
  | none => s
  | some r =>
    let h := recHandle r.bytes
    if s.hasWork h then
      if r.begun.isSome then s
      else
        let w := s.work h
        (s.startKill h { cause := 0x4D } .killed).modRecord ep r (fun q => { q with begun := some (w.die, w.col, w.row, w.graphKey) })
    else if r.begun.isSome then s.doneCommand ep r 0
    else s.failCommand ep r 0x4B)

/-- An element of an entry written by the banksman for a working; none where it has no place. -/
def State.putElem (s : State) (h n c : Nat) (l : List Byte) : Option State :=
  let w := s.work h
  let r := w.entry n
  match resolve w r (sideBase r 0) (w.tileAt 0) (fun i => if i = 0 then c else 0) with
  | none => none
  | some va =>
    if entSpace r = 3 then none
    else if inWindow va then s.putSector h (addrBytes va l) false
    else match s.translate ⟨none, none, w.die⟩ w.asid va .write (entIdent r) with
      | .ok pa _ s1 => s1.putSector h (addrBytes pa l) false
      | _ => none

/-- A message acts as its handler says; none where it waits for room. -/
def State.deliver (s : State) (h : Nat) (l : List Byte) : Except Nat (Option State) :=
  let w := s.work h
  let type := le l 16 1
  if w.handlers ≤ type then .error 0x49
  else match s.readTable (peekReader w.die w.asid) (w.handlerTable + 8 * type) 1 8 with
    | .error _ => .error 0x49
    | .ok (t, s1) =>
      let v := t.getD 0 0
      let a := bits v 15 8
      let c := bits v 23 16
      let n := SMap.get 0 w.msgs type
      let counted := fun (s : State) => s.modWork h (fun w => { w with msgs := SMap.set 0 w.msgs type (n + 1) })
      match v % 256 with
      | 1 =>
        let q := w.thread / 4
        if !s1.taskRoom w.die q (c % 64) then .ok none
        else .ok (some (counted ((s1.ownCounter q (c % 64) w.thread).pushTask w.die q (c % 64) h
          (sliceB l 32 32 ++ toBytes 1 0xFF ++ toBytes 1 0 ++ toBytes 1 a ++ toBytes 1 (c % 64) ++ toBytes 1 (parentByte w.thread) ++ toBytes 27 0))))
      | 2 =>
        (match s1.putElem h a (n % max (entExt (w.entry a) 0) 1) (sliceB l 32 32) with
        | none => .error 0x49
        | some s2 => match s2.putElem h c 0 (toBytes 4 (n + 1)) with
          | none => .error 0x49
          | some s3 => .ok (some (counted s3)))
      | _ => .error 0x49

/-- MESSAGE: delivered to a resident working; one that is saved lets it wait. -/
def execMessage (ep : Nat) (s : State) : Out :=
  .next (match s.commandOf ep 4 with
  | none => s
  | some r =>
    let h := recHandle r.bytes
    let w := s.work h
    if !s.hasWork h then s.failCommand ep r 0x4B
    else if w.savedAt.isSome then s.modRecord ep r (fun q => { q with held := true })
    else if !w.live then s
    else match s.deliver h r.bytes with
      | .error c => s.failCommand ep r c
      | .ok none => s
      | .ok (some s1) => s1.doneCommand ep r 0)

/-- The result of a query. -/
def State.queryResult (s : State) (h : Nat) : List Byte :=
  let w := s.work h
  sliceB (toBytes 8 w.wstat.toNat ++ toBytes 1 w.die ++ toBytes 1 w.col ++ toBytes 1 w.row ++ toBytes 1 (threadQuad w.thread) ++
    toBytes 1 (w.thread % 4) ++ toBytes 1 (b2n w.savedAt.isSome)) 0 64

/-- QUERY. -/
def execQuery (ep : Nat) (s : State) : Out :=
  .next (match s.commandOf ep 5 with
  | none => s
  | some r =>
    let h := recHandle r.bytes
    if !s.hasWork h then s.failCommand ep r 0x4B
    else match s.writeSpan 0 (s.work h).asid 0 3 (le r.bytes 16 8) (s.queryResult h) with
      | .ok s1 => s1.doneCommand ep r 0
      | .error _ => s.failCommand ep r 0x49)

end Sys2Proof.Machine
end

