-- ==== Sys2Proof/Machine/Peers.lean ====
section
/-! DEFINITION. Peer packages (R305 to R307, R503): requests that arrive at this package, and replies that return to it. -/

namespace Sys2Proof.Machine

open Sys2Proof

/-! ### Requests -/

/-- A reply flit: the cause stands in byte 19, then the poison and the data. -/
def State.replyFlit (s : State) (f : PeerRequest) (cause : Nat) (x : Bool) (data : List Byte) : List Byte :=
  flitBytes 3 f.package s.package f.source f.seq.toNat f.asid f.addr cause 0 data.length 0xFF x data

/-- The stamp unit of a physical address: one of eight on its stack, by the sector (log entry 32). -/
def stampUnit (pa : Nat) : Nat := pa / 2 ^ 36 * 8 + pa / 32 % 8

/-- A source as the filters know it: its package and identifier. -/
def peerKey (f : PeerRequest) : Nat := f.package * 2 ^ 16 + f.source % 2 ^ 16

/-- The reply that a filter holds. -/
def State.heldReply (s : State) (u : Nat) (f : PeerRequest) : Option (List Byte) :=
  (s.filters.find? (fun r => r.unit == u && r.source == (peerKey f) && r.seq == f.seq)).map (fun r => r.reply)

/-- A source may have an entry at a stamp unit: it has a filter there, or fewer than 2,048 are held. -/
def State.filterRoom (s : State) (u : Nat) (f : PeerRequest) : Bool :=
  let l := ((s.filters.filter (fun r => r.unit == u)).map (fun r => r.source)).eraseDups
  l.contains (peerKey f) || l.length < 2048

/-- An atomic performed is entered, and of a source's entries the last 256 are kept. -/
def State.enterFilter (s : State) (u : Nat) (f : PeerRequest) (reply : List Byte) : State :=
  let mine := s.filters.filter (fun r => r.unit == u && r.source == (peerKey f))
  let rest := s.filters.filter (fun r => !(r.unit == u && r.source == (peerKey f)))
  { s with filters := rest ++ (mine.drop (mine.length - 255)) ++ [⟨u, peerKey f, f.seq, reply⟩] }

/-- A reply sent. -/
def State.sendReply (s : State) (l : List Byte) : State := { s with flits := s.flits ++ [FlitOut.mk l []] }

/-- Filters of sources that have received every reply that they hold are released (R307). -/
def State.releaseFilters (s : State) (l : List Nat) : State := { s with filters := s.filters.filter (fun r => !l.contains r.source) }

/-- The kind of access that a request makes. -/
def peerAcc (f : PeerRequest) : Acc :=
  match f.kind with
  | .read => .read
  | .write => .write
  | .atomic => .atomic

/-- The bytes that a write request stores: those of the lanes that are valid. -/
def peerCells (f : PeerRequest) (pa : Nat) : List (Nat × Byte) :=
  ((List.range (min f.len 32)).filter (fun j => mbit f.mask (j / 4))).map (fun j => (pa + j, f.data.getD j 0))

/-- An atomic of a peer at its location: the state and the old word. -/
def State.peerAtomic (s : State) (f : PeerRequest) (pa : Nat) : State :=
  let w := s.word pa 4
  let x := le f.data 0 4
  let n := if f.op = 12 then (if w = le f.data 4 4 then x else w, false) else amoNew f.op w x
  s.store 0 pa (toBytes 4 n.1) (f.poison || n.2)

/-- PEER_REQUEST_ARRIVAL: translated by the caches and walkers of the die that receives it, performed, or refused with its cause; an atomic
whose number is held is answered as before. -/
def execPeerRequestArrival (f : PeerRequest) (s : State) : Out :=
  let s := s.releaseFilters f.released
  let refuse := fun (c : Nat) => s.sendReply (s.replyFlit f c false [])
  .next (if 2 ^ 56 ≤ f.addr || 4 ≤ f.die then refuse 0x30
  else if inWindow f.addr then refuse 0x36
  else match s.translate ⟨none, none, f.die⟩ f.asid f.addr (peerAcc f) f.ident with
    | .miss => s
    | .refused r => refuse r.cause
    | .ok pa _ s1 =>
      match f.kind with
      | .read =>
        if s1.badIn pa f.len then refuse 0x21
        else s1.sendReply (s.replyFlit f 0 (s1.poisoned pa) (s1.bytesAt pa (min f.len 32)))
      | .write =>
        let l := peerCells f pa
        let s2 := match s1.putSector 0 l f.poison with
          | some s2 => s2
          | none => s1
        s2.sendReply (s.replyFlit f 0 false [])
      | .atomic =>
        let u := stampUnit pa
        match s1.heldReply u f with
        | some r => s1.sendReply r
        | none =>
          if !s1.filterRoom u f then s
          else if s1.isBad pa then refuse 0x21
          else
            let r := s.replyFlit f 0 (s1.poisoned pa) (toBytes 4 (s1.word pa 4))
            ((s1.peerAtomic f pa).enterFilter u f r).sendReply r)

/-! ### Replies -/

/-- The address that a lane of an access names. -/
def State.peerAddr (s : State) (e : Nat) (a : Access) (lane : Nat) : Nat :=
  ((if opLanes a.op then s.laneActs e a lane else s.accOne e a)).getD 0

/-- A performed request's reply taken in by its access. -/
def State.peerDone (s : State) (e : Nat) (a : Access) (lane : Nat) (f : PeerReply) : State :=
  match a.op with
  | 0xC0 => s.modAcc e a.seq (fun b => b.reply (loadValue (entSize (s.accEntry e a)) f.data f.poison))
  | 0xC1 => s.modAcc e a.seq (fun b => b.reply (ackOf 1))
  | 0xC2 => s.macElemDone e a (fun b => s.gatherLane e b lane (f.data, f.poison))
  | 0xC3 => s.macElemDone e a (fun b => s.scatterLane e b lane)
  | _ =>
    let old := le f.data 0 4
    let n := if a.cas then (0, false) else amoNew (dAop a.desc.toNat) old (a.b.p.get lane).toNat
    let exc := n.2 && !a.x
    let s1 := if exc then s.createPoison (s.owner e) e (quadOf e) else s
    (s1.modAcc e a.seq (fun b => b.lanePerformed lane old (exc || (a.amo && f.poison)))).amoFinish e a.seq

/-- The error that an access's own request to a peer package has met there. -/
def peerItem (va : Nat) : BadItem := .hbm (2 ^ 39) va

/-- A request to a peer package answered with an error: the element replays it once, and where it is bad again replay has failed (R435, R503). -/
def State.peerBad (s : State) (e : Nat) (a : Access) (va : Nat) : State :=
  if a.retry then s.nextRung (s.owner e) (s.ladderInfo e (peerItem va))
  else ((s.countItem (peerItem va) (some e)).1.modAcc e a.seq (fun b => { b with retry := true })).modElem e
    (fun x => { x with ladder := some (x.ladder.getD (peerItem va)) })

/-- A request sent again to a peer package has been performed: its replay counts and is recorded (R435, R436). -/
def State.peerReread (s : State) (e : Nat) (a : Access) (va : Nat) : State :=
  let h := s.owner e
  let i := s.ladderInfo e (peerItem va)
  let r := (s.modAcc e a.seq (fun b => { b with retry := false })).replayed e
  r.1.log (dieOf e) (faultRec h (s.work h) i r.2)

/-- A reply to an element: its number is free again; a duplicate finds none and is discarded. -/
def State.replyToElem (s : State) (e : Nat) (f : PeerReply) : State :=
  let x := s.elem e
  if !x.peerOut.contains f.seq then s
  else
    let s := s.modElem e (fun x => { x with peerOut := x.peerOut.erase f.seq })
    match x.accs.find? (fun a => a.peers.any (fun p => p.1 == f.seq)) with
    | none => s
    | some a =>
      let lane := match a.peers.find? (fun p => p.1 == f.seq) with
        | some p => p.2
        | none => 0
      let s := (s.modAcc e a.seq (fun b => { b with peers := b.peers.filter (fun p => p.1 != f.seq) })).canaryEvent (s.owner e)
      let a := { a with peers := a.peers.filter (fun p => p.1 != f.seq) }
      let va := s.peerAddr e a lane
      if a.stage == .performed then s
      else if f.cause = 0 then (if a.retry then s.peerReread e a va else s).peerDone e { a with retry := false } lane f
      else if a.stage == .refused then s
      else if transCause f.cause then s.refuseTrans e a va a.acc { cause := f.cause } true
      else s.peerBad e a va

/-- An element of a hoist's unit that a peer package has read bad: it is asked for once more, and where that is bad too, or nothing is replayed, the
next rung follows (R435). -/
def State.hoistBad (s : State) (d n k : Nat) : State :=
  let h := (s.die d).hoist n
  let i := badInfo (.hbm (2 ^ 39) 0) (h.issuer.getD 0xFFFF) (s.hoistIndex h)
  if h.again.contains k || s.noReplay h.handle then s.nextRung h.handle i
  else s.modHoist d n (fun h => { h with again := k :: h.again })

/-- A reply to a hoist. -/
def State.replyToHoist (s : State) (d n : Nat) (f : PeerReply) : State :=
  let h := (s.die d).hoist n
  match h.peers.find? (fun p => p.1 == f.seq) with
  | none => s
  | some p =>
    let w := s.work h.handle
    let s := (s.modHoist d n (fun h => { h with peers := h.peers.filter (fun q => q.1 != f.seq) })).canaryEvent h.handle
    let va := if h.kind = 0 then ((if h.sent then hDst w h (h.pos + p.2) else hSrc w h (h.pos + p.2))).getD 0 else p.2 % 2 ^ 56
    let acc := if h.sent || 2 ^ 56 ≤ p.2 then Acc.write else Acc.read
    if f.cause = 0 then
      let s := if h.again.contains p.2 then (s.modHoist d n (fun h => { h with again := h.again.erase p.2 })).log d
        (faultRec h.handle w (badInfo (.hbm (2 ^ 39) va) (h.issuer.getD 0xFFFF) (s.hoistIndex h)) 2) else s
      (if h.sent then s else s.modHoist d n (fun h => { h with got := h.got ++ [(p.2, f.data, f.poison)] }))
    else if transCause f.cause then
      s.hoistFault d n { cause := f.cause, va := va,
                         detail := s.hoistIndex h + 2 ^ 16 * ({ cause := f.cause } : TransErr).detail acc (some n) true }
    else s.hoistBad d n p.2

/-- PEER_REPLY_ARRIVAL: rows of elements name elements, row 63 a hoist of its die. -/
def execPeerReplyArrival (f : PeerReply) (s : State) : Out :=
  .next (if claimRowOf f.source < 48 then s.replyToElem f.source f
  else if claimRowOf f.source = 63 && posOf f.source = 0 then s.replyToHoist (dieOf f.source) (claimColOf f.source) f
  else s)

end Sys2Proof.Machine
end

