-- ==== Sys2Proof/Machine/Platform.lean ====
section
/-! DEFINITION. The surroundings (15_platform, R504 to R506, R523 to R526): host memory access, flow control and time, links, heat, droop and wear,
reset and boot, attestation, and the TAP. -/

namespace Sys2Proof.Machine

open Sys2Proof

/-! ### RDMA (R403, R404) -/

/-- An answer of the host port on an endpoint. -/
def State.answer (s : State) (ep : Nat) (k : HostKind) (l : List Byte) : State :=
  { s with hostOut := s.hostOut ++ [{ ep := ep, kind := k, bytes := l }] }

/-- A refused page of an operation: the record on die 0, and the NAK. -/
def State.nak (s : State) (ep va cause : Nat) : State :=
  (s.log 0 { cause := cause, outcome := 1, vaddr := va }).answer ep .nak []

/-- Bytes read for the host, sector by sector. -/
def State.readHost (s : State) (asid ident : Nat) : Nat → Nat → Nat → Except (Nat × Nat × State) (List Byte × State)
  | 0, _, _ => .ok ([], s)
  | f + 1, va, n =>
    if n = 0 then .ok ([], s)
    else if 2 ^ 56 ≤ va then .error (va, 0x30, s)
    else if inWindow va then .error (va, 0x36, s)
    else match s.translate ⟨none, none, 0⟩ asid va .read ident with
      | .ok pa _ s1 =>
        let k := min n (32 - va % 32)
        (match State.readHost s1 asid ident f (va + k) (n - k) with
        | .ok (l, s2) => .ok (s1.bytesAt pa k ++ l, s2)
        | .error e => .error e)
      | .refused r => .error (va, r.cause, s)
      | .miss => .error (va, 0x30, s)

/-- A range lies in a region. -/
def inRegion (r : Nat × Nat × Nat × Nat) (va len : Nat) : Bool := r.2.1 ≤ va && va + len ≤ r.2.1 + r.2.2.1

/-- A request that came with a congestion mark is answered by a congestion notification on its queue pair (R403). -/
def State.answerMark (s : State) (ep : Nat) (marked : Bool) : State := if marked && s.epUp ep then s.answer ep .congestion [] else s

/-- RDMA_READ: region 0 is the endpoint's command ring, others are those of system software (log entry 14). -/
def execRdmaRead (packet : RdmaPacket) (region va len : Nat) (s : State) : Out :=
  let ep := packet.ep
  let r := Config.rdmaRegion region
  let s := s.answerMark ep packet.marked
  .next (if !s.epUp ep then s
  else if region = 0 then
    (if va + len ≤ 16384 then s.answer ep .data ((List.range len).map (fun i => SMap.get 0 (s.endpoint ep).ring (va + i))) else s.answer ep .nak [])
  else if !inRegion r va len then s.answer ep .nak []
  else match s.readHost r.1 r.2.2.2 (len / 32 + 2) va len with
    | .ok (l, s1) => s1.answer ep .data l
    | .error (a, c, s1) => s1.nak ep a c)

/-- RDMA_WRITE. -/
def execRdmaWrite (packet : RdmaPacket) (region va : Nat) (data : List Byte) (s : State) : Out :=
  let ep := packet.ep
  let r := Config.rdmaRegion region
  let s := s.answerMark ep packet.marked
  .next (if !s.epUp ep then s
  else if region = 0 then
    (if va + data.length ≤ 16384 then
      (s.modEndpoint ep (fun x => { x with ring :=
        ((List.range data.length).zip data).foldl (fun m p => SMap.set 0 m (va + p.1) p.2) x.ring })).answer ep .ack []
     else s.answer ep .nak [])
  else if !inRegion r va data.length then s.answer ep .nak []
  else match s.writeSpan 0 r.1 r.2.2.2 (data.length / 32 + 2) va data with
    | .ok s1 => s1.answer ep .ack []
    | .error (a, e, s1) => s1.nak ep a e.cause)

/-- The priority of an endpoint's messages is paused (R402). -/
def State.paused (s : State) (ep : Nat) : Bool := s.pfc.getLsbD (Config.rdmaPriority ep % 8)

/-- The host port sends what is not paused, in order on each endpoint (R402). -/
def State.drainHost (s : State) : State :=
  { s with hostSent := s.hostSent ++ s.hostOut.filter (fun m => !s.paused m.ep), hostOut := s.hostOut.filter (fun m => s.paused m.ep) }

/-- PRIORITY_FLOW_CONTROL: the priorities that the frame enables are paused or let go. -/
def execPriorityFlowControl (enable pause : BitVec 8) (s : State) : Out :=
  .next { s with pfc := (s.pfc &&& ~~~enable) ||| (pause &&& enable) }

/-- CONGESTION_NOTIFICATION: counted on its queue pair; what it does to the sending rate is timing. -/
def execCongestionNotification (ep : Nat) (s : State) : Out :=
  .next (if s.epUp ep then s.modEndpoint ep (fun x => { x with congestion := x.congestion + 1 }) else s)

/-! ### Time (R405) -/

/-- PTP_SYNC: the receipt time is kept for the Follow_Up. -/
def execPtpSync (receipt : BitVec 62) (s : State) : Out := .next { s with ptpReceipt := receipt }

/-- PTP_FOLLOW_UP: the first sets the time, and so does a step; LOCK is 0 until the servo locks again. -/
def execPtpFollowUp (origin : BitVec 62) (stepped locked : Bool) (s : State) : Out :=
  let step := stepped || !s.ptpValid
  .next { s with ptpNs := if step then origin + s.ptpDelay + (s.ptpNs - s.ptpReceipt) else s.ptpNs, ptpValid := true,
                 ptpLock := locked && !step }

/-- PTP_DELAY_RESP: the path delay. -/
def execPtpDelayResp (delay : BitVec 62) (locked : Bool) (s : State) : Out :=
  .next { s with ptpDelay := delay, ptpLock := locked && s.ptpValid }

/-! ### Links (R504 to R506) -/

/-- The number of a link: haulage 0 to 31, crosscut 32 to 35. -/
def linkNumber : Link → Nat
  | .haulage n => n.val
  | .crosscut n => 32 + n.val

/-- LINK_FLIT_REPLAY: corrected, with cause 0x50, and counted for its lane (R442). -/
def execLinkFlitReplay (lane : LinkLane) (s : State) : Out :=
  let n := linkNumber lane.link
  let x := s.link n
  .next (if 4 ≤ lane.lane then s
  else (s.setLink n { x with replays := x.replays + 1 }).corrected (linkDie n) (.link n lane.lane) (s.die (linkDie n)).cycles { cause := 0x50, outcome := 0 })

/-- LINK_LANE_RETRAIN: the lane is dropped and the link runs on with the others. -/
def execLinkLaneRetrain (link : Link) (s : State) : Out :=
  let n := linkNumber link
  let x := s.link n
  .next (if x.up && 0 < x.lanes then (s.setLink n { x with lanes := x.lanes - 1 }).log (linkDie n) { cause := 0x51, outcome := 1 } else s)

/-- A hoist has requests, or flits of a collective that another package has not finished, under way on haulage. -/
def State.hoistFar (s : State) (x : Hoist) : Bool :=
  !x.peers.isEmpty || (x.kind == 2 && x.prg == x.total && !x.flipped && (match (s.work x.handle).coll x.id.toNat with
    | some b => !(s.farRanks b).isEmpty
    | none => false))

/-- The workings with traffic in flight on haulage (R506). -/
def State.haulUsers (s : State) : List Nat :=
  (s.works.filter (fun p => p.2.savedAt.isNone && (p.2.elems.any (fun e => (s.elem e).accs.any (fun a => !a.peers.isEmpty)) ||
    s.busyHoists.any (fun q => q.2.2.handle == p.1 && s.hoistFar q.2.2)))).map (fun p => p.1)

/-- The flits at these places of those sent go out again, in their order and with their headers (R505). -/
def State.sendAgain (s : State) (places : List Nat) : State :=
  { s with flits := s.flits ++ ((s.flits.zip (List.range s.flits.length)).filter (fun p => places.contains p.2)).map (fun p => p.1) }

/-- LINK_FAILURE: the traffic moves to another path, where another haulage port sends again what this one had not delivered; with no haulage port left the workings with traffic in flight on haulage are killed with cause
0x52 (R505, R506). An access over crosscut performs in one step, so that none is in flight; one that finds no path kills its working (log entry
71). -/
def execLinkFailure (link : Link) (unconfirmed : List Nat) (s : State) : Out :=
  let n := linkNumber link
  let s := s.setLink n { s.link n with up := false }
  .next (if 32 ≤ n then s
  else if s.hauls then s.sendAgain unconfirmed
  else s.haulUsers.foldl (fun s h => s.startKill h { cause := 0x52 } .faulted) s)

/-! ### Heat (R417 to R421, R523) -/

/-- The drift of a quad. -/
def drift (birth now : Nat) : Nat := if birth = 0 then 0 else (birth - now) * 1024 / birth

/-- Derating steps of a quad after a sample, with their records; at the last step, the record of a quad worn beyond it. -/
def State.derate (s : State) (d q dr : Nat) : Nat → State
  | 0 => s
  | f + 1 =>
    let x := s.quad (d * 48 + q)
    let limit := max x.limit.toNat 1
    if (x.derate.toNat + 1) * limit ≤ dr then
      if x.derate.toNat < 12 then
        let k := x.derate.toNat + 1
        State.derate ((s.setQuad (d * 48 + q) { x with derate := BitVec.ofNat 16 k }).log d
          { cause := 0x73, outcome := 1, quad := q, count := k, detail := dr % 2 ^ 11 + (28 - k) * 2 ^ 16 }) d q dr f
      else if x.wornOut then s
      else (s.setQuad (d * 48 + q) { x with wornOut := true }).log d { cause := 0x74, outcome := 1, quad := q }
    else s

/-- An alert of a quad: it replaces the one that is pending for the quad in its place. -/
def putAlert (l : List DWord) (q : Nat) (v : DWord) : List DWord :=
  if l.any (fun a => bits a.toNat 13 8 == q) then l.map (fun a => if bits a.toNat 13 8 = q then v else a) else l ++ [v]

/-- STEP as a sample in an assay cycle uses it: the one last written, before that cycle (R420, R422). -/
def Quad.stepAt (x : Quad) (now : Nat) : BitVec 8 :=
  match x.stepWas with
  | some (c, v) => if c = now then v else x.stepNew.getD x.step
  | none => x.stepNew.getD x.step

/-- A quad sampled: temperature, peak, wear and alert. -/
def State.sampleQuad (s : State) (d q temp osc : Nat) : State :=
  let t := min temp 1023
  let now := (s.die d).cycles
  let s := s.modQuad (d * 48 + q) (fun x => { x with
    temp := BitVec.ofNat 12 t, peak := BitVec.ofNat 12 (max x.peak.toNat t), peakSide := x.peakSide.note now x.peak.toNat t,
    wearNow := BitVec.ofNat 16 (min osc 65535) })
  let x := s.die d
  let alert := fun (kind : Nat) => s.modDie d (fun x =>
    { x with alerts := putAlert x.alerts q (BitVec.ofNat 64 (1 + kind * 2 + q * 2 ^ 8 + t * 2 ^ 16 + x.sample % 2 ^ 32 * 2 ^ 32)) })
  let s := if !x.thEn then s
    else if x.thot.toNat ≤ t then alert 0
    else if t ≤ x.tcool.toNat && (s.quad (d * 48 + q)).stepAt now ≠ 0 then alert 1
    else s
  s.derate d q (drift (Config.fuseBirth (d * 48 + q)).toNat (s.quad (d * 48 + q)).wearNow.toNat) 14

/-- THERMAL_SAMPLE: every 2^PERIOD assay cycles. -/
def execThermalSample (d : Nat) (temps osc : List Nat) (s : State) : Out :=
  let x := s.die d
  .next (if 4 ≤ d || x.cycles < x.sampledAt + 2 ^ x.thPeriod.toNat then s
  else
    let s := s.setDie d { x with sample := x.sample + 1, sampledAt := x.cycles, alertWas := some (x.cycles, x.alerts) }
    forN (fun q s => s.sampleQuad d q (temps.getD q 0) (osc.getD q 0)) 48 0 s)

/-! ### Droop (R416) -/

/-- The supply, in microvolts, is below 0.65 V less THRESH. -/
def Quad.below (x : Quad) : Bool := x.supply + 1000 * x.thresh.toNat < 650000

/-- The detector in an assay cycle of its die: below the level it trips, or begins its count again while it is tripped. -/
def Quad.detect (x : Quad) (now : Nat) : Quad :=
  if !x.below then x
  else if x.drooped then { x with above := 0 }
  else { x with drooped := true, above := 0, droopCount := BitVec.ofNat 32 (min (x.droopCount.toNat + 1) 65535),
                droopSide := x.droopSide.note now x.droopCount.toNat 1 }

/-- DROOP_TRIP: the supply takes a value, which the detector compares (log entry 78). -/
def execDroopTrip (quad supply : Nat) (s : State) : Out :=
  .next (if 192 ≤ quad then s
  else s.modQuad quad (fun x => ({ x with supply := supply } : Quad).detect (s.die (quad / 48)).cycles))

/-- DROOP_RELEASE: after 64 cycles above the level. -/
def execDroopRelease (d q : Nat) (s : State) : Out :=
  .next (if 4 ≤ d || 48 ≤ q then s
  else s.modQuad (d * 48 + q) (fun x => if x.drooped && 64 ≤ x.above then { x with drooped := false, above := 0 } else x))

/-! ### Reset and boot (R11, R406 to R409, R524 to R526) -/

/-- COLD_RESET: everything but the boot flash, the fuses and the package's number. -/
def execColdReset (s : State) : Out :=
  .next { State.reset with flash := s.flash, package := s.package, agenda := s.agenda, free := s.free }

/-- Bytes of the boot flash. -/
def State.flashBytes (s : State) (off n : Nat) : List Byte := (List.range n).map (fun i => SMap.get 0 s.flash (off + i))

/-- The header of a slot, and its body. -/
def slotOff (slot : Nat) : Nat := if slot = 0 then 0 else 0x02000000
def State.bootHeader (s : State) (slot : Nat) : List Byte := s.flashBytes (slotOff slot) 17408
def State.bootBody (s : State) (slot : Nat) : List Byte := s.flashBytes (slotOff slot + 17408) (le (s.bootHeader slot) 8 8)

/-- D of R407. -/
def State.bootDigest (s : State) (slot : Nat) : BitVec 384 := Config.sha384 ((s.bootHeader slot).take 448 ++ s.bootBody slot)

/-- What the ROM of die 0 finds of a slot, in the order of R524: 0 for nothing, else WHY of R525. -/
def State.bootWhy (s : State) (slot : Nat) : Nat :=
  let h := s.bootHeader slot
  if le h 0 4 ≠ 0x0B1A5E01 || 0x02000000 < 17408 + le h 8 8 then 1
  else if Config.sha384 (sliceB h 16 384) ≠ Config.fuseRsaDigest then 4
  else if Config.sha384 (sliceB h 400 48) ≠ Config.fuseSlhDigest then 5
  else if le h 4 4 < Config.fuseCounter.toNat then 6
  else if !Config.rsaVerify (sliceB h 16 384) (s.bootDigest slot) (sliceB h 448 384) then 2
  else if !Config.slhVerify (sliceB h 400 48) (s.bootDigest slot) (sliceB h 832 16224) then 3
  else 0

/-- The check of a slot on every die: WHY, and the die. -/
def State.bootCheck (s : State) (slot : Nat) : Nat × Nat :=
  let w := s.bootWhy slot
  if w ≠ 0 then (w, 0)
  else ((List.range 4).findSome? (fun d =>
    let v := Config.diePart d slot (s.bootBody slot) % 7
    if v ≠ 0 then some (v, d) else none)).getD (0, 0)

/-- The cause of a failed check. -/
def bootCause (why : Nat) : Nat := if why = 0 then 0 else if why = 6 then 0x81 else if why = 4 || why = 5 then 0x82 else 0x80

/-- A slot's fields of BOOTSTAT. -/
def bootField (r : Nat × Nat) : Nat := bootCause r.1 + r.1 * 2 ^ 8 + r.2 * 2 ^ 12

/-- The bytes of a digest. -/
def digestBytes (d : BitVec 384) : List Byte := toBytes 48 d.toNat

/-- A measurement register extended (R408). -/
def Die.extend (x : Die) (m : Nat) (d : BitVec 384) : Die :=
  { x with meas := SMap.mod 0 x.meas m (fun v => Config.sha384 (digestBytes v ++ digestBytes d)) }

/-- The firmware of a die extends a register from M2 on by the digest of a stage, once for each stage (R408). -/
def State.measure (s : State) (d m stage : Nat) (digest : BitVec 384) : State :=
  let x := s.die d
  if d < 4 && 2 ≤ m && m ≤ 7 && x.started && !x.stages.contains (m, stage) then
    s.setDie d { x.extend m digest with stages := (m, stage) :: x.stages }
  else s

/-- Every die starts from a slot: M0 and M1 are extended. -/
def State.startDies (s : State) (slot stat : Nat) : State :=
  let dg := s.bootDigest slot
  let f := Config.sha384 (toBytes 8 0xFF ++ toBytes 8 Config.fuseCounter.toNat)
  forN (fun d s => s.modDie d (fun x => { (x.extend 0 dg).extend 1 f with started := true, bootstat := BitVec.ofNat 64 (stat + slot * 2 ^ 32) })) 4 0 s

/-- BOOT_IMAGE_CHECK: slot 0, then slot 1; where both fail the package is in recovery mode. -/
def execBootImageCheck (s : State) : Out :=
  .next (if s.recovery || (s.die 0).started then s
  else
    let a := s.bootCheck 0
    if a.1 = 0 then s.startDies 0 0
    else
      let b := s.bootCheck 1
      if b.1 = 0 then s.startDies 1 (bootField a)
      else
        let stat := bootField a + bootField b * 2 ^ 16 + 3 * 2 ^ 32 + 2 ^ 34
        { forN (fun d s => s.modDie d (fun x => { x with bootstat := BitVec.ofNat 64 stat })) 4 0 s with recovery := true })

/-- FLASH_WRITE: in recovery mode, a 4 KiB block. -/
def execFlashWrite (off : Nat) (data : List Byte) (s : State) : Out :=
  .next (if s.recovery && off % 4096 = 0 && data.length = 4096 && off < 0x04000000 then
    { s with flash := ((List.range 4096).zip data).foldl (fun m p => SMap.set 0 m (off + p.1) p.2) s.flash }
  else s)

/-! ### Attestation (R410) -/

/-- A request to the responder with its answer: it runs once die 0's firmware has started; a request before those that it needs is an error
(log entry 14). -/
def State.spdm (s : State) (ok : Bool) (request reply : List Byte) (f : Platform → Platform) : Out :=
  let p := s.platform
  .next (if !(s.die 0).started then s
  else if ok then { s with platform := { f p with transcript := p.transcript ++ request ++ reply, answers := p.answers ++ [reply] } }
  else { s with platform := { p with answers := p.answers ++ [[0x7F, 0x04]] } })

/-- GET_VERSION: SPDM 1.3; the transcript begins anew. -/
def execGetVersion (s : State) : Out :=
  { s with platform := { s.platform with transcript := [] } }.spdm true [0x84] [0x04, 0x13] (fun p =>
    { p with spdmVersion := true, spdmCaps := false, spdmAlgs := false })

/-- GET_CAPABILITIES. -/
def execGetCapabilities (s : State) : Out := s.spdm s.platform.spdmVersion [0xE1] [0x61] (fun p => { p with spdmCaps := true })

/-- NEGOTIATE_ALGORITHMS: RSASSA-PSS 3072 and SHA-384 alone are taken. -/
def execNegotiateAlgorithms (rsaPss3072 sha384 : Bool) (s : State) : Out :=
  s.spdm (s.platform.spdmCaps && rsaPss3072 && sha384) [0xE3] [0x63] (fun p => { p with spdmAlgs := true })

/-- GET_DIGESTS: the digest of the certificate chain. -/
def execGetDigests (s : State) : Out :=
  s.spdm s.platform.spdmAlgs [0x81] (0x01 :: digestBytes (Config.sha384 Config.certificateChain)) id

/-- GET_CERTIFICATE: a part of the chain. -/
def execGetCertificate (off len : Nat) (s : State) : Out :=
  s.spdm s.platform.spdmAlgs ([0x82] ++ toBytes 2 off ++ toBytes 2 len) (0x02 :: (Config.certificateChain.drop off).take len) id

/-- CHALLENGE: the signature over the transcript. -/
def execChallenge (nonce : List Byte) (s : State) : Out :=
  s.spdm s.platform.spdmAlgs (0x83 :: nonce) (0x03 :: Config.spdmSign (s.platform.transcript ++ 0x83 :: nonce)) id

/-- A measurement block: m + 1 carries Mm of die 0, 9 to 32 those of dies 1 to 3, 0xF0 the SLH-DSA signature. -/
def State.measBlock (s : State) (n : Nat) (t : List Byte) : List Byte :=
  if 1 ≤ n && n ≤ 32 then digestBytes (SMap.get 0 (s.die ((n - 1) / 8)).meas ((n - 1) % 8))
  else if n = 0xF0 then Config.spdmSlhSign t
  else Config.spdmOtherBlock n

/-- GET_MEASUREMENTS: a block, and the signature over the transcript. -/
def execGetMeasurements (block : Nat) (nonce : List Byte) (s : State) : Out :=
  let t := s.platform.transcript ++ [0xE0, BitVec.ofNat 8 block] ++ nonce
  let b := s.measBlock block t
  s.spdm s.platform.spdmAlgs ([0xE0, BitVec.ofNat 8 block] ++ nonce) (0x60 :: b ++ Config.spdmSign t) id

/-! ### The TAP (R411) -/

/-- An instruction of the TAP. -/
def State.tap (s : State) (f : Platform → Platform) : Out := .next { s with platform := f s.platform }

/-- BYPASS: a register of one bit, which captures 0. -/
def execBypass (s : State) : Out := s.tap (fun p => { p with tapIr := .bypass, tapDr := 0, driving := false })

/-- IDCODE. -/
def execIdcode (s : State) : Out := s.tap (fun p => { p with tapIr := .idcode, tapDr := 0x100485E7, driving := false })

/-- SAMPLE/PRELOAD: the pins are captured, and the cells loaded. -/
def execSamplePreload (cells : List Bool) (s : State) : Out :=
  s.tap (fun p => { p with tapIr := .sample, pins := Config.boundaryPins p.captures, captures := p.captures + 1, boundary := cells, driving := false })

/-- EXTEST: the cells drive the pins. -/
def execExtest (s : State) : Out := s.tap (fun p => { p with tapIr := .extest, driving := true })

/-- TRST: the TAP is reset, and IDCODE is its instruction. -/
def execTrst (s : State) : Out := s.tap (fun p => { p with tapIr := .idcode, tapDr := 0x100485E7, driving := false })

end Sys2Proof.Machine
end

