-- ==== Sys2Proof/Machine/Dispatch.lean ====
section
/-! DEFINITION. The dispatch of every instruction and event to its meaning. -/

namespace Sys2Proof.Machine

open Sys2Proof

def exec (i : Instr) (s : State) : Host.Outcome State Fault Refusal :=
  match i with
  | .add w => Sys2Proof.Machine.execAdd w s
  | .sub w => Sys2Proof.Machine.execSub w s
  | .mul w => Sys2Proof.Machine.execMul w s
  | .mulh w => Sys2Proof.Machine.execMulh w s
  | .mad w => Sys2Proof.Machine.execMad w s
  | .neg w => Sys2Proof.Machine.execNeg w s
  | .abs w => Sys2Proof.Machine.execAbs w s
  | .min w => Sys2Proof.Machine.execMin w s
  | .max w => Sys2Proof.Machine.execMax w s
  | .shl w => Sys2Proof.Machine.execShl w s
  | .shr w => Sys2Proof.Machine.execShr w s
  | .sha w => Sys2Proof.Machine.execSha w s
  | .rol w => Sys2Proof.Machine.execRol w s
  | .clz w => Sys2Proof.Machine.execClz w s
  | .popc w => Sys2Proof.Machine.execPopc w s
  | .and w => Sys2Proof.Machine.execAnd w s
  | .or w => Sys2Proof.Machine.execOr w s
  | .xor w => Sys2Proof.Machine.execXor w s
  | .not w => Sys2Proof.Machine.execNot w s
  | .andn w => Sys2Proof.Machine.execAndn w s
  | .sel w => Sys2Proof.Machine.execSel w s
  | .cmpeq w => Sys2Proof.Machine.execCmpeq w s
  | .cmpne w => Sys2Proof.Machine.execCmpne w s
  | .cmplt w => Sys2Proof.Machine.execCmplt w s
  | .cmple w => Sys2Proof.Machine.execCmple w s
  | .addSat w => Sys2Proof.Machine.execAddSat w s
  | .subSat w => Sys2Proof.Machine.execSubSat w s
  | .mulSat w => Sys2Proof.Machine.execMulSat w s
  | .madSat w => Sys2Proof.Machine.execMadSat w s
  | .negSat w => Sys2Proof.Machine.execNegSat w s
  | .absSat w => Sys2Proof.Machine.execAbsSat w s
  | .shlSat w => Sys2Proof.Machine.execShlSat w s
  | .fadd w => Sys2Proof.Machine.execFadd w s
  | .fsub w => Sys2Proof.Machine.execFsub w s
  | .fmul w => Sys2Proof.Machine.execFmul w s
  | .ffma w => Sys2Proof.Machine.execFfma w s
  | .fmin w => Sys2Proof.Machine.execFmin w s
  | .fmax w => Sys2Proof.Machine.execFmax w s
  | .fabs w => Sys2Proof.Machine.execFabs w s
  | .fneg w => Sys2Proof.Machine.execFneg w s
  | .fcmpeq w => Sys2Proof.Machine.execFcmpeq w s
  | .fcmplt w => Sys2Proof.Machine.execFcmplt w s
  | .fcmple w => Sys2Proof.Machine.execFcmple w s
  | .fcmpun w => Sys2Proof.Machine.execFcmpun w s
  | .cvt w => Sys2Proof.Machine.execCvt w s
  | .cvtRz w => Sys2Proof.Machine.execCvtRz w s
  | .cvtRs w => Sys2Proof.Machine.execCvtRs w s
  | .rcp w => Sys2Proof.Machine.execRcp w s
  | .rsq w => Sys2Proof.Machine.execRsq w s
  | .exp2 w => Sys2Proof.Machine.execExp2 w s
  | .log2 w => Sys2Proof.Machine.execLog2 w s
  | .shuf w => Sys2Proof.Machine.execShuf w s
  | .bcast w => Sys2Proof.Machine.execBcast w s
  | .lrot w => Sys2Proof.Machine.execLrot w s
  | .lradd w => Sys2Proof.Machine.execLradd w s
  | .lrmin w => Sys2Proof.Machine.execLrmin w s
  | .lrmax w => Sys2Proof.Machine.execLrmax w s
  | .lrfadd w => Sys2Proof.Machine.execLrfadd w s
  | .lrfmin w => Sys2Proof.Machine.execLrfmin w s
  | .lrfmax w => Sys2Proof.Machine.execLrfmax w s
  | .lpadd w => Sys2Proof.Machine.execLpadd w s
  | .lpfadd w => Sys2Proof.Machine.execLpfadd w s
  | .mov w => Sys2Proof.Machine.execMov w s
  | .pass w => Sys2Proof.Machine.execPass w s
  | .drop w => Sys2Proof.Machine.execDrop w s
  | .steer w => Sys2Proof.Machine.execSteer w s
  | .mergeOrd w => Sys2Proof.Machine.execMergeOrd w s
  | .mergeAny w => Sys2Proof.Machine.execMergeAny w s
  | .filt w => Sys2Proof.Machine.execFilt w s
  | .pack w => Sys2Proof.Machine.execPack w s
  | .tag w => Sys2Proof.Machine.execTag w s
  | .tagDyn w => Sys2Proof.Machine.execTagDyn w s
  | .vmskGet w => Sys2Proof.Machine.execVmskGet w s
  | .vmskAnd w => Sys2Proof.Machine.execVmskAnd w s
  | .vmskSet w => Sys2Proof.Machine.execVmskSet w s
  | .bfwd w => Sys2Proof.Machine.execBfwd w s
  | .pand w => Sys2Proof.Machine.execPand w s
  | .por w => Sys2Proof.Machine.execPor w s
  | .pxor w => Sys2Proof.Machine.execPxor w s
  | .pnot w => Sys2Proof.Machine.execPnot w s
  | .taga w => Sys2Proof.Machine.execTaga w s
  | .tagf w => Sys2Proof.Machine.execTagf w s
  | .tagx w => Sys2Proof.Machine.execTagx w s
  | .tagxGet w => Sys2Proof.Machine.execTagxGet w s
  | .chstart w => Sys2Proof.Machine.execChstart w s
  | .chstep w => Sys2Proof.Machine.execChstep w s
  | .chcount w => Sys2Proof.Machine.execChcount w s
  | .chcountEnd w => Sys2Proof.Machine.execChcountEnd w s
  | .chnext w => Sys2Proof.Machine.execChnext w s
  | .chnextV w => Sys2Proof.Machine.execChnextV w s
  | .spawn w => Sys2Proof.Machine.execSpawn w s
  | .join w => Sys2Proof.Machine.execJoin w s
  | .fenceElement w => Sys2Proof.Machine.execFenceElement w s
  | .etrap w => Sys2Proof.Machine.execEtrap w s
  | .rdsysClock w => Sys2Proof.Machine.execRdsysClock w s
  | .rdsysPlace w => Sys2Proof.Machine.execRdsysPlace w s
  | .rdsysPoison w => Sys2Proof.Machine.execRdsysPoison w s
  | .rdsysChains w => Sys2Proof.Machine.execRdsysChains w s
  | .nop w => Sys2Proof.Machine.execNop w s
  | .sld w => Sys2Proof.Machine.execSld w s
  | .sst w => Sys2Proof.Machine.execSst w s
  | .swatch w => Sys2Proof.Machine.execSwatch w s
  | .spbeg w => Sys2Proof.Machine.execSpbeg w s
  | .spcom w => Sys2Proof.Machine.execSpcom w s
  | .spdis w => Sys2Proof.Machine.execSpdis w s
  | .ld w => Sys2Proof.Machine.execLd w s
  | .st w => Sys2Proof.Machine.execSt w s
  | .gathr w => Sys2Proof.Machine.execGathr w s
  | .scatr w => Sys2Proof.Machine.execScatr w s
  | .amo w => Sys2Proof.Machine.execAmo w s
  | .amoOrd w => Sys2Proof.Machine.execAmoOrd w s
  | .red w => Sys2Proof.Machine.execRed w s
  | .redOrd w => Sys2Proof.Machine.execRedOrd w s
  | .xlat w => Sys2Proof.Machine.execXlat w s
  | .tramChase w => Sys2Proof.Machine.execTramChase w s
  | .tramWalk w => Sys2Proof.Machine.execTramWalk w s
  | .hcopye w => Sys2Proof.Machine.execHcopye w s
  | .oclm w => Sys2Proof.Machine.execOclm w s
  | .orls w => Sys2Proof.Machine.execOrls w s
  | .tload w => Sys2Proof.Machine.execTload w s
  | .tmul w => Sys2Proof.Machine.execTmul w s
  | .tout w => Sys2Proof.Machine.execTout w s
  | .tzero w => Sys2Proof.Machine.execTzero w s
  | .foremanAdd rd ra rb => Sys2Proof.Machine.execForemanAdd rd ra rb s
  | .foremanSub rd ra rb => Sys2Proof.Machine.execForemanSub rd ra rb s
  | .foremanAnd rd ra rb => Sys2Proof.Machine.execForemanAnd rd ra rb s
  | .foremanOr rd ra rb => Sys2Proof.Machine.execForemanOr rd ra rb s
  | .foremanXor rd ra rb => Sys2Proof.Machine.execForemanXor rd ra rb s
  | .foremanAndn rd ra rb => Sys2Proof.Machine.execForemanAndn rd ra rb s
  | .foremanShl rd ra rb => Sys2Proof.Machine.execForemanShl rd ra rb s
  | .foremanShr rd ra rb => Sys2Proof.Machine.execForemanShr rd ra rb s
  | .foremanSha rd ra rb => Sys2Proof.Machine.execForemanSha rd ra rb s
  | .foremanMul rd ra rb => Sys2Proof.Machine.execForemanMul rd ra rb s
  | .foremanMulh rd ra rb => Sys2Proof.Machine.execForemanMulh rd ra rb s
  | .foremanMulhu rd ra rb => Sys2Proof.Machine.execForemanMulhu rd ra rb s
  | .foremanDiv rd ra rb => Sys2Proof.Machine.execForemanDiv rd ra rb s
  | .foremanDivu rd ra rb => Sys2Proof.Machine.execForemanDivu rd ra rb s
  | .foremanRem rd ra rb => Sys2Proof.Machine.execForemanRem rd ra rb s
  | .foremanRemu rd ra rb => Sys2Proof.Machine.execForemanRemu rd ra rb s
  | .foremanMin rd ra rb => Sys2Proof.Machine.execForemanMin rd ra rb s
  | .foremanMax rd ra rb => Sys2Proof.Machine.execForemanMax rd ra rb s
  | .foremanMinu rd ra rb => Sys2Proof.Machine.execForemanMinu rd ra rb s
  | .foremanMaxu rd ra rb => Sys2Proof.Machine.execForemanMaxu rd ra rb s
  | .foremanClz rd ra => Sys2Proof.Machine.execForemanClz rd ra s
  | .foremanPopc rd ra => Sys2Proof.Machine.execForemanPopc rd ra s
  | .addi rd ra imm => Sys2Proof.Machine.execAddi rd ra imm s
  | .andi rd ra imm => Sys2Proof.Machine.execAndi rd ra imm s
  | .ori rd ra imm => Sys2Proof.Machine.execOri rd ra imm s
  | .xori rd ra imm => Sys2Proof.Machine.execXori rd ra imm s
  | .shli rd ra sh => Sys2Proof.Machine.execShli rd ra sh s
  | .shri rd ra sh => Sys2Proof.Machine.execShri rd ra sh s
  | .shai rd ra sh => Sys2Proof.Machine.execShai rd ra sh s
  | .li rd imm => Sys2Proof.Machine.execLi rd imm s
  | .addl rd ra imm => Sys2Proof.Machine.execAddl rd ra imm s
  | .cmp ra rb => Sys2Proof.Machine.execCmp ra rb s
  | .cmpi ra imm => Sys2Proof.Machine.execCmpi ra imm s
  | .ldN8 rd ra imm => Sys2Proof.Machine.execLdN8 rd ra imm s
  | .ldS8 rd ra imm => Sys2Proof.Machine.execLdS8 rd ra imm s
  | .ldN16 rd ra imm => Sys2Proof.Machine.execLdN16 rd ra imm s
  | .ldS16 rd ra imm => Sys2Proof.Machine.execLdS16 rd ra imm s
  | .ldN32 rd ra imm => Sys2Proof.Machine.execLdN32 rd ra imm s
  | .ldS32 rd ra imm => Sys2Proof.Machine.execLdS32 rd ra imm s
  | .ldB64 rd ra imm => Sys2Proof.Machine.execLdB64 rd ra imm s
  | .stB8 rd ra imm => Sys2Proof.Machine.execStB8 rd ra imm s
  | .stB16 rd ra imm => Sys2Proof.Machine.execStB16 rd ra imm s
  | .stB32 rd ra imm => Sys2Proof.Machine.execStB32 rd ra imm s
  | .stB64 rd ra imm => Sys2Proof.Machine.execStB64 rd ra imm s
  | .foremanAmoAdd rd ra rb ord sc => Sys2Proof.Machine.execForemanAmoAdd rd ra rb ord sc s
  | .foremanAmoAnd rd ra rb ord sc => Sys2Proof.Machine.execForemanAmoAnd rd ra rb ord sc s
  | .foremanAmoOr rd ra rb ord sc => Sys2Proof.Machine.execForemanAmoOr rd ra rb ord sc s
  | .foremanAmoXor rd ra rb ord sc => Sys2Proof.Machine.execForemanAmoXor rd ra rb ord sc s
  | .foremanAmoMins rd ra rb ord sc => Sys2Proof.Machine.execForemanAmoMins rd ra rb ord sc s
  | .foremanAmoMaxs rd ra rb ord sc => Sys2Proof.Machine.execForemanAmoMaxs rd ra rb ord sc s
  | .foremanAmoMinu rd ra rb ord sc => Sys2Proof.Machine.execForemanAmoMinu rd ra rb ord sc s
  | .foremanAmoMaxu rd ra rb ord sc => Sys2Proof.Machine.execForemanAmoMaxu rd ra rb ord sc s
  | .foremanAmoFadd rd ra rb ord sc => Sys2Proof.Machine.execForemanAmoFadd rd ra rb ord sc s
  | .foremanAmoFmin rd ra rb ord sc => Sys2Proof.Machine.execForemanAmoFmin rd ra rb ord sc s
  | .foremanAmoFmax rd ra rb ord sc => Sys2Proof.Machine.execForemanAmoFmax rd ra rb ord sc s
  | .foremanAmoXchg rd ra rb ord sc => Sys2Proof.Machine.execForemanAmoXchg rd ra rb ord sc s
  | .foremanAmoCas rd ra rb ord sc => Sys2Proof.Machine.execForemanAmoCas rd ra rb ord sc s
  | .fenceFull sc => Sys2Proof.Machine.execFenceFull sc s
  | .fenceAcq sc => Sys2Proof.Machine.execFenceAcq sc s
  | .fenceRel sc => Sys2Proof.Machine.execFenceRel sc s
  | .waita rd ra rb sc => Sys2Proof.Machine.execWaita rd ra rb sc s
  | .bc cond off => Sys2Proof.Machine.execBc cond off s
  | .bl off => Sys2Proof.Machine.execBl off s
  | .jr rd ra label => Sys2Proof.Machine.execJr rd ra label s
  | .entry label => Sys2Proof.Machine.execEntry label s
  | .rbacq mask => Sys2Proof.Machine.execRbacq mask s
  | .rbacqTry mask => Sys2Proof.Machine.execRbacqTry mask s
  | .rbrel mask => Sys2Proof.Machine.execRbrel mask s
  | .sysr rd ra num => Sys2Proof.Machine.execSysr rd ra num s
  | .sysw rd ra num => Sys2Proof.Machine.execSysw rd ra num s
  | .trap code => Sys2Proof.Machine.execTrap code s
  | .trapSyscall code => Sys2Proof.Machine.execTrapSyscall code s
  | .eret => Sys2Proof.Machine.execEret s
  | .wfi rd mask => Sys2Proof.Machine.execWfi rd mask s
  | .wload rd ra rb => Sys2Proof.Machine.execWload rd ra rb s
  | .wgoStart ra => Sys2Proof.Machine.execWgoStart ra s
  | .wgoResume ra => Sys2Proof.Machine.execWgoResume ra s
  | .wphase ra => Sys2Proof.Machine.execWphase ra s
  | .wstopEnd => Sys2Proof.Machine.execWstopEnd s
  | .wstopPause => Sys2Proof.Machine.execWstopPause s
  | .wsave rd ra => Sys2Proof.Machine.execWsave rd ra s
  | .wrest rd ra => Sys2Proof.Machine.execWrest rd ra s
  | .wqueryWstat rd => Sys2Proof.Machine.execWqueryWstat rd s
  | .wqueryPhases rd => Sys2Proof.Machine.execWqueryPhases rd s
  | .wquerySaveSize rd => Sys2Proof.Machine.execWquerySaveSize rd s
  | .rdsReportHead rd ra => Sys2Proof.Machine.execRdsReportHead rd ra s
  | .rdsReportPop rd => Sys2Proof.Machine.execRdsReportPop rd s
  | .rdsOperandStatus rd ra rb => Sys2Proof.Machine.execRdsOperandStatus rd ra rb s
  | .rdsAccumulatorStatus rd ra rb => Sys2Proof.Machine.execRdsAccumulatorStatus rd ra rb s
  | .rdsSyncCounter rd ra => Sys2Proof.Machine.execRdsSyncCounter rd ra s
  | .rdsPoisonRecord rd => Sys2Proof.Machine.execRdsPoisonRecord rd s
  | .rdsElementState rd ra rb => Sys2Proof.Machine.execRdsElementState rd ra rb s
  | .tqpush ra => Sys2Proof.Machine.execTqpush ra s
  | .tqpushTry ra => Sys2Proof.Machine.execTqpushTry ra s
  | .tqpop rd ra => Sys2Proof.Machine.execTqpop rd ra s
  | .hcopy rd ra => Sys2Proof.Machine.execHcopy rd ra s
  | .hcopyTry rd ra => Sys2Proof.Machine.execHcopyTry rd ra s
  | .hqueryHstat0 rd ra => Sys2Proof.Machine.execHqueryHstat0 rd ra s
  | .hqueryHstat1 rd ra => Sys2Proof.Machine.execHqueryHstat1 rd ra s
  | .publish ra sc => Sys2Proof.Machine.execPublish ra sc s
  | .rvbeg rd => Sys2Proof.Machine.execRvbeg rd s
  | .rvkeep ra => Sys2Proof.Machine.execRvkeep ra s
  | .rvend ra => Sys2Proof.Machine.execRvend ra s
  | .invr rd ra rb all sc => Sys2Proof.Machine.execInvr rd ra rb all sc s
  | .barw rd ra rb sc => Sys2Proof.Machine.execBarw rd ra rb sc s
  | .semaP rd ra sc => Sys2Proof.Machine.execSemaP rd ra sc s
  | .semaTry rd ra sc => Sys2Proof.Machine.execSemaTry rd ra sc s
  | .semaV rd ra rb sc => Sys2Proof.Machine.execSemaV rd ra rb sc s
  | .semaSet rd ra rb sc => Sys2Proof.Machine.execSemaSet rd ra rb sc s
  | .illegalInstruction w => Sys2Proof.Machine.execIllegalInstruction w s
  | .waitaWake t => Sys2Proof.Machine.execWaitaWake t s
  | .wfiWake t => Sys2Proof.Machine.execWfiWake t s
  | .barwRelease t => Sys2Proof.Machine.execBarwRelease t s
  | .semaPGrant t => Sys2Proof.Machine.execSemaPGrant t s
  | .rbacqGrant t => Sys2Proof.Machine.execRbacqGrant t s
  | .rbacqStallTimeout t => Sys2Proof.Machine.execRbacqStallTimeout t s
  | .syscallReturn t g4 g5 g6 g7 => Sys2Proof.Machine.execSyscallReturn t g4 g5 g6 g7 s
  | .workingStopComplete h => Sys2Proof.Machine.execWorkingStopComplete h s
  | .rvendComplete t => Sys2Proof.Machine.execRvendComplete t s
  | .invrAcknowledge t => Sys2Proof.Machine.execInvrAcknowledge t s
  | .trapTake t => Sys2Proof.Machine.execTrapTake t s
  | .phaseStart h => Sys2Proof.Machine.execPhaseStart h s
  | .phaseEnd h => Sys2Proof.Machine.execPhaseEnd h s
  | .accessPerform e seq => Sys2Proof.Machine.execAccessPerform e seq s
  | .pendingReplyLeave e seq => Sys2Proof.Machine.execPendingReplyLeave e seq s
  | .waveEnterOrder e seq => Sys2Proof.Machine.execWaveEnterOrder e seq s
  | .swatchTrigger e seq => Sys2Proof.Machine.execSwatchTrigger e seq s
  | .errorWindowExpire src => Sys2Proof.Machine.execErrorWindowExpire src s
  | .stampAtomicPerform e seq lane => Sys2Proof.Machine.execStampAtomicPerform e seq lane s
  | .tramChaseHop e => Sys2Proof.Machine.execTramChaseHop e s
  | .tramWalkDeliver e => Sys2Proof.Machine.execTramWalkDeliver e s
  | .gatherScatterLane e => Sys2Proof.Machine.execGatherScatterLane e s
  | .tloadRowFill e => Sys2Proof.Machine.execTloadRowFill e s
  | .islandStep isl => Sys2Proof.Machine.execIslandStep isl s
  | .toutRowWrite e => Sys2Proof.Machine.execToutRowWrite e s
  | .hoistAccept req => Sys2Proof.Machine.execHoistAccept req s
  | .hoistUnit d n => Sys2Proof.Machine.execHoistUnit d n s
  | .sluiceBlock d n => Sys2Proof.Machine.execSluiceBlock d n s
  | .streamRecordMove d n => Sys2Proof.Machine.execStreamRecordMove d n s
  | .hoistCompletionWord d n => Sys2Proof.Machine.execHoistCompletionWord d n s
  | .collectiveComplete h ident peers far => Sys2Proof.Machine.execCollectiveComplete h ident peers far s
  | .collectiveAbortReceive f => Sys2Proof.Machine.execCollectiveAbortReceive f s
  | .peerRequestArrival f => Sys2Proof.Machine.execPeerRequestArrival f s
  | .translationWalk e seq => Sys2Proof.Machine.execTranslationWalk e seq s
  | .errorConsumed c it => Sys2Proof.Machine.execErrorConsumed c it s
  | .elementReplay e good => Sys2Proof.Machine.execElementReplay e good s
  | .spareSubstitution e => Sys2Proof.Machine.execSpareSubstitution e s
  | .regionRollback h shadow => Sys2Proof.Machine.execRegionRollback h shadow s
  | .workingFreeze h => Sys2Proof.Machine.execWorkingFreeze h s
  | .workingKill h => Sys2Proof.Machine.execWorkingKill h s
  | .workingEnd h => Sys2Proof.Machine.execWorkingEnd h s
  | .checkweigherConfirm d row v => Sys2Proof.Machine.execCheckweigherConfirm d row v s
  | .checkweigherWatchEnd d row => Sys2Proof.Machine.execCheckweigherWatchEnd d row s
  | .canaryStall h => Sys2Proof.Machine.execCanaryStall h s
  | .counterSweep d q => Sys2Proof.Machine.execCounterSweep d q s
  | .scrub addr fix => Sys2Proof.Machine.execScrub addr fix s
  | .doorbellWrite ep value => Sys2Proof.Machine.execDoorbellWrite ep value s
  | .recordFetch ep => Sys2Proof.Machine.execRecordFetch ep s
  | .launch ep => Sys2Proof.Machine.execLaunch ep s
  | .preempt ep => Sys2Proof.Machine.execPreempt ep s
  | .restore ep => Sys2Proof.Machine.execRestore ep s
  | .kill ep => Sys2Proof.Machine.execKill ep s
  | .message ep => Sys2Proof.Machine.execMessage ep s
  | .query ep => Sys2Proof.Machine.execQuery ep s
  | .admissionRound => Sys2Proof.Machine.execAdmissionRound s
  | .loadImage job check => Sys2Proof.Machine.execLoadImage job check s
  | .move h row col => Sys2Proof.Machine.execMove h row col s
  | .rdmaRead packet region va len => Sys2Proof.Machine.execRdmaRead packet region va len s
  | .rdmaWrite packet region va data => Sys2Proof.Machine.execRdmaWrite packet region va data s
  | .priorityFlowControl enable pause => Sys2Proof.Machine.execPriorityFlowControl enable pause s
  | .ptpSync receipt => Sys2Proof.Machine.execPtpSync receipt s
  | .linkFlitReplay lane => Sys2Proof.Machine.execLinkFlitReplay lane s
  | .linkLaneRetrain link => Sys2Proof.Machine.execLinkLaneRetrain link s
  | .linkFailure link unconfirmed => Sys2Proof.Machine.execLinkFailure link unconfirmed s
  | .thermalSample d temps osc => Sys2Proof.Machine.execThermalSample d temps osc s
  | .droopTrip quad supply => Sys2Proof.Machine.execDroopTrip quad supply s
  | .droopRelease d q => Sys2Proof.Machine.execDroopRelease d q s
  | .alert d => Sys2Proof.Machine.execAlert d s
  | .throttle d q value => Sys2Proof.Machine.execThrottle d q value s
  | .qclk d q value => Sys2Proof.Machine.execQclk d q value s
  | .errring d value => Sys2Proof.Machine.execErrring d value s
  | .errptr d value => Sys2Proof.Machine.execErrptr d value s
  | .wkill d value => Sys2Proof.Machine.execWkill d value s
  | .wkillComplete d => Sys2Proof.Machine.execWkillComplete d s
  | .macedit t value => Sys2Proof.Machine.execMacedit t value s
  | .poisrec t value => Sys2Proof.Machine.execPoisrec t value s
  | .readClear t num index => Sys2Proof.Machine.execReadClear t num index s
  | .registerWrite t num index value => Sys2Proof.Machine.execRegisterWrite t num index value s
  | .coldReset => Sys2Proof.Machine.execColdReset s
  | .bootImageCheck => Sys2Proof.Machine.execBootImageCheck s
  | .flashWrite off data => Sys2Proof.Machine.execFlashWrite off data s
  | .mctpRegisterRead d num index => Sys2Proof.Machine.execMctpRegisterRead d num index s
  | .getVersion => Sys2Proof.Machine.execGetVersion s
  | .getCapabilities => Sys2Proof.Machine.execGetCapabilities s
  | .negotiateAlgorithms rsaPss3072 sha384 => Sys2Proof.Machine.execNegotiateAlgorithms rsaPss3072 sha384 s
  | .getDigests => Sys2Proof.Machine.execGetDigests s
  | .getCertificate off len => Sys2Proof.Machine.execGetCertificate off len s
  | .challenge nonce => Sys2Proof.Machine.execChallenge nonce s
  | .getMeasurements block nonce => Sys2Proof.Machine.execGetMeasurements block nonce s
  | .bypass => Sys2Proof.Machine.execBypass s
  | .idcode => Sys2Proof.Machine.execIdcode s
  | .samplePreload cells => Sys2Proof.Machine.execSamplePreload cells s
  | .extest => Sys2Proof.Machine.execExtest s
  | .trst => Sys2Proof.Machine.execTrst s
  | .tokenArrival e path => Sys2Proof.Machine.execTokenArrival e path s
  | .creditReturn e path => Sys2Proof.Machine.execCreditReturn e path s
  | .queuePairSetup ep => Sys2Proof.Machine.execQueuePairSetup ep s
  | .peerReplyArrival f => Sys2Proof.Machine.execPeerReplyArrival f s
  | .ptpFollowUp origin stepped locked => Sys2Proof.Machine.execPtpFollowUp origin stepped locked s
  | .ptpDelayResp delay locked => Sys2Proof.Machine.execPtpDelayResp delay locked s
  | .congestionNotification ep => Sys2Proof.Machine.execCongestionNotification ep s

end Sys2Proof.Machine
end

