-- ==== Sys2Proof/Machine/Ready.lean ====
section
/-! DEFINITION. What fires in a cycle (R61 to R72): the readiness of a slot, the selection order, the second firing, and the rule between two
port elements that would take one slot (R265). -/

namespace Sys2Proof.Machine

open Sys2Proof

/-- The instruction in a slot of a record; none for an empty slot. -/
def ElemCfg.instr (c : ElemCfg) (n : Nat) : Option Instr := (decodeElement (SMap.get 0 c.slots n).toNat).toOption

/-- An instruction's slot is ready: R61 with what the instruction itself waits for. -/
def State.instrReady (s : State) (e : Nat) (i : Instr) : Bool :=
  match i with
  | .steer w => s.readySteer e w
  | .mergeOrd w => s.readyMergeOrd e w
  | .mergeAny w => s.readyMergeAny e w
  | .bfwd w => s.readyBfwd e w
  | .taga w => s.readyTaga e w
  | .spawn w => s.readySpawn e w
  | .join w => s.readyJoin e w
  | .fenceElement w => s.readyFence e w
  | .sld w => s.readyMem e w false false
  | .sst w => s.readyMem e w false true
  | .swatch w => s.readySwatch e w
  | .spbeg w => s.readySpbeg e w
  | .spcom w => s.readySpcom e w
  | .spdis w => s.readySpdis e w
  | .ld w => s.readyWave e 0xC0 w false
  | .st w => s.readyWave e 0xC1 w true
  | .gathr w => s.readyMem e w true false
  | .scatr w => s.readyMem e w true true
  | .amo w => s.readyMem e w false true
  | .amoOrd w => s.readyMem e w false true
  | .red w => s.readyMem e w false true
  | .redOrd w => s.readyMem e w false true
  | .xlat w => s.readyMem e w false false
  | .tramChase w => s.readyMem e w true false
  | .tramWalk w => s.readyMem e w true false
  | .hcopye w => s.readyMem e w true false
  | .oclm w => s.readyOclm e w
  | .orls w => s.readyOrls e w
  | .tload w => s.readyTload e w
  | .tmul w => s.readyTmul e w
  | .tout w => s.readyTout e w
  | .tzero w => s.readyTzero e w
  | i => match elemCode i with
    | some (_, w) => s.ready e w
    | none => false

/-- A slot of the active context is ready. -/
def State.slotReady (s : State) (e n : Nat) : Bool :=
  match (s.curCfg e).instr n with
  | some i => s.instrReady e i
  | none => false

/-- The selection order of R65 from a pointer. -/
def selection (g rr : Nat) : List Nat :=
  let start := if rr < g then rr else 0
  (List.range g).map (fun k => (start + k) % g) ++ ((List.range 16).filter (fun n => g ≤ n))

/-- The first ready slot. -/
def State.firstSlot (s : State) (e : Nat) : Option Nat :=
  (selection (groupSize (s.curCfg e)) (s.elem e).rr).find? (s.slotReady e)

/-- The island slot that an instruction would take: its number, and true for an accumulator slot. -/
def State.takes (s : State) (e : Nat) (i : Instr) : Option (Nat × Bool) :=
  match i with
  | .oclm w => match s.oclmFinds e w with
    | .fresh n => some (n, w.ty != .c12)
    | _ => none
  | .orls w => (s.orlsSlot e w).map (fun n => (n, w.ty != .c12))
  | .tload w => (s.tloadSlot e w).map (fun n => (n, false))
  | .tmul w => (s.tmulSlots e w).map (fun p => (p.2.2, true))
  | .tout w => (s.toutSlot e w).map (fun n => (n, true))
  | .tzero w => (s.tzeroSlot e w).map (fun n => (n, true))
  | _ => none

/-- An element has fired in the present cycle of its quad. -/
def State.firedNow (s : State) (e : Nat) : Bool :=
  (s.elem e).cyc == (s.quad (quadOf e)).cyc && (s.elem e).first.isSome

/-- The bit of the conflict matrix for two slots (R70). -/
def compatible (c : ElemCfg) (a b : Nat) : Bool :=
  let lo := min a b
  let hi := max a b
  a != b && c.conflict.getLsbD (lo * (31 - lo) / 2 + (hi - lo - 1))

/-- X and the class of an instruction. -/
def Instr.exclusive (i : Instr) : Bool :=
  match elemCode i with
  | some (_, w) => w.x
  | none => false
def Instr.light (i : Instr) : Bool :=
  match elemCode i with
  | some (op, _) => opLight op
  | none => false

/-- The slot that fires second after slot f (R68). -/
def State.secondSlot (s : State) (e f : Nat) : Option Nat :=
  let c := s.curCfg e
  let order := selection (groupSize c) (s.elem e).rr0
  match c.instr f with
  | none => none
  | some i =>
    if Instr.exclusive i then none
    else ((order.dropWhile (fun n => n != f)).drop 1).find? (fun n =>
      match c.instr n with
      | some j => s.slotReady e n && compatible c f n && (Instr.light i || Instr.light j) && !Instr.exclusive j
      | none => false)

/-! ### Two port elements and one island slot (R265) -/

/-- The slots of a tile's island that firings of the present cycle have taken. -/
def State.takenNow (s : State) (t : Nat) : List (Nat × (Nat × Bool)) :=
  let x := s.island t
  if x.takenAt = (s.quad (quadOfTile t)).cyc then x.taken else []

/-- The instruction that an element would fire next in the present cycle: its first, or its second. -/
def State.nextInstr (s : State) (f : Nat) : Option Instr :=
  let x := s.elem f
  (if !s.firedNow f then s.firstSlot f else if x.second then none else x.first.bind (s.secondSlot f)).bind (s.curCfg f).instr

/-- Another element has taken the slot in this cycle, or one of lower identifier would take it. -/
def State.yields (s : State) (e : Nat) (i : Instr) : Bool :=
  match s.takes e i with
  | none => false
  | some k => (s.takenNow (tileOf e)).any (fun p => p.1 != e && p.2 == k) ||
    (portElems (tileOf e)).any (fun f => decide (f < e) && (match s.nextInstr f with
      | some j => s.takes f j == some k
      | none => false))

/-- The slot that a firing takes, noted for its cycle. -/
def State.noteTake (s : State) (e : Nat) (i : Instr) : State :=
  match s.takes e i with
  | none => s
  | some k =>
    let t := tileOf e
    s.setIsland t { s.island t with takenAt := (s.quad (quadOfTile t)).cyc, taken := s.takenNow t ++ [(e, k)] }

end Sys2Proof.Machine
end

