-- ==== Sys2Proof/Machine/Settle.lean ====
section
/-! DEFINITION. The internal events that the machine's own schedule lets happen in a cycle (log entry 1): each is tried where the state has
something for it, and one that is not enabled changes nothing. Events whose data come from outside (messages, samples, errors, verdicts
other than agreement, the bytes of a shadow that a rollback leaves unspecified) stand on the agenda alone. -/

namespace Sys2Proof.Machine

open Sys2Proof

/-- The state after an event's meaning. -/
def State.after (s : State) (f : State → Out) : State :=
  match f s with
  | .next s' => s'
  | .fault _ => s
  | .refused _ => s

/-- A meaning for each number of a list. -/
def State.afterEach (s : State) (l : List Nat) (f : Nat → State → Out) : State := l.foldl (fun s n => s.after (f n)) s

/-- The accesses and macros of an element move on. -/
def State.settleElem (s : State) (e : Nat) : State :=
  let seqs := fun (s : State) => (s.elem e).accs.map (fun a => a.seq)
  let s := s.afterEach ((s.elem e).wbuf.map (fun a => a.seq)) (execWaveEnterOrder e)
  let s := s.afterEach (seqs s) (execTranslationWalk e)
  let s := s.afterEach (seqs s) (execAccessPerform e)
  let s := (seqs s).foldl (fun s q => s.afterEach (List.range 8) (fun l => execStampAtomicPerform e q l)) s
  let s := ((((((s.after (execGatherScatterLane e)).after (execTramChaseHop e)).after (execTramWalkDeliver e)).after
    (execTloadRowFill e)).after (execToutRowWrite e)).after (execHoistAccept (.elem e))).after (execSpareSubstitution e)
  let s := s.afterEach (seqs s) (execPendingReplyLeave e)
  s.afterEach ((s.elem e).watches.map (fun a => a.seq)) (execSwatchTrigger e)

/-- The hoists of a die move on. -/
def State.settleHoist (s : State) (d n : Nat) : State :=
  (((s.after (execHoistUnit d n)).after (execSluiceBlock d n)).after (execStreamRecordMove d n)).after (execHoistCompletionWord d n)

/-- What a thread waits for comes. -/
def State.settleThread (s : State) (t : Nat) : State :=
  let s := s.after (execTrapTake t)
  match (s.thread t).wait with
  | .waita _ _ _ => s.after (execWaitaWake t)
  | .wfi _ _ => s.after (execWfiWake t)
  | .barw _ _ _ => s.after (execBarwRelease t)
  | .semaP _ _ => s.after (execSemaPGrant t)
  | .rbacq _ => (s.after (execRbacqGrant t)).after (execRbacqStallTimeout t)
  | .hcopy _ _ => s.after (execHoistAccept (.thread t))
  | .rvend _ => s.after (execRvendComplete t)
  | .invr _ _ _ _ _ => s.after (execInvrAcknowledge t)
  | _ => s

/-- A region of a working keeps a layout entry, whose shadow a rollback leaves unspecified. -/
def Working.keepsShadow (w : Working) : Bool := w.regions.any (fun g => !(flipEntries w g).isEmpty)

/-- A load that meets no bad sector goes on; what a second read of one comes to, the agenda says (log entry 1). -/
def State.settleLoad (s : State) (h : Nat) : State :=
  let t := s.after (execLoadImage h (.sectors true))
  if t.badSec == s.badSec then t else s

/-- The life of a working moves on. -/
def State.settleWorking (s : State) (h : Nat) : State :=
  let s := ((((s.after (execWorkingFreeze h)).after (execWorkingKill h)).after (execWorkingEnd h)).after (execCanaryStall h)).after
    (execWorkingStopComplete h)
  let s := if (s.work h).keepsShadow then s else s.after (execRegionRollback h [])
  let s := (s.work h).colls.foldl (fun s c => s.after (execCollectiveComplete h c.id
    ((s.works.filter (fun p => p.1 != h && p.2.colls.any (fun k => k.id == c.id))).map (fun p => p.1)) {})) s
  ((s.after (execPhaseEnd h)).after (execPhaseStart h)).settleLoad h

/-- The record at the head of an endpoint's queue, or behind it, moves on. -/
def State.settleEndpoint (s : State) (ep : Nat) : State :=
  ((((((s.after (execRecordFetch ep)).after (execLaunch ep)).after (execRestore ep)).after (execPreempt ep)).after (execKill ep)).after
    (execMessage ep)).after (execQuery ep)

/-- The monitors of a die: its checkweighers agree, watches end, counters are swept, droops and kills end. -/
def State.settleDie (s : State) (d : Nat) : State :=
  let s := s.afterEach ((s.die d).cwrow.map (fun p => p.1)) (fun r => execCheckweigherConfirm d r .confirmed)
  let s := s.afterEach (List.range 96) (fun r => execCheckweigherWatchEnd d r)
  let s := s.afterEach (List.range 48) (fun q => execCounterSweep d q)
  let s := s.afterEach (List.range 48) (fun q => execDroopRelease d q)
  let s := (s.die d).hoists.foldl (fun s p => s.settleHoist d p.1) s
  s.after (execWkillComplete d)

/-- The oldest tokens and credits on their way arrive. -/
def State.settleLinks (s : State) : State :=
  let s := s.flights.foldl (fun s f => s.after (execTokenArrival f.src f.path)) s
  s.credits.foldl (fun s c => s.after (execCreditReturn c.elem c.queue)) s

/-- Every internal event that the state enables, once. -/
def State.settleAll (s : State) : State :=
  let s := s.settleLinks
  let s := (s.elems.map (fun p => p.1)).foldl State.settleElem s
  let s := s.afterEach (s.islands.map (fun p => p.1)) execIslandStep
  let s := (List.range 4).foldl State.settleDie s
  let s := (s.works.map (fun p => p.1)).foldl State.settleWorking s
  let s := (s.threads.map (fun p => p.1)).foldl State.settleThread s
  let s := (s.endpoints.map (fun p => p.1)).foldl State.settleEndpoint s
  let s := s.after execAdmissionRound
  ((s.jobs.map (fun j => j.handle)).foldl (fun s h => s.settleLoad h) s).drainHost

end Sys2Proof.Machine
end

