-- ==== Sys2Proof/Machine/Issue.lean ====
section
/-! DEFINITION. What the acts of the agenda do (log entry 1): the issue of a core (R309) with its fetch (R130, R131, R134), the firings of an
element in a cycle (R65, R68, R457), the ticks of the clocks, and the placing of an instruction for a run (log entry 2). -/

namespace Sys2Proof.Machine

open Sys2Proof

/-- What an act comes to: a state, an instruction to run in a state, or a stop of the machine. -/
inductive Enact
  | done (s : State)
  | run (i : Instr) (s : State)
  | stop (f : Fault)

/-! ### Issue (R309) -/

/-- The first thread of a core, 0 to 191 for foreman cores and 192 + die for assay cores. -/
def coreBase (c : Nat) : Nat := if c < 192 then c * 4 else 768 + (c - 192) * 4

/-- Round-robin position of a core, and whether it has issued in the present cycle. -/
def State.coreTurn (s : State) (c : Nat) : Nat := if c < 192 then (s.quad c).turn else (s.die (c - 192)).turn
def State.coreIssued (s : State) (c : Nat) : Bool :=
  if c < 192 then (s.quad c).issued == some (s.quad c).cyc
  else (s.die (c - 192)).issued == some (s.die (c - 192)).cycles

/-- The thread that a core takes next. -/
def State.nextThread (s : State) (c : Nat) : Option Nat :=
  if s.coreIssued c then none
  else ((List.range 4).map (fun k => coreBase c + (s.coreTurn c + k) % 4)).find? s.mayIssue

/-- The core has issued for a thread, and the cursor names it. -/
def State.beginIssue (s : State) (c t : Nat) : State :=
  let s := { s with cur := { s.cur with thread := t } }
  if c < 192 then s.modQuad c (fun q => { q with turn := (t + 1) % 4, issued := some q.cyc })
  else s.modDie (c - 192) (fun d => { d with turn := (t + 1) % 4, issued := some d.cycles })

/-- Instructions of two words (R131). -/
def twoWords : Instr → Bool
  | .li _ _ => true
  | .addl _ _ _ => true
  | _ => false

/-- The word at an address for a thread, given to what follows. -/
def State.fetchWith (s : State) (t va : Nat) (k : Nat → State → Enact) : Enact :=
  match s.fetchAt t va with
  | .ok a s' => k (s'.word a 4) s'
  | .trap i s' => .done (s'.threadFault t i)
  | .stall s' => .done s'
  | .noMemory a => .stop (.noMemory a)

/-- The instruction at a thread's PC: fetched, decoded and run. A PC that is no multiple of 4 raises the alignment trap (log entry 19), and a
word that names no instruction is the illegal instruction. -/
def State.issue (s : State) (t : Nat) : Enact :=
  let pc := (s.thread t).pc
  if pc.toNat % 4 ≠ 0 then .done (s.trapHere t (alignTrap pc.toNat))
  else s.fetchWith t pc.toNat (fun w s =>
    match decodeForeman w 0 with
    | .error _ => .run (.illegalInstruction (BitVec.ofNat 32 w)) s
    | .ok i =>
      if twoWords i then s.fetchWith t (pc + 4).toNat (fun n s =>
        match decodeForeman w n with
        | .error _ => .run (.illegalInstruction (BitVec.ofNat 32 w)) s
        | .ok j => .run j s)
      else .run i s)

/-- The act of a core. -/
def State.enactCore (s : State) (c : Nat) : Enact :=
  match s.nextThread c with
  | none => .done s
  | some t => (s.beginIssue c t).issue t

/-! ### Firings -/

/-- The cursor on a slot. -/
def State.onSlot (s : State) (e n : Nat) (second : Bool) : State :=
  { s with cur := { s.cur with elem := e, slot := n, second := second } }

/-- The queues that a slot's word reads or tests. -/
def wordQueues (w : EWord) : List Nat :=
  let src := fun (x : Src) => match x with
    | .q n => [n.toNat]
    | _ => []
  (w.qa.map (fun n => n.toNat)).toList ++ (w.qb.map (fun n => n.toNat)).toList ++ src w.sa ++ src w.sb

/-- An item that a restore or a bad inactive word has left in an element, and that its readiness depends on whatever it fires: a slot word or
another word of its record, or its own state (R450 to R452). -/
def State.latentState (s : State) (e : Nat) : Option BadItem :=
  let x := s.elem e
  (x.latent.find? (fun p => match p.2 with
    | .config k => p.1 == x.active.toNat && (k < 16 || 20 ≤ k)
    | .elemState => true
    | _ => false)).map (fun p => p.2)

/-- An item that a firing of a slot's word would read: a register, a queue's head, a constant, or the layout entry of a memory access. -/
def State.latentFor (s : State) (e op : Nat) (w : EWord) : Option BadItem :=
  let x := s.elem e
  let bad := fun (q : Nat) => match (x.queue q).head? with
    | some k => k.origin == .restored true
    | none => false
  match (wordQueues w).find? bad with
  | some q => some (.queue q)
  | none => (x.latent.find? (fun p => match p.2 with
      | .reg n => (wordReads op w).1.contains n
      | .config k =>
        let const := fun (z : Src) => match z with
          | .k n => n.toNat + 16 == k
          | _ => false
        p.1 == x.active.toNat && (const w.sa || const w.sb || (0xB0 ≤ op && op < 0xD0 && tyCode w.ty == k - 4))
      | .layout n => 0xB0 ≤ op && op < 0xCB && dEnt (s.memDesc e w) == n
      | _ => false)).map (fun p => p.2)

/-- The slots of the active context whose JOIN or SPAWN would read a counter that no two copies give (R468). -/
def State.brokenSlot (s : State) (e : Nat) : Option Nat :=
  (List.range 16).findSome? (fun n => match (s.curCfg e).instr n with
    | some (.join w) => s.brokenCounter e w false
    | some (.spawn w) => s.brokenCounter e w true
    | _ => none)

/-- What an element consumes before its next firing, a slot's or any, instead of making it (R434). -/
def State.meets (s : State) (e : Nat) (i : Option Instr) : Option State :=
  if !s.mayFire e then none
  else match i with
    | none => (match s.latentState e with
      | some it => some (s.consumeElem e it)
      | none => (s.brokenSlot e).map (fun n => s.nextRung (s.owner e) { counterError n with eid := e }))
    | some i => match elemCode i with
      | some (op, w) => (s.latentFor e op w).map (s.consumeElem e)
      | none => none

/-- A slot fires, taking its island slot; the firing of a watched element without HOLD waits to be compared (R457). -/
def State.fireSlot (s : State) (e n : Nat) (second : Bool) (i : Instr) : Enact :=
  let s := s.noteTake e i
  let s := if s.watched e && !s.watchHeld e then s.setPending e ((s.cwRowOf e).pending + 1) else s
  .run i (s.onSlot e n second)

/-- The first firing of an element in its quad's cycle: the first ready slot, unless another port element takes the same island slot (R65, R265). A
watched element under HOLD holds its cycle for the checkweigher, and fires that slot once it is confirmed (R457). -/
def State.enactFire (s : State) (e : Nat) : Enact :=
  if s.firedNow e then .done s
  else match s.meets e none with
    | some s' => .done s'
    | none =>
      let held := s.heldSlot e
      if held.isSome && (s.cwRowOf e).pending = 1 then .done s
      else match (if held.isSome then held.filter (s.slotReady e) else s.firstSlot e) with
        | none => .done s
        | some n => match (s.curCfg e).instr n with
          | none => .done s
          | some i =>
            if s.yields e i then .done s
            else match s.meets e (some i) with
              | some s' => .done s'
              | none => if s.watchHeld e && held.isNone then .done (s.holdCycle e n) else (if held.isSome then s.dropHold e else s).fireSlot e n false i

/-- The second firing of the cycle (R68). -/
def State.enactFire2 (s : State) (e : Nat) : Enact :=
  let x := s.elem e
  match x.first with
  | none => .done s
  | some f =>
    if !s.firedNow e || x.second then .done s
    else match s.secondSlot e f with
      | none => .done s
      | some n => match (s.curCfg e).instr n with
        | none => .done s
        | some i =>
          if s.yields e i then .done s
          else match s.meets e (some i) with
            | some s' => .done s'
            | none => s.fireSlot e n true i

/-! ### Clocks -/

/-- A cycle of a quad for a thread: CYCLE and its working's canary (R316, R462), and the join updates that wait for the cycle (R356). -/
def State.tickThread (s : State) (t : Nat) : State :=
  let x := s.thread t
  let w := s.work x.bound
  if x.bound = 0 || w.savedAt.isSome then s
  else
    let idle := if w.state != .running || w.rolling.isSome || x.canSeen then x.canIdle else min (x.canIdle + 1) (2 ^ 32 - 1)
    let s := s.setThread t { x with cycle := x.cycle + 1, canIdle := idle, canSeen := false }
    ((w.joins.map (fun p => p.1)).eraseDups).foldl (fun s n => s.heldJoins (t / 4) n) s

/-- A working's cycles by the clock of a quad (R196). -/
def Working.tick (w : Working) (q : Nat) : Working :=
  if w.savedAt.isNone && w.quads.contains q then { w with clocks := SMap.set 0 w.clocks q (w.clock q + 1) } else w

/-- A cycle of a quad: a written throttling step takes effect at a window's start (R419), and the droop detector compares (R416). -/
def State.tickQuad (s : State) (q : Nat) : State :=
  let x := s.quad q
  let c := x.cyc + 1
  let x := { x with cyc := c, above := if x.drooped && !x.below then x.above + 1 else 0 }
  let x := if c % 16 = 0 then { x with step := x.stepNew.getD x.step, stepNew := none } else x
  let s := { s.setQuad q (x.detect (s.die (q / 48)).cycles) with works := s.works.map (fun p => (p.1, p.2.tick q)) }
  forN (fun i s => s.tickThread (q * 4 + i)) 4 0 s

/-- A free value taken, as its number (log entry 8). -/
def State.drawFree (s : State) : DWord × State := (Config.freeValue s.free, { s with free := s.free + 1 })

/-- A cycle of a die's assay core. The port's time moves on with die 0, whose assay core runs at 1.0 GHz (R29): by 1 ns until the time has been set,
and then at the disciplined rate, by 0, 1 or 2 ns (R405; log entry 39). -/
def State.tickAssay (s : State) (d : Nat) : State :=
  let s := s.modDie d (fun x => { x with cycles := x.cycles + 1 })
  if d ≠ 0 then s
  else if s.ptpValid then { s.drawFree.2 with ptpNs := s.ptpNs + BitVec.ofNat 62 (s.drawFree.1.toNat % 3) }
  else { s with ptpNs := s.ptpNs + 1 }

/-! ### Acts -/

/-- Events are the constructors that have no word. -/
def Instr.isEvent (i : Instr) : Bool :=
  match i with
  | .illegalInstruction _ => false
  | _ => (foremanCode i).isNone && (elemCode i).isNone

/-- An act, with the acts after it left on the agenda. -/
def State.enact (s : State) (a : Act) (rest : List Act) : Enact :=
  let s := { s with agenda := rest }
  match a with
  | .core c => s.enactCore c
  | .fire e => s.enactFire e
  | .fire2 e => s.enactFire2 e
  | .tick q => .done (s.tickQuad q)
  | .tickAssay d => .done (s.tickAssay d)
  | .settle => .done s.settleAll
  | .measure d m stage digest => .done (s.measure d m stage digest)
  | .event i => if Instr.isEvent i then .run i s else .done s

/-- The elements of the claims that workings own. -/
def State.ownedElems (s : State) : List Nat :=
  (s.claims.filter (fun p => p.2.owner != 0)).flatMap (fun p => (List.range 8).map (fun k => p.1 * 8 + k))

/-- With nothing on the agenda: the acts of a cycle of every clock. -/
def State.plan (s : State) : State :=
  { s with agenda := (List.range 196).map Act.core ++ (s.ownedElems.map Act.fire ++ (s.ownedElems.map Act.fire2 ++
      (Act.settle :: ((List.range 192).map Act.tick ++ (List.range 4).map Act.tickAssay)))) }

/-! ### Placing an instruction (log entry 2) -/

/-- The working of a placed instruction: one claim of die 0 with thread 0, running its context 0 on every element. -/
def placedWorking : Working :=
  { ident := 0, width := 1, height := 1, die := 0, row := 0, col := 0, thread := 0, islands := true, state := .running, inPhase := true }

/-- Program bytes at the start of the working's share of tile SRAM, and its thread there. -/
def State.placeProgram (s : State) (l : List Byte) : State :=
  let s := s.setBytes (2 ^ 40) l
  let s := s.setClaim 0 { s.claim 0 with owner := 1 }
  let s := s.setWork 1 placedWorking
  s.setThread 0 { s.thread 0 with bound := 1, pc := BitVec.ofNat 64 (2 ^ 40), trapvec := BitVec.ofNat 64 (2 ^ 40) }

/-- The element that takes a placed word: an ME or an SE for the opcodes of those kinds, else the AE at position 0, which is a port element. -/
def placeElem (op : Nat) : Nat := if opKindOk op 0 then 0 else if opKindOk op 1 then 3 else 7

/-- A token that a placed word's tests pass. -/
def placedToken (w : EWord) : Token :=
  { Token.zero with t := if w.ta == .ne || w.tb == .ne then w.tv + 1 else w.tv, l := true, m := 0xFF }

/-- An element word in slot 0 of an element, with a token in every queue that passes its tests and predicates that pass its trigger. -/
def State.placeSlot (s : State) (e : Nat) (w : BitVec 96) : State :=
  let c := s.claim (e / 8)
  let b := c.block 0
  let cfg : ElemCfg := { b.elem (posOf e) with slots := [(0, w)], rotate := 0 }
  let b := { b with elems := SMap.set {} b.elems (posOf e) cfg }
  let s := s.setClaim (e / 8) { c with blocks := SMap.set {} c.blocks 0 b }
  match (decodeElement w.toNat).toOption.bind elemCode with
  | some (_, f) =>
    s.modElem e (fun x => { (forN (fun q x => x.setQueue q [⟨placedToken f, .restored false⟩]) 6 0 x) with p := f.pv })
  | none => s

/-- The acts that come next. -/
def State.placeActs (s : State) (l : List Act) : State := { s with agenda := l }

end Sys2Proof.Machine
end

