-- ==== Sys2Proof/Machine/Step.lean ====
section
/-! DEFINITION. One step (log entry 1): the first act of the agenda happens. A core issues one instruction, an element makes a firing, a
clock ticks, or an event occurs. With nothing on the agenda the machine plans the acts of one cycle for itself. -/

namespace Sys2Proof.Machine

open Sys2Proof

/-- The step. -/
def step (s : State) : Host.Outcome State Fault Refusal :=
  match s.agenda with
  | [] => .next s.plan
  | a :: r =>
    match s.enact a r with
    | .done s' => .next s'
    | .run i s' => exec i s'
    | .stop f => .fault f

/-- The machine of the state with an instruction placed so that the very next step runs it (log entry 2): a foreman word, with its second
word, at the PC of a launched thread; an element word in slot 0 of an element of the kind that its opcode asks for. -/
def State.withFetchWord (s : State) (nbits w : Nat) : State :=
  if nbits ≤ 64 then (s.placeProgram (toBytes 8 w)).placeActs [.core 0]
  else
    let e := placeElem (bits w 63 56)
    ((s.placeProgram []).placeSlot e (BitVec.ofNat 96 w)).placeActs [.fire e]

end Sys2Proof.Machine
end

