-- ==== Sys2Proof/Safety.lean ====
section
/-! DEFINITION. The terms that claims are stated in: a safe step, the invariant, what an instruction may change, and what a firing comes to. -/

namespace Sys2Proof

open Machine

/-- The step of a state neither faults nor is refused. -/
def StepSafe (s : Machine.State) : Prop := ∃ t, Machine.step s = .next t

/-- Memory is in its canonical form. -/
abbrev Inv (s : Machine.State) : Prop := Memory.wf s.mem = true

/-! ### Frames -/

/-- Nothing but one thread has changed. -/
structure OnlyThread (s t : Machine.State) (n : Nat) : Prop where
  rest : { t with threads := s.threads } = s
  others : ∀ m, m ≠ n → t.thread m = s.thread m

/-- A thread after an instruction that writes rd := v and k bytes of PC (R309, R311): g0 discards the write, and nothing else of it changes. -/
structure WritesReg (x y : Thread) (rd : Nat) (v : DWord) (k : Nat) : Prop where
  value : ∀ r, y.reg r = if r = rd ∧ r ≠ 0 then v else x.reg r
  pc : y.pc = x.pc + BitVec.ofNat 64 k
  rest : { y with g := x.g, pc := x.pc } = x

/-- Nothing of the threads has changed but what a canary counts (R462). -/
def CanariesOnly (s t : Machine.State) : Prop :=
  ∀ n, t.thread n = { s.thread n with canIdle := (t.thread n).canIdle, canSeen := (t.thread n).canSeen }

/-- A thread of which only the PC has moved, by k bytes. -/
def Advances (x y : Thread) (k : Nat) : Prop := y = { x with pc := x.pc + BitVec.ofNat 64 k }

/-- A thread has entered its handler (R330): PC at TRAPVEC, INTRAP, TRAPPC, TRAPCAUSE and TRAPARG as the trap says, registers and flags as they were. -/
structure TakesTrap (x y : Thread) (pc : DWord) (i : TrapInfo) : Prop where
  trappc : y.trappc = pc
  cause : y.trapcause = i.causeWord
  arg : y.traparg = BitVec.ofNat 32 i.arg
  intrap : y.intrap = true
  pc : y.pc = x.trapvec
  wait : y.wait = .none
  rest : { y with trappc := x.trappc, trapcause := x.trapcause, traparg := x.traparg, intrap := x.intrap, pc := x.pc, faultva := x.faultva,
                  wait := x.wait } = x

/-- The bytes of a die's error ring and of its mirror word (R429, R430). -/
def RingByte (s : Machine.State) (d a : Nat) : Prop :=
  (s.die d).ringBase * 2 ^ 12 ≤ a ∧ a < (s.die d).ringBase * 2 ^ 12 + 2 ^ (s.die d).ringSize.toNat * 64 + 4

/-- The marks of the sector of a byte are as they were (R216, R426). -/
def SameMarks (s t : Machine.State) (a : Nat) : Prop := t.poisoned a = s.poisoned a ∧ t.isBad a = s.isBad a

/-! ### Firings (R73) -/

/-- The token that a consumer slot puts in flight (R56, R59, R76). -/
def flightsTo (s : Machine.State) (e : Nat) (d : Dest) (k : Token) : List Flight :=
  let cyc := (s.quad (quadOf e)).cyc
  let from' := Origin.fired e (destCode d) (s.elem e).count
  match d with
  | .link dir _ _ =>
    if s.guardedLink e (linkNum dir) then []
    else (neighbour e (linkNum dir)).toList.map (fun n => ⟨e, linkNum dir, n, linkQueue (linkNum dir), k, from', cyc⟩)
  | .route n _ _ => (routeDest e (s.route e n)).toList.map (fun t => ⟨e, 4 + n, t, 4 + bits (s.route e n) 30 30, k, from', cyc⟩)
  | _ => []

/-- The same for a token that may be absent. -/
def flightsOpt (s : Machine.State) (e : Nat) (d : Dest) (k : Option Token) : List Flight :=
  match k with
  | some k => flightsTo s e d k
  | none => []

/-- Register n after a token is written to a consumer slot. -/
def regPut (d : Dest) (k : Option Token) (n : Nat) (old : VReg) : VReg :=
  match d, k with
  | .reg m, some k => if m.toNat = n then k.reg.clean else old
  | _, _ => old

/-- The predicates after a token is written to a consumer slot (R74). -/
def predPut (d : Dest) (k : Option Token) (p : BitVec 8) : BitVec 8 :=
  match d, k with
  | .pred n, some k => if k.reg.truth then p ||| BitVec.ofNat 8 (2 ^ n.toNat) else p &&& ~~~(BitVec.ofNat 8 (2 ^ n.toNat))
  | _, _ => p

/-- The report channel after a token is written to a consumer slot (R343). -/
def reportPut (d : Dest) (k : Option Token) (l : List Token) : List Token :=
  match d, k with
  | .report, some k => if l.length < 16 then l ++ [k] else l
  | _, _ => l

/-- A consumer slot is no guarded link (R469). -/
def Unguarded (s : Machine.State) (e : Nat) (d : Dest) : Prop := ∀ dir tp lp, d = .link dir tp lp → s.guardedLink e (linkNum dir) = false

/-- The fields of a working that a firing may change: its report channel, the sinks counted with the cycles of the last, its guard monitor, and its
poison record. -/
def FiredWork (x y : Working) : Prop :=
  y = { x with report := y.report, sinks := y.sinks, mark := y.mark, guardCount := y.guardCount, guardFirst := y.guardFirst,
               guardAny := y.guardAny, guardNew := y.guardNew, guardSide := y.guardSide, poison := y.poison, poisonBy := y.poisonBy,
               poisonLast := y.poisonLast }

/-- What a firing of element e does around the element (R73), where k0 and k1 are the tokens of the two consumer slots. A token for a guarded
link goes nowhere, and its record may be written (R470). -/
structure FiredAround (s t : Machine.State) (e : Nat) (w : EWord) (k0 k1 : Option Token) : Prop where
  others : ∀ f, f ≠ e → t.elem f = s.elem f
  flights : t.flights = s.flights ++ flightsOpt s e w.d0 k0 ++ flightsOpt s e w.d1 k1
  /-- no register, flag or PC of a thread changes -/
  threads : CanariesOnly s t
  works : ∀ h, FiredWork (s.work h) (t.work h)
  report : Unguarded s e w.d0 → Unguarded s e w.d1 →
    (t.work (s.owner e)).report = reportPut w.d1 k1 (reportPut w.d0 k0 (s.work (s.owner e)).report)
  /-- no byte of memory changes but those of the die's error ring, and none at all where no token meets a guard -/
  memory : ∀ a, ¬ RingByte s (s.work (s.owner e)).die a → t.byte a = s.byte a ∧ SameMarks s t a
  unguarded : Unguarded s e w.d0 → Unguarded s e w.d1 → t.mem = s.mem ∧ t.poison = s.poison ∧ t.badSec = s.badSec ∧ t.dies = s.dies
  rest : t = { s with mem := t.mem, poison := t.poison, badSec := t.badSec, elems := t.elems, flights := t.flights, credits := t.credits,
                      space := t.space, threads := t.threads, dies := t.dies, works := t.works }

/-- The fields of an element that the tokens, the pops and the note of a firing do not touch: its accesses, chains, generator, context and
monitors. A register written loses an error that nothing has consumed. -/
def SameCore (x y : Elem) : Prop :=
  { y with v := x.v, p := x.p, q := x.q, rr := x.rr, latent := x.latent, count := x.count, hist := x.hist, cyc := x.cyc, first := x.first, rr0 := x.rr0,
           second := x.second, used := x.used, win := x.win, fired := x.fired } = x

/-- The element as the tokens of a firing find it and leave it, before pops and masks. -/
structure Written (x y : Elem) (w : EWord) (k0 k1 : Option Token) : Prop where
  regs : ∀ n, y.reg n = regPut w.d1 k1 n (regPut w.d0 k0 n (x.reg n))
  preds : y.p = predPut w.d1 k1 (predPut w.d0 k0 x.p)
  queues : ∀ q, y.queue q = x.queue q
  kept : SameCore x y

/-- The element after its pops and masks (R73). -/
structure Closed (x y : Elem) (w : EWord) (pops : List Nat) : Prop where
  regs : ∀ n, y.reg n = x.reg n
  preds : y.p = (x.p &&& ~~~w.pc) ||| w.ps
  queues : ∀ q, y.queue q = (x.queue q).drop (pops.count q)
  kept : SameCore x y

/-- A firing of which only the tokens, the pops and the predicate masks change the element; pops are the queues popped. -/
structure Fired (s t : Machine.State) (e : Nat) (w : EWord) (k0 k1 : Option Token) (pops : List Nat) : Prop
    extends FiredAround s t e w k0 k1 where
  regs : ∀ n, (t.elem e).reg n = regPut w.d1 k1 n (regPut w.d0 k0 n ((s.elem e).reg n))
  preds : (t.elem e).p = (predPut w.d1 k1 (predPut w.d0 k0 (s.elem e).p) &&& ~~~w.pc) ||| w.ps
  queues : ∀ q, (t.elem e).queue q = ((s.elem e).queue q).drop (pops.count q)
  kept : SameCore (s.elem e) (t.elem e)

/-- A firing that also changes the element by upd, between its tokens and its pops. -/
structure FiredWith (s t : Machine.State) (e : Nat) (w : EWord) (k0 k1 : Option Token) (upd : Elem → Elem) (pops : List Nat) : Prop
    extends FiredAround s t e w k0 k1 where
  element : ∃ y, Written (s.elem e) y w k0 k1 ∧ Closed (upd y) (t.elem e) w pops

end Sys2Proof
end

