-- ==== Sys2Proof/Safety/Elements.lean ====
section
/-! DEFINITION. What the element instructions come to, as rules over lanes and tokens (05_element_compute, 06_element_flow, 07_memory). -/

namespace Sys2Proof

open Machine

/-! ### Results lane by lane (R151 to R161, R166) -/

/-- An instruction computed element by element: its word, how many of A, B and C it reads, the width of an element and the elements of a lane,
and an element's bits, with its exceptional mark, from those of the operands. -/
structure LaneRule where
  w : EWord
  reads : Nat
  width : Nat
  count : Nat
  value : Nat → Nat → Nat → Nat × Bool

/-- The operands that an instruction reads, of A, B and C (R146). -/
def operands (s : Machine.State) (e : Nat) (w : EWord) (n : Nat) : List VReg := [s.opA e w, s.opB e w, s.opC e w].take n

/-- r is the result of a rule over operands (R147, R151): a lane is valid where every operand's is, an invalid lane is zero, a valid lane
holds the rule's values, and r is poisoned where an operand is or a value is exceptional. -/
structure LaneResult (R : LaneRule) (ops : List VReg) (r : VReg) : Prop where
  valid : ∀ l, l < 8 → mbit r.m l = ops.all (fun o => mbit o.m l)
  invalid : ∀ l, l < 8 → mbit r.m l = false → r.p.get l = 0
  value : ∀ l k, l < 8 → k < R.count → mbit r.m l = true →
    elemAt R.width r l k = (R.value (elemAt R.width (ops.getD 0 r) l k) (elemAt R.width (ops.getD 1 r) l k) (elemAt R.width (ops.getD 2 r) l k)).1 %
      2 ^ R.width
  poison : r.x = (ops.any (fun o => o.x) || (List.range 8).any (fun l => mbit r.m l && (List.range R.count).any (fun k =>
    (R.value (elemAt R.width (ops.getD 0 r) l k) (elemAt R.width (ops.getD 1 r) l k) (elemAt R.width (ops.getD 2 r) l k)).2)))

/-- A firing whose one result goes to both consumer slots (R75, R148). -/
def FiresResult (s t : Machine.State) (e : Nat) (w : EWord) (r : VReg) : Prop :=
  Fired s t e w (some (mkToken (s.elem e) w w.d0 r)) (some (mkToken (s.elem e) w w.d1 r)) (popList w)

/-- An element read in a type (R82). -/
def intIn (t : Ty) (b : Nat) : Int := if Ty.signed t then sextInt (Ty.width t) b else (b % 2 ^ Ty.width t : Nat)

/-- An exact value held to a type's range (R82). -/
def clampIn (t : Ty) (v : Int) : Int :=
  if Ty.signed t then max (-(2 ^ (Ty.width t - 1))) (min v (2 ^ (Ty.width t - 1) - 1)) else max 0 (min v (2 ^ Ty.width t - 1))

/-- The same in the type of a word. -/
def valueOf (w : EWord) (b : Nat) : Int := intIn w.ty b
def clampTo (w : EWord) (v : Int) : Int := clampIn w.ty v

/-- An integer rule that wraps an exact value (R153). -/
def wraps (w : EWord) (n : Nat) (f : Int → Int → Int → Int) : Option LaneRule :=
  some ⟨w, n, Ty.width w.ty, Ty.count w.ty, fun a b c => (wrapN (Ty.width w.ty) (f (valueOf w a) (valueOf w b) (valueOf w c)), false)⟩

/-- An integer rule that saturates an exact value (R153). -/
def saturates (w : EWord) (n : Nat) (f : Int → Int → Int → Int) : Option LaneRule :=
  some ⟨w, n, Ty.width w.ty, Ty.count w.ty,
    fun a b c => (wrapN (Ty.width w.ty) (clampTo w (f (valueOf w a) (valueOf w b) (valueOf w c))), false)⟩

/-- A rule over the bits of elements. -/
def onBits (w : EWord) (n : Nat) (f : Nat → Nat → Nat) : Option LaneRule :=
  some ⟨w, n, Ty.width w.ty, Ty.count w.ty, fun a b _ => (f a b, false)⟩

/-- A rule over whole lanes. -/
def onLanes (w : EWord) (n : Nat) (f : Nat → Nat → Nat → Nat) : Option LaneRule := some ⟨w, n, 32, 1, fun a b c => (f a b c, false)⟩

/-- A compare: all ones or zero (R155). -/
def compares (w : EWord) (f : Int → Int → Bool) : Option LaneRule :=
  some ⟨w, 2, Ty.width w.ty, Ty.count w.ty, fun a b _ => (if f (valueOf w a) (valueOf w b) then 2 ^ Ty.width w.ty - 1 else 0, false)⟩

/-- The integer and logic instructions (R152 to R155). -/
def intRule : Instr → Option LaneRule
  | .add w => wraps w 2 (fun a b _ => a + b)
  | .sub w => wraps w 2 (fun a b _ => a - b)
  | .mul w => wraps w 2 (fun a b _ => a * b)
  | .mulh w => wraps w 2 (fun a b _ => a * b / 2 ^ Ty.width w.ty)
  | .mad w => wraps w 3 (fun a b c => c + a * b)
  | .neg w => wraps w 1 (fun a _ _ => -a)
  | .abs w => wraps w 1 (fun a _ _ => max a (-a))
  | .min w => wraps w 2 (fun a b _ => min a b)
  | .max w => wraps w 2 (fun a b _ => max a b)
  | .shl w => onBits w 2 (fun a b => if b < Ty.width w.ty then a * 2 ^ b % 2 ^ Ty.width w.ty else 0)
  | .shr w => onBits w 2 (fun a b => a / 2 ^ b)
  | .sha w => onBits w 2 (fun a b => wrapN (Ty.width w.ty) (sextInt (Ty.width w.ty) a / 2 ^ b))
  | .rol w => onBits w 2 (fun a b =>
      (a * 2 ^ (b % Ty.width w.ty) + a / 2 ^ (Ty.width w.ty - b % Ty.width w.ty)) % 2 ^ Ty.width w.ty)
  | .clz w => onBits w 1 (fun a _ => if a = 0 then Ty.width w.ty else Ty.width w.ty - 1 - Nat.log2 a)
  | .popc w => onBits w 1 (fun a _ => ((List.range (Ty.width w.ty)).filter (fun i => a.testBit i)).length)
  | .and w => onLanes w 2 (fun a b _ => a &&& b)
  | .or w => onLanes w 2 (fun a b _ => a ||| b)
  | .xor w => onLanes w 2 (fun a b _ => a ^^^ b)
  | .not w => onLanes w 1 (fun a _ _ => 2 ^ 32 - 1 - a)
  | .andn w => onLanes w 2 (fun a b _ => a &&& (2 ^ 32 - 1 - b))
  | .sel w => onLanes w 3 (fun a b c => (a &&& c) ||| (b &&& (2 ^ 32 - 1 - c)))
  | .cmpeq w => compares w (fun a b => decide (a = b))
  | .cmpne w => compares w (fun a b => decide (a ≠ b))
  | .cmplt w => compares w (fun a b => decide (a < b))
  | .cmple w => compares w (fun a b => decide (a ≤ b))
  | .addSat w => saturates w 2 (fun a b _ => a + b)
  | .subSat w => saturates w 2 (fun a b _ => a - b)
  | .mulSat w => saturates w 2 (fun a b _ => a * b)
  | .madSat w => saturates w 3 (fun a b c => c + a * b)
  | .negSat w => saturates w 1 (fun a _ _ => -a)
  | .absSat w => saturates w 1 (fun a _ _ => max a (-a))
  | .shlSat w => some ⟨w, 2, Ty.width w.ty, Ty.count w.ty, fun a b _ => (wrapN (Ty.width w.ty) (clampTo w (valueOf w a * 2 ^ b)), false)⟩
  | _ => none

/-- The value of an encoding in the type of a word (R83). -/
def floatOf (w : EWord) (b : Nat) : FVal := fdec (Ty.format w.ty) b

/-- A rule that rounds an exact value once; a NaN that no operand brought is exceptional (R104, R157). -/
def rounds (w : EWord) (n : Nat) (f : FVal → FVal → FVal → FVal) : Option LaneRule :=
  some ⟨w, n, Ty.width w.ty, Ty.count w.ty, fun a b c =>
    let v := f (floatOf w a) (floatOf w b) (floatOf w c)
    (fround (Ty.format w.ty) .rne v,
      v.isNan && !((floatOf w a).isNan || (floatOf w b).isNan || (n == 3 && (floatOf w c).isNan)))⟩

/-- A floating-point compare (R161). -/
def fcompares (w : EWord) (f : FVal → FVal → Bool) : Option LaneRule :=
  some ⟨w, 2, Ty.width w.ty, Ty.count w.ty, fun a b _ => (if f (floatOf w a) (floatOf w b) then 2 ^ Ty.width w.ty - 1 else 0, false)⟩

/-- The floating-point and approximation instructions (R156 to R161, R166). -/
def floatRule : Instr → Option LaneRule
  | .fadd w => rounds w 2 (fun a b _ => faddX a b)
  | .fsub w => rounds w 2 (fun a b _ => faddX a b.neg)
  | .fmul w => rounds w 2 (fun a b _ => fmulX a b)
  | .ffma w => rounds w 3 (fun a b c => faddX (fmulX a b) c)
  | .fmin w => onBits w 2 (fun a b => if (floatOf w a).isNan || (floatOf w b).isNan then (Ty.format w.ty).nan
      else if fless true (floatOf w b) (floatOf w a) then b else a)
  | .fmax w => onBits w 2 (fun a b => if (floatOf w a).isNan || (floatOf w b).isNan then (Ty.format w.ty).nan
      else if fless true (floatOf w a) (floatOf w b) then b else a)
  | .fabs w => onBits w 1 (fun a _ => if (floatOf w a).isNan then (Ty.format w.ty).nan else a % 2 ^ ((Ty.format w.ty).width - 1))
  | .fneg w => onBits w 1 (fun a _ => if (floatOf w a).isNan then (Ty.format w.ty).nan
      else (a + 2 ^ ((Ty.format w.ty).width - 1)) % 2 ^ (Ty.format w.ty).width)
  | .fcmpeq w => fcompares w feq
  | .fcmplt w => fcompares w (fless false)
  | .fcmple w => fcompares w (fun a b => fless false a b || feq a b)
  | .fcmpun w => fcompares w (fun a b => a.isNan || b.isNan)
  | .rcp w => some ⟨w, 1, 32, 1, fun a _ _ => frcp a⟩
  | .rsq w => some ⟨w, 1, 32, 1, fun a _ _ => frsq a⟩
  | .exp2 w => some ⟨w, 1, 32, 1, fun a _ _ => fexp2 a⟩
  | .log2 w => some ⟨w, 1, 32, 1, fun a _ _ => flog2E a⟩
  | _ => none

/-! ### Conversions (R162 to R165) -/

/-- An element of a source type converted to a result type, and whether the result is exceptional (R164). -/
def convOf (ty src : Ty) (mode : RMode) (b : Nat) : Nat × Bool :=
  match Ty.fmt src, Ty.fmt ty with
  | some f, some g => (fround g mode (fdec f b), false)
  | none, some g => (fround g mode (FVal.ofInt (intIn src b)), false)
  | some f, none => match fdec f b with
    | .nan => (0, true)
    | .inf neg => (wrapN (Ty.width ty) (clampIn ty (if neg then -2 ^ 40 else 2 ^ 40)), false)
    | v => (wrapN (Ty.width ty) (clampIn ty (roundInt mode v)), false)
  | none, none => (wrapN (Ty.width ty) (clampIn ty (intIn src b)), false)

/-- Element j of A, numbered from lane 0 element 0 upward, where it lies in a valid lane (R163). -/
def flatValid (src : Ty) (a : VReg) (j : Nat) : Bool := decide (j < 8 * Ty.count src) && mbit a.m (j / Ty.count src)

/-- Its bits; those of +0 where its lane is invalid. -/
def flatBits (src : Ty) (a : VReg) (j : Nat) : Nat :=
  if flatValid src a j then elemAt (Ty.width src) a (j / Ty.count src) (j % Ty.count src) else 0

/-- Element e of lane l of part h of a conversion (R163), where k0 is the number of the part's first draw: it takes the draw that the valid lanes
below it leave (R165). -/
def convAt (ty src : Ty) (mode : Nat → RMode) (a : VReg) (h k0 : Nat) (m : BitVec 8) (l e : Nat) : Nat × Bool :=
  let nr := Ty.count ty
  convOf ty src (mode (k0 + nr * ((List.range l).filter (mbit m)).length + e)) (flatBits src a (8 * nr * h + nr * l + e))

/-- r is part h of a conversion of A (R163): a lane is valid where it draws on a valid lane of A, and an invalid lane is zero. -/
structure ConvPart (ty src : Ty) (mode : Nat → RMode) (a : VReg) (h k0 : Nat) (r : VReg) : Prop where
  valid : ∀ l, l < 8 → (mbit r.m l = true ↔ ∃ e, e < Ty.count ty ∧ flatValid src a (8 * Ty.count ty * h + Ty.count ty * l + e) = true)
  invalid : ∀ l, l < 8 → mbit r.m l = false → r.p.get l = 0
  value : ∀ l e, l < 8 → e < Ty.count ty → mbit r.m l = true →
    elemAt (Ty.width ty) r l e = (convAt ty src mode a h k0 r.m l e).1 % 2 ^ Ty.width ty

/-- A part holds an exceptional element. -/
def convBad (ty src : Ty) (mode : Nat → RMode) (a : VReg) (h k0 : Nat) (r : VReg) : Bool :=
  (List.range 8).any (fun l => mbit r.m l && (List.range (Ty.count ty)).any (fun e => (convAt ty src mode a h k0 r.m l e).2))

/-- The draws of a part: one for each element of a valid lane (R165). -/
def convDraws (ty : Ty) (r : VReg) : Nat := Ty.count ty * ((List.range 8).filter (mbit r.m)).length

/-- The conversions: the word, the rounding of draw k from a generator, and whether the draws advance it (R162, R165). -/
def convRule : Instr → Option (EWord × (Word → Nat → RMode) × Bool)
  | .cvt w => some (w, fun _ _ => .rne, false)
  | .cvtRz w => some (w, fun _ _ => .rz, false)
  | .cvtRs w => some (w, fun g k => .rs (rand16 (genAfter g (k + 1))), true)
  | _ => none

/-! ### Results of whole tokens -/

/-- An instruction whose result is a register's worth that its operands and its element give: the word, the poison of what it reads, and the
result with its exceptional mark. -/
structure TokenRule where
  w : EWord
  poison : Machine.State → Nat → Bool
  value : Machine.State → Nat → VReg
  exc : Machine.State → Nat → Bool := fun _ _ => false

/-- A result of A and B without an exceptional mark. -/
def fromAB (w : EWord) (f : VReg → VReg → VReg) : Option TokenRule :=
  some { w := w, poison := fun s e => (s.opA e w).x || (s.opB e w).x, value := fun s e => f (s.opA e w) (s.opB e w) }

/-- The same of A alone. -/
def fromA (w : EWord) (f : VReg → VReg) : Option TokenRule :=
  some { w := w, poison := fun s e => (s.opA e w).x, value := fun s e => f (s.opA e w) }

/-- A result of what the element holds. -/
def fromElem (w : EWord) (f : Machine.State → Nat → VReg) : Option TokenRule := some { w := w, poison := fun _ _ => false, value := f }

/-- Lanes given by an optional lane of A each: an absent or invalid one leaves the lane invalid (R167). -/
def lanesFrom (a : VReg) (j : Nat → Option Nat) : VReg :=
  let ok := fun l => match j l with
    | some k => k < 8 && mbit a.m k
    | none => false
  ⟨Lanes.ofFn (fun l => if ok l then a.p.get ((j l).getD 0) else 0), maskOf ok, false⟩

/-- Lanes 0 to n - 1 hold numbers. -/
def numbers (l : List Nat) : VReg :=
  ⟨Lanes.ofFn (fun i => BitVec.ofNat 32 (l.getD i 0)), BitVec.ofNat 8 (2 ^ l.length - 1), false⟩

/-- A's valid lanes whose B lane is valid and not zero, in order (R179). -/
def keptLanes (a b : VReg) : List Nat := (List.range 8).filter (fun l => mbit a.m l && mbit b.m l && b.p.get l != 0)

/-- A predicate that a source field names (R118, R184). -/
def predBit (s : Machine.State) (e : Nat) (src : Src) : Bool := (s.elem e).p.getLsbD (srcCode src)

/-- Lanes, moves, masks, predicates and RDSYS (R167, R175, R179, R182, R184, R186, R194, R196). -/
def tokenRule : Instr → Option TokenRule
  | .shuf w => fromAB w (fun a b => lanesFrom a (fun l => if mbit b.m l then some (b.p.get l).toNat else none))
  | .bcast w => fromAB w (fun a b => lanesFrom a (fun _ => if mbit b.m 0 then some (b.p.get 0).toNat else none))
  | .lrot w => fromAB w (fun a b => lanesFrom a (fun l => if mbit b.m 0 then some ((l + (b.p.get 0).toNat) % 8) else none))
  | .mov w => fromA w (fun a => a)
  | .filt w => fromAB w (fun a b => numbers ((keptLanes a b).map (fun l => (a.p.get l).toNat)))
  | .vmskGet w => fromA w (fun a => numbers [a.m.toNat])
  | .vmskAnd w => fromAB w (fun a b =>
      let m := a.m &&& (if mbit b.m 0 then (b.p.get 0).setWidth 8 else 0)
      ⟨cleanLanes a.p m, m, false⟩)
  | .vmskSet w => fromAB w (fun a b =>
      let m := if mbit b.m 0 then (b.p.get 0).setWidth 8 else 0
      ⟨cleanLanes (cleanLanes a.p a.m) m, m, false⟩)
  | .pand w => fromElem w (fun s e => numbers [(predBit s e w.sa && predBit s e w.sb).toNat])
  | .por w => fromElem w (fun s e => numbers [(predBit s e w.sa || predBit s e w.sb).toNat])
  | .pxor w => fromElem w (fun s e => numbers [(predBit s e w.sa != predBit s e w.sb).toNat])
  | .pnot w => fromElem w (fun s e => numbers [(!predBit s e w.sa).toNat])
  | .rdsysClock w => fromElem w (fun s e =>
      let c := (s.work (s.owner e)).clock (quadOf e)
      numbers [c % 2 ^ 32, c / 2 ^ 32])
  | .rdsysPlace w => fromElem w (fun s e =>
      let k := s.work (s.owner e)
      numbers [blockIndex k e, posOf e, (s.elem e).active.toNat, if k.islands then k.relTile (tileOf e) else 2 ^ 32 - 1, k.ident.toNat])
  | .rdsysPoison w => fromElem w (fun s e =>
      let k := s.work (s.owner e)
      numbers [k.poison.getD 0, k.poison.isSome.toNat])
  | .rdsysChains w => fromElem w (fun s e =>
      let x := s.elem e
      numbers [x.ch0.startLive.toNat, x.ch0.stepLive.toNat, x.ch0.countLive.toNat, x.ch0.x.toNat,
        x.ch1.startLive.toNat, x.ch1.stepLive.toNat, x.ch1.countLive.toNat, x.ch1.x.toNat])
  | _ => none

/-- The valid lanes of a mask, lowest first, below n. -/
def lanesBelow (m : BitVec 8) (n : Nat) : List Nat := (List.range n).filter (mbit m)

/-- The sum of integer elements (R168, R170), and what the other reductions make of a list (R168, R169). -/
def sumBits (w : EWord) (l : List Nat) : Nat × Bool := (wrapN (Ty.width w.ty) ((l.map (valueOf w)).foldr (· + ·) 0), false)

/-- The reductions into lane 0: the word and the value of a list of elements that is not empty (R168, R169). -/
def reduceRule : Instr → Option (EWord × (List Nat → Nat × Bool))
  | .lradd w => some (w, sumBits w)
  | .lrmin w => some (w, fun l => (wrapN (Ty.width w.ty) ((l.map (valueOf w)).foldr min (valueOf w (l.getLastD 0))), false))
  | .lrmax w => some (w, fun l => (wrapN (Ty.width w.ty) ((l.map (valueOf w)).foldr max (valueOf w (l.getLastD 0))), false))
  | .lrfadd w => some (w, sumFloats w.ty)
  | .lrfmin w => some (w, fun l => (pickFloats (Ty.format w.ty) fminE l, false))
  | .lrfmax w => some (w, fun l => (pickFloats (Ty.format w.ty) fmaxE l, false))
  | _ => none

/-- The prefix sums (R169, R170). -/
def prefixRule : Instr → Option (EWord × (List Nat → Nat × Bool))
  | .lpadd w => some (w, sumBits w)
  | .lpfadd w => some (w, sumFloats w.ty)
  | _ => none

/-! ### Tokens that keep their sideband, and changes of the element -/

/-- The head of queue A (R175). -/
def headOfA (s : Machine.State) (e : Nat) (w : EWord) : Token := (headA (s.elem e) w).getD Token.zero

/-- The issue of an access (R208, R210, R212): the access that the element's memory state takes, with room taken on the destinations, and no
token sent. -/
structure Issued (s t : Machine.State) (e : Nat) (w : EWord) (put : Elem → Elem) : Prop where
  others : ∀ f, f ≠ e → t.elem f = s.elem f
  regs : ∀ n, (t.elem e).reg n = (s.elem e).reg n
  preds : (t.elem e).p = ((s.elem e).p &&& ~~~w.pc) ||| w.ps
  queues : ∀ q, (t.elem e).queue q = ((s.elem e).queue q).drop ((popList w).count q)
  /-- the accesses, watches, wave buffer and waves are as put leaves them, and the next access has the next number -/
  memory : (t.elem e).accs = (put (s.elem e)).accs ∧ (t.elem e).watches = (put (s.elem e)).watches ∧
    (t.elem e).wbuf = (put (s.elem e)).wbuf ∧ (t.elem e).waves = (put (s.elem e)).waves ∧ (t.elem e).seq = (s.elem e).seq + 1
  chains : (t.elem e).ch0 = (s.elem e).ch0 ∧ (t.elem e).ch1 = (s.elem e).ch1 ∧ (t.elem e).gen = (s.elem e).gen ∧
    (t.elem e).active = (s.elem e).active
  flights : t.flights = s.flights
  bytes : t.mem = s.mem
  dies : t.dies = s.dies
  threads : CanariesOnly s t
  works : ∀ h, t.work h = { s.work h with report := (t.work h).report, sinks := (t.work h).sinks, mark := (t.work h).mark }
  rest : t = { s with elems := t.elems, credits := t.credits, space := t.space, threads := t.threads, works := t.works }

/-- Sectors have been stored in one step of a firing (R219, R220, R351): beside their bytes and marks, watches may have triggered, and the old
bytes may stand in undo logs. -/
structure Committed (u t : Machine.State) : Prop where
  elems : ∀ f, t.elem f = { u.elem f with watches := (t.elem f).watches }
  watches : ∀ f, (t.elem f).watches.length = (u.elem f).watches.length ∧ ∀ (n : Nat) (k k' : Access), (u.elem f).watches[n]? = some k →
    (t.elem f).watches[n]? = some k' → k' = k ∨ (k.total = 1 ∧ k' = { k with stage := .performed, got := k'.got })
  tiles : ∀ n, ∃ l, (t.tile n).undo = (u.tile n).undo ++ l
  specs : ∀ n, ∀ p, p ∈ (t.tile n).specs → p ∈ (u.tile n).specs
  rest : { t with mem := u.mem, poison := u.poison, badSec := u.badSec, elems := u.elems, tiles := u.tiles } = u

/-- The instructions that issue an access at its firing: the word, the opcode, true for a macro, true where B is stored, and what the access
holds beside the operands and the descriptor (R217, R218, R225 to R233). -/
def issueRule (e : Nat) (s : Machine.State) : Instr → Option (EWord × Nat × Bool × Bool × (Access → Access))
  | .sld w => some (w, 0xB0, false, false, id)
  | .sst w => some (w, 0xB1, false, true, id)
  | .gathr w => some (w, 0xC2, true, false, fun a => { a with total := 8 })
  | .scatr w => some (w, 0xC3, true, true, fun a => { a with total := 8 })
  | .amo w => some (w, 0xC4, false, true, id)
  | .amoOrd w => some (w, 0xC5, false, true, id)
  | .red w => some (w, 0xC6, false, true, id)
  | .redOrd w => some (w, 0xC7, false, true, id)
  | .xlat w => some (w, 0xC8, false, false, id)
  | .tramChase w => some (w, 0xC9, true, false, fun a =>
      { a with total := a.desc.toNat / 2 ^ 16 % 2 ^ 8, node := (s.accOne e a).getD 0, ended := (s.accOne e a).isNone, trail := (s.accOne e a).toList.map (fun k => (k, false)) })
  | .tramWalk w => some (w, 0xCA, true, false, fun a =>
      { a with total := ((List.range 8).filter (fun l => mbit a.a.m l && mbit a.b.m l)).length })
  | .hcopye w => some (w, 0xCB, true, false, fun a =>
      let a := { a with desc := 0, total := 1 }
      if a.a.m = 0xFF ∧ a.b.m = 0xFF then a else a.reply VReg.zero)
  | _ => none

end Sys2Proof
end

