-- ==== Sys2Proof/Safety/Foreman.lean ====
section
/-! DEFINITION. What the foreman instructions come to, as rules over a thread's registers (11_foreman), and the frames of a thread's access. -/

namespace Sys2Proof

open Machine

/-- The current thread holds the block of every register named (R311). -/
abbrev Holds (s : Machine.State) (l : List Reg) : Prop := ∀ r ∈ l, (s.thread s.cur.thread).holds r = true

/-- The current thread is a foreman thread, which has the instructions of ops 0x30 to 0x3D and 0x3F (R536). -/
abbrev OnForeman (s : Machine.State) : Prop := isAssay s.cur.thread = false

/-- An instruction that writes rd from registers of its thread alone: rd, the registers named, its value and its bytes. -/
structure RegRule where
  rd : Reg
  names : List Reg
  value : Thread → DWord
  size : Nat

/-- A rule of the ALU group over two operands. -/
def aluOf (rd ra rb : Reg) (f : DWord → DWord → DWord) : Option RegRule :=
  some ⟨rd, [rd, ra, rb], fun x => f (x.reg ra) (x.reg rb), 4⟩

/-- The ALU group (R319, R320). -/
def aluRule : Instr → Option RegRule
  | .foremanAdd rd ra rb => aluOf rd ra rb (fun a b => a + b)
  | .foremanSub rd ra rb => aluOf rd ra rb (fun a b => a - b)
  | .foremanAnd rd ra rb => aluOf rd ra rb (fun a b => a &&& b)
  | .foremanOr rd ra rb => aluOf rd ra rb (fun a b => a ||| b)
  | .foremanXor rd ra rb => aluOf rd ra rb (fun a b => a ^^^ b)
  | .foremanAndn rd ra rb => aluOf rd ra rb (fun a b => a &&& ~~~b)
  | .foremanShl rd ra rb => aluOf rd ra rb (fun a b => BitVec.ofNat 64 (a.toNat * 2 ^ (b.toNat % 64)))
  | .foremanShr rd ra rb => aluOf rd ra rb (fun a b => BitVec.ofNat 64 (a.toNat / 2 ^ (b.toNat % 64)))
  | .foremanSha rd ra rb => aluOf rd ra rb (fun a b => BitVec.ofInt 64 (a.toInt / 2 ^ (b.toNat % 64)))
  | .foremanMul rd ra rb => aluOf rd ra rb (fun a b => BitVec.ofInt 64 (a.toInt * b.toInt))
  | .foremanMulh rd ra rb => aluOf rd ra rb (fun a b => (a.signExtend 128 * b.signExtend 128).extractLsb' 64 64)
  | .foremanMulhu rd ra rb => aluOf rd ra rb (fun a b => (a.zeroExtend 128 * b.zeroExtend 128).extractLsb' 64 64)
  | .foremanDiv rd ra rb => aluOf rd ra rb (fun a b => if b = 0 then -1 else a.sdiv b)
  | .foremanDivu rd ra rb => aluOf rd ra rb (fun a b => if b = 0 then -1 else a.udiv b)
  | .foremanRem rd ra rb => aluOf rd ra rb (fun a b => if b = 0 then a else a.srem b)
  | .foremanRemu rd ra rb => aluOf rd ra rb (fun a b => if b = 0 then a else a.umod b)
  | .foremanMin rd ra rb => aluOf rd ra rb (fun a b => BitVec.ofInt 64 (min a.toInt b.toInt))
  | .foremanMax rd ra rb => aluOf rd ra rb (fun a b => BitVec.ofInt 64 (max a.toInt b.toInt))
  | .foremanMinu rd ra rb => aluOf rd ra rb (fun a b => BitVec.ofNat 64 (min a.toNat b.toNat))
  | .foremanMaxu rd ra rb => aluOf rd ra rb (fun a b => BitVec.ofNat 64 (max a.toNat b.toNat))
  | .foremanClz rd ra => some ⟨rd, [rd, ra], fun x => (x.reg ra).clz, 4⟩
  | .foremanPopc rd ra => some ⟨rd, [rd, ra], fun x => BitVec.ofNat 64 ((List.range 64).filter (fun i => (x.reg ra).getLsbD i)).length, 4⟩
  | _ => none

/-- The immediate forms (R321). -/
def immRule : Instr → Option RegRule
  | .addi rd ra imm => some ⟨rd, [rd, ra], fun x => BitVec.ofInt 64 ((x.reg ra).toInt + imm.toInt), 4⟩
  | .andi rd ra imm => some ⟨rd, [rd, ra], fun x => x.reg ra &&& BitVec.ofInt 64 imm.toInt, 4⟩
  | .ori rd ra imm => some ⟨rd, [rd, ra], fun x => x.reg ra ||| BitVec.ofInt 64 imm.toInt, 4⟩
  | .xori rd ra imm => some ⟨rd, [rd, ra], fun x => x.reg ra ^^^ BitVec.ofInt 64 imm.toInt, 4⟩
  | .shli rd ra sh => some ⟨rd, [rd, ra], fun x => BitVec.ofNat 64 ((x.reg ra).toNat * 2 ^ sh.toNat), 4⟩
  | .shri rd ra sh => some ⟨rd, [rd, ra], fun x => BitVec.ofNat 64 ((x.reg ra).toNat / 2 ^ sh.toNat), 4⟩
  | .shai rd ra sh => some ⟨rd, [rd, ra], fun x => BitVec.ofInt 64 ((x.reg ra).toInt / 2 ^ sh.toNat), 4⟩
  | .li rd imm => some ⟨rd, [rd], fun _ => BitVec.ofInt 64 imm.toInt, 8⟩
  | .addl rd ra imm => some ⟨rd, [rd, ra], fun x => BitVec.ofInt 64 ((x.reg ra).toInt + imm.toInt), 8⟩
  | _ => none

/-- The operands of the compares (R322): the registers named, a and b. -/
def cmpRule : Instr → Option (List Reg × (Thread → DWord × DWord))
  | .cmp ra rb => some ([ra, rb], fun x => (x.reg ra, x.reg rb))
  | .cmpi ra imm => some ([ra], fun x => (x.reg ra, BitVec.ofInt 64 imm.toInt))
  | _ => none

/-- A thread after a compare of a and b (R322). -/
structure SetsFlags (x y : Thread) (a b : DWord) : Prop where
  z : y.z = (a - b == 0)
  n : y.n = (a - b).msb
  c : y.c = decide (b.toNat ≤ a.toNat)
  v : y.v = BitVec.ssubOverflow a b
  pc : y.pc = x.pc + 4
  rest : { y with z := x.z, n := x.n, c := x.c, v := x.v, pc := x.pc } = x

/-- The registers that a foreman instruction names, in the order of its fields (R311, log entry 33). -/
def namedRegs : Instr → List Reg
  | .ldN8 rd ra _ => [rd, ra] | .ldS8 rd ra _ => [rd, ra] | .ldN16 rd ra _ => [rd, ra] | .ldS16 rd ra _ => [rd, ra]
  | .ldN32 rd ra _ => [rd, ra] | .ldS32 rd ra _ => [rd, ra] | .ldB64 rd ra _ => [rd, ra]
  | .stB8 rd ra _ => [rd, ra] | .stB16 rd ra _ => [rd, ra] | .stB32 rd ra _ => [rd, ra] | .stB64 rd ra _ => [rd, ra]
  | .foremanAmoAdd rd ra rb _ _ => [rd, ra, rb] | .foremanAmoAnd rd ra rb _ _ => [rd, ra, rb]
  | .foremanAmoOr rd ra rb _ _ => [rd, ra, rb] | .foremanAmoXor rd ra rb _ _ => [rd, ra, rb]
  | .foremanAmoMins rd ra rb _ _ => [rd, ra, rb] | .foremanAmoMaxs rd ra rb _ _ => [rd, ra, rb]
  | .foremanAmoMinu rd ra rb _ _ => [rd, ra, rb] | .foremanAmoMaxu rd ra rb _ _ => [rd, ra, rb]
  | .foremanAmoFadd rd ra rb _ _ => [rd, ra, rb] | .foremanAmoFmin rd ra rb _ _ => [rd, ra, rb]
  | .foremanAmoFmax rd ra rb _ _ => [rd, ra, rb] | .foremanAmoXchg rd ra rb _ _ => [rd, ra, rb]
  | .foremanAmoCas rd ra rb _ _ => [rd, ra, rb] | .waita rd ra rb _ => [rd, ra, rb]
  | .jr rd ra _ => [rd, ra]
  | .wload rd ra rb => [rd, ra, rb] | .wgoStart ra => [ra] | .wgoResume ra => [ra] | .wphase ra => [ra]
  | .wsave rd ra => [rd, ra] | .wrest rd ra => [rd, ra]
  | .wqueryWstat rd => [rd] | .wqueryPhases rd => [rd] | .wquerySaveSize rd => [rd]
  | .rdsReportHead rd ra => [rd, ra] | .rdsReportPop rd => [rd] | .rdsOperandStatus rd ra rb => [rd, ra, rb]
  | .rdsAccumulatorStatus rd ra rb => [rd, ra, rb] | .rdsSyncCounter rd ra => [rd, ra] | .rdsPoisonRecord rd => [rd]
  | .rdsElementState rd ra rb => [rd, ra, rb]
  | .tqpush ra => [ra] | .tqpushTry ra => [ra] | .tqpop rd ra => [rd, ra] | .hcopy rd ra => [rd, ra] | .hcopyTry rd ra => [rd, ra]
  | .hqueryHstat0 rd ra => [rd, ra] | .hqueryHstat1 rd ra => [rd, ra] | .publish ra _ => [ra]
  | .rvbeg rd => [rd] | .rvkeep ra => [ra] | .rvend ra => [ra] | .invr rd ra rb _ _ => [rd, ra, rb]
  | .barw rd ra rb _ => [rd, ra, rb] | .semaP rd ra _ => [rd, ra] | .semaTry rd ra _ => [rd, ra]
  | .semaV rd ra rb _ => [rd, ra, rb] | .semaSet rd ra rb _ => [rd, ra, rb]
  | i => match aluRule i, immRule i, cmpRule i with
    | some r, _, _ => r.names
    | _, some r, _ => r.names
    | _, _, some r => r.1
    | _, _, _ => []

/-! ### A thread's accesses (R323 to R327) -/

/-- The leaf through which a place translates an address: a cached copy, or what its walk finds. -/
def leafFor (s : Machine.State) (p : TransPlace) (asid va : Nat) : Option Tlb :=
  match s.cacheFind p asid va with
  | some t => some t.2
  | none => match s.walk p.die asid va with
    | .leaf t => some t
    | _ => none

/-- Nothing but caches of translations and the eight bytes of the leaf used has changed (R390, R391); where the location lies on another die, the
canary has been told (R462). -/
structure TransOnly (s t : Machine.State) (leaf : Option Tlb) : Prop where
  elems : ∀ e, t.elem e = { s.elem e with tlb := (t.elem e).tlb }
  quads : ∀ q, t.quad q = { s.quad q with tlb := (t.quad q).tlb }
  dies : ∀ d, t.die d = { s.die d with tlb := (t.die d).tlb }
  threads : CanariesOnly s t
  memory : ∀ a, (∀ l, leaf = some l → a < l.leafAt ∨ l.leafAt + 8 ≤ a) → t.byte a = s.byte a
  rest : { t with mem := s.mem, elems := s.elems, quads := s.quads, dies := s.dies, threads := s.threads } = s

/-- Where a thread's translations are used (R391). -/
def threadPlace (n : Nat) : TransPlace := ⟨none, some (quadOfThread n), dieOfThread n⟩

/-- Fewer than 32 bytes have been written at an address (R216, R351, R488). Where the write leaves unwritten part of a unit that an uncorrectable error
lies in, the error is gone, the sector is poisoned and a record is written. -/
structure StoredAt (s t : Machine.State) (a : Nat) (l : List Byte) (x : Bool) : Prop where
  stored : s.findsBad a (within a l.length) = false → ∀ k, k < l.length → t.byte (a + k) = l.getD k 0
  kept : ∀ b, b < a ∨ a + l.length ≤ b → (s.findsBad a (within a l.length) = true → ∀ d, ¬ RingByte s d b) → t.byte b = s.byte b
  poisoned : t.poisoned a = (x || s.poisoned a || s.findsBad a (within a l.length))
  bad : ∀ b, sectorOf b = sectorOf a → t.isBad b = (s.isBad b && !s.findsBad a (within a l.length))
  marks : ∀ b, sectorOf b ≠ sectorOf a → (s.findsBad a (within a l.length) = true → ∀ d, ¬ RingByte s d b) → SameMarks s t b
  elems : ∀ e, t.elem e = { s.elem e with watches := (t.elem e).watches }
  works : ∀ h, t.work h = { s.work h with report := (t.work h).report, poison := (t.work h).poison, poisonBy := (t.work h).poisonBy,
                                          poisonLast := (t.work h).poisonLast }
  tiles : ∀ n, t.tile n = { s.tile n with undo := (t.tile n).undo }
  rest : { t with mem := s.mem, poison := s.poison, badSec := s.badSec, elems := s.elems, works := s.works, tiles := s.tiles,
                  dies := s.dies, threads := s.threads } = s

/-- A load: its fields, its bytes and rd's value from them (R323). -/
structure LoadRule where
  rd : Reg
  ra : Reg
  imm : BitVec 14
  bytes : Nat
  value : Nat → DWord

def loadRule : Instr → Option LoadRule
  | .ldN8 rd ra imm => some ⟨rd, ra, imm, 1, fun v => (BitVec.ofNat 8 v).zeroExtend 64⟩
  | .ldS8 rd ra imm => some ⟨rd, ra, imm, 1, fun v => (BitVec.ofNat 8 v).signExtend 64⟩
  | .ldN16 rd ra imm => some ⟨rd, ra, imm, 2, fun v => (BitVec.ofNat 16 v).zeroExtend 64⟩
  | .ldS16 rd ra imm => some ⟨rd, ra, imm, 2, fun v => (BitVec.ofNat 16 v).signExtend 64⟩
  | .ldN32 rd ra imm => some ⟨rd, ra, imm, 4, fun v => (BitVec.ofNat 32 v).zeroExtend 64⟩
  | .ldS32 rd ra imm => some ⟨rd, ra, imm, 4, fun v => (BitVec.ofNat 32 v).signExtend 64⟩
  | .ldB64 rd ra imm => some ⟨rd, ra, imm, 8, fun v => BitVec.ofNat 64 v⟩
  | _ => none

/-- A store: its fields and its bytes (R323). -/
structure StoreRule where
  rd : Reg
  ra : Reg
  imm : BitVec 14
  bytes : Nat

def storeRule : Instr → Option StoreRule
  | .stB8 rd ra imm => some ⟨rd, ra, imm, 1⟩
  | .stB16 rd ra imm => some ⟨rd, ra, imm, 2⟩
  | .stB32 rd ra imm => some ⟨rd, ra, imm, 4⟩
  | .stB64 rd ra imm => some ⟨rd, ra, imm, 8⟩
  | _ => none

/-- An atomic: its fields, the new word from the old word, rd and rb, whether that is exceptional, and f where it writes it (R227, R325). -/
structure AmoRule where
  rd : Reg
  ra : Reg
  rb : Reg
  new : Word → Word → Word → Word
  exc : Word → Word → Bool
  flag : Option (Word → Word → Bool)

/-- An atomic of R227 but CAS. -/
def amoOf (rd ra rb : Reg) (f : Word → Word → Word) : Option AmoRule := some ⟨rd, ra, rb, fun w _ x => f w x, fun _ _ => false, none⟩

def amoRule : Instr → Option AmoRule
  | .foremanAmoAdd rd ra rb _ _ => amoOf rd ra rb (fun w x => w + x)
  | .foremanAmoAnd rd ra rb _ _ => amoOf rd ra rb (fun w x => w &&& x)
  | .foremanAmoOr rd ra rb _ _ => amoOf rd ra rb (fun w x => w ||| x)
  | .foremanAmoXor rd ra rb _ _ => amoOf rd ra rb (fun w x => w ^^^ x)
  | .foremanAmoMins rd ra rb _ _ => amoOf rd ra rb (fun w x => BitVec.ofInt 32 (min w.toInt x.toInt))
  | .foremanAmoMaxs rd ra rb _ _ => amoOf rd ra rb (fun w x => BitVec.ofInt 32 (max w.toInt x.toInt))
  | .foremanAmoMinu rd ra rb _ _ => amoOf rd ra rb (fun w x => BitVec.ofNat 32 (min w.toNat x.toNat))
  | .foremanAmoMaxu rd ra rb _ _ => amoOf rd ra rb (fun w x => BitVec.ofNat 32 (max w.toNat x.toNat))
  | .foremanAmoFadd rd ra rb _ _ => some ⟨rd, ra, rb, fun w _ x => BitVec.ofNat 32 (faddE .f32 w.toNat x.toNat).1,
      fun w x => (faddE .f32 w.toNat x.toNat).2, none⟩
  | .foremanAmoFmin rd ra rb _ _ => amoOf rd ra rb (fun w x => BitVec.ofNat 32 (fminE .f32 w.toNat x.toNat))
  | .foremanAmoFmax rd ra rb _ _ => amoOf rd ra rb (fun w x => BitVec.ofNat 32 (fmaxE .f32 w.toNat x.toNat))
  | .foremanAmoXchg rd ra rb _ _ => amoOf rd ra rb (fun _ x => x)
  | .foremanAmoCas rd ra rb _ _ => some ⟨rd, ra, rb, fun w e x => if w = e then x else w, fun _ _ => false, some (fun w e => w != e)⟩
  | _ => none

/-- The address of a thread's access and what it must be a multiple of (R323, R325, R327, R329, R344, R345). -/
def alignRule : Instr → Option (List Reg × (Thread → DWord) × Nat)
  | .waita rd ra rb _ => some ([rd, ra, rb], fun x => x.reg ra, 4)
  | .jr rd ra _ => some ([rd, ra], fun x => x.reg ra, 4)
  | .tqpush ra => some ([ra], fun x => x.reg ra, 64)
  | .tqpushTry ra => some ([ra], fun x => x.reg ra, 64)
  | i => match loadRule i, storeRule i, amoRule i with
    | some r, _, _ => some ([r.rd, r.ra], fun x => effAddr x r.ra r.imm, r.bytes)
    | _, some r, _ => some ([r.rd, r.ra], fun x => effAddr x r.ra r.imm, r.bytes)
    | _, _, some r => some ([r.rd, r.ra, r.rb], fun x => x.reg r.ra, 4)
    | _, _, _ => none

/-! ### Control flow (R133, R312, R328 to R333) -/

/-- A branch condition in words of the flags (R133). -/
def CondTrue (x : Thread) : Cond → Prop
  | .al => True
  | .eq => x.z = true
  | .ne => x.z = false
  | .lt => x.n ≠ x.v
  | .ge => x.n = x.v
  | .gt => x.z = false ∧ x.n = x.v
  | .le => x.z = true ∨ x.n ≠ x.v
  | .hs => x.c = true
  | .lo => x.c = false
  | .hi => x.c = true ∧ x.z = false
  | .ls => x.c = false ∨ x.z = true
  | .mi => x.n = true
  | .pl => x.n = false
  | .vs => x.v = true
  | .fs => x.f = true
  | .fc => x.f = false

/-- A thread after an instruction that writes a register and goes on at an address. -/
structure Jumps (x y : Thread) (rd : Nat) (v pc : DWord) : Prop where
  value : ∀ r, y.reg r = if r = rd ∧ r ≠ 0 then v else x.reg r
  pc : y.pc = pc
  rest : { y with g := x.g, pc := x.pc } = x

/-- True for a register of a block that a MASK names (R312): bit n - 1 names block n. -/
def inMask (mask : BitVec 7) (r : Nat) : Bool := r / 8 ≠ 0 && mask.getLsbD (r / 8 - 1)

/-- A thread that has taken the blocks of a MASK (R312): a frame more, the registers of the blocks zero, f = 0. -/
structure TakesBlocks (x y : Thread) (mask : BitVec 7) : Prop where
  frames : ∃ fr, y.frames = fr :: x.frames ∧ fr.mask = mask
  taken : ∀ r, r < 64 → inMask mask r = true → y.reg r = 0 ∧ y.holds r = true
  other : ∀ r, inMask mask r = false → y.reg r = x.reg r ∧ (r < 64 → y.holds r = x.holds r)
  f : y.f = false
  pc : y.pc = x.pc + 4
  wait : y.wait = .none
  rest : { y with g := x.g, held := x.held, frames := x.frames, f := x.f, pc := x.pc, wait := x.wait } = x

/-- A thread that has returned the blocks of a MASK which thread y had taken (R312): each block has its earlier binding. -/
structure ReturnsBlocks (y x z : Thread) (mask : BitVec 7) : Prop where
  frames : z.frames = y.frames
  back : ∀ r, r < 64 → inMask mask r = true → z.holds r = y.holds r ∧ (y.holds r = true → z.reg r = y.reg r)
  other : ∀ r, inMask mask r = false → z.reg r = x.reg r ∧ (r < 64 → z.holds r = x.holds r)
  pc : z.pc = x.pc + 4
  rest : { z with g := x.g, held := x.held, frames := x.frames, pc := x.pc } = x

/-- A thread that has gone to wait: all but its wait, its place in the order of waiting and its clock is as it was. -/
structure Sleeps (x y : Thread) (w : Wait) : Prop where
  wait : y.wait = w
  rest : { y with wait := x.wait, since := x.since, waitAt := x.waitAt } = x

/-- Nothing but threads has changed, and the counter that orders waits. -/
structure OnlySleeps (s t : Machine.State) (n : Nat) (w : Wait) : Prop where
  thread : Sleeps (s.thread n) (t.thread n) w
  others : ∀ m, m ≠ n → t.thread m = s.thread m
  rest : { t with threads := s.threads, age := s.age } = s

/-! ### Traps and system registers (R316 to R318, R330 to R332) -/

/-- A state after a trap has been taken by a thread: beside the thread, at most an error record has been written. -/
structure TrapTaken (s t : Machine.State) (n : Nat) (pc : DWord) (i : TrapInfo) : Prop where
  thread : TakesTrap (s.thread n) (t.thread n) pc i
  faultva : (t.thread n).faultva = if transCause i.cause then BitVec.ofNat 56 i.va else (s.thread n).faultva
  others : ∀ m, m ≠ n → t.thread m = s.thread m
  memory : ∀ b, (∀ d, ¬ RingByte s d b) → t.byte b = s.byte b ∧ SameMarks s t b
  works : ∀ h, t.work h = { s.work h with report := (t.work h).report }
  rest : { t with mem := s.mem, poison := s.poison, badSec := s.badSec, threads := s.threads, dies := s.dies, works := s.works } = s

/-- Numbers of registers whose reading changes state: GUARDDROP, THERMQ, DROOP, ALERT, DROPPED, CWROW and CANARY (R10, R316). -/
def readClears (num : Nat) : Bool :=
  num == 0x008 || num == 0x121 || num == 0x125 || num == 0x128 || num == 0x132 || num == 0x139 || num == 0x13B

/-- One die has changed as given and nothing else. -/
def OnlyDie (s t : Machine.State) (d : Nat) (x : Die) : Prop :=
  t.die d = x ∧ (∀ k, k ≠ d → t.die k = s.die k) ∧ { t with dies := s.dies } = s

/-- One quad has changed as given and nothing else. -/
def OnlyQuad (s t : Machine.State) (q : Nat) (x : Quad) : Prop :=
  t.quad q = x ∧ (∀ k, k ≠ q → t.quad k = s.quad k) ∧ { t with quads := s.quads } = s

/-- One element has changed as given and nothing else. -/
def OnlyElem (s t : Machine.State) (e : Nat) (x : Elem) : Prop :=
  t.elem e = x ∧ (∀ k, k ≠ e → t.elem k = s.elem k) ∧ { t with elems := s.elems } = s

/-- One working has changed as given and nothing else. -/
def OnlyWork (s t : Machine.State) (h : Nat) (x : Working) : Prop :=
  t.work h = x ∧ (∀ k, k ≠ h → t.work k = s.work k) ∧ { t with works := s.works } = s

/-! ### Working control (R333 to R345), synchronization (R354 to R356) -/

/-- A thread after an instruction that sets f and goes on; it waits for nothing. Its canary may have been told of an event. -/
structure EndsWithF (x y : Thread) (f : Bool) : Prop where
  f : y.f = f
  pc : y.pc = x.pc + 4
  wait : y.wait = .none
  rest : { y with f := x.f, pc := x.pc, wait := x.wait, canIdle := x.canIdle, canSeen := x.canSeen } = x

/-- A thread after an instruction that writes rd and f and goes on; it waits for nothing. -/
structure WritesRegF (x y : Thread) (rd : Nat) (v : DWord) (f : Bool) : Prop where
  value : ∀ r, y.reg r = if r = rd ∧ r ≠ 0 then v else x.reg r
  f : y.f = f
  pc : y.pc = x.pc + 4
  wait : y.wait = .none
  rest : { y with g := x.g, f := x.f, pc := x.pc, wait := x.wait } = x

/-- Threads other than one are as they were, but that a canary may have been told of an event (R462). -/
def ThreadsKept (s t : Machine.State) (n : Nat) : Prop :=
  ∀ m, m ≠ n → t.thread m = { s.thread m with canIdle := (t.thread m).canIdle, canSeen := (t.thread m).canSeen }

/-- A thread's instruction has changed its working as given. -/
structure WorkStep (s t : Machine.State) (h n : Nat) (w : Working) : Prop where
  work : t.work h = w
  works : ∀ k, k ≠ h → t.work k = s.work k
  threads : ThreadsKept s t n
  rest : { t with works := s.works, threads := s.threads } = s

/-- A thread's instruction has written a counter of its quad, in all three copies, and taken it into use (R354, R377). -/
structure CounterStep (s t : Machine.State) (n c : Nat) (v : DWord) : Prop where
  copies : ∀ k, (t.quad (n / 4)).copies k = if k = c then (v, v, v) else (s.quad (n / 4)).copies k
  quad : { t.quad (n / 4) with sync := (s.quad (n / 4)).sync, syncOwner := (s.quad (n / 4)).syncOwner } = s.quad (n / 4)
  quads : ∀ q, q ≠ n / 4 → t.quad q = s.quad q
  threads : ∀ m, m ≠ n → t.thread m = s.thread m
  rest : { t with quads := s.quads, threads := s.threads } = s

/-- The three copies of a counter agree on a value. -/
abbrev CounterIs (s : Machine.State) (n c : Nat) (v : DWord) : Prop := (s.quad (n / 4)).copies c = (v, v, v)

/-- The value that a WQUERY observes at once (R335, R336). -/
def queryRule : Instr → Option (Reg × (Working → DWord))
  | .wqueryWstat rd => some (rd, fun w => w.wstat)
  | .wqueryPhases rd => some (rd, fun w => BitVec.ofNat 64 w.phases)
  | _ => none

/-- What RDS, HQUERY and WQUERY of the save size read: rd, the registers named, and the value in a state for a thread (R308, R343, R377). -/
def readRule : Instr → Option (Reg × List Reg × (Machine.State → Nat → DWord))
  | .rdsReportHead rd ra => some (rd, [rd, ra], fun s n => reportWord (s.work (s.thread n).bound).report ((s.thread n).reg ra).toNat)
  | .rdsOperandStatus rd ra rb => some (rd, [rd, ra, rb], fun s n =>
      match s.islandOf n ((s.thread n).reg ra).toNat with
      | some i => if ((s.thread n).reg rb).toNat < 64 then BitVec.ofNat 64 ((s.island i).op ((s.thread n).reg rb).toNat).status else 0
      | none => 0)
  | .rdsAccumulatorStatus rd ra rb => some (rd, [rd, ra, rb], fun s n =>
      match s.islandOf n ((s.thread n).reg ra).toNat with
      | some i => if ((s.thread n).reg rb).toNat < 8 then BitVec.ofNat 64 ((s.island i).acc ((s.thread n).reg rb).toNat).status else 0
      | none => 0)
  | .rdsPoisonRecord rd => some (rd, [rd], fun s n =>
      match (s.work (s.thread n).bound).poison with
      | some o => BitVec.ofNat 64 (o + 2 ^ 16)
      | none => 0)
  | .rdsElementState rd ra rb => some (rd, [rd, ra, rb], fun s n =>
      let w := s.work (s.thread n).bound
      let i := ((s.thread n).reg ra).toNat
      if i < 8 * (w.width * w.height) then (s.elemWords (elemOfBlock w (i / 8) (i % 8))).getD ((s.thread n).reg rb).toNat 0 else 0)
  | .wquerySaveSize rd => some (rd, [rd], fun s n => BitVec.ofNat 64 (s.saveImage (s.thread n).bound false).length)
  | .hqueryHstat0 rd ra => some (rd, [rd, ra], fun s n => ((s.die (dieOfThread n)).hoist (((s.thread n).reg ra).toNat % 32)).hstat0)
  | .hqueryHstat1 rd ra => some (rd, [rd, ra], fun s n => ((s.die (dieOfThread n)).hoist (((s.thread n).reg ra).toNat % 32)).hstat1)
  | _ => none

end Sys2Proof
end

