-- ==== Sys2Proof/Safety/Registers.lean ====
section
/-! DEFINITION. The system registers in the words of their tables (R10, R316 to R318, R365, R414 to R421, R429, R443, R444, R453, R454, R463, R465,
R471, R481, R482, R492, R500, R525): the numbers listed, what each reads as, what a read clears and what a write leaves. -/

namespace Sys2Proof

open Machine

/-- The registers of a thread, each true where a program may write it, and true where it takes an index (R316, R465, R471, R481, R492). -/
def threadRegisters : List (Nat × Bool × Bool) :=
  [(0x000, true, false), (0x001, true, false), (0x002, false, false), (0x003, true, false), (0x004, false, false), (0x005, false, false),
    (0x006, false, false), (0x007, true, false), (0x008, false, false), (0x009, true, false), (0x00A, true, false), (0x00B, false, false),
    (0x010, true, true)]

/-- The registers of a die, which no program may write, each true where it takes an index. -/
def dieRegisters : List (Nat × Bool) :=
  [(0x100, false), (0x101, false), (0x110, false), (0x120, false), (0x121, true), (0x122, true), (0x123, true), (0x124, true), (0x125, true),
    (0x126, false), (0x127, true), (0x128, false), (0x130, false), (0x131, false), (0x132, false), (0x133, false), (0x134, false), (0x138, false),
    (0x139, true), (0x13A, true), (0x13B, true), (0x13C, false), (0x13D, false)]

/-- A number is listed. -/
abbrev Listed (num : Nat) : Prop := num ∈ threadRegisters.map (fun p => p.1) ∨ num ∈ dieRegisters.map (fun p => p.1)

/-- A register takes an index. -/
abbrev Indexed (num : Nat) : Prop := (∃ p ∈ threadRegisters, p.1 = num ∧ p.2.2 = true) ∨ (∃ p ∈ dieRegisters, p.1 = num ∧ p.2 = true)

/-- A program may write a register. -/
abbrev UserWritable (num : Nat) : Prop := ∃ p ∈ threadRegisters, p.1 = num ∧ p.2.1 = true

/-- A word of fields, each a low bit and a value. -/
def fields (l : List (Nat × Nat)) : DWord := BitVec.ofNat 64 (l.foldr (fun p n => p.2 * 2 ^ p.1 + n) 0)

/-- What a read of an RC field returns in a cycle, and what it leaves: an update of the cycle itself is not returned, and stands after (R10). -/
def rcShown (r : RcSide) (now v : Nat) : Nat := if r.cyc = some now then r.old else v
def rcKept (r : RcSide) (now : Nat) : Nat := if r.cyc = some now then r.add else 0

/-- The oldest alert, of those that no sample of the present assay cycle raised (R421, R422). -/
def firstAlert (x : Die) : Option DWord :=
  match x.alertWas with
  | some (c, l) => if c = x.cycles then l.head? else x.alerts.head?
  | none => x.alerts.head?

/-- The element that MACSEL names with the macro in it (R481). -/
def selected (s : Machine.State) (n : Nat) : Option (Nat × Access) :=
  let w := s.work (s.thread n).bound
  let i := (s.thread n).macsel.toNat
  if i / 8 < w.width * w.height then (s.elem (elemOfBlock w (i / 8) (i % 8))).mac.map (fun a => (elemOfBlock w (i / 8) (i % 8), a)) else none

/-- What a register of a thread's own or of its die reads as. -/
def regShows (s : Machine.State) (n num idx : Nat) : DWord :=
  let t := s.thread n
  let w := s.work t.bound
  let d := dieOfThread n
  let x := s.die d
  let q := s.quad (d * 48 + idx)
  let now := x.cycles
  match num with
  | 0x000 => fields [(0, t.z.toNat), (1, t.n.toNat), (2, t.c.toNat), (3, t.v.toNat), (4, t.f.toNat), (5, t.intrap.toNat), (6, (isAssay n).toNat),
      (8, n % 4), (10, if isAssay n then 0 else n / 4 % 48), (16, d)]
  | 0x001 => t.trappc
  | 0x002 => t.trapcause
  | 0x003 => t.trapvec
  | 0x004 => t.traparg.zeroExtend 64
  | 0x005 => fields [(0, w.regions.length), (3, w.keeps.length), (8, (w.regions.head?.map (fun g => min g.retry 255)).getD 0)]
  | 0x006 => BitVec.ofNat 64 t.cycle
  | 0x007 => match w.poison with
    | some o => fields [(0, o), (16, 1)]
    | none => 0
  | 0x008 => fields [(0, rcShown w.guardSide (s.quad (quadOfThread n)).cyc w.guardCount), (32, w.guardFirst.toNat)]
  | 0x009 => t.macsel.zeroExtend 64
  | 0x00A => match selected s n with
    | some (_, a) => fields ([(0, a.op), (8, 1), (32, a.prg % 2 ^ 32)] ++
        if a.op = 0xD4 then [(16, a.b.p.a1.toNat % 256), (24, (a.desc.getLsbD 26).toNat)] else [])
    | none => 0
  | 0x00B => t.faultva.zeroExtend 64
  | 0x010 => if w.islands = true ∧ idx < w.tileCount then
      (match (s.island (w.tileAt idx)).tabNew with
      | some v => (v &&& 0x0001FFFFFFFFFFFF) ||| ((s.island (w.tileAt idx)).tab &&& 0xFFFE000000000000)
      | none => (s.island (w.tileAt idx)).tab) else 0
  | 0x100 => if isAssay n = true ∧ d = 0 then fields [(0, x.arbBypass.toNat), (8, x.raceOk.toNat), (9, x.compact.toNat)] else 0
  | 0x101 => 0xFF
  | 0x110 => x.astbase
  | 0x120 => fields [(0, x.thot.toNat), (16, x.tcool.toNat), (32, x.thPeriod.toNat), (40, x.thEn.toNat)]
  | 0x121 => if idx < 48 then fields [(0, q.temp.toNat), (16, rcShown q.peakSide (s.die ((d * 48 + idx) / 48)).cycles q.peak.toNat)] else 0
  | 0x122 => if idx < 48 then (q.stepNew.getD q.step).zeroExtend 64 else 0
  | 0x123 => if idx < 48 then fields [(0, q.fset.toNat), (8, 28 - q.derate.toNat), (16, min q.fset.toNat (28 - q.derate.toNat))] else 0
  | 0x124 => if idx < 48 then fields [(0, (Config.fuseBirth (d * 48 + idx)).toNat), (16, q.wearNow.toNat), (32, q.derate.toNat), (40, q.limit.toNat)]
      else 0
  | 0x125 => if idx < 48 then fields [(0, q.thresh.toNat), (16, rcShown q.droopSide (s.die ((d * 48 + idx) / 48)).cycles q.droopCount.toNat)] else 0
  | 0x126 => fields [(0, s.ptpNs.toNat), (62, s.ptpLock.toNat), (63, s.ptpValid.toNat)]
  | 0x127 => if idx < 64 ∧ idx % 8 < 6 then BitVec.ofNat 64 ((SMap.get 0 x.meas (idx / 8)).toNat / 2 ^ (64 * (idx % 8))) else 0
  | 0x128 => (firstAlert x).getD 0
  | 0x130 => fields [(0, x.ringEn.toNat), (1, x.ringSize.toNat), (12, x.ringBase % 2 ^ 36)]
  | 0x131 => fields [(0, x.head), (32, x.tail)]
  | 0x132 => BitVec.ofNat 64 (rcShown x.dropSide now x.dropped.toNat)
  | 0x133 => x.errctl.zeroExtend 64
  | 0x134 => fields [(0, x.ceThr.toNat), (8, x.ceWin.toNat), (16, x.mmThr.toNat), (20, x.rpThr.toNat), (24, x.rpWin.toNat), (32, x.rvMax.toNat)]
  | 0x138 => fields [(0, x.cwInt.toNat), (5, x.cwEn.toNat), (6, x.cwHold.toNat)]
  | 0x139 => let c := SMap.get {} x.cwrow idx
    if idx < 96 then fields [(0, c.col.toNat), (7, c.watch.toNat), (8, c.subcol.toNat), (15, c.sub.toNat), (16, c.spsus.toNat),
      (32, rcShown c.mmSide now c.mismatch.toNat)] else 0
  | 0x13A => if idx < 192 then SMap.get 0 x.suspect idx else 0
  | 0x13B => let y := s.thread (d * 192 + idx)
    if idx < 192 ∧ y.bound ≠ 0 then fields [(0, y.canWin.toNat % 32), (5, y.canEn.toNat), (8, y.canIdle % 2 ^ 32),
      (40, rcShown y.canSide now y.canStalls % 256)] else 0
  | 0x13C => fields [(0, x.wkHandle.toNat), (16, x.wkCause.toNat), (24, x.wkGo.toNat)]
  | 0x13D => x.bootstat
  | _ => 0

/-- One thread has changed as given and nothing else. -/
def ThreadIs (s u : Machine.State) (n : Nat) (x : Thread) : Prop := OnlyThread s u n ∧ u.thread n = x

/-- What a read of a register leaves: the fields of GUARDDROP, THERMQ, DROOP, ALERT, ERRDROP, CWROW and CANARY that a read clears are cleared, and
nothing else changes. -/
def RegRead (s u : Machine.State) (n num idx : Nat) : Prop :=
  let w := s.work (s.thread n).bound
  let d := dieOfThread n
  let x := s.die d
  let q := s.quad (d * 48 + idx)
  let qnow := (s.die ((d * 48 + idx) / 48)).cycles
  let y := s.thread (d * 192 + idx)
  let tnow := (s.quad (quadOfThread n)).cyc
  let c := SMap.get {} x.cwrow idx
  if num = 0x008 ∧ w.guardCount ≠ 0 then OnlyWork s u (s.thread n).bound { w with
    guardCount := rcKept w.guardSide tnow
    guardFirst := if rcKept w.guardSide tnow = 0 then w.guardFirst else w.guardNew
    guardSide := { w.guardSide with old := 0 } }
  else if num = 0x121 ∧ idx < 48 then
    OnlyQuad s u (d * 48 + idx) { q with peak := BitVec.ofNat 12 (rcKept q.peakSide qnow), peakSide := { q.peakSide with old := 0 } }
  else if num = 0x125 ∧ idx < 48 then
    OnlyQuad s u (d * 48 + idx) { q with droopCount := BitVec.ofNat 32 (rcKept q.droopSide qnow), droopSide := { q.droopSide with old := 0 } }
  else if num = 0x128 then ∃ was, OnlyDie s u d { x with
    alertWas := was
    alerts := match firstAlert x with
      | some a => x.alerts.erase a
      | none => x.alerts }
  else if num = 0x132 then
    OnlyDie s u d { x with dropped := BitVec.ofNat 32 (rcKept x.dropSide x.cycles), dropSide := { x.dropSide with old := 0 } }
  else if num = 0x139 ∧ idx < 96 then ∃ m, OnlyDie s u d { x with cwrow := m } ∧ ∀ r, SMap.get {} m r = if r = idx then
      { c with mismatch := BitVec.ofNat 16 (rcKept c.mmSide x.cycles), mmSide := { c.mmSide with old := 0 } } else SMap.get {} x.cwrow r
  else if num = 0x13B ∧ idx < 192 ∧ y.bound ≠ 0 then
    ThreadIs s u (d * 192 + idx) { y with canStalls := rcKept y.canSide x.cycles, canSide := { y.canSide with old := 0 } }
  else u = s

/-- The fields that a read clears, each with its low bit and its width, where a register of the index has one (R10, R414 to R419, R429, R454, R463,
R471). -/
def clearedFields (s : Machine.State) (n idx : Nat) : List (Nat × Nat × Nat) :=
  [(0x132, 0, 32)] ++ (if (s.work (s.thread n).bound).guardCount = 0 then [] else [(0x008, 0, 32)]) ++
    (if idx < 48 then [(0x121, 16, 12), (0x125, 16, 16)] else []) ++ (if idx < 96 then [(0x139, 32, 16)] else []) ++
    (if idx < 192 ∧ (s.thread (dieOfThread n * 192 + idx)).bound ≠ 0 then [(0x13B, 40, 8)] else [])

/-- The registers with fields that hold any value written, and a mask of those fields (R9), where the index names one. -/
def plainFields (s : Machine.State) (n idx : Nat) : List (Nat × DWord) :=
  [(0x000, 0x1F), (0x001, -1), (0x003, -4), (0x009, 0x7FFF), (0x110, 0x0000FFFFFFF00001), (0x120, 0x0000010003FF03FF), (0x130, 0x0000FFFFFFFFF001),
    (0x133, 0x1F), (0x134, 0x000000FF00FF00FF), (0x138, 0x60)] ++
    (if isAssay n = true ∧ dieOfThread n = 0 then [(0x100, 0x3FF)] else []) ++ (if idx < 48 then [(0x122, 0xF)] else []) ++
    (if (s.work (s.thread n).bound).islands = true ∧ idx < (s.work (s.thread n).bound).tileCount then [(0x010, 0x0001FFFFFFFFFFFF)] else [])

/-- The fields that hold a value written to a range: register, low bit, width and range. -/
def rangedFields (s : Machine.State) (n idx : Nat) : List (Nat × Nat × Nat × Nat × Nat) :=
  [(0x120, 32, 5, 16, 24), (0x130, 1, 5, 6, 16), (0x134, 8, 6, 16, 40), (0x134, 24, 6, 10, 40), (0x138, 0, 5, 12, 30)] ++
    (if idx < 48 then [(0x123, 0, 5, 8, 28)] else []) ++
    (if idx < 192 ∧ (s.thread (dieOfThread n * 192 + idx)).bound ≠ 0 then [(0x13B, 0, 5, 10, 30)] else [])

/-- A value held to a range. -/
def held (lo hi v : Nat) : Nat := max lo (min hi v)

/-- What a write of a register leaves. A register that is not listed here ignores a write. -/
def RegWritten (s u : Machine.State) (n num idx : Nat) (v : DWord) : Prop :=
  let t := s.thread n
  let w := s.work t.bound
  let d := dieOfThread n
  let x := s.die d
  let k := d * 48 + idx
  let q := s.quad k
  let y := s.thread (d * 192 + idx)
  let f := fun lo n => v.toNat / 2 ^ lo % 2 ^ n
  match num with
  | 0x000 => ThreadIs s u n { t with z := v.getLsbD 0, n := v.getLsbD 1, c := v.getLsbD 2, v := v.getLsbD 3, f := v.getLsbD 4 }
  | 0x001 => ThreadIs s u n { t with trappc := v }
  | 0x003 => ThreadIs s u n { t with trapvec := v &&& ~~~3 }
  | 0x007 => if v.getLsbD 16 = true ∧ (∀ c, w.poisonLast = some c → c.tcyc ≠ (s.quad (quadOfThread n)).cyc) then
      OnlyWork s u t.bound { w with poison := none, poisonBy := none }
    else if v.getLsbD 16 = true then OnlyWork s u t.bound { w with poison := w.poisonLast.map (fun c => c.origin), poisonBy := w.poisonLast }
    else u = s
  | 0x009 => ThreadIs s u n { t with macsel := v.setWidth 15 }
  | 0x00A => match selected s n with
    | some (e, m) => if w.state = .paused then
        ∃ a : Access → Access, OnlyElem s u e { s.elem e with accs := (s.elem e).accs.map (fun b => if b.seq = m.seq then a b else b) } ∧ ∀ b,
          (b.op ≠ 0xD4 → (a b).b = b.b ∧ (a b).desc = b.desc) ∧
          (b.op = 0xD4 → (a b).b.p.a1.toNat = b.b.p.a1.toNat / 256 * 256 + f 16 8 ∧ (a b).desc.getLsbD 26 = v.getLsbD 24 ∧
            ∀ i, i ≠ 26 → (a b).desc.getLsbD i = b.desc.getLsbD i) ∧
          (b.op = 0xC9 → f 32 32 ≤ b.prg → (a b).trail = b.trail.drop (b.prg - f 32 32) ∧ ∀ p r, (a b).trail = p :: r → (a b).node = p.1) ∧
          (a b).prg = (if (b.op = 0xC2 ∨ b.op = 0xC9 ∨ b.op = 0xCA ∨ b.op = 0xD2 ∨ b.op = 0xD4) ∧ f 32 32 ≤ b.prg then f 32 32 else b.prg)
      else u = s
    | none => u = s
  | 0x010 => if w.islands = true ∧ idx < w.tileCount then
      let i := s.island (w.tileAt idx)
      u.island (w.tileAt idx) = { i with tabNew := some (v &&& 0x0001FFFFFFFFFFFF) } ∧ (∀ j, j ≠ w.tileAt idx → u.island j = s.island j) ∧
        { u with islands := s.islands } = s
    else u = s
  | 0x100 => if isAssay n = true ∧ d = 0 then
      OnlyDie s u d { x with arbBypass := BitVec.ofNat 8 (f 0 8), raceOk := v.getLsbD 8, compact := v.getLsbD 9 }
    else u = s
  | 0x110 => OnlyDie s u d { x with astbase := BitVec.ofNat 64 (f 0 1 + f 20 28 * 2 ^ 20) }
  | 0x120 => OnlyDie s u d { x with thot := BitVec.ofNat 12 (f 0 10), tcool := BitVec.ofNat 12 (f 16 10),
                                    thPeriod := BitVec.ofNat 8 (held 16 24 (f 32 5)), thEn := v.getLsbD 40 }
  | 0x122 => if idx < 48 then ∃ was, OnlyQuad s u k { q with stepNew := some (BitVec.ofNat 8 (f 0 4)), stepWas := was } else u = s
  | 0x123 => if idx < 48 then OnlyQuad s u k { q with fset := BitVec.ofNat 16 (held 8 28 (f 0 5)) } else u = s
  | 0x124 => if idx < 48 then OnlyQuad s u k { q with limit := BitVec.ofNat 16 (f 40 8) } else u = s
  | 0x125 => if idx < 48 then OnlyQuad s u k { q with thresh := BitVec.ofNat 16 (f 0 8) } else u = s
  | 0x130 => OnlyDie s u d { x with ringEn := v.getLsbD 0, ringSize := BitVec.ofNat 5 (held 6 16 (f 1 5)), ringBase := f 12 36, head := 0, tail := 0 }
  | 0x131 => OnlyDie s u d { x with
      head := if (x.tail + 2 ^ 32 - f 0 32) % 2 ^ 32 ≤ 2 ^ x.ringSize.toNat then f 0 32 else x.head }
  | 0x133 => OnlyDie s u d { x with errctl := v.setWidth 5 }
  | 0x134 => OnlyDie s u d { x with ceThr := BitVec.ofNat 8 (f 0 8), ceWin := BitVec.ofNat 8 (held 16 40 (f 8 6)), mmThr := BitVec.ofNat 8 (f 16 4),
                                    rpThr := BitVec.ofNat 8 (f 20 4), rpWin := BitVec.ofNat 8 (held 10 40 (f 24 6)), rvMax := BitVec.ofNat 8 (f 32 8) }
  | 0x138 => ∃ m, OnlyDie s u d { x with cwInt := BitVec.ofNat 8 (held 12 30 (f 0 5)), cwEn := v.getLsbD 5, cwHold := v.getLsbD 6, cwrow := m } ∧
      ∀ r, r < 96 → let c := SMap.get {} x.cwrow r
        (v.getLsbD 5 = false → SMap.get {} m r = { c with watch := false, pending := 0, slot := none }) ∧
        (v.getLsbD 5 = true → (x.cwHold = false ∨ v.getLsbD 6 = true) → SMap.get {} m r = c)
  | 0x13A => if idx < 192 then ∃ m, OnlyDie s u d { x with suspect := m } ∧ (∀ r, r ≠ idx → SMap.get 0 m r = SMap.get 0 x.suspect r) ∧
      ∀ i, i < 64 → (SMap.get 0 m idx).getLsbD i = ((SMap.get 0 x.suspect idx).getLsbD i &&
        (!v.getLsbD i || ((SMap.get (0, 0) x.suspectAt idx).1 == x.cycles && (SMap.get (0, 0) x.suspectAt idx).2.getLsbD i)))
    else u = s
  | 0x13B => if idx < 192 ∧ y.bound ≠ 0 then
      ThreadIs s u (d * 192 + idx) { y with canWin := BitVec.ofNat 8 (held 10 30 (f 0 5)), canEn := v.getLsbD 5 }
    else u = s
  | 0x13C => if x.wkGo = true then u = s
    else
      let h := f 0 16
      let cause := if f 16 8 = 0x3A then 0x3A else 0x4D
      let go := v.getLsbD 24 && s.hasWork h && h != 0
      let z := { x with wkHandle := BitVec.ofNat 16 h, wkCause := BitVec.ofNat 8 cause, wkGo := go }
      (go = false → OnlyDie s u d z) ∧ (go = true → (s.work h).killing = none →
        (u.die d).wkHandle = z.wkHandle ∧ (u.die d).wkCause = z.wkCause ∧ (u.die d).wkGo = true ∧
        ((u.work h).killing.map Prod.fst = some (if cause = 0x3A then EndKind.faulted else EndKind.killed)) ∧
        (∀ j, j ≠ h → u.work j = s.work j) ∧ u.threads = s.threads ∧ u.elems = s.elems)
  | _ => u = s

end Sys2Proof
end

