-- ==== Sys2Proof/Safety/Events.lean ====
section
/-! DEFINITION. The terms of the statements about islands, accesses under way, hoists, errors, workings and the platform: what an event
changes, and that it changes nothing else. -/

namespace Sys2Proof

open Machine

/-! ### Islands (R257 to R286) -/

/-- Errors found in an island's slots are as they were, but those of one slot may be gone with a write of all of it (R426, R487). -/
def OwnErrors (n : Nat) (acc : Bool) (i j : Island) : Prop := ∀ p, (p ∈ j.bad → p ∈ i.bad) ∧ (p ≠ (n, acc) → p ∈ i.bad → p ∈ j.bad)

/-- Of an island one operand slot has changed, as given. -/
def OpSlot (n : Nat) (o : OSlot) (i j : Island) : Prop :=
  (∀ k, j.op k = if k = n then o else i.op k) ∧ OwnErrors n false i j ∧ { j with ops := i.ops, bad := i.bad } = i

/-- Of an island one accumulator slot has changed, as given. -/
def AccSlot (n : Nat) (a : ASlot) (i j : Island) : Prop :=
  (∀ k, j.acc k = if k = n then a else i.acc k) ∧ OwnErrors n true i j ∧ { j with accs := i.accs, bad := i.bad } = i

/-- An island command has been accepted: the access is issued, and the island of the element's tile has changed as given. -/
structure PortIssued (s t : Machine.State) (e : Nat) (w : EWord) (a : Access) (R : Island → Island → Prop) : Prop where
  issued : ∃ u, Issued s u e w (fun x => { x with accs := x.accs ++ [{ a with res0 := true, res1 := true }] }) ∧
    { t with islands := u.islands, age := u.age } = u
  island : R (s.island (tileOf e)) (t.island (tileOf e))
  others : ∀ n, n ≠ tileOf e → t.island n = s.island n

/-- An island as a TMUL of slots a and b into z starts (R272, R273): readers counted, z busy on its chain, and zero first with ZA. -/
structure TmulStarts (a b z chain : Nat) (za : Bool) (i j : Island) : Prop where
  operands : ∀ k, j.op k = { i.op k with rdr := (i.op k).rdr + (if k = a then 1 else 0) + (if k = b then 1 else 0) }
  busy : (j.acc z).busy = true ∧ (j.acc z).chain = some chain ∧ (j.acc z).claim = (i.acc z).claim
  kind : (j.acc z).kind = if (i.op a).fmt = 4 ∧ (i.op b).fmt = 4 then 2 else 1
  poison : (j.acc z).psn = (((i.acc z).psn && !za) || (i.op a).psn || (i.op b).psn)
  zero : za = true → ∀ p q, (j.acc z).elem p q = 0
  kept : za = false → ∀ p q, (j.acc z).elem p q = (i.acc z).elem p q
  others : ∀ k, k ≠ z → j.acc k = i.acc k

/-! ### Accesses under way (R210 to R213) -/

/-- Of the machine one access of an element has changed, as given. -/
def AccDone (s t : Machine.State) (e seq : Nat) (f : Access → Access) : Prop :=
  OnlyElem s t e { s.elem e with accs := (s.elem e).accs.map (fun a => if a.seq = seq then f a else a) }

/-- A macro has completed an element: its access has changed as given, and the canary may have been told (R279, R462). -/
def MacroStep (s t : Machine.State) (e seq : Nat) (f : Access → Access) : Prop :=
  CanariesOnly s t ∧ AccDone s { t with threads := s.threads } e seq f

/-- The tokens of a path, eight nodes each, with their L (R234). -/
def nodeTokens (path : List Nat) (x : Bool) : List (VReg × Bool) :=
  let n := max 1 ((path.length + 7) / 8)
  (List.range n).map (fun k =>
    (⟨Lanes.ofFn (fun i => BitVec.ofNat 32 (path.getD (8 * k + i) 0)), maskOf (fun i => decide (8 * k + i < path.length)), x⟩, k + 1 == n))

/-- The nodes that a walk appends after node v in n steps at most, from a state of its generator, with the poison of the neighbours read, and the
state that its reads leave (R231, R234). -/
inductive Walked (e : Nat) (a : Access) : Machine.State → DWord → Nat → Nat → List Nat → Bool → Machine.State → Prop
  | done (s : Machine.State) (g : DWord) (v : Nat) : Walked e a s g v 0 [] false s
  | stop (s s1 : Machine.State) (g : DWord) (v n va pa : Nat) : s.accAt e a (fun i => if i = 0 then v else 0) = some va →
      s.placeRead e a va 32 .read = .ok pa s1 → le (s1.bytesAt pa 32) 0 4 = 0 → Walked e a s g v (n + 1) [] false s1
  | sentinel (s s1 s2 : Machine.State) (g : DWord) (v n va pa pb deg : Nat) : s.accAt e a (fun i => if i = 0 then v else 0) = some va →
      s.placeRead e a va 32 .read = .ok pa s1 → le (s1.bytesAt pa 32) 0 4 = deg → deg ≠ 0 →
      s1.placeRead e a (le (s1.bytesAt pa 32) 8 8 + 4 * ((splitmix g).2.toNat % 2 ^ 32 * deg / 2 ^ 32)) 4 .read = .ok pb s2 →
      entExt (s2.accEntry e a) 0 ≤ s2.word pb 4 → Walked e a s g v (n + 1) [] false s2
  | step (s s1 s2 s3 : Machine.State) (g : DWord) (v n va pa pb deg : Nat) (l : List Nat) (x : Bool) :
      s.accAt e a (fun i => if i = 0 then v else 0) = some va → s.placeRead e a va 32 .read = .ok pa s1 →
      le (s1.bytesAt pa 32) 0 4 = deg → deg ≠ 0 →
      s1.placeRead e a (le (s1.bytesAt pa 32) 8 8 + 4 * ((splitmix g).2.toNat % 2 ^ 32 * deg / 2 ^ 32)) 4 .read = .ok pb s2 →
      s2.word pb 4 < entExt (s2.accEntry e a) 0 → Walked e a s2 (splitmix g).1 (s2.word pb 4) n l x s3 →
      Walked e a s g v (n + 1) (s2.word pb 4 :: l) (s2.poisoned pb || x) s3

/-- The token that a destination puts in flight by a drift-route entry, with where it comes from. -/
def flightsVia (s : Machine.State) (e r : Nat) (d : Dest) (k : Token) (o : Origin) : List Flight :=
  let cyc := (s.quad (quadOf e)).cyc
  match d with
  | .link dir _ _ =>
    if s.guardedLink e (linkNum dir) then []
    else (neighbour e (linkNum dir)).toList.map (fun n => ⟨e, linkNum dir, n, linkQueue (linkNum dir), k, o, cyc⟩)
  | .route n _ _ => (routeDest e r).toList.map (fun t => ⟨e, 4 + n, t, 4 + bits r 30 30, k, o, cyc⟩)
  | _ => []

/-- The tokens of a reply, each of a number among the reply's own, have left on the destinations of its access (R211, R212). -/
structure ReplyLeft (s t : Machine.State) (e : Nat) (a : Access) (k0 k1 : Token) (n0 n1 : Nat) : Prop where
  flights : t.flights = s.flights ++ flightsVia s e a.r0 (destOf a.d0) k0 (.reply e a.bare false n0) ++
    flightsVia s e a.r1 (destOf a.d1) k1 (.reply e a.bare true n1)
  regs : ∀ n, (t.elem e).reg n = regPut (destOf a.d1) (some k1) n (regPut (destOf a.d0) (some k0) n ((s.elem e).reg n))
  preds : (t.elem e).p = predPut (destOf a.d1) (some k1) (predPut (destOf a.d0) (some k0) (s.elem e).p)
  queues : ∀ q, (t.elem e).queue q = (s.elem e).queue q
  others : ∀ f, f ≠ e → t.elem f = s.elem f
  kept : SameCore (s.elem e) { t.elem e with accs := (s.elem e).accs, watches := (s.elem e).watches }
  memory : ∀ b, (∀ d, ¬ RingByte s d b) → t.byte b = s.byte b ∧ SameMarks s t b
  works : ∀ h, FiredWork (s.work h) (t.work h)
  rest : t = { s with mem := t.mem, poison := t.poison, badSec := t.badSec, elems := t.elems, flights := t.flights, space := t.space,
                      dies := t.dies, works := t.works }

/-! ### Host, platform and port (R357 to R368, R402 to R411) -/

/-- One endpoint of the banksman has changed as given and nothing else. -/
def OnlyEndpoint (s t : Machine.State) (ep : Nat) (x : Endpoint) : Prop :=
  t.endpoint ep = x ∧ (∀ k, k ≠ ep → t.endpoint k = s.endpoint k) ∧ { t with endpoints := s.endpoints } = s

/-- One record of an endpoint's queue has changed as given and nothing else. -/
def OnlyRecord (s t : Machine.State) (ep : Nat) (r : Record) (f : Record → Record) : Prop :=
  OnlyEndpoint s t ep { s.endpoint ep with queue := (s.endpoint ep).queue.map (fun q => if q.age = r.age then f q else q) }

/-- A command is done with a status (R360): its record is gone from its queue, and its completion is the last that the host has been sent. -/
structure CommandDone (s t : Machine.State) (ep : Nat) (r : Record) (status value : Nat) : Prop where
  queue : (t.endpoint ep).queue = (s.endpoint ep).queue.filter (fun q => q.age != r.age)
  others : ∀ k, k ≠ ep → t.endpoint k = s.endpoint k
  host : let h := recHandle r.bytes
    let w := s.work h
    let p := r.begun.getD (w.die, w.col, w.row, w.graphKey)
    t.hostOut = s.hostOut ++ [{ ep := ep, bytes :=
      (if status = 0 then completion (recTag r.bytes) (recType r.bytes) 0 h p.1 p.2.1 p.2.2.1 0 0 value p.2.2.2.toNat
        else completion (recTag r.bytes) (recType r.bytes) status h w.die w.col w.row 0 0 0 (if recType r.bytes = 0 then le r.bytes 224 8
          else w.graphKey.toNat)) }]

/-- The host port has answered an endpoint and done nothing else. -/
def Answered (s t : Machine.State) (ep : Nat) (k : HostKind) (l : List Byte) : Prop :=
  t = { s with hostOut := s.hostOut ++ [{ ep := ep, kind := k, bytes := l }] }

/-- The SPDM responder has answered a request that its state allows; both are in its transcript (R410). -/
def SpdmReply (s t : Machine.State) (request reply : List Byte) (f : Platform → Platform) : Prop :=
  t = { s with platform :=
    { f s.platform with transcript := s.platform.transcript ++ request ++ reply, answers := s.platform.answers ++ [reply] } }

end Sys2Proof
end

