-- ==== Sys2Proof/Certificates/Slice0/Obligations.lean ====
section
/-! DEFINITION. The statements for the provers. -/

open Sys2Proof Sys2Proof.Machine

/-! ### Foreman: integers -/

/-- R311, R319 to R322: every instruction of the ALU group and every immediate form completes on any registers that the thread holds: rd takes the
value, g0 discards it, and only the PC moves beside; CMP and CMPI set z, n, c and v from the exact difference, and write no register. -/
def Obligations.ForemanComputes : Prop :=
  (∀ (i : Instr) (R : RegRule) (s : Machine.State), aluRule i = some R → Holds s R.names →
    ∃ t, exec i s = .next t ∧ OnlyThread s t s.cur.thread ∧
      WritesReg (s.thread s.cur.thread) (t.thread s.cur.thread) R.rd (R.value (s.thread s.cur.thread)) R.size) ∧
  (∀ (i : Instr) (R : RegRule) (s : Machine.State), immRule i = some R → Holds s R.names →
    ∃ t, exec i s = .next t ∧ OnlyThread s t s.cur.thread ∧
      WritesReg (s.thread s.cur.thread) (t.thread s.cur.thread) R.rd (R.value (s.thread s.cur.thread)) R.size) ∧
  (∀ (i : Instr) (l : List Reg) (f : Thread → DWord × DWord) (s : Machine.State), cmpRule i = some (l, f) → Holds s l →
    ∃ t, exec i s = .next t ∧ OnlyThread s t s.cur.thread ∧
      SetsFlags (s.thread s.cur.thread) (t.thread s.cur.thread) (f (s.thread s.cur.thread)).1 (f (s.thread s.cur.thread)).2)

/-! ### Foreman: memory -/

/-- An access of a thread that finds its location changes nothing but caches of translations and the eight bytes of the leaf used (R324, R390,
R391). -/
def Obligations.ThreadAccessFrame : Prop :=
  ∀ (s s' : Machine.State) (n va a : Nat) (acc : Acc), s.touch n va acc = .ok a s' →
    TransOnly s s' (leafFor s (threadPlace n) (s.work (s.thread n).bound).asid va) ∧
      (inWindow va = true ∨ isAssay n = true → a = va ∧ s' = s)

/-- R323, R351, R488: a load writes rd with the bytes at its location, extended as its mnemonic says, and nothing but the thread changes after the
access; a store writes the low bytes of rd at its location and no other byte of memory. -/
def Obligations.ForemanLoadsAndStores : Prop :=
  (∀ (i : Instr) (L : LoadRule) (s s' : Machine.State) (a : Nat), loadRule i = some L → Holds s [L.rd, L.ra] →
    (effAddr (s.thread s.cur.thread) L.ra L.imm).toNat % L.bytes = 0 →
    s.touchRead s.cur.thread (effAddr (s.thread s.cur.thread) L.ra L.imm).toNat .read = .ok a s' →
    ∃ t, exec i s = .next t ∧ OnlyThread s' t s.cur.thread ∧
      WritesReg (s'.thread s.cur.thread) (t.thread s.cur.thread) L.rd (L.value (s'.word a L.bytes)) 4) ∧
  (∀ (i : Instr) (L : StoreRule) (s s' : Machine.State) (a : Nat), storeRule i = some L → Holds s [L.rd, L.ra] →
    (effAddr (s.thread s.cur.thread) L.ra L.imm).toNat % L.bytes = 0 →
    s.touchWrite s.cur.thread (effAddr (s.thread s.cur.thread) L.ra L.imm).toNat .write = .ok a s' →
    ∃ t, exec i s = .next t ∧ StoredAt s' t a (toBytes L.bytes ((s.thread s.cur.thread).reg L.rd).toNat) false ∧
      Advances (s'.thread s.cur.thread) (t.thread s.cur.thread) 4 ∧ ∀ m, m ≠ s.cur.thread → t.thread m = s'.thread m)

/-- R227, R325: an atomic writes the new word, and rd takes the old word zero-extended; CAS writes f. An exceptional result poisons the sector. -/
def Obligations.ForemanAtomics : Prop :=
  ∀ (i : Instr) (L : AmoRule) (s s' : Machine.State) (a : Nat), amoRule i = some L → Holds s [L.rd, L.ra, L.rb] →
    ((s.thread s.cur.thread).reg L.ra).toNat % 4 = 0 →
    s.touchWrite s.cur.thread ((s.thread s.cur.thread).reg L.ra).toNat .atomic = .ok a s' → s'.isBad a = false →
    let x := s.thread s.cur.thread
    let old : Word := BitVec.ofNat 32 (s'.word a 4)
    let new := L.new old ((x.reg L.rd).setWidth 32) ((x.reg L.rb).setWidth 32)
    let y := s'.thread s.cur.thread
    ∃ t, exec i s = .next t ∧ StoredAt s' t a (toBytes 4 new.toNat) (L.exc old ((x.reg L.rb).setWidth 32)) ∧
      WritesReg { y with f := match L.flag with
        | some g => g old ((x.reg L.rd).setWidth 32)
        | none => y.f } (t.thread s.cur.thread) L.rd (old.zeroExtend 64) 4 ∧
      ∀ m, m ≠ s.cur.thread → t.thread m = s'.thread m

/-- R323, R325, R327, R329, R344, R345: an access whose address is no multiple of its size raises the alignment trap before any effect. That TQPOP is
held to a multiple of 64 is the model's choice (log entry 36). -/
def Obligations.MisalignedAccessTraps : Prop :=
  ∀ (i : Instr) (l : List Reg) (f : Thread → DWord) (n : Nat) (s : Machine.State), alignRule i = some (l, f, n) → Holds s l →
    OnForeman s → (f (s.thread s.cur.thread)).toNat % n ≠ 0 →
    exec i s = .next (s.trapHere s.cur.thread
      { cause := 0x04, detail := (f (s.thread s.cur.thread)).toNat % 2 ^ 32 })

/-- R311, R520: an instruction that names a register of a block the thread does not hold raises the register-block trap before any effect. The order
rd, ra, rb of the registers named is the model's choice (log entry 33). -/
def Obligations.RegisterBlockTraps : Prop :=
  ∀ (i : Instr) (r : Reg) (s : Machine.State), (namedRegs i).find? (fun q : Reg => !(s.thread s.cur.thread).holds q) = some r →
    OnForeman s → exec i s = .next (s.trapHere s.cur.thread { cause := 0x02, detail := 1 + r.val * 2 ^ 8 })

/-- R326, R327: a fence goes on, for every access before it has performed. WAITA goes on with its word in rd once the word equals rb, and
otherwise waits; a waiting thread that is woken does the same. -/
def Obligations.FencesAndWordWaits : Prop :=
  (∀ (sc : Scope) (s : Machine.State) (i : Instr), (i = .fenceFull sc ∨ i = .fenceAcq sc ∨ i = .fenceRel sc) →
    ∃ t, exec i s = .next t ∧ OnlyThread s t s.cur.thread ∧ Advances (s.thread s.cur.thread) (t.thread s.cur.thread) 4) ∧
  (∀ (rd ra rb : Reg) (sc : Scope) (s s' : Machine.State) (a : Nat), Holds s [rd, ra, rb] →
    (s.thread s.cur.thread).wait = .none → ((s.thread s.cur.thread).reg ra).toNat % 4 = 0 →
    s.touchRead s.cur.thread ((s.thread s.cur.thread).reg ra).toNat .read = .ok a s' →
    let v : Word := ((s.thread s.cur.thread).reg rb).setWidth 32
    ∃ t, exec (.waita rd ra rb sc) s = .next t ∧
      (s'.word a 4 = v.toNat → OnlyThread s' t s.cur.thread ∧
        WritesReg (s'.thread s.cur.thread) (t.thread s.cur.thread) rd (v.zeroExtend 64) 4) ∧
      (s'.word a 4 ≠ v.toNat → OnlySleeps s' t s.cur.thread (.waita ((s.thread s.cur.thread).reg ra).toNat v rd))) ∧
  (∀ (n va : Nat) (v : Word) (rd : Nat) (s s' : Machine.State) (a : Nat), s.waitOf n = .waita va v rd → va < 2 ^ 64 → va % 4 = 0 →
    s.touchRead n va .read = .ok a s' →
    ∃ t, exec (.waitaWake n) s = .next t ∧
      (s'.word a 4 = v.toNat → OnlyThread s' t n ∧ WritesReg { s'.thread n with wait := .none } (t.thread n) rd (v.zeroExtend 64) 4) ∧
      (s'.word a 4 ≠ v.toNat → t = s'))

/-! ### Foreman: control flow -/

/-- R133, R328, R329: BC goes to pc + 4 × off22 where its condition holds and on otherwise; BL writes g1; JR to an ENTRY of its label writes rd;
ENTRY in line goes on. -/
def Obligations.BranchesAndCalls : Prop :=
  (∀ (c : Cond) (off : BitVec 22) (s : Machine.State), ∃ t, exec (.bc c off) s = .next t ∧ OnlyThread s t s.cur.thread ∧
    (CondTrue (s.thread s.cur.thread) c →
      t.thread s.cur.thread = { s.thread s.cur.thread with pc := (s.thread s.cur.thread).pc + off.signExtend 64 * 4 }) ∧
    (¬ CondTrue (s.thread s.cur.thread) c → Advances (s.thread s.cur.thread) (t.thread s.cur.thread) 4)) ∧
  (∀ (off : BitVec 22) (s : Machine.State), ∃ t, exec (.bl off) s = .next t ∧ OnlyThread s t s.cur.thread ∧
    Jumps (s.thread s.cur.thread) (t.thread s.cur.thread) 1 ((s.thread s.cur.thread).pc + 4)
      ((s.thread s.cur.thread).pc + off.signExtend 64 * 4)) ∧
  (∀ (rd ra : Reg) (label : BitVec 8) (s s' : Machine.State) (a : Nat), Holds s [rd, ra] →
    ((s.thread s.cur.thread).reg ra).toNat % 4 = 0 →
    s.touchRead s.cur.thread ((s.thread s.cur.thread).reg ra).toNat .fetch = .ok a s' →
    ∃ t, exec (.jr rd ra label) s = .next t ∧
      (s'.word a 4 = 0x8C000000 + label.toNat → OnlyThread s' t s.cur.thread ∧
        Jumps (s'.thread s.cur.thread) (t.thread s.cur.thread) rd ((s.thread s.cur.thread).pc + 4) ((s.thread s.cur.thread).reg ra)) ∧
      (s'.word a 4 ≠ 0x8C000000 + label.toNat →
        t = s'.trapHere s.cur.thread { cause := 0x03, detail := ((s.thread s.cur.thread).reg ra).toNat % 2 ^ 32 })) ∧
  (∀ (label : BitVec 8) (s : Machine.State), ∃ t, exec (.entry label) s = .next t ∧ OnlyThread s t s.cur.thread ∧
    Advances (s.thread s.cur.thread) (t.thread s.cur.thread) 4)

/-- R312, R313, R520, R521: RBACQ, RBACQ.try and the grant of a waiting RBACQ take the blocks of the MASK where the pool has them, once waiting
threads of the core below that can take theirs in the cycle have done so; RBREL with the MASK of the top frame returns its blocks to the next cycle,
each with the registers it had before; a MASK of 0 is illegal; RBACQ.try sets f where the frames are full or the pool is short, and RBACQ then traps
with reason 3, or waits; RBREL of another MASK traps with reason 2; a wait of 2^WIN cycles traps with reason 4. Which waiting threads go before an
RBACQ that is issued is the model's choice (log entry 35). -/
def Obligations.RegisterBlocks : Prop :=
  (∀ (mask : BitVec 7) (s : Machine.State), mask ≠ 0 → (s.thread s.cur.thread).frames.length < 16 → let u := s.grantBelow s.cur.thread
    u.poolHas s.cur.thread mask = true →
    (∃ t, exec (.rbacq mask) s = .next t ∧ OnlyThread u t s.cur.thread ∧ TakesBlocks (s.thread s.cur.thread) (t.thread s.cur.thread) mask) ∧
    (∃ t, exec (.rbacqTry mask) s = .next t ∧ OnlyThread u t s.cur.thread ∧
      TakesBlocks (s.thread s.cur.thread) (t.thread s.cur.thread) mask)) ∧
  (∀ (n : Nat) (s : Machine.State), (∀ m k, m < n → m / 4 = n / 4 → (s.thread m).wait ≠ .rbacq k) → s.grantBelow n = s) ∧
  (∀ (n m : Nat) (mask : BitVec 7) (s : Machine.State), m < n → m / 4 = n / 4 → (∀ i k, i / 4 = n / 4 → i ≠ m → (s.thread i).wait ≠ .rbacq k) →
    s.waitOf m = .rbacq mask.toNat → s.poolHas m mask = true →
    OnlyThread s (s.grantBelow n) m ∧ TakesBlocks (s.thread m) ((s.grantBelow n).thread m) mask) ∧
  (∀ (n : Nat) (mask : BitVec 7) (s : Machine.State), s.waitOf n = .rbacq mask.toNat → s.poolHas n mask = true → s.olderRbacq n = false →
    s.lowerIssues n = false → ∃ t, exec (.rbacqGrant n) s = .next t ∧ OnlyThread s t n ∧ TakesBlocks (s.thread n) (t.thread n) mask) ∧
  (∀ (mask : BitVec 7) (y : Thread) (s : Machine.State), mask ≠ 0 → (s.thread s.cur.thread).frames = (y.bindBlocks mask).frames →
    (∀ r, r < 64 → inMask mask r = true → (s.thread s.cur.thread).holds r = true) →
    ∃ t, exec (.rbrel mask) s = .next t ∧ OnlyThread { s with quads := t.quads } t s.cur.thread ∧
      ReturnsBlocks y (s.thread s.cur.thread) (t.thread s.cur.thread) mask ∧
      ∀ q, t.quad q = { s.quad q with relAt := (t.quad q).relAt, relN := (t.quad q).relN }) ∧
  (∀ s : Machine.State, exec (.rbacq 0) s = .next (s.trapHere s.cur.thread { cause := 0x01 }) ∧
    exec (.rbacqTry 0) s = .next (s.trapHere s.cur.thread { cause := 0x01 }) ∧
    exec (.rbrel 0) s = .next (s.trapHere s.cur.thread { cause := 0x01 })) ∧
  (∀ (mask : BitVec 7) (s : Machine.State), mask ≠ 0 → let u := s.grantBelow s.cur.thread
    ((s.thread s.cur.thread).frames.length = 16 ∨ u.poolHas s.cur.thread mask = false) →
    ∃ t, exec (.rbacqTry mask) s = .next t ∧ OnlyThread u t s.cur.thread ∧
      Advances { s.thread s.cur.thread with f := true } (t.thread s.cur.thread) 4) ∧
  (∀ (mask : BitVec 7) (s : Machine.State), mask ≠ 0 → (s.thread s.cur.thread).frames.length = 16 →
    exec (.rbacq mask) s = .next (s.trapHere s.cur.thread { cause := 0x02, detail := 3 + mask.toNat * 2 ^ 16 })) ∧
  (∀ (mask : BitVec 7) (s : Machine.State), mask ≠ 0 → (s.thread s.cur.thread).frames.length ≠ 16 → let u := s.grantBelow s.cur.thread
    u.poolHas s.cur.thread mask = false → ∃ t, exec (.rbacq mask) s = .next t ∧ OnlySleeps u t s.cur.thread (.rbacq mask.toNat)) ∧
  (∀ (mask : BitVec 7) (s : Machine.State), mask ≠ 0 → (∀ fr r, (s.thread s.cur.thread).frames = fr :: r → fr.mask ≠ mask) →
    exec (.rbrel mask) s = .next (s.trapHere s.cur.thread { cause := 0x02, detail := 2 + mask.toNat * 2 ^ 16 })) ∧
  (∀ (n m : Nat) (s : Machine.State), s.waitOf n = .rbacq m → (s.thread n).canEn = true →
    (s.thread n).waitAt + 2 ^ (s.thread n).canWin.toNat ≤ (s.quad (quadOfThread n)).cyc →
    exec (.rbacqStallTimeout n) s =
      .next ((s.setThread n { s.thread n with wait := .none }).trapHere n { cause := 0x02, detail := 4 + m * 2 ^ 16 }))

/-! ### Foreman: traps and system registers -/

/-- R318, R330, R433, R438, R492, R537: taking a trap while INTRAP is 0 and TRAPVEC is set; a trap of an instruction while INTRAP is 1 starts the
kill of the working with cause 0x08 in its end value, and an assay thread stops. -/
def Obligations.TrapEntry : Prop :=
  (∀ (s : Machine.State) (n : Nat) (pc : DWord) (i : TrapInfo), (s.thread n).intrap = false → (s.thread n).trapvec ≠ 0 →
    TrapTaken s (s.raiseTrap n pc i) n pc i) ∧
  (∀ (s : Machine.State) (n : Nat) (pc : DWord) (i : TrapInfo), (s.thread n).intrap = true →
    (isAssay n = true → ((s.raiseTrap n pc i).thread n).stopped = true) ∧
    (isAssay n = false → s.hasWork (s.thread n).bound = true → (s.work (s.thread n).bound).killing = none →
      (∃ v, ((s.raiseTrap n pc i).work (s.thread n).bound).killing = some (.faulted, v) ∧ v.toNat % 256 = 8) ∧
      ∀ m, (s.raiseTrap n pc i).thread m = s.thread m))

/-- R134, R330, R332, R374: an illegal word traps at itself, TRAP below 0x2000 traps past itself, a call to system software waits for its return, with
code 0x2000 the end value in g4; the return writes g4 to g7 and goes on past the call; ERET goes back to TRAPPC; a held trap is taken between
instructions and by an ERET. What a call returns, and the waits that a held trap ends, are the model's choice (log entries 12 and 18). -/
def Obligations.TrapInstructions : Prop :=
  (∀ (w : Word) (s : Machine.State), (s.thread s.cur.thread).intrap = false → (s.thread s.cur.thread).trapvec ≠ 0 →
    ∃ t, exec (.illegalInstruction w) s = .next t ∧ TrapTaken s t s.cur.thread (s.thread s.cur.thread).pc { cause := 0x01 }) ∧
  (∀ (code : BitVec 13) (s : Machine.State), (s.thread s.cur.thread).intrap = false → (s.thread s.cur.thread).trapvec ≠ 0 →
    ∃ t, exec (.trap code) s = .next t ∧
      TrapTaken s t s.cur.thread ((s.thread s.cur.thread).pc + 4) { cause := 0x06, arg := code.toNat }) ∧
  (∀ (code : BitVec 13) (s : Machine.State), OnForeman s → ∃ t, exec (.trapSyscall code) s = .next t ∧
    Sleeps (s.thread s.cur.thread) (t.thread s.cur.thread) (.syscall (0x2000 + code.toNat)) ∧
    (∀ m, m ≠ s.cur.thread → t.thread m = s.thread m) ∧
    (t.work (s.thread s.cur.thread).bound).ending =
      (if code = 0 then some ((s.thread s.cur.thread).reg 4) else (s.work (s.thread s.cur.thread).bound).ending)) ∧
  (∀ (code : BitVec 13) (s : Machine.State), isAssay s.cur.thread = true → (s.thread s.cur.thread).intrap = false →
    (s.thread s.cur.thread).trapvec ≠ 0 → ∃ t, exec (.trapSyscall code) s = .next t ∧
      TrapTaken s t s.cur.thread ((s.thread s.cur.thread).pc + 4) { cause := 0x06, arg := 0x2000 + code.toNat }) ∧
  (∀ (n c : Nat) (g4 g5 g6 g7 : DWord) (s : Machine.State), s.waitOf n = .syscall c → c ≠ 0x2000 →
    ∃ t, exec (.syscallReturn n g4 g5 g6 g7) s = .next t ∧ OnlyThread s t n ∧
      (∀ r, (t.thread n).reg r = if r = 4 then g4 else if r = 5 then g5 else if r = 6 then g6 else if r = 7 then g7 else (s.thread n).reg r) ∧
      (t.thread n).pc = (s.thread n).pc + 4 ∧ (t.thread n).wait = .none ∧
      { t.thread n with g := (s.thread n).g, pc := (s.thread n).pc, wait := (s.thread n).wait } = s.thread n) ∧
  (∀ s : Machine.State, (s.thread s.cur.thread).heldTraps = [] → ∃ t, exec .eret s = .next t ∧ OnlyThread s t s.cur.thread ∧
    t.thread s.cur.thread = { s.thread s.cur.thread with pc := (s.thread s.cur.thread).trappc, intrap := false }) ∧
  (∀ (s : Machine.State) (i : TrapInfo) (r : List TrapInfo), (s.thread s.cur.thread).heldTraps = i :: r →
    (s.thread s.cur.thread).trapvec ≠ 0 → ∃ t, exec .eret s = .next t ∧
      TrapTaken (s.setThread s.cur.thread { s.thread s.cur.thread with pc := (s.thread s.cur.thread).trappc, intrap := false, heldTraps := r })
        t s.cur.thread (s.thread s.cur.thread).trappc i) ∧
  (∀ (n : Nat) (s : Machine.State) (i : TrapInfo) (r : List TrapInfo), (s.thread n).heldTraps = i :: r → (s.thread n).trapvec ≠ 0 →
    (s.thread n).intrap = false → (s.thread n).stopped = false → (s.thread n).wait.abandoned = true →
    (isAssay n = true ∨ (s.work (s.thread n).bound).live = true) → ∃ t, exec (.trapTake n) s = .next t ∧
      TrapTaken (s.setThread n { s.thread n with heldTraps := r }) t n (s.thread n).pc i)

/-- R9, R10, R134, R316: SYSR of a listed register writes rd with what the register shows, and leaves what a read of it leaves; SYSW of a register
that the level may write leaves it written, and of another raises the privilege trap; so do the reads and writes that come as events. A number that is
not listed, or an index for a register that has none, is an illegal instruction. Which clock says that an update is of the cycle of a read or clear is
the model's choice (log entry 70). -/
def Obligations.SystemRegisterInstructions : Prop :=
  (∀ (rd ra : Reg) (num : BitVec 14) (s : Machine.State), Listed num.toNat → (Indexed num.toNat ∨ ra = 0) → Holds s [rd, ra] →
    let n := s.cur.thread
    let idx := ((s.thread n).reg ra).toNat
    ∃ t u, exec (.sysr rd ra num) s = .next t ∧ RegRead s u n num.toNat idx ∧ OnlyThread u t n ∧
      WritesReg (u.thread n) (t.thread n) rd (regShows s n num.toNat idx) 4) ∧
  (∀ (rd ra : Reg) (num : BitVec 14) (s : Machine.State), Listed num.toNat → (Indexed num.toNat ∨ rd = 0) → Holds s [rd, ra] →
    let n := s.cur.thread
    let x := s.thread n
    (isAssay n = true ∨ UserWritable num.toNat → ∃ t u, exec (.sysw rd ra num) s = .next t ∧
      RegWritten s u n num.toNat (x.reg rd).toNat (x.reg ra) ∧ OnlyThread u t n ∧ Advances (u.thread n) (t.thread n) 4) ∧
    (isAssay n = false → ¬ UserWritable num.toNat → exec (.sysw rd ra num) s = .next (s.trapHere n { cause := 0x05 }))) ∧
  (∀ (r ra : Reg) (num : BitVec 14) (s : Machine.State), (¬ Listed num.toNat ∨ (¬ Indexed num.toNat ∧ ra ≠ 0)) →
    exec (.sysr r ra num) s = .next (s.trapHere s.cur.thread { cause := 0x01 }) ∧
    exec (.sysw ra r num) s = .next (s.trapHere s.cur.thread { cause := 0x01 })) ∧
  (∀ (n num idx : Nat) (s : Machine.State), Listed num → ∃ t, exec (.readClear n num idx) s = .next t ∧ RegRead s t n num idx) ∧
  (∀ (n num idx : Nat) (v : DWord) (s : Machine.State), Listed num → (isAssay n = true ∨ UserWritable num) →
    ∃ t, exec (.registerWrite n num idx v) s = .next t ∧ RegWritten s t n num idx v)

/-- R9, R10, R317, R318: the bits of FSTAT and RVSTAT as SYSR gives them; a register without a field that a read clears is left as it is by a read; a
field that a read clears shows zero after it. Which clock says that an update is of the cycle of a read is the model's choice (log entry 70). -/
def Obligations.SystemRegisterReads : Prop :=
  (∀ (rd : Reg) (s : Machine.State), rd ≠ 0 → Holds s [rd, 0] → s.cur.thread < 784 → let n := s.cur.thread
    let x := s.thread n
    ∃ t, exec (.sysr rd 0 0x000) s = .next t ∧ ∀ i, i < 64 → ((t.thread n).reg rd).getLsbD i =
      (if i = 0 then x.z else if i = 1 then x.n else if i = 2 then x.c else if i = 3 then x.v else if i = 4 then x.f else if i = 5 then x.intrap
        else if i = 6 then isAssay n else if i = 8 ∨ i = 9 then (n % 4).testBit (i - 8)
        else if 10 ≤ i ∧ i < 16 then !isAssay n && (n / 4 % 48).testBit (i - 10) else (i == 16 || i == 17) && (dieOfThread n).testBit (i - 16))) ∧
  (∀ (rd : Reg) (s : Machine.State), rd ≠ 0 → Holds s [rd, 0] → let w := s.work (s.thread s.cur.thread).bound
    w.regions.length ≤ 4 → w.keeps.length ≤ 31 → ∃ t, exec (.sysr rd 0 0x005) s = .next t ∧
      let r := ((t.thread s.cur.thread).reg rd).toNat
      r % 2 ^ 3 = w.regions.length ∧ r / 2 ^ 3 % 2 ^ 5 = w.keeps.length ∧ r / 2 ^ 16 = 0 ∧
      (w.regions = [] → r / 2 ^ 8 % 2 ^ 8 = 0) ∧ ∀ g l, w.regions = g :: l → r / 2 ^ 8 % 2 ^ 8 = min g.retry 255) ∧
  (∀ (n num idx : Nat) (s : Machine.State), Listed num → readClears num = false → exec (.readClear n num idx) s = .next s) ∧
  (∀ (n num idx lo len : Nat) (s : Machine.State), (num, lo, len) ∈ clearedFields s n idx →
    ∃ t, exec (.readClear n num idx) s = .next t ∧ (regShows t n num idx).toNat / 2 ^ lo % 2 ^ len = 0)

/-- R9, R316, R317, R365, R385, R429, R443, R444: a plain field reads back as written, and one with a range as the nearest value of it; a write of a
register that has no writable field changes nothing, nor a write of ARBCTL but by an assay thread of die 0. -/
def Obligations.SystemRegisterWrites : Prop :=
  (∀ (n num idx : Nat) (v m : DWord) (s : Machine.State), (num, m) ∈ plainFields s n idx → (isAssay n = true ∨ UserWritable num) →
    ∃ t, exec (.registerWrite n num idx v) s = .next t ∧ regShows t n num idx &&& m = v &&& m) ∧
  (∀ (n num idx lo len a b : Nat) (v : DWord) (s : Machine.State), (num, lo, len, a, b) ∈ rangedFields s n idx → isAssay n = true →
    ∃ t, exec (.registerWrite n num idx v) s = .next t ∧
      (regShows t n num idx).toNat / 2 ^ lo % 2 ^ len = held a b (v.toNat / 2 ^ lo % 2 ^ len)) ∧
  (∀ (n num idx : Nat) (v : DWord) (s : Machine.State), num ∈ [0x002, 0x004, 0x005, 0x006, 0x008, 0x00B, 0x101, 0x126, 0x127, 0x128, 0x132, 0x139, 0x13D] →
    exec (.registerWrite n num idx v) s = .next s) ∧
  (∀ (n idx : Nat) (v : DWord) (s : Machine.State), ¬ (isAssay n = true ∧ dieOfThread n = 0) → exec (.registerWrite n 0x100 idx v) s = .next s)

/-- R10, R415, R419, R421, R429, R465, R481, R482, R500: the registers that are written and read as events of their own. Which clock says that an
update is of the cycle of a read or clear is the model's choice (log entry 70). -/
def Obligations.RegisterEvents : Prop :=
  (∀ (d q : Nat) (v : DWord) (s : Machine.State), q < 48 →
    (∃ t, exec (.throttle d q v) s = .next t ∧ ∃ was,
      OnlyQuad s t (d * 48 + q) { s.quad (d * 48 + q) with stepNew := some ((v.setWidth 4).setWidth 8), stepWas := was }) ∧
    (∃ t, exec (.qclk d q v) s = .next t ∧
      OnlyQuad s t (d * 48 + q) { s.quad (d * 48 + q) with fset := BitVec.ofNat 16 (max 8 (min 28 (v.toNat % 32))) })) ∧
  (∀ (d : Nat) (v : DWord) (s : Machine.State), ∃ t, exec (.errring d v) s = .next t ∧
    OnlyDie s t d { s.die d with ringEn := v.getLsbD 0, ringSize := BitVec.ofNat 5 (max 6 (min 16 (v.toNat / 2 % 32))),
                                 ringBase := v.toNat / 2 ^ 12 % 2 ^ 36, head := 0, tail := 0 }) ∧
  (∀ (d : Nat) (v : DWord) (s : Machine.State), ∃ t, exec (.errptr d v) s = .next t ∧
    let fits := ((s.die d).tail + 2 ^ 32 - v.toNat % 2 ^ 32) % 2 ^ 32 ≤ 2 ^ (s.die d).ringSize.toNat
    OnlyDie s t d { s.die d with head := if fits then v.toNat % 2 ^ 32 else (s.die d).head }) ∧
  (∀ (d : Nat) (s : Machine.State), ∃ t was l, exec (.alert d) s = .next t ∧ OnlyDie s t d { s.die d with alerts := l, alertWas := was } ∧
    (∀ a, firstAlert (s.die d) = some a → l = (s.die d).alerts.erase a) ∧ (firstAlert (s.die d) = none → l = (s.die d).alerts)) ∧
  (∀ (d : Nat) (v : DWord) (s : Machine.State), (s.die d).wkGo = false → v.getLsbD 24 = true → v.toNat % 2 ^ 16 ≠ 0 →
    s.hasWork (v.toNat % 2 ^ 16) = true → (s.work (v.toNat % 2 ^ 16)).killing = none →
    ∃ t, exec (.wkill d v) s = .next t ∧ (t.die d).wkGo = true ∧ (t.die d).wkHandle = v.setWidth 16 ∧
      ((t.work (v.toNat % 2 ^ 16)).killing.map Prod.fst = some (if v.toNat / 2 ^ 16 % 256 = 0x3A then EndKind.faulted else EndKind.killed)) ∧
      t.threads = s.threads ∧ t.elems = s.elems) ∧
  (∀ (d : Nat) (s : Machine.State), (s.die d).wkGo = true → s.hasWork (s.die d).wkHandle.toNat = false →
    ∃ t, exec (.wkillComplete d) s = .next t ∧ OnlyDie s t d { s.die d with wkGo := false }) ∧
  (∀ (n : Nat) (v : DWord) (s : Machine.State), (∃ t, exec (.macedit n v) s = .next t ∧ RegWritten s t n 0x00A 0 v) ∧
    ∃ t, exec (.poisrec n v) s = .next t ∧ RegWritten s t n 0x007 0 v) ∧
  (∀ (d num idx : Nat) (s : Machine.State), d < 4 → num ∈ dieRegisters.map (fun p => p.1) → let n := 768 + 4 * d
    ∃ t, exec (.mctpRegisterRead d num idx) s = .next t ∧
      t.platform.answers = s.platform.answers ++ [toBytes 8 (regShows s n num idx).toNat] ∧
      RegRead s { t with platform := { t.platform with answers := s.platform.answers } } n num idx)

/-! ### Foreman: waiting for the working, working control and phases -/

/-- R333, R341, R413: WFI returns all four conditions once one that its MASK selects holds, and otherwise waits; a waiting thread that looks again
does the same. A MASK of 0 is illegal. -/
def Obligations.WaitForWorking : Prop :=
  (∀ (rd : Reg) (mask : BitVec 4) (s : Machine.State), mask ≠ 0 → Holds s [rd] → (s.thread s.cur.thread).wait = .none →
    ∃ t, exec (.wfi rd mask) s = .next t ∧
      (s.wfiBits s.cur.thread &&& mask.toNat ≠ 0 → OnlyThread s t s.cur.thread ∧
        WritesReg { s.thread s.cur.thread with phaseEnded := (t.thread s.cur.thread).phaseEnded } (t.thread s.cur.thread) rd
          (BitVec.ofNat 64 (s.wfiBits s.cur.thread)) 4 ∧
        (t.thread s.cur.thread).phaseEnded = ((s.thread s.cur.thread).phaseEnded && !bit (s.wfiBits s.cur.thread) 0)) ∧
      (s.wfiBits s.cur.thread &&& mask.toNat = 0 → OnlySleeps s t s.cur.thread (.wfi rd mask.toNat))) ∧
  (∀ (n rd mask : Nat) (s : Machine.State), s.waitOf n = .wfi rd mask →
    ∃ t, exec (.wfiWake n) s = .next t ∧
      (s.wfiBits n &&& mask ≠ 0 → OnlyThread s t n ∧
        WritesReg { s.thread n with wait := .none, phaseEnded := (t.thread n).phaseEnded } (t.thread n) rd (BitVec.ofNat 64 (s.wfiBits n)) 4 ∧
        (t.thread n).phaseEnded = ((s.thread n).phaseEnded && !bit (s.wfiBits n) 0)) ∧
      (s.wfiBits n &&& mask = 0 → t = s)) ∧
  (∀ (rd : Reg) (s : Machine.State), exec (.wfi rd 0) s = .next (s.trapHere s.cur.thread { cause := 0x01 })) ∧
  (∀ (n : Nat) (s : Machine.State), (s.thread n).bound ≠ 0 → let w := s.work (s.thread n).bound
    bit (s.wfiBits n) 0 = (s.observable (s.thread n).bound && (s.thread n).phaseEnded) ∧
    bit (s.wfiBits n) 1 = (s.observable (s.thread n).bound && w.state == .idle) ∧
    bit (s.wfiBits n) 2 = (s.observable (s.thread n).bound && w.state == .paused) ∧ bit (s.wfiBits n) 3 = !w.report.isEmpty)

/-- R335, R338 to R340: WGO.start on an idle working, WGO.resume on a paused one, WPHASE, and the two stops; each says in f that the working is
not in the state it asks for. -/
def Obligations.WorkingControl : Prop :=
  (∀ (ra : Reg) (s : Machine.State), OnForeman s → Holds s [ra] →
    let x := s.thread s.cur.thread
    let w := s.work x.bound
    let n := (x.reg ra).toNat % 2 ^ 32
    ∃ t, exec (.wgoStart ra) s = .next t ∧
      (w.state = .idle → EndsWithF x (t.thread s.cur.thread) false ∧
        WorkStep s t x.bound s.cur.thread { w with budget := n, state := if n = 0 then .idle else .running }) ∧
      (w.state ≠ .idle → EndsWithF x (t.thread s.cur.thread) true ∧ OnlyThread s t s.cur.thread)) ∧
  (∀ (ra : Reg) (s : Machine.State), OnForeman s → Holds s [ra] →
    let x := s.thread s.cur.thread
    let w := s.work x.bound
    ∃ t, exec (.wgoResume ra) s = .next t ∧
      (w.state = .paused → EndsWithF x (t.thread s.cur.thread) false ∧ ThreadsKept s t s.cur.thread ∧
        t.work x.bound = { w with state := if !w.inPhase && w.budget = 0 then .idle else .running } ∧
        (∀ k, k ≠ x.bound → t.work k = s.work k) ∧
        (∀ e, t.elem e = if e ∈ w.elems then Elem.unbar (s.elem e) else s.elem e) ∧
        { t with works := s.works, threads := s.threads, elems := s.elems, dies := s.dies } = s) ∧
      (w.state ≠ .paused → EndsWithF x (t.thread s.cur.thread) true ∧ OnlyThread s t s.cur.thread)) ∧
  (∀ (ra : Reg) (s : Machine.State), OnForeman s → Holds s [ra] →
    let x := s.thread s.cur.thread
    let w := s.work x.bound
    let past := w.pastMark (s.cur.thread / 4) (s.quad (s.cur.thread / 4)).cyc
    ∃ t, exec (.wphase ra) s = .next t ∧
      (((w.inPhase = true ∧ (s.sinksDone x.bound = false ∨ past = false)) ∨ (w.inPhase = false ∧ (w.mark = [] ∨ past = true))) →
        Advances x (t.thread s.cur.thread) 4 ∧ WorkStep s t x.bound s.cur.thread (if (x.reg ra).getLsbD 2 then { w with expl := false }
          else { w with next := (x.reg ra).setWidth 2, expl := true })) ∧
      (w.inPhase = false → w.mark ≠ [] → past = false → Advances x (t.thread s.cur.thread) 4 ∧ WorkStep s t x.bound s.cur.thread
        { w with next := if (x.reg ra).getLsbD 2 then w.endNet else (x.reg ra).setWidth 2 }) ∧
      (s.sinksDone x.bound = true → past = true → w.state = .running → let v := t.work x.bound
        v.inPhase = false ∧ v.phases = w.phases + 1 ∧ v.expl = !(x.reg ra).getLsbD 2 ∧
        v.next = if (x.reg ra).getLsbD 2 then (if w.expl then w.next else s.network x.bound) else (x.reg ra).setWidth 2)) ∧
  (∀ (ends : Bool) (s : Machine.State), OnForeman s →
    let x := s.thread s.cur.thread
    let w := s.work x.bound
    ∃ t, exec (if ends then .wstopEnd else .wstopPause) s = .next t ∧
      (w.state = .idle → EndsWithF x (t.thread s.cur.thread) true ∧ OnlyThread s t s.cur.thread) ∧
      (w.state ≠ .idle → Sleeps x (t.thread s.cur.thread) (.wstop ends) ∧ (∀ m, m ≠ s.cur.thread → t.thread m = s.thread m) ∧
        (w.state = .running → s.sinksDone x.bound = true → t.work x.bound = { w with budget := 0 }) ∧
        (w.inPhase = true → (w.state = .running ∧ s.sinksDone x.bound = false ∨ w.state = .paused ∧ ends = true) →
          t.work x.bound = { w with stopping := some ends, awaited := s.toAwait x.bound }) ∧
        (w.inPhase = true → w.state = .paused → ends = false → t.work x.bound = w) ∧
        (w.inPhase = false → t.work x.bound =
          { w with budget := 0, state := if w.state = .paused ∧ ends = false then .paused else .idle, awaited := s.toAwait x.bound }) ∧
        { t with works := s.works, threads := s.threads, age := s.age } = s))

/-- R40, R77, R92, R338, R339, R341, R350, R375, R376: the start of a phase, its end by its sinks, and the completion of a stop. -/
def Obligations.PhasesAndStops : Prop :=
  (∀ (h : Nat) (s : Machine.State), s.phaseReady h = true → let w := s.work h
    (∀ e p, e ∈ w.elems → p ∈ (s.elem e).latent → p.1 ≠ w.next.toNat) → ∃ t, exec (.phaseStart h) s = .next t ∧
      t.work h = { w with budget := w.budget - 1, active := w.next, inPhase := true, sinks := [], mark := [] } ∧
      (∀ e, e ∈ w.elems →
        let seed := 0x9E3779B9#32 ^^^ BitVec.ofNat 32 (blockIndex w e * 2 ^ 5) ^^^ BitVec.ofNat 32 (posOf e * 2 ^ 2) ^^^ w.next.setWidth 32
        t.elem e = { s.elem e with active := w.next, p := (s.cfg e w.next.toNat).preds, rr := 0, barAt := none, gen := seed }) ∧
      (∀ e, e ∉ w.elems → t.elem e = s.elem e) ∧ (∀ d, t.die d = { s.die d with cwrow := (t.die d).cwrow }) ∧
      { t with works := s.works, elems := s.elems, dies := s.dies } = s) ∧
  (∀ (h : Nat) (s : Machine.State), s.sinksDone h = true → (s.work h).state = .running → (s.work h).live = true → let w := s.work h
    ∃ t, exec (.phaseEnd h) s = .next t ∧
      t.work h = { w with next := if w.expl then w.next else s.network h, expl := false, inPhase := false, sinks := [], phases := w.phases + 1,
                          endNet := s.network h, state := if w.budget = 0 then .idle else .running, awaited := s.toAwait h } ∧
      (t.thread w.thread).phaseEnded = true ∧ { t with works := s.works, threads := s.threads } = s) ∧
  (∀ (h : Nat) (ends : Bool) (s : Machine.State), s.observable h = true → (s.work h).live = true → (s.thread (s.work h).thread).bound = h →
    (s.thread (s.work h).thread).wait = .wstop ends → (s.work h).stopping = some ends → (s.work h).inPhase = true → let w := s.work h
    ∃ t, exec (.workingStopComplete h) s = .next t ∧ (t.thread w.thread).f = false ∧ (t.thread w.thread).wait = .none ∧
      (t.thread w.thread).pc = (s.thread w.thread).pc + 4 ∧
      (ends = true → t.work h =
        { w with stopping := none, budget := 0, next := if w.expl then w.next else s.network h, expl := false, inPhase := false, sinks := [],
                 phases := w.phases + 1, endNet := s.network h, state := .idle, awaited := s.toAwait h }) ∧
      (ends = false → t.work h = { w with stopping := none, state := .paused }) ∧
      { t with works := s.works, threads := s.threads } = s) ∧
  (∀ (h rd : Nat) (s : Machine.State), s.observable h = true → (s.work h).live = true → (s.thread (s.work h).thread).bound = h →
    (s.thread (s.work h).thread).wait = .rvbeg rd → ∃ t, exec (.workingStopComplete h) s = .next t ∧ WritesRegF (s.thread (s.work h).thread) (t.thread (s.work h).thread) rd 0 false ∧
      (t.work h).regions.length = (s.work h).regions.length + 1 ∧ (t.work h).keeps = [] ∧ (t.work h).stopping = none)

/-- R308, R335, R336, R341, R343, R377: the values that WQUERY, RDS and HQUERY read; a value that observes the working waits until every access
before the last change has performed. RDS of the report channel's head removes it with fn 1 alone. -/
def Obligations.WorkingQueries : Prop :=
  (∀ (i : Instr) (rd : Reg) (f : Working → DWord) (s : Machine.State), queryRule i = some (rd, f) → OnForeman s → Holds s [rd] →
    (s.thread s.cur.thread).wait = .none → ∃ t, exec i s = .next t ∧
      (s.observable (s.thread s.cur.thread).bound = true → OnlyThread s t s.cur.thread ∧
        WritesReg (s.thread s.cur.thread) (t.thread s.cur.thread) rd (f (s.work (s.thread s.cur.thread).bound)) 4) ∧
      (s.observable (s.thread s.cur.thread).bound = false → t = s)) ∧
  (∀ (i : Instr) (rd : Reg) (l : List Reg) (f : Machine.State → Nat → DWord) (s : Machine.State), readRule i = some (rd, l, f) → OnForeman s →
    Holds s l → (s.thread s.cur.thread).wait = .none → ∃ t, exec i s = .next t ∧ OnlyThread s t s.cur.thread ∧
      WritesReg (s.thread s.cur.thread) (t.thread s.cur.thread) rd (f s s.cur.thread) 4) ∧
  (∀ (rd : Reg) (s : Machine.State), OnForeman s → Holds s [rd] → (s.thread s.cur.thread).wait = .none →
    let x := s.thread s.cur.thread
    let w := s.work x.bound
    ∃ t, exec (.rdsReportPop rd) s = .next t ∧ WritesReg x (t.thread s.cur.thread) rd (BitVec.ofNat 64 (w.report.length - 1)) 4 ∧
      WorkStep s t x.bound s.cur.thread { w with report := w.report.tail }) ∧
  (∀ (rd ra : Reg) (v : DWord) (s : Machine.State), OnForeman s → Holds s [rd, ra] → (s.thread s.cur.thread).wait = .none →
    ((s.thread s.cur.thread).reg ra).toNat < 64 → CounterIs s s.cur.thread ((s.thread s.cur.thread).reg ra).toNat v →
    ∃ t, exec (.rdsSyncCounter rd ra) s = .next t ∧
      WritesReg (s.thread s.cur.thread) (t.thread s.cur.thread) rd v 4 ∧
      CounterStep s t s.cur.thread ((s.thread s.cur.thread).reg ra).toNat v)

/-- R354, R356, R468: SEMA takes one from a counter above 0, adds, or sets it; every update writes the three copies. That a SEMA.p That a SEMA.p waits
behind an older one is the model's choice (log entry 35). -/
def Obligations.Semaphores : Prop :=
  (∀ (rd ra : Reg) (sc : Scope) (v : DWord) (s : Machine.State), OnForeman s → Holds s [rd, ra] →
    let x := s.thread s.cur.thread
    let c := (x.reg ra).toNat % 64
    CounterIs s s.cur.thread c v →
    (∃ t, exec (.semaTry rd ra sc) s = .next t ∧
      WritesRegF x (t.thread s.cur.thread) rd (if v = 0 then 0 else v - 1) (v == 0) ∧
      CounterStep s t s.cur.thread c (if v = 0 then 0 else v - 1)) ∧
    (x.wait = .none → v ≠ 0 → (∀ m k, m ≠ s.cur.thread → m / 4 = s.cur.thread / 4 → (s.thread m).wait ≠ .semaP c k) →
      ∃ t, exec (.semaP rd ra sc) s = .next t ∧ WritesReg x (t.thread s.cur.thread) rd (v - 1) 4 ∧ CounterStep s t s.cur.thread c (v - 1)) ∧
    (v = 0 → ∃ t, exec (.semaP rd ra sc) s = .next t ∧ Sleeps x (t.thread s.cur.thread) (.semaP c rd) ∧
      ∀ k, (t.quad (s.cur.thread / 4)).copies k = (s.quad (s.cur.thread / 4)).copies k)) ∧
  (∀ (rd ra rb : Reg) (sc : Scope) (v : DWord) (s : Machine.State), OnForeman s → Holds s [rd, ra, rb] →
    let x := s.thread s.cur.thread
    let c := (x.reg ra).toNat % 64
    let sum := v.toNat + (x.reg rb).toNat
    (CounterIs s s.cur.thread c v → ∃ t, exec (.semaV rd ra rb sc) s = .next t ∧
      WritesRegF x (t.thread s.cur.thread) rd (if sum < 2 ^ 64 then BitVec.ofNat 64 sum else -1) (decide (2 ^ 64 ≤ sum)) ∧
      CounterStep s t s.cur.thread c (if sum < 2 ^ 64 then BitVec.ofNat 64 sum else -1)) ∧
    (x.wait = .none → ∃ t, exec (.semaSet rd ra rb sc) s = .next t ∧ WritesReg x (t.thread s.cur.thread) rd (x.reg rb) 4 ∧
      CounterStep s t s.cur.thread c (x.reg rb))) ∧
  (∀ (n c rd : Nat) (v : DWord) (s : Machine.State), s.waitOf n = .semaP c rd → CounterIs s n c v → v ≠ 0 → s.olderSema n c = false →
    ∃ t, exec (.semaPGrant n) s = .next t ∧ WritesReg { s.thread n with wait := .none } (t.thread n) rd (v - 1) 4 ∧ CounterStep s t n c (v - 1))

/-- R355: BARW of the last party passes with GEN one more and ARRIVED 0; an earlier party arrives and waits; a waiting party passes once GEN has
changed. A count of 0 or above 4 is illegal. -/
def Obligations.Barriers : Prop :=
  (∀ (rd ra rb : Reg) (sc : Scope) (v : DWord) (s : Machine.State), OnForeman s → Holds s [rd, ra, rb] →
    let x := s.thread s.cur.thread
    let c := (x.reg ra).toNat % 64
    let n := (x.reg rb).toNat % 8
    CounterIs s s.cur.thread c v → x.arrival = none → x.wait = .none → 1 ≤ n → n ≤ 4 →
    ∃ t, exec (.barw rd ra rb sc) s = .next t ∧
      (v.toNat % 2 ^ 32 + 1 = n → let g := (v.toNat / 2 ^ 32 + 1) % 2 ^ 32
        WritesReg x (t.thread s.cur.thread) rd (BitVec.ofNat 64 g) 4 ∧ CounterStep s t s.cur.thread c (BitVec.ofNat 64 (g * 2 ^ 32))) ∧
      (v.toNat % 2 ^ 32 + 1 ≠ n → Sleeps { x with arrival := some (c, v.toNat / 2 ^ 32) } (t.thread s.cur.thread) (.barw c (v.toNat / 2 ^ 32) rd) ∧
        let k := BitVec.ofNat 64 (v.toNat / 2 ^ 32 * 2 ^ 32 + (v.toNat + 1) % 2 ^ 32)
        (t.quad (s.cur.thread / 4)).copies c = (k, k, k))) ∧
  (∀ (rd ra rb : Reg) (sc : Scope) (s : Machine.State), OnForeman s → Holds s [rd, ra, rb] →
    (((s.thread s.cur.thread).reg rb).toNat % 8 = 0 ∨ 4 < ((s.thread s.cur.thread).reg rb).toNat % 8) →
    exec (.barw rd ra rb sc) s = .next (s.trapHere s.cur.thread { cause := 0x01 })) ∧
  (∀ (n c gen rd : Nat) (v : DWord) (s : Machine.State), s.waitOf n = .barw c gen rd → CounterIs s n c v →
    ∃ t, exec (.barwRelease n) s = .next t ∧
      (v.toNat / 2 ^ 32 ≠ gen → OnlyThread s t n ∧
        WritesReg { s.thread n with wait := .none, arrival := none } (t.thread n) rd (BitVec.ofNat 64 (v.toNat / 2 ^ 32)) 4) ∧
      (v.toNat / 2 ^ 32 = gen → t = s))

/-! ### Foreman: tasks, hoist commands, regions, invalidations, images -/

/-- R42, R190 to R192, R344, R345: TQPUSH with room pushes the record of 64 bytes at ra, its byte 36 naming the thread, and counts one
OUTSTANDING; without room TQPUSH.try sets f and TQPUSH waits. TQPOP stores the thread's oldest record at ra, takes it out of the queue and
takes one from OUTSTANDING, with rd = 1; where it has none, rd = 0 and f = 1. -/
def Obligations.TaskQueue : Prop :=
  (∀ (ra : Reg) (tries : Bool) (v : DWord) (s s' : Machine.State) (a : Nat), OnForeman s → Holds s [ra] →
    ((s.thread s.cur.thread).reg ra).toNat % 64 = 0 →
    s.touchRead s.cur.thread ((s.thread s.cur.thread).reg ra).toNat .read = .ok a s' → s'.badIn a 64 = false →
    let n := s.cur.thread
    let l := s'.bytesAt a 64
    let c := (l.getD 35 0).toNat % 64
    CounterIs s' n c v →
    ∃ t, exec (if tries then .tqpushTry ra else .tqpush ra) s = .next t ∧
      ((s'.die (dieOfThread n)).tasks.length < 4096 → v.toNat % 2 ^ 16 < 65535 →
        (t.die (dieOfThread n)).tasks = (s'.die (dieOfThread n)).tasks ++
          [{ bytes := l.set 36 (BitVec.ofNat 8 (n % 192)), age := s'.age, parent := (s.thread n).bound }] ∧
        (t.quad (n / 4)).copies c = (v + 1, v + 1, v + 1) ∧
        t.thread n = { s'.thread n with pc := (s.thread n).pc + 4, wait := .none, f := if tries then false else (s.thread n).f } ∧
        (∀ m, m ≠ n → t.thread m = s'.thread m) ∧ t.mem = s'.mem) ∧
      (¬ ((s'.die (dieOfThread n)).tasks.length < 4096 ∧ v.toNat % 2 ^ 16 < 65535) →
        (tries = true → OnlyThread s' t n ∧ EndsWithF (s.thread n) (t.thread n) true) ∧ (tries = false → OnlySleeps s' t n (.tqpush c)))) ∧
  (∀ (rd ra : Reg) (s : Machine.State), OnForeman s → Holds s [rd, ra] → s.ownTask s.cur.thread = none →
    ∃ t, exec (.tqpop rd ra) s = .next t ∧ OnlyThread s t s.cur.thread ∧
      WritesRegF (s.thread s.cur.thread) (t.thread s.cur.thread) rd 0 true) ∧
  (∀ (rd ra : Reg) (k : Task) (v : DWord) (s s' : Machine.State) (a : Nat), OnForeman s → Holds s [rd, ra] →
    s.ownTask s.cur.thread = some k → k.bytes.length = 64 → ((s.thread s.cur.thread).reg ra).toNat % 64 = 0 →
    s.touchWrite64 s.cur.thread ((s.thread s.cur.thread).reg ra).toNat = .ok a s' → a % 64 = 0 →
    let n := s.cur.thread
    let c := (k.bytes.getD 35 0).toNat % 64
    CounterIs s' n c v → 1 ≤ v.toNat % 2 ^ 16 →
    ∃ t, exec (.tqpop rd ra) s = .next t ∧ WritesRegF (s'.thread n) (t.thread n) rd 1 false ∧
      (∀ i, i < 64 → t.byte (a + i) = k.bytes.getD i 0) ∧ (∀ b, b < a ∨ a + 64 ≤ b → t.byte b = s'.byte b) ∧
      (t.die (dieOfThread n)).tasks = (s'.die (dieOfThread n)).tasks.erase k ∧
      (t.quad (n / 4)).copies c = (v - 1, v - 1, v - 1) ∧ ∀ m, m ≠ n → t.thread m = s'.thread m)

/-- R291, R292, R346, R501: HCOPY and HCOPY.try hand the command of 64 bytes at ra to the lowest-numbered idle hoist, which rd names; with no idle
hoist HCOPY waits and HCOPY.try sets f; a refused command traps with cause 0x29 and its reason. What is not checked of an entry that a kind does not
use, and reasons 1 and 8 of a reduction, are the model's choice (log entries 41 and 65). -/
def Obligations.HoistCommands : Prop :=
  ∀ (rd ra : Reg) (tries : Bool) (s s' : Machine.State) (a : Nat), OnForeman s → Holds s [rd, ra] → (s.thread s.cur.thread).wait = .none →
    ((s.thread s.cur.thread).reg ra).toNat % 64 = 0 →
    s.touchRead s.cur.thread ((s.thread s.cur.thread).reg ra).toNat .read = .ok a s' → s'.badIn a 64 = false →
    let n := s.cur.thread
    let d := dieOfThread n
    let cmd := BitVec.ofNat 512 (ofBytes (s'.bytesAt a 64))
    let x := s'.takeCommand (s.thread n).bound (n % 192) none 0 cmd
    ∃ t, exec (if tries then .hcopyTry rd ra else .hcopy rd ra) s = .next t ∧
      (∀ m, (s'.die d).idleHoist = some m → s'.hoistReason d (s.thread n).bound x = none →
        (if tries then WritesRegF (s'.thread n) (t.thread n) rd (BitVec.ofNat 64 m) false
          else WritesReg (s'.thread n) (t.thread n) rd (BitVec.ofNat 64 m) 4) ∧
        ((t.die d).hoist m).busy = true ∧ ((t.die d).hoist m).cmd = cmd ∧ ((t.die d).hoist m).handle = (s.thread n).bound ∧
        ((t.die d).hoist m).prg = 0 ∧ ((t.die d).hoist m).issuer = none ∧ (∀ k, k ≠ m → (t.die d).hoist k = (s'.die d).hoist k) ∧
        (∀ m, m ≠ n → t.thread m = s'.thread m) ∧ t.mem = s'.mem) ∧
      (∀ m r, (s'.die d).idleHoist = some m → s'.hoistReason d (s.thread n).bound x = some r →
        t = s'.trapHere n { cause := 0x29, detail := r * 2 ^ 16 }) ∧
      ((s'.die d).idleHoist = none → (tries = true → OnlyThread s' t n ∧ EndsWithF (s.thread n) (t.thread n) true) ∧
        (tries = false → OnlySleeps s' t n (.hcopy ((s.thread n).reg ra).toNat rd)))

/-- R296, R347, R507: PUBLISH flips SEL of an entry with a shadow, and of no other entry; an entry without one, or one that an open region keeps,
traps. -/
def Obligations.PublishFlipsEntry : Prop :=
  ∀ (ra : Reg) (sc : Scope) (s : Machine.State), OnForeman s → Holds s [ra] →
    let x := s.thread s.cur.thread
    let w := s.work x.bound
    let k := (x.reg ra).toNat % 256
    ((entSpace (w.entry k) = 0 ∨ entShv (w.entry k) = false) →
      exec (.publish ra sc) s = .next (s.trapHere s.cur.thread { cause := 0x01, detail := k })) ∧
    (entSpace (w.entry k) ≠ 0 → entShv (w.entry k) = true → w.keepsEntry k = true →
      exec (.publish ra sc) s = .next (s.trapHere s.cur.thread { cause := 0x60 })) ∧
    (entSpace (w.entry k) ≠ 0 → entShv (w.entry k) = true → w.keepsEntry k = false →
      ∃ t, exec (.publish ra sc) s = .next t ∧ Advances x (t.thread s.cur.thread) 4 ∧
        entSel ((t.work x.bound).entry k) = !entSel (w.entry k) ∧
        (∀ i, i < 512 → i ≠ 3 → bit ((t.work x.bound).entry k) i = bit (w.entry k) i) ∧
        (∀ j, j ≠ k → (t.work x.bound).entry j = w.entry j) ∧
        { t.work x.bound with layout := w.layout } = w ∧ (∀ h, h ≠ x.bound → t.work h = s.work h) ∧
        (∀ m, m ≠ s.cur.thread → t.thread m = s.thread m) ∧ { t with works := s.works, threads := s.threads } = s)

/-- R349, R350, R352: RVKEEP adds its item to the pending set; RVBEG of a working that does not run opens a region with those items once it is
observed, and one that runs is stopped first; RVEND waits, and its completion closes the innermost region. Each traps with cause 0x60 where it has no
place. Which items RVKEEP refuses is the model's choice (log entry 21). -/
def Obligations.RecoveryRegions : Prop :=
  (∀ (ra : Reg) (s : Machine.State), OnForeman s → Holds s [ra] →
    let x := s.thread s.cur.thread
    let w := s.work x.bound
    ((31 ≤ w.keeps.length ∨ s.itemOk x.bound (x.reg ra).toNat = false) →
      exec (.rvkeep ra) s = .next (s.trapHere s.cur.thread { cause := 0x60 })) ∧
    (w.keeps.length < 31 → s.itemOk x.bound (x.reg ra).toNat = true →
      ∃ t, exec (.rvkeep ra) s = .next t ∧ Advances x (t.thread s.cur.thread) 4 ∧
        WorkStep s t x.bound s.cur.thread { w with keeps := w.keeps ++ [x.reg ra] })) ∧
  (∀ (rd : Reg) (s : Machine.State), OnForeman s → Holds s [rd] →
    let x := s.thread s.cur.thread
    let w := s.work x.bound
    (4 ≤ w.regions.length → exec (.rvbeg rd) s = .next (s.trapHere s.cur.thread { cause := 0x60 })) ∧
    (w.regions.length < 4 → s.checkpointFull w = none →
      ∃ t, exec (.rvbeg rd) s = .next t ∧
        (w.state ≠ .running → s.observable x.bound = true → WritesRegF x (t.thread s.cur.thread) rd 0 false ∧
          (t.work x.bound).keeps = [] ∧ (∃ g, (t.work x.bound).regions = g :: w.regions ∧ g.keeps = w.keeps ∧ g.retry = 0 ∧
            g.restart = x.pc + 4 ∧ g.rd = rd ∧ ∀ p, p ∈ g.regs → p.2.2 = (s.elem p.1).reg p.2.1)) ∧
        (w.state ≠ .running → s.observable x.bound = false → OnlySleeps s t s.cur.thread (.rvbeg rd)) ∧
        (w.state = .running → Sleeps x (t.thread s.cur.thread) (.rvbeg rd) ∧
          t.work x.bound = { w with stopping := some false, awaited := s.toAwait x.bound }))) ∧
  (∀ (ra : Reg) (s : Machine.State), OnForeman s → Holds s [ra] →
    let x := s.thread s.cur.thread
    ((x.reg ra).toNat % 8 = 7 → exec (.rvend ra) s = .next (s.trapHere s.cur.thread { cause := 0x01 })) ∧
    ((x.reg ra).toNat % 8 ≠ 7 → (s.work x.bound).regions = [] → exec (.rvend ra) s = .next (s.trapHere s.cur.thread { cause := 0x60 })) ∧
    ((x.reg ra).toNat % 8 ≠ 7 → (s.work x.bound).regions ≠ [] → ∃ t, exec (.rvend ra) s = .next t ∧ OnlySleeps s t s.cur.thread (.rvend ((x.reg ra).toNat % 8)))) ∧
  (∀ (n sc : Nat) (s : Machine.State) (g : Region) (r : List Region), s.waitOf n = .rvend sc → s.rvendReady (s.thread n).bound = true →
    (s.work (s.thread n).bound).regions = g :: r →
    ∃ t, exec (.rvendComplete n) s = .next t ∧ OnlyThread { s with tiles := t.tiles, works := t.works } t n ∧
      t.thread n = { s.thread n with pc := (s.thread n).pc + 4, wait := .none } ∧ (t.work (s.thread n).bound).regions = r ∧
      (∀ k, k < 256 → entSel ((t.work (s.thread n).bound).entry k) =
        (entSel ((s.work (s.thread n).bound).entry k) != ((keptEntries g).contains k && entSpace ((s.work (s.thread n).bound).entry k) != 2))) ∧
      ∀ h, h ≠ (s.thread n).bound → t.work h = s.work h)

/-- R348, R396: INVR of a program names its own address space alone. No copy that meets its range is left in the caches of the dies of its scope; the
thread waits for the acknowledgement, which comes once no unit of a hoist waits for writes that it has sent. A length of 0 goes on at once, and a
scope other than DIE, PKG and POD is illegal. Which accesses an acknowledgement waits for is the model's choice (log entry 5). -/
def Obligations.Invalidations : Prop :=
  (∀ (rd ra rb : Reg) (all : Bool) (sc : Scope) (s : Machine.State), Holds s [rd, ra, rb] →
    let x := s.thread s.cur.thread
    let asid := (x.reg rd).toNat % 2 ^ 16
    (sc ∉ [.die, .pkg, .pod] → exec (.invr rd ra rb all sc) s = .next (s.trapHere s.cur.thread { cause := 0x01 })) ∧
    (sc ∈ [.die, .pkg, .pod] → isAssay s.cur.thread = false → (all = true ∨ asid ≠ (s.work x.bound).asid) →
      exec (.invr rd ra rb all sc) s = .next (s.trapHere s.cur.thread { cause := 0x05 })) ∧
    (sc ∈ [.die, .pkg, .pod] → (isAssay s.cur.thread = true ∨ (all = false ∧ asid = (s.work x.bound).asid)) → x.reg rb = 0 →
      ∃ t, exec (.invr rd ra rb all sc) s = .next t ∧ OnlyThread s t s.cur.thread ∧ Advances x (t.thread s.cur.thread) 4) ∧
    (sc ∈ [.die, .pkg, .pod] → (isAssay s.cur.thread = true ∨ (all = false ∧ asid = (s.work x.bound).asid)) → x.reg rb ≠ 0 →
      ∃ t, exec (.invr rd ra rb all sc) s = .next t ∧
        Sleeps x (t.thread s.cur.thread) (.invr asid (x.reg ra).toNat (x.reg rb).toNat all (scopeCode sc)) ∧
        (∀ d c, d ∈ scopeDies (scopeCode sc) (dieOfThread s.cur.thread) → c ∈ (t.die d).tlb →
          ¬ ((all = true ∨ c.asid = asid) ∧ (x.reg ra).toNat < c.page + 2 ^ c.size ∧ c.page < (x.reg ra).toNat + (x.reg rb).toNat)) ∧
        (∀ d q c, d ∈ scopeDies (scopeCode sc) (dieOfThread s.cur.thread) → q < 48 → c ∈ (t.quad (d * 48 + q)).tlb →
          ¬ ((all = true ∨ c.asid = asid) ∧ (x.reg ra).toNat < c.page + 2 ^ c.size ∧ c.page < (x.reg ra).toNat + (x.reg rb).toNat)) ∧
        (∀ e c, dieOf e ∈ scopeDies (scopeCode sc) (dieOfThread s.cur.thread) → c ∈ (t.elem e).tlb →
          ¬ ((all = true ∨ c.asid = asid) ∧ (x.reg ra).toNat < c.page + 2 ^ c.size ∧ c.page < (x.reg ra).toNat + (x.reg rb).toNat)) ∧
        t.mem = s.mem ∧ ∀ m, m ≠ s.cur.thread → t.thread m = s.thread m)) ∧
  (∀ (n asid start len sc : Nat) (all : Bool) (s : Machine.State), s.waitOf n = .invr asid start len all sc →
    let unit := fun d p => d < 4 ∧ d ∈ scopeDies sc (dieOfThread n) ∧ p ∈ (s.die d).hoists ∧ p.2.busy = true ∧ p.2.sent = true ∧
      p.2.peers ≠ [] ∧ (all = true ∨ (s.work p.2.handle).asid = asid)
    ((∃ d p, unit d p) → exec (.invrAcknowledge n) s = .next s) ∧
    ((∀ d p, ¬ unit d p) → ∃ t, exec (.invrAcknowledge n) s = .next t ∧
      t.thread n = { s.thread n with pc := (s.thread n).pc + 4, wait := .none } ∧ (∀ m, m ≠ n → t.thread m = s.thread m) ∧ t.mem = s.mem))

/-- R334, R342, R377, R514: WLOAD waits for its image; the end of the load writes rd and f, and a good image's contexts. WSAVE writes its image at ra
with its length in rd; WREST of an image of the working takes its state back, and refuses another image with 0x41. The parts of an image that the
manual leaves open, and the causes 0x41 and 0x47 of WREST, are the model's choice (log entries 30 and 56). -/
def Obligations.ImagesLoadedAndSaved : Prop :=
  (∀ (rd ra rb : Reg) (s : Machine.State), OnForeman s → Holds s [rd, ra, rb] →
    let x := s.thread s.cur.thread
    ∃ t, exec (.wload rd ra rb) s = .next t ∧
      Sleeps x (t.thread s.cur.thread) (.wload (x.reg ra).toNat ((x.reg rb).toNat % 16) rd) ∧
      t.work x.bound = { s.work x.bound with loading := true } ∧ { t with works := s.works, threads := s.threads, age := s.age } = s) ∧
  (∀ (h va mask rd : Nat) (again : Bool) (l : List Byte) (s s1 : Machine.State), s.jobs = [] → let w := s.work h
    (s.thread w.thread).wait = .wload va mask rd → w.loading = true → w.killing = none → w.savedAt = none →
    s.readImage ⟨fun s a => s.touch w.thread a .read, fun s pa => if again then goodAgain w.die h s pa else none⟩ va = .ok l s1 →
    wloadChecks w (imageOf l) mask = .ok [] → s1.work h = w → s1.thread w.thread = s.thread w.thread →
    ∃ t, exec (.loadImage h (.sectors again)) s = .next t ∧ (t.work h).loading = false ∧
      WritesRegF (s.thread w.thread) (t.thread w.thread) rd 0 false ∧
      ∀ i b, i < w.width * w.height → b < 4 → bit mask b = false → (t.claim (w.claimAt i)).block b = (s1.claim (w.claimAt i)).block b) ∧
  (∀ (rd ra : Reg) (b : Nat) (s s0 s2 : Machine.State), OnForeman s → Holds s [rd, ra] →
    let n := s.cur.thread
    let h := (s.thread n).bound
    let va := ((s.thread n).reg ra).toNat
    let s1 := s0.settle h
    let img := s1.saveImage h false
    va % 64 = 0 → s.touchSectors n va (((s.settle h).saveImage h false).length / 32) = .ok b s0 →
    { s1 with shelf := s1.snapshot h false img :: s1.shelf }.writeSectors n (s1.badSectors h img) va img
      (img.length / 32) 0 = .ok s2 →
    ∃ t, exec (.wsave rd ra) s = .next t ∧ OnlyThread s2 t n ∧
      WritesReg { s2.thread n with wait := .none } (t.thread n) rd (BitVec.ofNat 64 img.length) 4) ∧
  (∀ (rd ra : Reg) (l : List Byte) (s s1 : Machine.State), OnForeman s → Holds s [rd, ra] →
    let n := s.cur.thread
    let h := (s.thread n).bound
    let w := s.work h
    s.readSave ⟨fun s a => s.touch n a .read, fun _ _ => none⟩ ((s.thread n).reg ra).toNat = .ok l s1 → s1.works = s.works →
    s1.threads = s.threads →
    let fits := saveImageOk l && le l 3 1 == w.ident.toNat && le l 4 1 == w.width && le l 5 1 == w.height && bit (le l 6 1) 0 == w.islands
    ∃ t, exec (.wrest rd ra) s = .next t ∧
      (fits = false → OnlyThread s1 t n ∧ WritesReg { s.thread n with wait := .none } (t.thread n) rd 0x41 4) ∧
      (fits = true → lacking (le l 8 8) ≠ 0 → OnlyThread s1 t n ∧ WritesReg { s.thread n with wait := .none } (t.thread n) rd 0x47 4) ∧
      (fits = true → lacking (le l 8 8) = 0 →
        s1.hoistsFree w.die ((s1.snapOf h w l).hoists.length - (s1.ownHoists h).length) = true →
        let v := (s1.snapOf h w l).work
        (t.thread n).pc = (s.thread n).pc + 4 ∧ (rd ≠ 0 → (t.thread n).reg rd = BitVec.ofNat 64 l.length) ∧
        (t.work h).state = v.state ∧ (t.work h).active = v.active ∧ (t.work h).next = v.next ∧ (t.work h).phases = v.phases ∧
        (t.work h).budget = v.budget ∧ (t.work h).report = v.report ∧ (t.work h).die = w.die ∧ (t.work h).row = w.row ∧
        (t.work h).col = w.col))

/-! ### Elements: results -/

/-- R75, R147, R148, R151 to R155: a ready integer or logic instruction fires: each lane that is valid in every operand holds, element by element,
the value of the table in the type's width, other lanes are invalid and zero, and the token goes to both consumer slots. -/
def Obligations.ElementIntegerResults : Prop :=
  ∀ (i : Instr) (R : LaneRule) (s : Machine.State), intRule i = some R → s.ready s.cur.elem R.w = true →
    ∃ t r, exec i s = .next t ∧ LaneResult R (operands s s.cur.elem R.w R.reads) r ∧ FiresResult s t s.cur.elem R.w r

/-- R104, R147, R151, R156 to R161, R166: the floating-point and approximation instructions, rounded once; a NaN that no operand brought poisons
the token. -/
def Obligations.ElementFloatResults : Prop :=
  ∀ (i : Instr) (R : LaneRule) (s : Machine.State), floatRule i = some R → s.ready s.cur.elem R.w = true →
    ∃ t r, exec i s = .next t ∧ LaneResult R (operands s s.cur.elem R.w R.reads) r ∧ FiresResult s t s.cur.elem R.w r

/-- R167, R175, R179, R182, R184, R194 to R196: lane selections, moves, filters, masks, predicates and readings of the system. -/
def Obligations.ElementTokenResults : Prop :=
  ∀ (i : Instr) (R : TokenRule) (s : Machine.State), tokenRule i = some R → s.ready s.cur.elem R.w = true →
    ∃ t, exec i s = .next t ∧
      FiresResult s t s.cur.elem R.w { R.value s s.cur.elem with x := R.poison s s.cur.elem || R.exc s s.cur.elem }

/-- R168 to R170: a reduction puts into lane 0 what its operation makes of the valid lanes, element by element, and with no valid lane gives an
empty token; a prefix sum puts into each valid lane the sum of the valid lanes up to it. -/
def Obligations.ElementReductions : Prop :=
  (∀ (i : Instr) (w : EWord) (g : List Nat → Nat × Bool) (s : Machine.State), reduceRule i = some (w, g) → s.ready s.cur.elem w = true →
    let a := s.opA s.cur.elem w
    let n := Ty.width w.ty
    let col := fun k => (lanesBelow a.m 8).map (fun l => elemAt n a l k)
    ∃ t r, exec i s = .next t ∧ FiresResult s t s.cur.elem w r ∧
      (a.m = 0 → r = { VReg.zero with x := a.x }) ∧
      (a.m ≠ 0 → r.m = 1 ∧ (∀ l, 1 ≤ l → r.p.get l = 0) ∧ (∀ k, k < Ty.count w.ty → elemAt n r 0 k = (g (col k)).1 % 2 ^ n) ∧
        r.x = (a.x || (List.range (Ty.count w.ty)).any (fun k => (g (col k)).2)))) ∧
  (∀ (i : Instr) (w : EWord) (g : List Nat → Nat × Bool) (s : Machine.State), prefixRule i = some (w, g) → s.ready s.cur.elem w = true →
    let a := s.opA s.cur.elem w
    let n := Ty.width w.ty
    let col := fun l k => (lanesBelow a.m (l + 1)).map (fun l => elemAt n a l k)
    ∃ t r, exec i s = .next t ∧ FiresResult s t s.cur.elem w r ∧ r.m = a.m ∧ (∀ l, l < 8 → mbit a.m l = false → r.p.get l = 0) ∧
      (∀ l k, l < 8 → mbit a.m l = true → k < Ty.count w.ty → elemAt n r l k = (g (col l k)).1 % 2 ^ n) ∧
      r.x = (a.x || (List.range 8).any (fun l => mbit a.m l && (List.range (Ty.count w.ty)).any (fun k => (g (col l k)).2))))

/-- R91, R93, R162 to R165: a ready conversion fires: D0 receives the first part and D1 the last, where a widening conversion has two parts and any
other has one; element j of a part is the conversion of element j of A, or of +0 where its lane is invalid, rounded to nearest, toward zero, or by the
draw that is its own. CVT.rs moves the generator on by one draw for each element of a valid lane of the parts, and the other two leave it. One poison
bit for both parts is the model's choice (log entry 16). -/
def Obligations.ElementConversions : Prop :=
  (∀ (i : Instr) (w : EWord) (mode : Word → Nat → RMode) (draws : Bool) (s : Machine.State), convRule i = some (w, mode, draws) →
    s.ready s.cur.elem w = true →
    let e := s.cur.elem
    let src := tyOf (srcCode w.sb)
    let a := s.opA e w
    let md := mode (s.elem e).gen
    ∃ t r0 r1 n, exec i s = .next t ∧ ConvPart w.ty src md a 0 0 r0 ∧
      (Ty.count w.ty < Ty.count src → ConvPart w.ty src md a 1 (convDraws w.ty r0) r1 ∧ n = convDraws w.ty r0 + convDraws w.ty r1) ∧
      (¬ Ty.count w.ty < Ty.count src → r1 = r0 ∧ n = convDraws w.ty r0) ∧
      let x := a.x || convBad w.ty src md a 0 0 r0 || (decide (Ty.count w.ty < Ty.count src) && convBad w.ty src md a 1 (convDraws w.ty r0) r1)
      FiredWith s t e w (some (mkToken (s.elem e) w w.d0 { r0 with x := x })) (some (mkToken (s.elem e) w w.d1 { r1 with x := x }))
        (fun y => if draws then { y with gen := genAfter y.gen n } else y) (popList w)) ∧
  (∀ (g : Word) (n : Nat), let x := g ^^^ (g <<< 13)
    let y := x ^^^ (x >>> 17)
    genAfter g 0 = g ∧ genAfter g (n + 1) = genAfter (y ^^^ (y <<< 5)) n ∧ rand16 g = g.toNat / 2 ^ 16)

/-! ### Elements: tokens -/

/-- R73, R175 to R178, R181, R183, R197: PASS, DROP, NOP, STEER, MERGE.ORD, MERGE.ANY, TAG and BFWD. -/
def Obligations.ElementTokenFlow : Prop :=
  ∀ (w : EWord) (s : Machine.State), let e := s.cur.elem
    let x := s.elem e
    (s.ready e w = true →
      (∃ t, exec (.pass w) s = .next t ∧ Fired s t e w (some (headOfA s e w)) (some (headOfA s e w)) (popList w)) ∧
      (∃ t, exec (.drop w) s = .next t ∧ Fired s t e w none none (popList w)) ∧
      (∃ t, exec (.nop w) s = .next t ∧ Fired s t e w none none (popList w)) ∧
      (let k := { headOfA s e w with t := w.ot }
        ∃ t, exec (.tag w) s = .next t ∧ Fired s t e w (some k) (some k) (popList w)) ∧
      (let b := s.opB e w
        let k := { headOfA s e w with t := if mbit b.m 0 then (b.p.get 0).setWidth 4 else w.ot, x := (headOfA s e w).x || b.x }
        ∃ t, exec (.tagDyn w) s = .next t ∧ Fired s t e w (some k) (some k) (popList w))) ∧
    (s.readySteer e w = true →
      let v : VReg := { s.opA e w with x := (s.opA e w).x || (s.opB e w).x }
      let decision := mbit (s.opB e w).m 0 && (s.opB e w).p.get 0 != 0
      ∃ t, exec (.steer w) s = .next t ∧ Fired s t e w (if decision then some (mkToken x w w.d0 v) else none)
        (if decision then none else some (mkToken x w w.d1 v)) (popList w)) ∧
    (s.readyMergeOrd e w = true →
      let c := headOfA s e w
      let arm := if mbit c.m 0 && c.p.get 0 != 0 then srcQueue w.sa else srcQueue w.sb
      let k := { x.headOr arm with x := (x.headOr arm).x || c.x }
      ∃ t, exec (.mergeOrd w) s = .next t ∧ Fired s t e w (some k) (some k) (popList w ++ [arm])) ∧
    (s.readyMergeAny e w = true →
      let n := ((if armPass x w.qa w.ta w.tv then w.qa else w.qb).map (fun n => n.toNat)).getD 0
      ∃ t, exec (.mergeAny w) s = .next t ∧ Fired s t e w (some (x.headOr n)) (some (x.headOr n)) [n]) ∧
    (s.readyBfwd e w = true →
      let psn := (headOfA s e w).x || ((w.qb.bind (fun n => x.head n)).getD Token.zero).x
      let k : Token := { Token.zero with t := 15, x := psn, c := (sideCI x w).1, i := (sideCI x w).2 }
      ∃ t, exec (.bfwd w) s = .next t ∧ Fired s t e w (some k) (some k) (popList w))

/-- R180, R185, R186: PACK fills its partial register from the head and sends it when it is full or the last token is used up; TAGA takes the
lowest free tag and TAGF frees the head's; TAGX and TAGX.get. -/
def Obligations.ElementPackAndTags : Prop :=
  ∀ (w : EWord) (s : Machine.State), let e := s.cur.elem
    let x := s.elem e
    let a := s.opA e w
    let reg := srcReg w.sb
    (s.ready e w = true →
      (let qa := (w.qa.map (fun n => n.toNat)).getD 0
        let h := x.headOr qa
        let r := packOp (x.reg reg) h.reg
        let used := r.2.1.m == 0
        let sends := r.2.2 == 8 || (used && h.l)
        ∃ t, exec (.pack w) s = .next t ∧ FiredWith s t e w
          (if sends then some { mkToken x w w.d0 r.1 with l := used && h.l } else none)
          (if sends then some { mkToken x w w.d1 r.1 with l := used && h.l } else none)
          (fun y => (if used then y else y.setHead qa { h with p := r.2.1.p, m := r.2.1.m }).setReg reg (if sends then VReg.zero else r.1))
          (if used then [qa] else [])) ∧
      (let m := mapBits (x.reg reg)
        let n := (headOfA s e w).i.toNat
        let v : VReg := { a with x := a.x || (x.reg reg).x }
        ∃ t, exec (.tagf w) s = .next t ∧ FiredWith s t e w (some (mkToken x w w.d0 v)) (some (mkToken x w w.d1 v))
          (fun y => y.setReg reg (setMap (x.reg reg) (if m.testBit n then m - 2 ^ n else m))) (popList w)) ∧
      (let b := s.opB e w
        let v : VReg := { a with x := a.x || b.x }
        let i := if mbit b.m 0 then (b.p.get 0).setWidth 6 else (sideCI x w).2
        ∃ t, exec (.tagx w) s = .next t ∧
          Fired s t e w (some { mkToken x w w.d0 v with i := i }) (some { mkToken x w w.d1 v with i := i }) (popList w)) ∧
      (let k := headOfA s e w
        ∃ t, exec (.tagxGet w) s = .next t ∧
          FiresResult s t e w { numbers [k.i.toNat, k.t.toNat, k.l.toNat, k.c.toNat] with x := a.x })) ∧
    (s.readyTaga e w = true →
      ∃ t n, exec (.taga w) s = .next t ∧ n < 64 ∧ (mapBits (x.reg reg)).testBit n = false ∧
        (∀ k, k < n → (mapBits (x.reg reg)).testBit k = true) ∧
        let v : VReg := { a with x := a.x || (x.reg reg).x }
        FiredWith s t e w (some { mkToken x w w.d0 v with i := BitVec.ofNat 6 n }) (some { mkToken x w w.d1 v with i := BitVec.ofNat 6 n })
          (fun y => y.setReg reg (setMap (x.reg reg) (mapBits (x.reg reg) + 2 ^ n))) (popList w))

/-- R187 to R189: the writes of a chain's shadow registers, CHCOUNT.end, and CHNEXT by one index or by up to eight: the indices rise by the step, L
marks the last, and an exhausted chain is loaded again. -/
def Obligations.ElementChains : Prop :=
  (∀ (w : EWord) (s : Machine.State), s.ready s.cur.elem w = true → let e := s.cur.elem
    let a := s.opA e w
    let c := chainNum w
    (∃ t, exec (.chstart w) s = .next t ∧ FiredWith s t e w none none
      (fun y => if mbit a.m 0 then y.setChain c { y.chain c with startSh := a.p.get 0 } else y) (popList w)) ∧
    (∃ t, exec (.chstep w) s = .next t ∧ FiredWith s t e w none none
      (fun y => if mbit a.m 0 then y.setChain c { y.chain c with stepSh := a.p.get 0 } else y) (popList w)) ∧
    (∃ t, exec (.chcount w) s = .next t ∧ FiredWith s t e w none none
      (fun y => if mbit a.m 0 then y.setChain c { y.chain c with countSh := a.p.get 0 } else y) (popList w)) ∧
    (∃ t, exec (.chcountEnd w) s = .next t ∧ FiredWith s t e w none none
      (fun y => y.setChain c { y.chain c with countLive := 0 }) (popList w))) ∧
  (∀ (w : EWord) (s : Machine.State) (wide : Bool), s.ready s.cur.elem w = true → let e := s.cur.elem
    let x := s.elem e
    let ch := x.chain (chainNum w)
    let loads := ch.countLive = 0
    let c : Chain := if loads then { ch with startLive := ch.startSh, stepLive := ch.stepSh, countLive := ch.countSh } else ch
    let first := if loads then c.startLive else c.x + c.stepLive
    let m := min (if wide then 8 else 1) c.countLive.toNat
    let r : VReg := ⟨Lanes.ofFn (fun l => if l < m then first + BitVec.ofNat 32 l * c.stepLive else 0), BitVec.ofNat 8 (2 ^ m - 1), false⟩
    let last := decide (c.countLive.toNat = m)
    ∃ t, exec (if wide then .chnextV w else .chnext w) s = .next t ∧
      FiredWith s t e w (some { mkToken x w w.d0 r with l := last }) (some { mkToken x w w.d1 r with l := last })
        (fun y => y.setChain (chainNum w) (if m = 0 then c
          else { c with x := first + BitVec.ofNat 32 (m - 1) * c.stepLive, countLive := c.countLive - BitVec.ofNat 32 m })) (popList w))

/-- R42, R190 to R195, R432: SPAWN pushes its record and counts it; JOIN with no child outstanding gives the three counts and clears them; FENCE
passes A on once the element's accesses have performed; ETRAP completes and freezes the working. -/
def Obligations.ElementTasksAndTraps : Prop :=
  ∀ (w : EWord) (s : Machine.State), let e := s.cur.elem
    let x := s.elem e
    let a := s.opA e w
    let d := (s.opB e w).p.a0.toNat
    let h := s.owner e
    let n := (s.work h).thread
    (∀ v, s.readySpawn e w = true → CounterIs s n (d / 2 ^ 8 % 2 ^ 6) v →
      ∃ t u, exec (.spawn w) s = .next t ∧ Fired s u e w none none (popList w) ∧ t.elems = u.elems ∧ t.flights = u.flights ∧ t.mem = u.mem ∧
        (t.quad (n / 4)).copies (d / 2 ^ 8 % 2 ^ 6) = (v + 1, v + 1, v + 1) ∧
        (t.die (dieOf e)).tasks = (s.die (dieOf e)).tasks ++ [{ bytes := taskBytes a d (n % 192), age := s.age, parent := h }]) ∧
    (∀ v, s.readyJoin e w = true → CounterIs s n (d % 2 ^ 6) v →
      let r := numbers [v.toNat / 2 ^ 16 % 2 ^ 16, v.toNat / 2 ^ 32 % 2 ^ 16, v.toNat / 2 ^ 48 % 2 ^ 16]
      ∃ t u, exec (.join w) s = .next t ∧ t.elems = u.elems ∧ t.flights = u.flights ∧ t.mem = u.mem ∧
        Fired s u e w (some { mkToken x w w.d0 r with l := true }) (some { mkToken x w w.d1 r with l := true }) (popList w) ∧
        (t.quad (n / 4)).copies (d % 2 ^ 6) = (0, 0, 0)) ∧
    (s.readyFence e w = true → ∃ t, exec (.fenceElement w) s = .next t ∧ FiresResult s t e w a) ∧
    (s.ready e w = true → s.hasWork h = true → (s.work h).killing = none → (s.work h).freeze = none →
      ∃ t u, exec (.etrap w) s = .next t ∧ Fired s u e w none none (popList w) ∧
        t.elem e = { u.elem e with barAt := some (s.quad (quadOf e)).cyc } ∧ (∀ f, f ≠ e → t.elem f = s.elem f) ∧ t.flights = u.flights ∧
        ((t.work h).freeze.map (fun i => (i.cause, i.eid, i.arg)) = some (0x07, e, if mbit a.m 0 then (a.p.get 0).toNat else 0)))

/-! ### Elements: memory -/

/-- R208, R210, R212, R215, R217, R218, R222, R225 to R233: a ready memory instruction issues its access: it takes a place in its element, no token
leaves and no byte changes. LD and ST wait in the wave buffer, or enter order where nothing older can; SWATCH arms a watch. -/
def Obligations.ElementMemoryIssue : Prop :=
  (∀ (i : Instr) (w : EWord) (op : Nat) (mac data : Bool) (f : Access → Access) (s : Machine.State),
    issueRule s.cur.elem s i = some (w, op, mac, data, f) → s.readyMem s.cur.elem w mac data = true →
    ∃ t, exec i s = .next t ∧ Issued s t s.cur.elem w (fun x => { x with accs := x.accs ++
      [{ f (s.newAccess s.cur.elem op w) with res0 := true, res1 := true }] })) ∧
  (∀ (w : EWord) (st : Bool) (s : Machine.State), s.readyWave s.cur.elem (if st then 0xC1 else 0xC0) w st = true →
    ∃ t, exec (if st then .st w else .ld w) s = .next t ∧ Issued s t s.cur.elem w
      (fun x => x.wavePut s.cur.elem { s.newAccess s.cur.elem (if st then 0xC1 else 0xC0) w with res0 := true, res1 := true })) ∧
  (∀ (e : Nat) (x : Elem) (a : Access), x.nextEnter = none → (∀ b, b ∈ x.wbuf → b.seq ≠ a.seq) →
    (x.canEnter a = false ∨ memRoom e x = false → x.wavePut e a = { x with wbuf := x.wbuf ++ [a] }) ∧
    (x.canEnter a = true → memRoom e x = true →
      let rest := x.waves.filter (fun v => !(v.c == a.c && v.i == a.i))
      x.wavePut e a = Elem.drain e { x with
        accs := x.accs ++ [a]
        waves := if waveSucc a = 0 then rest else rest ++ [⟨a.c, a.i, waveSelf a, waveSucc a⟩] } 16)) ∧
  (∀ (w : EWord) (s : Machine.State), s.readySwatch s.cur.elem w = true →
    ∃ t, exec (.swatch w) s = .next t ∧ Issued s t s.cur.elem w (fun x => { x with watches := x.watches ++
      [{ s.armed s.cur.elem (s.newAccess s.cur.elem 0xB2 w) with res0 := true, res1 := true }] }))

/-- R220: SPBEG opens a speculation on a bank of its SE's tile that has none, while a shadow bank is free; SPDIS drops its element's, and SPCOM, once
the earlier accesses of its element have performed, stores every sector of it, each with its mark, and leaves every other byte; the three pass A
on. -/
def Obligations.ElementSpeculation : Prop :=
  ∀ (w : EWord) (s : Machine.State), let e := s.cur.elem
    let bank := (SMap.get 0 (s.curCfg e).k (tyCode w.ty - 12)).toNat % 16
    let tile := tileOf e
    let own := fun (p : Spec) => p.opener == e && p.bank == bank
    s.ready e w = true →
    ((s.tile tile).specs.length < 2 → (∀ p, p ∈ (s.tile tile).specs → p.bank ≠ bank) → ∃ t u, exec (.spbeg w) s = .next t ∧
      FiresResult s u e w (s.opA e w) ∧ (t.tile tile).specs = (s.tile tile).specs ++ [⟨bank, e, (s.elem e).seq, []⟩] ∧
      (t.tile tile).undo = (s.tile tile).undo ∧ (∀ n, n ≠ tile → t.tile n = s.tile n) ∧
      t.elem e = { u.elem e with seq := (u.elem e).seq + 1 } ∧ (∀ f, f ≠ e → t.elem f = s.elem f) ∧
      { t with tiles := u.tiles, elems := u.elems } = u) ∧
    ((∃ p, p ∈ (s.tile tile).specs ∧ own p = true) → ∃ t u, exec (.spdis w) s = .next t ∧ FiresResult s u e w (s.opA e w) ∧
      t.tile tile = { s.tile tile with specs := (s.tile tile).specs.filter (fun p => !own p) } ∧ (∀ n, n ≠ tile → t.tile n = s.tile n) ∧
      { t with tiles := u.tiles } = u) ∧
    (∀ p, (s.tile tile).specs.find? own = some p → (∀ a, a ∈ (s.elem e).accs → a.stage = .performed) →
      (∀ q, q ∈ p.sectors → q.1 % 32 = 0 ∧ q.2.1.length = 32) → p.sectors.Pairwise (fun q r => q.1 ≠ r.1) →
      ∃ t u, exec (.spcom w) s = .next t ∧ FiresResult s u e w (s.opA e w) ∧
      (t.tile tile).specs = (s.tile tile).specs.filter (fun q => !own q) ∧ Committed u t ∧
      (∀ q k, q ∈ p.sectors → k < 32 → t.byte (q.1 + k) = q.2.1.getD k 0 ∧ t.poisoned (q.1 + k) = q.2.2 ∧ t.isBad (q.1 + k) = false) ∧
      (∀ b, (∀ q, q ∈ p.sectors → sectorOf b ≠ q.1) → t.byte b = u.byte b ∧ SameMarks u t b))

/-! ### Matrix islands -/

/-- R261, R264 to R276, R283: the six island instructions, each once its slots allow it: OCLM claims a slot, keeps one that its context holds, or
finds none; ORLS and TZERO act on the slot named and reply with it; TLOAD, TMUL and TOUT start their macros. A slot that the token does not name gives
an empty reply. -/
def Obligations.MatrixIslandCommands : Prop :=
  ∀ (w : EWord) (s : Machine.State), let e := s.cur.elem
    let i := s.isl e
    let c := islCtx (s.elem e) w
    let empty := fun op => (s.portAccess e op w).portReply (portLanes [] false)
    (s.readyOclm e w = true →
      (∀ n, s.oclmFinds e w = .fresh n → ∃ t, exec (.oclm w) s = .next t ∧
        PortIssued s t e w ((s.portAccess e 0xD0 w).portReply (portLanes [n] (w.ty == .c12 && (i.op n).psn))) (if w.ty = .c12
          then OpSlot n { i.op n with claim := some c, fill := 0 } else AccSlot n { claim := some c })) ∧
      (∀ n, s.oclmFinds e w = .held n → ∃ t, exec (.oclm w) s = .next t ∧
        PortIssued s t e w ((s.portAccess e 0xD0 w).portReply (portLanes [n] (if w.ty = .c12 then (i.op n).psn else (i.acc n).psn)))
          (fun x y => y = x)) ∧
      (s.oclmFinds e w = .noSlot → ∃ t, exec (.oclm w) s = .next t ∧ PortIssued s t e w (empty 0xD0) (fun x y => y = x))) ∧
    (s.readyOrls e w = true →
      (∀ n, s.orlsSlot e w = some n → ∃ t, exec (.orls w) s = .next t ∧
        PortIssued s t e w ((s.portAccess e 0xD1 w).portReply (portLanes [n] (w.ty == .c12 && (i.op n).psn))) (if w.ty = .c12
          then OpSlot n { i.op n with claim := none, fill := 0 } else AccSlot n {})) ∧
      (s.orlsSlot e w = none → ∃ t, exec (.orls w) s = .next t ∧ PortIssued s t e w (empty 0xD1) (fun x y => y = x))) ∧
    (s.readyTzero e w = true →
      (∀ n, s.tzeroSlot e w = some n → ∃ t, exec (.tzero w) s = .next t ∧
        PortIssued s t e w ((s.portAccess e 0xD5 w).portReply (portLanes [n] false)) (AccSlot n { claim := (i.acc n).claim })) ∧
      (s.tzeroSlot e w = none → ∃ t, exec (.tzero w) s = .next t ∧ PortIssued s t e w (empty 0xD5) (fun x y => y = x))) ∧
    (s.readyTload e w = true →
      let a := s.tileAccess e 0xD2 w 64
      (∀ n, s.tloadSlot e w = some n → ∃ t, exec (.tload w) s = .next t ∧
        PortIssued s t e w a (OpSlot n { i.op n with fill := 1, fmt := tloadFmt a.desc.toNat, psn := a.x })) ∧
      (s.tloadSlot e w = none → ∃ t, exec (.tload w) s = .next t ∧
        PortIssued s t e w (a.portReply (portLanes [] false)) (fun x y => y = x))) ∧
    (s.readyTmul e w = true → s.tmulMisuse e w = none →
      (∀ a b z, s.tmulSlots e w = some (a, b, z) → ∃ t, exec (.tmul w) s = .next t ∧
        PortIssued s t e w { s.portAccess e 0xD3 w with total := tmulBlocks (s.memDesc e w) (i.op a).fmt, node := s.age }
          (TmulStarts a b z (tmulChain (s.opA e w)) (bit (s.memDesc e w) 4))) ∧
      (s.tmulSlots e w = none → ∃ t, exec (.tmul w) s = .next t ∧ PortIssued s t e w (empty 0xD3) (fun x y => y = x))) ∧
    (s.readyTout e w = true → s.toutMisuse e w = none →
      let a := s.tileAccess e 0xD4 w 64
      (∀ n, s.toutSlot e w = some n → ∃ t, exec (.tout w) s = .next t ∧
        PortIssued s t e w a (AccSlot n { i.acc n with busy := true }) ∧
        ((i.acc n).psn = true → (t.work (s.owner e)).report = (s.work (s.owner e)).report ++ [reportToken (fun l => match l with
          | 0 => 2 | 1 => poisonWord (s.work (s.owner e)) | 2 => e | 3 => dEnt a.desc.toNat | 4 => n | _ => 0)])) ∧
      (s.toutSlot e w = none → ∃ t, exec (.tout w) s = .next t ∧
        PortIssued s t e w (a.portReply (portLanes [] false)) (fun x y => y = x)))

/-- R100, R101, R271, R273, R275, R284, R285: a row of a TLOAD fills 128 bytes of its slot and its scales; a step of the array adds the next block of
the earliest TMUL of the entry's context to every element of its slot, and its last block replies; a row of a TOUT is written. -/
def Obligations.MatrixIslandRowsAndSteps : Prop :=
  (∀ (e : Nat) (a : Access) (s : Machine.State), s.macroDue e = some a → a.op = 0xD2 → a.prg < 64 →
    let rows := s.tloadRow e a a.prg
    let addrs := (rows.1 ++ rows.2).filterMap id
    let n := macSlot a
    let size := entSize ((s.work (s.owner e)).entry (dEnt a.desc.toNat))
    let psn := ((s.isl e).op n).psn || addrs.any s.poisoned
    let at' := fun (o : Option Nat) (k : Nat) => (o.map (fun p => s.byte (p + k))).getD 0
    (∀ p, some p ∈ rows.1 → s.badIn p size = false) → (∀ p, some p ∈ rows.2 → s.isBad p = false) →
    ∃ t o, exec (.tloadRowFill e) s = .next t ∧ OpSlot n o (s.isl e) (t.isl e) ∧ (∀ k, k ≠ tileOf e → t.island k = s.island k) ∧
      (∀ i k, i < rows.1.length → k < size → o.byte (128 * a.prg + size * i + k) = at' (rows.1.getD i none) k) ∧
      (∀ b, b < rows.2.length → o.byte (8192 + a.prg * fmtBlocks (tloadFmt a.desc.toNat) + b) = at' (rows.2.getD b none) 0) ∧
      (∀ p, p < 8192 → (p < 128 * a.prg ∨ 128 * a.prg + 128 ≤ p) → o.byte p = ((s.isl e).op n).byte p) ∧
      o.fill = (if a.prg = 63 then 2 else 1) ∧ o.psn = psn ∧ o.claim = ((s.isl e).op n).claim ∧ o.fmt = ((s.isl e).op n).fmt ∧
      MacroStep s { t with islands := s.islands } e a.seq (fun b =>
        let b := { b with prg := b.prg + 1 }
        if a.prg = 63 then b.portReply (portLanes [n] psn) else b)) ∧
  (∀ (isl e : Nat) (a : Access) (s : Machine.State), isl < 768 → let q := s.quad (quadOfTile isl)
    (s.island isl).throttleOk q.step.toNat q.cyc = true → let i := (s.island isl).boundary
    tabSeek i.tab (tabNext i.tab) ≠ none → (s.setIsland isl i).stepEntry isl i.tab = some (e, a) →
    let na := a.a.p.a0.toNat
    let nw := a.a.p.a1.toNat
    let nz := macSlot a
    let z := ((s.island isl).acc nz).take (kBlock ((s.island isl).op na) ((s.island isl).op nw) ((s.island isl).acc nz) a.prg)
    let last := a.prg + 1 = a.total
    (fmtPerStep ((s.island isl).op na).fmt = 1 ∨ last) →
    ∃ t, exec (.islandStep isl) s = .next t ∧ (t.island isl).acc nz = { z with busy := !last } ∧
      (∀ k, k ≠ nz → (t.island isl).acc k = (s.island isl).acc k) ∧
      (∀ k, (t.island isl).op k = { (s.island isl).op k with
        rdr := ((s.island isl).op k).rdr - (if last ∧ k = na then 1 else 0) - (if last ∧ k = nw then 1 else 0) }) ∧
      (t.elem e).accs = (s.elem e).accs.map (fun b => if b.seq = a.seq then
        (let b := { b with prg := b.prg + 1 }
          if last then b.portReply (portLanes [nz, b.prg] z.psn) else b) else b) ∧
      ((s.work (s.owner e)).poison = none → (t.work (s.owner e)).poison =
        if z.psn && !((s.island isl).acc nz).psn && !a.x then some e else none) ∧
      (∀ k, k ≠ isl → t.island k = s.island k) ∧ t.mem = s.mem ∧ (∀ f, f ≠ e → t.elem f = s.elem f) ∧ CanariesOnly s t) ∧
  (∀ (a w : OSlot) (z : ASlot) (b i j : Nat), i < 64 → j < 64 →
    let p := ((kBlock a w z b).getD i []).getD j (0, false)
    (z.kind = 2 → p = (wrapN 32 (sextInt 32 (z.elem i j) +
      ((List.range 32).map (fun t => sextInt 8 (a.code i (32 * b + t)) * sextInt 8 (w.code j (32 * b + t)))).foldr (· + ·) 0), false)) ∧
    (z.kind ≠ 2 →
      let dot := fsumX (.fin false 0 0 ::
        (List.range 32).map (fun t => fmulX (fdec (fmtOf a.fmt) (a.code i (32 * b + t))) (fdec (fmtOf w.fmt) (w.code j (32 * b + t)))))
      p.1 = fround .f32 .rne (faddX (fdec .f32 (z.elem i j))
        (if fmtMx a.fmt then scaleBy (w.scale j b) (scaleBy (a.scale i b) dot) else dot)))) ∧
  (∀ (e : Nat) (a : Access) (s s' : Machine.State), s.macroDue e = some a → a.op = 0xD4 → let n := macSlot a
    let z := (s.isl e).acc n
    let d := a.desc.toNat
    let o := toutFmt d
    let k := a.b.p.a1.toNat % 256
    let row := toutRow z d k a.prg
    let l := s.toutWrites e a row.1 row.2
    let exc := fun b => toutMx o && blockExc (z.blockOf a.prg b)
    let made := exc 0 || exc 1
    (s.isl e).bad.contains (n, true) = false →
    (toutMx o = true → toutSmode d = true → ∀ b, b < 2 → rescale (toutElem o) k (z.blockOf a.prg b) = none) →
    s.writeMarked e (l.map (fun p => (p.1, p.2.1))) (fun sec => z.psn || l.any (fun p => sectorOf p.1 == sec && exc p.2.2)) = some s' →
    ∃ t, exec (.toutRowWrite e) s = .next t ∧ t.mem = s'.mem ∧ t.poison = s'.poison ∧ t.badSec = s'.badSec ∧
      (t.elem e).accs = (s'.elem e).accs.map (fun b => if b.seq = a.seq then
        (let b := { b with prg := a.prg + 1, got := { b.got with x := b.got.x || made } }
          if a.prg = 63 then b.portReply (portLanes [n, 64] (z.psn || b.got.x)) else b) else b) ∧
      (∀ k, (t.isl e).acc k = if k = n ∧ a.prg = 63 then { z with busy := false, chain := if toutEnd d then none else z.chain }
        else (s.isl e).acc k) ∧
      ((s.work (s.owner e)).poison = none → (t.work (s.owner e)).poison = if made && !z.psn && !a.x then some e else none) ∧
      (∀ f, f ≠ e → t.elem f = s'.elem f) ∧ CanariesOnly s t)

/-! ### Accesses under way -/

/-- R216, R220, R351, R441, R488: the bytes that an element writes stand in memory after it, and no other byte has changed, where none finds an
uncorrectable error; one that does leaves its sector poisoned and free of the error. A sector's old bytes and mark are saved first where an open
region needs them, and without room for them nothing is written. Bytes of a speculation stand in it and not in memory. The innermost region for a
record, and errors of tile SRAM by words, are the model's choice (log entries 46 and 79). -/
def Obligations.ElementWritesBytes : Prop :=
  (∀ (e : Nat) (l : List (Nat × Byte)) (x : Nat → Bool) (s s' : Machine.State), s.writeMarked e l x = some s' →
    (∀ p q, p ∈ l → q ∈ l → p.1 = q.1 → p.2 = q.2) →
    ((∀ p, p ∈ l → s.findsBad p.1 (inList l) = false) →
      (∀ p, p ∈ l → s'.byte p.1 = p.2) ∧ (∀ b, (∀ p, p ∈ l → p.1 ≠ b) → s'.byte b = s.byte b) ∧
      (∀ p, p ∈ l → x (sectorOf p.1) = true → s'.poisoned p.1 = true) ∧
      (∀ p, p ∈ l → x (sectorOf p.1) = false → s'.poisoned p.1 = (s.poisoned p.1 && coversCount (sectorOf p.1) l != 32)) ∧
      (∀ p, p ∈ l → coversCount (sectorOf p.1) l = 32 → s'.isBad p.1 = false) ∧
      (∀ b, (∀ p, p ∈ l → sectorOf p.1 ≠ sectorOf b) → SameMarks s s' b)) ∧
    (∀ p, p ∈ l → s.findsBad p.1 (inList l) = true → (∀ d b, sectorOf b = sectorOf p.1 → ¬ RingByte s d b) →
      s'.poisoned p.1 = true ∧ s'.isBad p.1 = false)) ∧
  (∀ (e sec t : Nat) (l : List (Nat × Byte)) (x : Bool) (s : Machine.State), windowTile sec = some t → let h := s.owner e
    let need := s.undoNeed h sec
    let kept := need.toList.map (fun p => ({ handle := h, depth := p.1, entry := p.2, sector := sectorOf sec, old := s.bytesAt (sectorOf sec) 32,
                                             poison := s.poisoned sec } : Undo))
    (need = none ∨ s.undoUsed t + 64 ≤ 65536 → ∃ s', s.writeSector e sec l x = some s' ∧ (s'.tile t).undo = (s.tile t).undo ++ kept) ∧
    (need ≠ none → 65536 < s.undoUsed t + 64 → s.writeSector e sec l x = none)) ∧
  (∀ (e sec : Nat) (k : Access) (l : List (Nat × Byte)) (x : Bool) (s s' : Machine.State) (p : Spec), sec % 32 = 0 → s.specAt e k sec = .some p →
    s.writeSpec e k sec l x = some s' → (∀ b, (∀ d, ¬ RingByte s d b) → s'.byte b = s.byte b) ∧
      ∃ q, q ∈ (s'.tile (tileOf e)).specs ∧ q.opener = e ∧ q.bank = p.bank ∧ ∀ i, i < 32 →
        (SMap.get ([], false) q.sectors sec).1.getD i 0 =
          ((l.find? (fun p => p.1 == sec + i)).map (fun p => p.2)).getD ((s.sectorFor e k sec).1.getD i 0))

/-- R213, R214, R217 to R219, R222, R224: an access in its turn performs: SLD and LD reply with the bytes at their place, SST and ST write theirs and
acknowledge, XLAT replies with its translation, and coordinates out of range touch nothing and reply empty. After an access of an SE, a watch whose
earlier accesses have all performed is armed, and it triggers at once where its word holds its value. That a watch compares the bytes of bank memory
is the model's choice (log entry 67). -/
def Obligations.AccessesPerform : Prop :=
  ∀ (e q : Nat) (a : Access) (s : Machine.State), s.due e q = some a →
    let r := s.accEntry e a
    let size := entSize r
    (a.op = 0xB0 → (∀ j n, j < 32 → s.rowLane e a (j / 4) = true → s.rowByte e a j = some n → s.isBad n = false) →
      ∃ t m v x, exec (.accessPerform e q) s = .next (t.armWatches e) ∧ AccDone s t e q (fun b => b.reply ⟨v, m, x⟩) ∧
        (∀ l, l < 8 → mbit m l = (List.range 4).all (fun k => (s.rowByte e a (4 * l + k)).isSome)) ∧
        (∀ l, l < 8 → mbit m l = false → v.get l = 0) ∧
        (∀ l k n, l < 8 → k < 4 → mbit m l = true → s.rowByte e a (4 * l + k) = some n →
          (v.get l).toNat / 2 ^ (8 * k) % 256 = ((s.sectorFor e a (sectorOf n)).1.getD (n % 32) 0).toNat) ∧
        (x = true ↔ ∃ l k n, l < 8 ∧ k < 4 ∧ mbit m l = true ∧ s.rowByte e a (4 * l + k) = some n ∧ (s.sectorFor e a (sectorOf n)).2 = true)) ∧
    (∀ s', a.op = 0xB1 → s.writeSst e a ((List.range 32).filterMap (fun j =>
        if s.rowWrites e a (j / 4) then (s.rowByte e a j).map (fun n => (n, (lanesBytes a.b.p 32).getD j 0)) else none)) a.b.x = some s' →
      ∃ t, exec (.accessPerform e q) s = .next (t.armWatches e) ∧ AccDone s' t e q (fun b => b.reply (ackOf (s.rowElems e a)))) ∧
    (∀ va pa s', a.op = 0xC0 → s.accOne e a = some va → entPeer r = false → s.placeRead e a va size .read = .ok pa s' →
      ∃ t, exec (.accessPerform e q) s = .next t ∧
        AccDone s' t e q (fun b => b.reply (loadValue size (s'.bytesAt pa size) (s'.poisoned pa)))) ∧
    (∀ va pa s' s'', a.op = 0xC1 → s.accOne e a = some va → entPeer r = false → stBytes size a.b ≠ [] → s.place e a va .write = .ok pa s' →
      s'.writeBytes e ((stBytes size a.b).map (fun p => (pa + p.1, p.2))) a.b.x = some s'' →
      ∃ t, exec (.accessPerform e q) s = .next t ∧ AccDone s'' t e q (fun b => b.reply (ackOf 1))) ∧
    (∀ va pa l s', a.op = 0xC8 → s.accOne e a = some va →
      s.transCached ⟨some e, some (quadOf e), dieOf e⟩ (s.work (s.owner e)).asid va a.acc (entIdent r) = .ok pa l s' →
      ∃ t, exec (.accessPerform e q) s = .next t ∧
        AccDone (s'.cachePut ⟨some e, some (quadOf e), dieOf e⟩ 2 l) t e q (fun b => b.reply (xlatReply va pa (leafBits l)))) ∧
    (s.accOne e a = none → (a.op = 0xC0 ∨ a.op = 0xC1 ∨ a.op = 0xC8) →
      ∃ t, exec (.accessPerform e q) s = .next t ∧
        AccDone s t e q (fun b => b.reply (if a.op = 0xC1 then ackOf 0 else ⟨Lanes.zero, 0, false⟩))) ∧
    (∀ u, OnlyElem u (u.armWatches e) e { u.elem e with watches := (u.elem e).watches.map (fun k =>
      if k.total = 2 ∧ (∀ b, b ∈ (u.elem e).accs → b.seq < k.seq → b.stage = .performed) then
        (let k := { k with total := 1 }
          if u.word k.node 4 = k.b.p.a0.toNat ∧ k.stage ≠ .performed
            then { k with stage := .performed, got := { k.got with x := u.poisoned k.node } } else k)
      else k) }) ∧
    (∀ sec, (a.specs = [] → s.sectorFor e a sec = (s.bytesAt sec 32, s.poisoned sec)) ∧
      (∀ p g, windowTile sec = some (tileOf e) → a.specs.find? (fun p => p.1 == bankOf sec) = some p →
        (s.tile (tileOf e)).specs.find? (fun g => g.opener == e && g.bank == p.1 && g.begun == p.2) = some g →
        s.sectorFor e a sec = SMap.get (s.bytesAt sec 32, s.poisoned sec) g.sectors sec)) ∧
    (∀ l x, a.specs = [] → s.writeSst e a l x = s.writeBytes e l x)

/-- R227 to R229: one lane of an atomic or reduction reads its word, writes the new one, and keeps the old one in its lane; the last lane sends the
reply. -/
def Obligations.StampAtomicsPerform : Prop :=
  ∀ (e q l va pa : Nat) (a : Access) (s s' s2 : Machine.State), s.due e q = some a → 0xC4 ≤ a.op → a.op ≤ 0xC7 → l ∈ s.lanesLeft e a →
    (∀ k, k ∈ s.lanesLeft e a → k < l → a.stampOrd = false ∧ s.laneActs e a k ≠ s.laneActs e a l) →
    s.laneActs e a l = some va → entPeer (s.accEntry e a) = false → s.placeRead e a va 4 .atomic = .ok pa s' →
    let w := s'.word pa 4
    let x := (a.b.p.get l).toNat
    let n := if a.cas then (if w = (a.b.p.get (l + 4)).toNat then x else w, false) else amoNew (dAop a.desc.toNat) w x
    let exc := n.2 && !a.x
    s'.writeBytes e (addrBytes pa (toBytes 4 n.1)) (a.b.x || n.2) = some s2 →
    let s3 := if exc then s2.createPoison (s.owner e) e (quadOf e) else s2
    let f := fun (b : Access) => { b with done := b.done ||| BitVec.ofNat 8 (2 ^ l), count := b.count + 1,
                                          got := ⟨b.got.p.set l (BitVec.ofNat 32 w), b.got.m ||| BitVec.ofNat 8 (2 ^ l),
                                            b.got.x || (exc || (a.amo && s'.poisoned pa))⟩ }
    ∃ t, exec (.stampAtomicPerform e q l) s = .next t ∧
      ((∃ k, k ∈ s.lanesLeft e a ∧ k ≠ l) → AccDone s3 t e q f) ∧
      ((∀ k, k ∈ s.lanesLeft e a → k = l) →
        AccDone s3 t e q (fun b => (f b).reply (if a.amo then (f a).got else ⟨(ackOf (a.count + 1)).p, 1, false⟩)))

/-- R225, R231, R232, R234, R386, R390, R392: a walk serves every access of its quad that is parked on the page: each may go on, the leaf stands in
the caches and is marked used. A lane of GATHR or SCATR, a hop of a chase and a walk of a tram unit complete one element of their macro; the last
replies. The reply of a chase or walk without a start, and a walk of a translation in one step, are the model's choice (log entries 37 and 81). -/
def Obligations.MacroElementsAndWalks : Prop :=
  (∀ (e q : Nat) (a : Access) (l : Tlb) (s : Machine.State), (s.elem e).accs.find? (fun b => b.seq == q) = some a → a.stage = .parked →
    s.alive e = true → let asid := (s.work (s.owner e)).asid
    let group := s.parkedOn (quadOf e) asid (a.va / 2 ^ 16)
    s.walk (dieOf e) asid a.va = .leaf l →
    (∀ p, p ∈ group → dieOf p.1 = dieOf e ∧ leafRefuses l p.2.acc (entIdent (s.accEntry p.1 p.2)) = none) →
    let used := fun (u : Tlb) => u.asid = asid ∧ u.page = l.page ∧ u.size = l.size ∧ u.leafAt = l.leafAt ∧
      u.leaf ||| 0xC0#64 = l.leaf ||| 0xC0#64 ∧ u.leaf.getLsbD 6 = true
    ∃ t, exec (.translationWalk e q) s = .next t ∧
      (∀ f, t.elem f = { s.elem f with tlb := (t.elem f).tlb, accs := (s.elem f).accs.map (fun b =>
        if group.any (fun p => p.1 == f && p.2.seq == b.seq) then { b with stage := .issued } else b) }) ∧
      (∀ p, p ∈ group → ∃ u, u ∈ (t.elem p.1).tlb ∧ used u) ∧ (∃ u, u ∈ (t.quad (quadOf e)).tlb ∧ used u) ∧
      (∃ u, u ∈ (t.die (dieOf e)).tlb ∧ used u) ∧
      (l.leafAt < 2 ^ 39 → t.word l.leafAt 8 =
        s.word l.leafAt 8 ||| (2 ^ 6 + if group.any (fun p => p.2.acc.writes) then 2 ^ 7 else 0)) ∧
      (∀ b, b < l.leafAt ∨ l.leafAt + 8 ≤ b → t.byte b = s.byte b) ∧
      (∀ k, t.quad k = { s.quad k with tlb := (t.quad k).tlb }) ∧ (∀ k, t.die k = { s.die k with tlb := (t.die k).tlb }) ∧
      { t with mem := s.mem, elems := s.elems, quads := s.quads, dies := s.dies } = s) ∧
  (∀ (e : Nat) (a : Access) (s : Machine.State), s.macroDue e = some a → a.op = 0xC2 ∨ a.op = 0xC3 →
    let size := entSize (s.accEntry e a)
    ((∀ k, a.prg ≤ k → k < 8 → s.laneActs e a k = none) →
      ∃ t g, exec (.gatherScatterLane e) s = .next t ∧ MacroStep s t e a.seq g ∧
        g a = (let b := { a with prg := 8 }
          if a.op = 0xC3 then b.reply (ackOf a.count)
          else if size ≠ 32 then b.reply a.got
          else if a.count = 0 then b.reply ⟨Lanes.zero, 0, false⟩ else { b with stage := .performed })) ∧
    (∀ l va pa s', a.prg ≤ l → l < 8 → s.laneActs e a l = some va → (∀ k, a.prg ≤ k → k < l → s.laneActs e a k = none) →
      entPeer (s.accEntry e a) = false → let u := s.modAcc e a.seq (fun b => { b with prg := l })
      let last := (List.range 8).all (fun k => k ≤ l || (s.laneActs e a k).isNone)
      let done := { a with prg := l + 1, count := a.count + 1, stage := .issued }
      (a.op = 0xC2 → u.placeRead e { a with prg := l } va size .read = .ok pa s' →
        ∃ t g, exec (.gatherScatterLane e) s = .next t ∧ MacroStep s' t e a.seq g ∧
          (size ≠ 32 → let v := le (s'.bytesAt pa size) 0 (min size 4)
            let w := if a.desc.getLsbD 14 && decide (size < 4) then BitVec.ofInt 32 (sextInt (8 * size) v) else BitVec.ofNat 32 v
            let b := { done with got := ⟨a.got.p.set l w, a.got.m ||| BitVec.ofNat 8 (2 ^ l), a.got.x || s'.poisoned pa⟩ }
            g { a with prg := l } = if last then { b with prg := 8 }.reply b.got else b) ∧
          (size = 32 → let b := done.addOut ⟨lanesOf (s'.bytesAt pa 32), 0xFF, s'.poisoned pa⟩ last
            g { a with prg := l } = if last then { b with prg := 8, stage := .performed } else b)) ∧
      (∀ s'', a.op = 0xC3 → u.place e { a with prg := l } va .write = .ok pa s' →
        s'.writeBytes e (addrBytes pa (toBytes (min size 4) (a.b.p.get l).toNat)) a.b.x = some s'' →
        ∃ t g, exec (.gatherScatterLane e) s = .next t ∧ MacroStep s'' t e a.seq g ∧
          g { a with prg := l } = if last then { done with prg := 8 }.reply (ackOf (a.count + 1)) else done))) ∧
  (∀ (e : Nat) (a : Access) (s : Machine.State), s.macroDue e = some a → a.op = 0xC9 →
    (a.ended = true → ∃ t, exec (.tramChaseHop e) s = .next t ∧ MacroStep s t e a.seq (fun b => { b with
      stage := .performed, out0 := [b.token false ⟨Lanes.zero, 0, false⟩ true], out1 := [b.token true (numbers [0]) true] })) ∧
    (∀ pa s', a.ended = false → s.placeRead e a (sectorOf a.node) 32 .read = .ok pa s' →
      let r := s'.bytesAt pa 32
      let p := le r (8 * (a.desc.toNat / 2 ^ 8 % 4)) 8
      let x := s'.poisoned pa || (a.trail.headD (0, false)).2
      ∃ t, exec (.tramChaseHop e) s = .next t ∧
        (a.prg < a.total → p ≠ 0 → MacroStep s' t e a.seq (fun b =>
          { b with node := p, prg := b.prg + 1, trail := (p, s'.poisoned pa) :: b.trail })) ∧
        (a.total ≤ a.prg ∨ p = 0 → MacroStep s' t e a.seq (fun b => { b with
          stage := .performed, out0 := [b.token false ⟨lanesOf r, 0xFF, x⟩ true]
          out1 := [b.token true { numbers [a.prg, a.node, a.node / 2 ^ 32] with x := x } true] })))) ∧
  (∀ (e : Nat) (a : Access) (s : Machine.State), s.macroDue e = some a → a.op = 0xCA →
    let starts := (List.range 8).filter (fun l => mbit a.a.m l && mbit a.b.m l)
    let E0 := entExt (s.accEntry e a) 0
    let delivers : Access → List Nat → Bool → Access := fun b path x =>
      let b : Access := { b.addPath (nodeTokens path x) with prg := b.prg + 1 }
      if b.prg = b.total then { b with stage := .performed } else b
    (∀ l rest x s', starts[a.prg]? = some l → (a.a.p.get l).toNat < E0 →
      Walked e a s (BitVec.ofNat 64 (a.seed.toNat * 2 ^ 32 + (a.b.p.get l).toNat)) (a.a.p.get l).toNat (a.desc.toNat / 2 ^ 8 % 2 ^ 8) rest x s' →
      ∃ t, exec (.tramWalkDeliver e) s = .next t ∧ MacroStep s' t e a.seq (fun b => delivers b ((a.a.p.get l).toNat :: rest) x)) ∧
    (∀ l, starts[a.prg]? = some l → E0 ≤ (a.a.p.get l).toNat →
      ∃ t, exec (.tramWalkDeliver e) s = .next t ∧ MacroStep s t e a.seq (fun b => delivers b [] false)) ∧
    (starts[a.prg]? = none → ∃ t, exec (.tramWalkDeliver e) s = .next t ∧ MacroStep s t e a.seq (fun b =>
      { (if a.total = 0 then b.addPath (nodeTokens [] false) else b) with stage := .performed })))

/-- R57, R60, R76, R211 to R213, R219, R223: the tokens of a reply leave, a waiting LD or ST enters order, a watch that has triggered delivers its
reply, a token in flight enters its queue and a credit raises the count of its queue's senders, in a later cycle than they left; nothing of an
element moves while its cycle is held. -/
def Obligations.RepliesWavesAndArrivals : Prop :=
  (∀ (e q : Nat) (a : Access) (k0 k1 : Token) (s : Machine.State), (s.elem e).leaves q = some a → s.alive e = true → s.cycleHeld e = false →
    a.stage = .performed → a.out0 = [k0] → a.out1 = [k1] →
    let u0 := if a.res0 then s.giveRoom e a.r0 (destOf a.d0) else s
    u0.roomVia e a.r0 (destOf a.d0) = true → let s1 := u0.writeVia e a.r0 (destOf a.d0) k0 (.reply e a.bare false a.sent0)
    let u1 := if a.res1 then s1.giveRoom e a.r1 (destOf a.d1) else s1
    u1.roomVia e a.r1 (destOf a.d1) = true →
    ∃ t, exec (.pendingReplyLeave e q) s = .next t ∧ ReplyLeft s t e a k0 k1 a.sent0 a.sent1 ∧
      (t.elem e).accs = (s.elem e).accs.filter (fun b => b.seq != q) ∧ (t.elem e).watches = (s.elem e).watches) ∧
  (∀ (e : Nat) (a : Access) (s : Machine.State), let x := s.elem e
    x.wbuf.find? x.canEnter = some a → memRoom e x = true → s.alive e = true → ∃ t, exec (.waveEnterOrder e a.seq) s = .next t ∧
      let others := x.waves.filter (fun v => !(v.c == a.c && v.i == a.i))
      OnlyElem s t e { x with
        accs := x.accs ++ [a], wbuf := x.wbuf.filter (fun b => b.seq != a.seq)
        waves := if waveSucc a = 0 then others else others ++ [⟨a.c, a.i, waveSelf a, waveSucc a⟩] }) ∧
  (∀ (e q : Nat) (a : Access) (s : Machine.State), (s.elem e).watches.find? (fun b => b.seq == q) = some a → a.stage = .performed →
    s.alive e = true → s.cycleHeld e = false → let u0 := if a.res0 then s.giveRoom e a.r0 (destOf a.d0) else s
    let u := if a.res1 then u0.giveRoom e a.r1 (destOf a.d1) else u0
    u.roomVia e a.r0 (destOf a.d0) = true → u.roomVia e a.r1 (destOf a.d1) = true →
    let v : VReg := { numbers [(a.b.p.get 0).toNat] with x := a.got.x }
    ∃ t, exec (.swatchTrigger e q) s = .next t ∧ ReplyLeft s t e a (a.token false v true) (a.token true v true) 0 0 ∧
      (t.elem e).watches = (s.elem e).watches.filter (fun b => b.seq != q) ∧ (t.elem e).accs = (s.elem e).accs) ∧
  (∀ (e path : Nat) (f : Flight) (s : Machine.State), s.flights.find? (fun f => f.src == e && f.path == path) = some f →
    f.stamp < (s.quad (quadOf e)).cyc → (s.elem f.dst).ladder = none → s.cycleHeld f.dst = false →
    ∃ t, exec (.tokenArrival e path) s = .next t ∧ t.flights = s.flights.erase f ∧
      (∀ n, (t.elem f.dst).queue n = (s.elem f.dst).queue n ++ (if n = f.queue then [⟨f.tok, f.origin⟩] else [])) ∧
      { t.elem f.dst with q := (s.elem f.dst).q } = s.elem f.dst ∧ (∀ g, g ≠ f.dst → t.elem g = s.elem g) ∧
      { t with elems := s.elems, flights := s.flights } = s) ∧
  (∀ (e queue : Nat) (c : CreditBack) (s : Machine.State), s.credits.find? (fun c => c.elem == e && c.queue == queue) = some c →
    c.stamp < (s.quad (quadOf e)).cyc → ∃ t, exec (.creditReturn e queue) s = .next t ∧ t.credits = s.credits.erase c ∧
      (∀ k, t.spaceOf k = s.spaceOf k + (if k = spaceKey e queue then 1 else 0)) ∧ { t with space := s.space, credits := s.credits } = s)

/-! ### Hoists, peers and collectives -/

/-- R230, R289, R291, R294, R295, R300, R306, R308, R346: an idle hoist takes a waiting command; a unit of a copy reads its elements and writes its
sector, and one whose writes a peer has answered is done; a sluice fills the next block of its slot, or passes over one that it has filled before; a
stream moves one record and its two words; the completion word is written last, and the hoist is idle. -/
def Obligations.HoistEvents : Prop :=
  (∀ (e m : Nat) (a : Access) (s : Machine.State), s.macroDue e = some a → a.op = 0xCB → let h := s.owner e
    let w := s.work h
    let d := dieOf e
    let c := (hcopyeCmd a).toNat
    let x := s.takeCommand h (w.thread % 192) (some e) (w.relTile (tileOf e)) (hcopyeCmd a)
    (s.die d).idleHoist = some m → s.hoistReason d h x = none → ∃ t, exec (.hoistAccept (.elem e)) s = .next t ∧
      (t.die d).hoist m = { x with total := hoistTotal w x, peerSeq := ((s.die d).hoist m).peerSeq } ∧
      (∀ k, k ≠ m → (t.die d).hoist k = (s.die d).hoist k) ∧
      (hKind c ≠ 1 → t.islands = s.islands) ∧
      (∀ i, hKind c = 1 → sluiceIsland w c = some i → let k := c / 2 ^ 40 % 2 ^ 6
        OpSlot k { (s.island i).op k with fill := 1, data := [] } (s.island i) (t.island i)) ∧
      (t.elem e).accs = (s.elem e).accs.map (fun b => if b.seq = a.seq then { b with prg := 1 }.reply (numbers [m]) else b) ∧
      (∀ f, f ≠ e → t.elem f = s.elem f) ∧ t.mem = s.mem) ∧
  (∀ (n ea rd a m : Nat) (s s' : Machine.State), s.waitOf n = .hcopy ea rd → isAssay n = false → ea < 2 ^ 64 → ea % 64 = 0 →
    s.touchRead n ea .read = .ok a s' → s'.badIn a 64 = false →
    let cmd := BitVec.ofNat 512 (ofBytes (s'.bytesAt a 64))
    let d := dieOfThread n
    (s'.die d).idleHoist = some m →
    s'.hoistReason d (s.thread n).bound (s'.takeCommand (s.thread n).bound (n % 192) none 0 cmd) = none →
    ∃ t, exec (.hoistAccept (.thread n)) s = .next t ∧
      WritesReg { s'.thread n with wait := .none } (t.thread n) rd (BitVec.ofNat 64 m) 4 ∧
      ((t.die d).hoist m).busy = true ∧ ((t.die d).hoist m).cmd = cmd ∧ ((t.die d).hoist m).handle = (s.thread n).bound) ∧
  (∀ (d n va pa : Nat) (l : List (List Byte × Bool)) (s s1 s2 s3 : Machine.State), s.hoistLive d n = true → let h := (s.die d).hoist n
    let w := s.work h.handle
    let len := unitLen w h h.pos
    h.kind = 0 → h.sent = false → h.pos < hCount h.cmd.toNat → s.copyReads d w h len 0 = .ok (l, s1) → hDst w h h.pos = some va →
    entPeer h.dst.raw.toNat = false → s1.hoistPlace d h.handle h.dst va .write = .ok pa s2 →
    s2.putSector h.handle (unitBytes w h (sectorOf pa) l) (l.any (fun v => v.2)) = some s3 →
    ∃ t, exec (.hoistUnit d n) s = .next t ∧ t.mem = s3.mem ∧ t.poison = s3.poison ∧
      ((t.die d).hoist n).prg = ((s3.die d).hoist n).prg + 1 ∧ ((t.die d).hoist n).pos = ((s3.die d).hoist n).pos + len ∧
      (∀ k, k ≠ n → (t.die d).hoist k = (s3.die d).hoist k) ∧ t.elems = s3.elems ∧ CanariesOnly s3 t) ∧
  (∀ (d n : Nat) (s : Machine.State), s.hoistLive d n = true → let h := (s.die d).hoist n
    h.kind = 0 → h.sent = true → h.peers = [] → h.pos < hCount h.cmd.toNat → ∃ t, exec (.hoistUnit d n) s = .next t ∧ t.mem = s.mem ∧
      ((t.die d).hoist n).prg = h.prg + 1 ∧ ((t.die d).hoist n).pos = h.pos + unitLen (s.work h.handle) h h.pos ∧
      ((t.die d).hoist n).sent = false) ∧
  (∀ (h : Nat) (l : List (Nat × Byte)) (x : Bool) (s s' : Machine.State), s.putSector h l x = some s' →
    (∀ p q, p ∈ l → q ∈ l → sectorOf p.1 = sectorOf q.1) → (∀ p, p ∈ l → s.findsBad p.1 (inList l) = false) →
    ∀ b, s'.byte b = ((l.find? (fun p => p.1 == b)).map (fun p => p.2)).getD (s.byte b)) ∧
  (∀ (d n isl pos : Nat) (head : List Byte) (vals : List Nat) (x y : Bool) (s s1 s2 : Machine.State), s.hoistLive d n = true →
    let h := (s.die d).hoist n
    let w := s.work h.handle
    h.kind = 1 → h.payloadDone = false → sluiceIsland w h.cmd.toNat = some isl → s.sluiceRead d n w h 5 0 = .ok (head, x, s1) →
    sluiceHeaderOk head (hN h.cmd.toNat 0) = true → s1.sluiceDecode d n w h head = .ok (some (vals, pos), y, s2) →
    let h2 := (s2.die d).hoist n
    let wide := if le head 3 1 ≤ 1 then 2 else 1
    let perRow := le head 6 2 / 32
    let all := le head 4 2 * perRow
    let k := bits h2.cmd.toNat 45 40
    (h2.skip = 0 → ∃ t o, exec (.sluiceBlock d n) s = .next t ∧ OpSlot k o (s2.island isl) (t.island isl) ∧
      (∀ j b, j < 32 → b < wide → o.byte (128 * (h2.prg / perRow) + 32 * wide * (h2.prg % perRow) + wide * j + b) =
        (toBytes wide (vals.getD j 0)).getD b 0) ∧
      o.fmt = le head 3 1 ∧ o.fill = (if h2.prg + 1 = all then 2 else 1) ∧
      o.psn = (((s2.island isl).op k).psn || x || y) ∧ o.claim = ((s2.island isl).op k).claim ∧
      (t.die d).hoist n = { h2 with prg := h2.prg + 1, bitPos := pos, total := if all ≤ h2.prg + 2 then all else 0xFFFFFFFF } ∧
      t.mem = s2.mem ∧ t.elems = s2.elems) ∧
    (h2.skip ≠ 0 → ∃ t, exec (.sluiceBlock d n) s = .next t ∧ t.islands = s2.islands ∧ t.mem = s2.mem ∧
      (t.die d).hoist n = { h2 with bitPos := pos, skip := h2.skip - 1 })) ∧
  (∀ (d n d' n' : Nat) (h' : Hoist) (va vb posted consumed : Nat) (v : List Byte × Bool) (s s1 s2 s3 s5 s6 s7 : Machine.State), s.hoistLive d n = true →
    let h := (s.die d).hoist n
    let w := s.work h.handle
    let w' := s.work h'.handle
    let i := h.prg
    h.kind = 3 → s.otherEnd 3 h.id.toNat = some (d', n', h') → s.hoistLive d' n' = true →
    s.readWord d n h (hCc h.cmd.toNat + 1) = .ok (posted, s1) → s1.readWord d' n' h' (hCc h'.cmd.toNat + 1) = .ok (consumed, s2) →
    i < posted → i < consumed + entExt h'.dst.raw.toNat 0 → s2.work h.handle = w → s2.work h'.handle = w' →
    fixedAt w h.src (fun k => if k = 0 then i % entExt h.src.raw.toNat 0 else 0) = some va →
    s2.hoistBytes d n h.handle h.src va 32 = .ok (v, s3) →
    fixedAt w' h'.dst (fun k => if k = 0 then i % entExt h'.dst.raw.toNat 0 else 0) = some vb →
    s3.hoistPut d' n' h'.handle h'.dst vb v.1 v.2 = .ok s5 →
    s5.writeWord d' n' h' (hCc h'.cmd.toNat) (i + 1) = .ok s6 → s6.writeWord d n h (hCc h.cmd.toNat) (i + 1) = .ok s7 →
    ∃ t, exec (.streamRecordMove d n) s = .next t ∧ t.mem = s7.mem ∧ ((t.die d).hoist n).prg = i + 1 ∧ ((t.die d').hoist n').prg = i + 1 ∧
      (i + 1 = hN h.cmd.toNat 0 → ((t.die d).hoist n).busy = false ∧ ((t.die d').hoist n').busy = false)) ∧
  (∀ (d n : Nat) (s s' : Machine.State), s.hoistLive d n = true → let h := (s.die d).hoist n
    h.payloadDone = true → (h.kind = 2 → h.flipped = true) →
    (hNcw h.cmd.toNat = true → ∃ t, exec (.hoistCompletionWord d n) s = .next t ∧ t.mem = s.mem ∧ ((t.die d).hoist n).busy = false ∧
      ((t.die d).hoist n).prg = h.prg) ∧
    (hNcw h.cmd.toNat = false → entPeer h.cmp.raw.toNat = false → s.writeWord d n h (hCc h.cmd.toNat) (hCv h.cmd.toNat) = .ok s' →
      ∃ t, exec (.hoistCompletionWord d n) s = .next t ∧ t.mem = s'.mem ∧ ((t.die d).hoist n).busy = false) ∧
    (hNcw h.cmd.toNat = false → entPeer h.cmp.raw.toNat = true → h.sent = true → h.peers = [] →
      ∃ t, exec (.hoistCompletionWord d n) s = .next t ∧ t.mem = s.mem ∧ ((t.die d).hoist n).busy = false))

/-- R301 to R307, R503, R517, R518: a request of a peer is performed and answered, the filters of the sources that it releases being gone; an atomic
whose number a filter holds is answered as before; a reply completes the access or unit that asked. The parties of a collective that have all
contributed write every party's result; once every notice of another package is in, each publishes its side and frees its hoist; an abort frees the
hoist of its party, unless its side is published, and freezes its working. That the parties of this package write in one step, and the form of what
other packages send, are the model's choice (log entries 14 and 42). -/
def Obligations.PeersAndCollectives : Prop :=
  (∀ (f : PeerRequest) (s : Machine.State), let s0 : Machine.State := { s with filters := s.filters.filter (fun r => !f.released.contains r.source) }
    (2 ^ 56 ≤ f.addr → exec (.peerRequestArrival f) s = .next { s0 with flits := s.flits ++ [⟨s.replyFlit f 0x30 false [], []⟩] }) ∧
    (∀ s1 pa l, f.addr < 2 ^ 56 → f.die < 4 → inWindow f.addr = false → pa % 4 = 0 →
    s0.translate ⟨none, none, f.die⟩ f.asid f.addr (peerAcc f) f.ident = .ok pa l s1 →
    let u := stampUnit pa
    (f.kind = .read → s1.badIn pa f.len = false → ∃ t, exec (.peerRequestArrival f) s = .next t ∧
      t = { s1 with flits := s1.flits ++ [⟨s1.replyFlit f 0 (s1.poisoned pa) (s1.bytesAt pa (min f.len 32)), []⟩] }) ∧
    (∀ s2, f.kind = .write → s1.putSector 0 (peerCells f pa) f.poison = some s2 → ∃ t, exec (.peerRequestArrival f) s = .next t ∧
      t = { s2 with flits := s2.flits ++ [⟨s2.replyFlit f 0 false [], []⟩] }) ∧
    (∀ r, f.kind = .atomic → s1.heldReply u f = some r → ∃ t, exec (.peerRequestArrival f) s = .next t ∧
      t = { s1 with flits := s1.flits ++ [⟨r, []⟩] }) ∧
    (f.kind = .atomic → s1.heldReply u f = none → s1.filterRoom u f = true → s1.isBad pa = false →
      let old := s1.word pa 4
      let x := le f.data 0 4
      let n := if f.op = 12 then (if old = le f.data 4 4 then x else old, false) else amoNew f.op old x
      let r := s1.replyFlit f 0 (s1.poisoned pa) (toBytes 4 old)
      ∃ t, exec (.peerRequestArrival f) s = .next t ∧ t.flits = s1.flits ++ [⟨r, []⟩] ∧ t.heldReply u f = some r ∧
        StoredAt s1 { t with flits := s1.flits, filters := s1.filters } pa (toBytes 4 n.1) (f.poison || n.2)))) ∧
  (∀ (f : PeerReply) (a : Access) (s : Machine.State), claimRowOf f.source < 48 → let e := f.source
    let x := s.elem e
    f.seq ∈ x.peerOut → x.accs.find? (fun a => a.peers.any (fun p => p.1 == f.seq)) = some a →
    (a.stage = .issued ∨ a.stage = .parked) → a.retry = false → f.cause = 0 → (a.op = 0xC0 ∨ a.op = 0xC1) →
    ∃ t, exec (.peerReplyArrival f) s = .next t ∧ (t.elem e).peerOut = x.peerOut.erase f.seq ∧
      (t.elem e).accs = x.accs.map (fun b => if b.seq = a.seq then
        { b with peers := b.peers.filter (fun p => p.1 != f.seq) }.reply
          (if a.op = 0xC0 then loadValue (entSize (s.accEntry e a)) f.data f.poison else ackOf 1) else b) ∧
      (∀ g, g ≠ e → t.elem g = s.elem g) ∧ t.mem = s.mem) ∧
  (∀ (f : PeerReply) (s : Machine.State), claimRowOf f.source < 48 → f.seq ∉ (s.elem f.source).peerOut →
    exec (.peerReplyArrival f) s = .next s) ∧
  (∀ (f : PeerReply) (p : BitVec 16 × Nat) (s : Machine.State), claimRowOf f.source = 63 → posOf f.source = 0 → f.cause = 0 →
    let d := dieOf f.source
    let n := claimColOf f.source
    let h := (s.die d).hoist n
    h.peers.find? (fun p => p.1 == f.seq) = some p → h.again = [] →
    ∃ t, exec (.peerReplyArrival f) s = .next t ∧
      (t.die d).hoist n = { h with peers := h.peers.filter (fun q => q.1 != f.seq),
                                   got := if h.sent then h.got else h.got ++ [(p.2, f.data, f.poison)] } ∧
      (∀ k, k ≠ n → (t.die d).hoist k = (s.die d).hoist k) ∧ t.mem = s.mem) ∧
  (∀ (h ident : Nat) (peers : List Nat) (x : FarParties) (p : Party) (ps : List Party)
    (l : List (Nat × List (List Byte × Bool))) (s s1 s2 : Machine.State),
    let hs := (h :: peers).eraseDups
    let c := p.hoist.cmd.toNat
    let size := entSize p.hoist.src.raw.toNat
    let far := x.given.filter (fun r => (s.farRanks p.bind).contains r.1)
    let noticed := fun (q : Party) => (s.farRanks q.bind).all x.finished.contains
    hs.filterMap (s.party ident) = p :: ps → (p :: ps).length = hs.length → s.hauls = true →
    (∀ q, q ∈ p :: ps → (s.die q.die).hoist q.num = q.hoist ∧ q.hoist.payloadDone = false ∧
      hSub q.hoist.cmd.toNat = hSub c ∧ ∀ i, i < 4 → hN q.hoist.cmd.toNat i = hN c i) →
    (∀ k, k < p.bind.parties → (∃ q, q ∈ p :: ps ∧ q.bind.rank = k) ∨ ∃ r, r ∈ far ∧ r.1 = k) →
    (∀ r, r ∈ far → r.2.length = (if collKind c ≤ 1 then 1 else p.bind.parties) * hCount c * size) →
    s.contributions (p :: ps) = .ok (l, s1) →
    s1.results ((List.range p.bind.parties).map (fun k => match l.find? (fun r => r.1 == k) with
      | some r => r.2
      | none => match far.find? (fun r => r.1 == k) with
        | some r => elemsOf size r.2
        | none => [])) (p :: ps) = .ok s2 →
    ∃ t, exec (.collectiveComplete h ident peers x) s = .next t ∧
      (∀ q, q ∈ p :: ps → ((t.die q.die).hoist q.num).prg = q.hoist.total) ∧
      ((∃ q, q ∈ p :: ps ∧ noticed q = false) → t.mem = s2.mem ∧ t.poison = s2.poison ∧
        (∀ k, (t.work k).layout = (s2.work k).layout) ∧ ∀ q, q ∈ p :: ps → ((t.die q.die).hoist q.num).busy = true) ∧
      ((∀ q, q ∈ p :: ps → noticed q = true) →
        (∀ q, q ∈ p :: ps → let k := hDent q.hoist.cmd.toNat
          entSel ((t.work q.handle).entry k) = !entSel ((s2.work q.handle).entry k) ∧
          (hNcw q.hoist.cmd.toNat = true → ((t.die q.die).hoist q.num).busy = false)) ∧
        ((∀ q, q ∈ p :: ps → hNcw q.hoist.cmd.toNat = true) → t.mem = s2.mem))) ∧
  (∀ (h ident : Nat) (peers : List Nat) (x : FarParties) (p : Party) (s : Machine.State),
    let c := p.hoist.cmd.toNat
    (h :: peers).eraseDups = [h] → s.party ident h = some p → (s.die p.die).hoist p.num = p.hoist → p.hoist.payloadDone = true →
    ((s.farRanks p.bind).all x.finished.contains = false → exec (.collectiveComplete h ident peers x) s = .next s) ∧
    ((s.farRanks p.bind).all x.finished.contains = true →
      let u0 := s.modWork h (fun w => w.flip (hDent c))
      let u := u0.modHoist p.die p.num (fun h => { h with flipped := true })
      (∀ u', entPeer p.hoist.cmp.raw.toNat = false → hNcw c = false →
        u.writeWord p.die p.num { p.hoist with flipped := true } (hCc c) (hCv c) = .ok u' →
        ∃ t, exec (.collectiveComplete h ident peers x) s = .next t ∧ t.mem = u'.mem ∧
          ((t.die p.die).hoist p.num).busy = false ∧
          entSel ((t.work h).entry (hDent c)) = !entSel ((s.work h).entry (hDent c))))) ∧
  (∀ (f : AbortFlit) (h d n : Nat) (x : Hoist) (s : Machine.State), s.boundTo f.ident f.dest = some h →
    s.inFlight h 2 f.ident = some (d, n, x) → x.flipped = true → exec (.collectiveAbortReceive f) s = .next s) ∧
  (∀ (f : AbortFlit) (h d n : Nat) (x : Hoist) (s : Machine.State), s.boundTo f.ident f.dest = some h →
    s.inFlight h 2 f.ident = some (d, n, x) → x.flipped = false → s.hasWork h = true → (s.work h).killing = none → (s.work h).freeze = none →
    (s.thread (s.work h).thread).intrap = false → (s.thread (s.work h).thread).heldTraps = [] →
    ∃ t, exec (.collectiveAbortReceive f) s = .next t ∧ ((t.die d).hoist n).busy = false ∧
      ((t.work h).freeze.map (fun i => (i.cause, i.detail)) = some (0x53, abortDetail f.ident f.package f.die f.rank)) ∧
      t.elems = s.elems ∧ t.threads = s.threads ∧ t.mem = s.mem)

/-! ### Errors and monitors -/

/-- R434 to R439, R442, R448, R460: an element that consumes an error waits on the ladder, and the item's store is marked; one consumed while a
rollback is in progress is only recorded; a good replay takes it off, counts and, at RPTHR, has the element judged; a replay that fails asks for the
rollback of a region below RVMAX, or kills the working; a spare takes an element's place. A reload that leaves the committed value is the model's
choice (log entry 47). -/
def Obligations.ContainmentLadder : Prop :=
  (∀ (e : Nat) (it : BadItem) (s : Machine.State), let h := s.owner e
    let w := s.work h
    it ≠ .corrected → (∀ c k, it ≠ .inactive c k) → h ≠ 0 → w.consumes = true → (s.elem e).ladder = none → s.elemConsumes e it = true →
    (w.rolling = none → ∃ t, exec (.errorConsumed (.elem e) it) s = .next t ∧
      t.elem e = { s.elem e with ladder := some it, errs := (t.elem e).errs } ∧ (∀ f, f ≠ e → t.elem f = s.elem f) ∧
      (∀ pa va, it = .hbm pa va → inHbm pa = true → t.isBad pa = true) ∧ (∀ a, it = .sram a → inWindow a = true → t.isBad a = true) ∧
      (∀ i n acc, it = .island i n acc → i < w.tileCount → (n, acc) ∈ (t.island (w.tileAt i)).bad) ∧
      (itemSource it = none → (t.elem e).errs = (s.die (dieOf e)).count (s.elem e).errs (s.quad (quadOf e)).cyc false false) ∧
      t.mem = s.mem ∧ t.works = s.works ∧ t.threads = s.threads) ∧
    (∀ d cyc, s.hasWork h = true → w.rolling = some (d, cyc) → cyc ≠ (s.quad (w.thread / 4)).cyc →
      ∃ t, exec (.errorConsumed (.elem e) it) s = .next t ∧ (t.elem e).ladder = none ∧ t.works = s.works ∧ t.threads = s.threads)) ∧
  (∀ (n pa va d : Nat) (s : Machine.State), let h := (s.thread n).bound
    let w := s.work h
    h ≠ 0 → s.hasWork h = true → w.consumes = true → w.rolling = none → rollDepth w (s.die w.die).rvMax.toNat = some d →
    ∃ t i, exec (.errorConsumed (.thread n) (.hbm pa va)) s = .next t ∧
      t.work h = { w with rolling := some (d, (s.quad (w.thread / 4)).cyc), rollFor := [i] } ∧ i.cause = 0x21 ∧ i.va = va ∧ i.pa = sectorOf pa ∧
      (∀ k, k ≠ h → t.work k = s.work k) ∧ t.mem = s.mem ∧ t.threads = s.threads ∧ t.elems = s.elems) ∧
  (∀ (e : Nat) (it : BadItem) (s : Machine.State), let h := s.owner e
    let w := s.work h
    let r := (s.elem e).reps.add (s.quad (quadOf e)).cyc (s.die (dieOf e)).rpWin.toNat (s.die (dieOf e)).rpThr.toNat 1 true false
    (s.elem e).ladder = some it → s.alive e = true → w.consumes = true → w.rolling = none → s.canReplay e it = true →
    (itemAtPeer it = true → ∃ t, exec (.elementReplay e true) s = .next t ∧ OnlyElem s t e { s.elem e with ladder := none }) ∧
    (itemAtPeer it = false → (∀ q, it ≠ .queue q) → (∀ n, it ≠ .layout n) → ∃ t, exec (.elementReplay e true) s = .next t ∧
      t.elem e = { s.elem e with ladder := none, reps := r, latent := (t.elem e).latent } ∧ (∀ f, f ≠ e → t.elem f = s.elem f) ∧
      (∀ a, it = .sram a → inWindow a = true → t.isBad a = false) ∧ (∀ b, (∀ d, ¬ RingByte s d b) → t.byte b = s.byte b) ∧
      (r.reached true false = false → ∀ k, t.work k = { s.work k with report := (t.work k).report }) ∧
      (r.reached true false = true → s.spareFree e = true → e ∈ (t.work h).subst) ∧ t.threads = s.threads) ∧
    (∀ q f slot n x y l, it = .queue q → (s.elem e).queue q = x :: l → x.origin = .fired f slot n → n < (s.elem f).count →
      (s.elem f).hist[(s.elem f).count - 1 - n]? = some y → histSlot y = some slot →
      ∃ t, exec (.elementReplay e true) s = .next t ∧ (t.elem e).ladder = none ∧ ((t.elem e).queue q).map (fun k => k.tok) = x.tok :: l.map (fun k => k.tok) ∧
        (∀ k, k ≠ q → (t.elem e).queue k = (s.elem e).queue k) ∧ (∀ f, f ≠ e → t.elem f = s.elem f) ∧ t.threads = s.threads)) ∧
  (∀ (e : Nat) (good : Bool) (it : BadItem) (s : Machine.State), let h := s.owner e
    let w := s.work h
    (s.elem e).ladder = some it → s.alive e = true → s.hasWork h = true → w.consumes = true → w.rolling = none →
    (good && s.canReplay e it) = false →
    (∀ d, rollDepth w (s.die w.die).rvMax.toNat = some d → ∃ t u, exec (.elementReplay e good) s = .next t ∧
      OnlyWork s u h { w with rolling := some (d, (s.quad (w.thread / 4)).cyc), rollFor := [s.ladderInfo e it] } ∧
      OnlyElem u t e { s.elem e with ladder := none }) ∧
    (rollDepth w (s.die w.die).rvMax.toNat = none → ∃ t v, exec (.elementReplay e good) s = .next t ∧
      (t.work h).killing = some (.faulted, v) ∧ v.toNat % 256 = (s.ladderInfo e it).cause ∧ t.threads = s.threads ∧
      t.elem e = { s.elem e with ladder := none } ∧ (∀ f, f ≠ e → t.elem f = s.elem f))) ∧
  (∀ (w : Working) (rvmax : Nat) (g : Region) (r : List Region), w.regions = g :: r → (rvmax = 0 ∨ g.retry < rvmax) →
    rollDepth w rvmax = some w.regions.length) ∧
  (∀ (e : Nat) (s : Machine.State), let h := s.owner e
    e ∈ (s.work h).subst → (s.work h).killing = none → ∃ t, exec (.spareSubstitution e) s = .next t ∧ let d := dieOf e
      let c := SMap.get {} (s.die d).cwrow (rowOf e)
      t.work h = { s.work h with subst := (s.work h).subst.filter (fun f => f != e) } ∧ (∀ k, k ≠ h → t.work k = s.work k) ∧
      t.elem e = { s.elem e with tlb := [] } ∧ (∀ f, f ≠ e → t.elem f = s.elem f) ∧
      SMap.get {} (t.die d).cwrow (rowOf e) = { c with sub := true, subcol := BitVec.ofNat 8 (colOf e), watch := false, pending := 0, slot := none } ∧
      { t with works := s.works, elems := s.elems, dies := s.dies } = s)

/-- R442, R455 to R459, R464, R467, R468, R489: the checkweigher confirms and counts, and its watch moves on; under NORPL a mismatch fails; a sweep
rewrites a counter by its vote; a scrub counts an error, and marks what it cannot correct; a window ends; a canary that has not heard of its working
for 2^WIN cycles raises 0x71. The sources of memory errors, when a window's counts stand, and which verdicts count as replays are the model's choice
(log entries 22, 34 and 77). -/
def Obligations.Monitors : Prop :=
  (∀ (d row : Nat) (s : Machine.State), d < 4 → row < 96 → let c := SMap.get {} (s.die d).cwrow row
    let e := eidAt d c.col.toNat row
    let h := s.owner e
    let norpl := (s.die d).errctl.getLsbD 3
    let after := fun (t : Machine.State) => SMap.get {} (t.die d).cwrow row
    let more := BitVec.ofNat 16 (min (c.mismatch.toNat + 1) 65535)
    c.watch = true → c.col.toNat < 128 → (s.work h).live = true →
    ((s.die d).cwHold = true → c.pending = 1 →
      (∃ t, exec (.checkweigherConfirm d row .confirmed) s = .next t ∧ after t = { c with pending := 2 } ∧ { t with dies := s.dies } = s) ∧
      (norpl = false → ∃ t, exec (.checkweigherConfirm d row .second) s = .next t ∧ (after t).pending = 2 ∧ (after t).slot = c.slot ∧
        (after t).mismatch = more ∧ t.isSuspect d row c.col.toNat = true ∧ t.threads = s.threads ∧ t.flights = s.flights) ∧
      (norpl = false → ∃ t, exec (.checkweigherConfirm d row .spareWrong) s = .next t ∧
        after t = { c with spsus := true, watch := false, pending := 2 } ∧ t.elems = s.elems ∧ t.threads = s.threads) ∧
      (∀ v, v ≠ .confirmed → (v = .other ∨ norpl = true) → ∃ t, exec (.checkweigherConfirm d row v) s = .next t ∧ (after t).pending = 0 ∧
        (after t).slot = none ∧ (after t).mismatch = more ∧ t.threads = s.threads ∧
        (∀ k, s.hasWork h = true → rollDepth (s.work h) (s.die (s.work h).die).rvMax.toNat = some k →
          (t.work h).rolling = some (k, (s.quad ((s.work h).thread / 4)).cyc)))) ∧
    (∀ k, (s.die d).cwHold = false → c.pending = k + 1 →
      (∃ t, exec (.checkweigherConfirm d row .confirmed) s = .next t ∧ after t = { c with pending := k } ∧
        t.elem e = (s.elem e).confirm k ∧ (∀ f, f ≠ e → t.elem f = s.elem f) ∧ { t with elems := s.elems, dies := s.dies } = s) ∧
      (s.canRedo e k = true → ∃ t, exec (.checkweigherConfirm d row .second) s = .next t ∧ (after t).pending = k ∧ (after t).mismatch = more ∧
        (∀ f, f ≠ e → t.elem f = s.elem f) ∧ t.threads = s.threads))) ∧
  (∀ (d row : Nat) (s : Machine.State), d < 4 → row < 96 → let c := SMap.get {} (s.die d).cwrow row
    let after := fun (t : Machine.State) => SMap.get {} (t.die d).cwrow row
    let e := eidAt d c.col.toNat row
    (((s.die d).cwEn = false ∨ c.sub = true ∨ c.spsus = true) → ¬ (c.spsus = true ∧ c.pending = 2 ∧ c.slot.isSome = true) →
      ∃ t, exec (.checkweigherWatchEnd d row) s = .next t ∧ after t = { c with watch := false, pending := 0, slot := none } ∧
        { t with dies := s.dies } = s) ∧
    ((s.die d).cwEn = true → c.sub = false → c.spsus = false → (c.watch = false ∨
        (s.canWatch d row c.col.toNat = false ∧ (c.pending = 0 ∨ (s.die d).cwHold = true ∨ (s.work (s.owner e)).live = false)) ∨
        (c.pending = 0 ∧ c.began + 2 ^ (s.die d).cwInt.toNat ≤ (s.quad (quadOf e)).cyc)) →
      ∃ t, exec (.checkweigherWatchEnd d row) s = .next t ∧ { t with dies := s.dies } = s ∧
        (∀ k l, s.nextWatch d row c = some (k, l) → after t = { c with
          col := BitVec.ofNat 8 k, watch := true, began := (s.quad (quadOf (eidAt d k row))).cyc, lastSus := l, pending := 0, slot := none }) ∧
        (s.nextWatch d row c = none → after t = { c with watch := false, pending := 0, slot := none }))) ∧
  (∀ (d q : Nat) (s : Machine.State), d < 4 → q < 48 → let k := d * 48 + q
    let x := s.quad k
    let n := x.sweep % 64
    1024 * (x.sweep + 1) ≤ x.cyc →
    (∀ v, vote (x.copies n) = some v → (s.work (s.counterHandle k n)).joins = [] →
      ∃ t, exec (.counterSweep d q) s = .next t ∧ (t.quad k).sweep = x.sweep + 1 ∧ (t.quad k).copies n = (v, v, v) ∧
        (∀ m, m ≠ n → (t.quad k).copies m = x.copies m) ∧ (∀ j, j ≠ k → t.quad j = s.quad j) ∧ t.threads = s.threads) ∧
    (vote (x.copies n) = none → ∃ t, exec (.counterSweep d q) s = .next t ∧ t.quad k = { x with sweep := x.sweep + 1 } ∧
      (∀ j, j ≠ k → t.quad j = s.quad j) ∧ t.threads = s.threads)) ∧
  (∀ (a : Nat) (s : Machine.State), (inHbm a = true ∨ (windowTile a).isSome = true) → let d := dieOfAddr a
    let count := fun (t : Machine.State) => ((t.die d).errWin (bankSource a)).n
    let once := (((s.die d).errWin (bankSource a)).at' (s.clockOf a)).n + 1
    (∃ t, exec (.scrub a true) s = .next t ∧ count t = once ∧
      (∀ b, (∀ d, ¬ RingByte s d b) → t.byte b = s.byte b ∧ SameMarks s t b) ∧ t.elems = s.elems ∧ t.threads = s.threads) ∧
    (∃ t, exec (.scrub a false) s = .next t ∧ count t = once ∧ ((∀ d, ¬ RingByte s d a) → t.isBad a = true) ∧
      (∀ b, (∀ d, ¬ RingByte s d b) → t.byte b = s.byte b ∧ t.poisoned b = s.poisoned b ∧ (badUnit b ≠ badUnit a → t.isBad b = s.isBad b)) ∧
      t.elems = s.elems ∧ t.threads = s.threads)) ∧
  (∀ (e : Nat) (s : Machine.State), let now := (s.quad (quadOf e)).cyc
    (∃ t, exec (.errorWindowExpire (.elem e)) s = .next t ∧ OnlyElem s t e { s.elem e with errs := (s.elem e).errs.at' now }) ∧
    (∃ t, exec (.errorWindowExpire (.elemReplay e)) s = .next t ∧ OnlyElem s t e { s.elem e with reps := (s.elem e).reps.at' now })) ∧
  (∀ (src : ErrSource) (d now : Nat) (s : Machine.State), let w := (s.die d).errWin src
    ((∃ a, src = .bank a ∧ d = dieOfAddr a ∧ now = s.clockOf a) ∨ (∃ n l, src = .link n l ∧ d = linkDie n ∧ now = (s.die d).cycles) ∨
      (∃ q n, src = .counter q n ∧ d = q / 48 ∧ now = (s.quad q).cyc)) →
    w.till ≤ now → w.below = true → ∃ t, exec (.errorWindowExpire src) s = .next t ∧
      (⟨src, w⟩ : ErrCount) ∉ (t.die d).errs ∧ (∀ k, k ∈ (s.die d).errs → k.src ≠ src → k ∈ (t.die d).errs) ∧ { t with dies := s.dies } = s) ∧
  (∀ (h : Nat) (s : Machine.State), let w := s.work h
    let x := s.thread w.thread
    h ≠ 0 → s.hasWork h = true → w.live = true → w.state = .running → w.freeze = none → x.canEn = true → 2 ^ x.canWin.toNat ≤ x.canIdle →
    ∃ t, exec (.canaryStall h) s = .next t ∧
      t.thread w.thread = { x with canStalls := min (x.canStalls + 1) 255, canSide := x.canSide.note (s.die w.die).cycles x.canStalls 1 } ∧
      (∀ n, n ≠ w.thread → t.thread n = s.thread n) ∧ ((t.work h).freeze.map (fun i => i.cause) = some 0x71) ∧ t.elems = s.elems)

/-- R360, R374, R432, R433, R438, R440: a freeze pauses the working sixteen cycles after its fault and hands its traps to its thread in order; a
rollback takes the working, its kept registers and its thread back to the region's checkpoint; a working that ends or is killed leaves its claims and
its thread, and its completion record says how it ended; a kill takes its tasks and its children with it, a normal end leaves them. What a normal end
leaves, what a rollback waits for, and the empty pending set after it are the model's choice (log entries 24, 44 and 66). -/
def Obligations.FreezeRollbackAndEnd : Prop :=
  (∀ (h : Nat) (i : TrapInfo) (s : Machine.State), let w := s.work h
    w.freeze = some i → w.live = true → w.freezeAt + 16 < (s.quad w.freezeQuad).cyc →
    ∃ t l, exec (.workingFreeze h) s = .next t ∧ l.Perm (i :: w.faults) ∧ l.Pairwise (fun a b => trapBefore a b = true) ∧
      t.work h = { w with state := .paused, freeze := none, faults := [], awaited := s.toAwait h } ∧ (∀ k, k ≠ h → t.work k = s.work k) ∧
      t.thread w.thread = { s.thread w.thread with heldTraps := (s.thread w.thread).heldTraps ++ l } ∧
      (∀ n, n ≠ w.thread → t.thread n = s.thread n) ∧ { t with works := s.works, threads := s.threads } = s) ∧
  (∀ (h d now : Nat) (g : Region) (r : List Region) (s : Machine.State), let w := s.work h
    w.rolling = some (d, now) → w.regions.drop (w.regions.length - d) = g :: r → w.killing = none → w.savedAt = none → w.loading = false →
    (∀ e, e ∈ w.elems → (s.elem e).drains = false) →
    ∃ t, exec (.regionRollback h []) s = .next t ∧ let x := s.thread w.thread
      let y := t.thread w.thread
      let retry := min (g.retry + 1) 255
      (y.pc = g.restart ∧ y.f = true ∧ y.intrap = false ∧ y.heldTraps = [] ∧ y.wait = .none ∧
        ∀ n, y.reg n = if n = g.rd ∧ n ≠ 0 then BitVec.ofNat 64 retry else x.reg n) ∧ (∀ n, n ≠ w.thread → t.thread n = s.thread n) ∧
      ((t.work h).regions = { g with retry := retry } :: r ∧ (t.work h).state = g.state ∧ (t.work h).active = g.active ∧
        (t.work h).next = g.next ∧ (t.work h).budget = g.budget ∧ (t.work h).inPhase = g.inPhase ∧ (t.work h).sinks = g.sinks ∧
        (t.work h).expl = g.expl ∧ (t.work h).keeps = [] ∧ (t.work h).freeze = none ∧ (t.work h).faults = [] ∧ (t.work h).rolling = none ∧
        (t.work h).rollFor = []) ∧
      (∀ e, e ∈ w.elems → (∀ q, (t.elem e).queue q = []) ∧ (t.elem e).active = g.active ∧ (t.elem e).p = (s.cfg e g.active.toNat).preds ∧
        (t.elem e).watches = [] ∧ (t.elem e).accs = ((g.macs.find? (fun p => p.1 == e)).map (fun p => p.2)).toList) ∧
      (∀ p, p ∈ g.regs → (∀ q, q ∈ g.regs → q.1 = p.1 → q.2.1 = p.2.1 → q.2.2 = p.2.2) → (t.elem p.1).reg p.2.1 = p.2.2) ∧
      (∀ e n, (∀ p, p ∈ g.regs → ¬ (p.1 = e ∧ p.2.1 = n)) → (t.elem e).reg n = (s.elem e).reg n) ∧
      (∀ k u, k ∈ w.tiles → u ∈ (t.tile k).undo → ¬ (u.handle = h ∧ d ≤ u.depth)) ∧
      (∀ k u, k ∈ w.tiles → u ∈ (s.tile k).undo → u.handle = h → d ≤ u.depth → u.depth ≤ w.regions.length →
        (∀ m v, m ∈ w.tiles → v ∈ (s.tile m).undo → v.handle = h → d ≤ v.depth →
          v.sector % 32 = 0 ∧ v.old.length = 32 ∧ (v = u ∨ v.sector ≠ u.sector)) →
        (∀ i m, i < 32 → ¬ RingByte s m (u.sector + i)) → ∀ i, i < 32 → t.byte (u.sector + i) = u.old.getD i 0)) ∧
  (∀ (h ep tag : Nat) (k : EndKind) (v : DWord) (s : Machine.State), let w := s.work h
    w.killing = some (k, v) → w.savedAt = none → w.parent = none → w.launch = some (ep, tag) →
    ∃ t, exec (.workingKill h) s = .next t ∧ t.hasWork h = false ∧ (t.thread w.thread).bound = 0 ∧
      (∀ d a, d < 4 → a ∈ (t.die d).tasks → a.parent ≠ h) ∧
      (∀ g, g ≠ h → g ∈ s.children h → (s.work g).killing = none → ∃ v, (t.work g).killing = some (.killed, v)) ∧
      (∀ b, b < w.width * w.height → (t.claim (elemOfBlock w b 0 / 8)).owner = 0) ∧ t.hostOut = s.hostOut ++
        [{ ep := ep, bytes := completion tag 0x80 0 h w.die w.col w.row 0 k.code v.toNat w.graphKey.toNat }]) ∧
  (∀ (h ep tag : Nat) (v : DWord) (s : Machine.State), let w := s.work h
    w.ending = some v → w.live = true → s.endReady h = true → w.parent = none → w.launch = some (ep, tag) →
    ∃ t, exec (.workingEnd h) s = .next t ∧ t.hasWork h = false ∧ (t.thread w.thread).bound = 0 ∧
      (∀ d, d < 4 → (t.die d).tasks.length = (s.die d).tasks.length) ∧ (∀ g, g ≠ h → (t.work g).killing = (s.work g).killing) ∧
      (∀ b, b < w.width * w.height → (t.claim (elemOfBlock w b 0 / 8)).owner = 0) ∧ t.hostOut = s.hostOut ++
        [{ ep := ep, bytes := completion tag 0x80 0 h w.die w.col w.row 0 0 v.toNat w.graphKey.toNat }])

/-! ### The banksman and the loader -/

/-- R357 to R362, R382, R404: a queue pair begins at count 0; a doorbell sets the count, but for one that is ignored; a record is fetched, or refused
with 0x40; a launch or a restore at the head of its queue bids; a kill ends a working with cause 0x4D; a message is delivered and a query written. The
answers that R361 leaves open, a message refused with 0x49 and a command held for a saved working are the model's choice (log entries 56, 69 and 74).
-/
def Obligations.HostCommands : Prop :=
  (∀ (ep : Nat) (s : Machine.State), ep < 64 → s.portUp = true → ∃ t, exec (.queuePairSetup ep) s = .next t ∧
    OnlyEndpoint s t ep { s.endpoint ep with up := true, doorbell := 0, fetched := 0 }) ∧
  (∀ (ep : Nat) (v : DWord) (s : Machine.State), s.epUp ep = true → let x := s.endpoint ep
    let n := v.toNat % 2 ^ 32
    ((n + 2 ^ 32 - x.fetched) % 2 ^ 32 ≤ 64 → ∃ t, exec (.doorbellWrite ep v) s = .next t ∧ OnlyEndpoint s t ep { x with doorbell := n }) ∧
    (64 < (n + 2 ^ 32 - x.fetched) % 2 ^ 32 → exec (.doorbellWrite ep v) s = .next s)) ∧
  (∀ (ep : Nat) (s : Machine.State), let x := s.endpoint ep
    let raw := (List.range 256).map (fun i => SMap.get 0 x.ring (256 * (x.fetched % 64) + i))
    let l := recTranslate raw
    let y := { x with fetched := (x.fetched + 1) % 2 ^ 32 }
    s.epUp ep = true → x.fetched ≠ x.doorbell →
    (recOk raw l = true → ∃ t, exec (.recordFetch ep) s = .next t ∧ t.age = s.age + 1 ∧
      OnlyEndpoint s { t with age := s.age } ep { y with queue := x.queue ++ [{ bytes := l, age := s.age }] }) ∧
    (recOk raw l = false →
      let w := s.work (recHandle l)
      let c := completion (recTag l) (recType l) 0x40 (recHandle l) w.die w.col w.row 0 0 0 (if recType l = 0 then le l 224 8 else w.graphKey.toNat)
      ∃ t, exec (.recordFetch ep) s = .next t ∧ t.endpoint ep = y ∧ t.hostOut = s.hostOut ++ [{ ep := ep, bytes := c }] ∧
        t.works = s.works ∧ t.elems = s.elems ∧ t.threads = s.threads)) ∧
  (∀ (ep : Nat) (r : Record) (s : Machine.State), s.epUp ep = true → (s.endpoint ep).head = some r → r.bid = none → recType r.bytes = 0 →
    s.hasWork 0 = false → let b := s.startBid 0 (List.range 4) (recStart r.bytes (s.die 0).raceOk)
    (∀ c, b = .ok c → ∃ t, exec (.launch ep) s = .next t ∧ OnlyRecord s t ep r (fun q => { q with bid := some c })) ∧
    (∀ c, b = .error c → ∃ t, exec (.launch ep) s = .next t ∧ (t.endpoint ep).queue = (s.endpoint ep).queue.filter (fun q => q.age != r.age) ∧
      (let m := completion (recTag r.bytes) 0 c.cause 0 0 0 0 0 0 0 (le r.bytes 224 8)
       t.hostOut = s.hostOut ++ [{ ep := ep, bytes := m }]) ∧
      t.works = s.works ∧ t.elems = s.elems)) ∧
  (∀ (ep : Nat) (r : Record) (l : List Byte) (s u : Machine.State), s.epUp ep = true → (s.endpoint ep).head = some r → r.bid = none →
    recType r.bytes = 2 → let h := s.recordHandle r.bytes
    let va := le r.bytes 16 8
    let c := s.restoreBid l
    s.blocked h r.age true = false → s.readSave (peekReader 0 (s.restoreAsid va)) va = .ok l u → saveImageOk l = true → bit (le l 6 1) 1 = true →
    lacking (le l 8 8) = 0 → s.restorable h = true → c.width ≠ 0 → c.height ≠ 0 → s.possible (List.range 4) c none = true →
    ∃ t, exec (.restore ep) s = .next t ∧ OnlyRecord s t ep r (fun q => { q with bid := some c })) ∧
  (∀ (ep : Nat) (r : Record) (s : Machine.State), s.commandOf ep 3 = some r → let h := recHandle r.bytes
    (s.hasWork h = true → r.begun = none → (s.work h).killing = none → ∃ t v, exec (.kill ep) s = .next t ∧
      (t.work h).killing = some (.killed, v) ∧ v.toNat % 256 = 0x4D ∧ (∀ k, k ≠ h → t.work k = s.work k) ∧
      (let w := s.work h
       OnlyRecord s { s with endpoints := t.endpoints } ep r (fun q => { q with begun := some (w.die, w.col, w.row, w.graphKey) })) ∧
      t.elems = s.elems ∧ t.threads = s.threads) ∧
    (s.hasWork h = true → r.begun ≠ none → exec (.kill ep) s = .next s) ∧
    (s.hasWork h = false → r.begun ≠ none → ∃ t, exec (.kill ep) s = .next t ∧ CommandDone s t ep r 0 0 ∧
      { t with endpoints := s.endpoints, hostOut := s.hostOut } = s) ∧
    (s.hasWork h = false → r.begun = none → ∃ t, exec (.kill ep) s = .next t ∧ CommandDone s t ep r 0x4B 0 ∧
      t.works = s.works ∧ t.elems = s.elems ∧ t.threads = s.threads)) ∧
  (∀ (ep : Nat) (r : Record) (s : Machine.State), s.commandOf ep 4 = some r → let h := recHandle r.bytes
    s.hasWork h = true → (s.work h).live = true →
    (∀ u, s.deliver h r.bytes = .ok (some u) → ∃ t, exec (.message ep) s = .next t ∧ CommandDone u t ep r 0 0 ∧
      { t with endpoints := u.endpoints, hostOut := u.hostOut } = u) ∧
    (s.deliver h r.bytes = .ok none → exec (.message ep) s = .next s) ∧
    (∀ c, c ≠ 0 → s.deliver h r.bytes = .error c → ∃ t, exec (.message ep) s = .next t ∧ CommandDone s t ep r c 0 ∧ t.works = s.works ∧
      t.elems = s.elems ∧ t.threads = s.threads)) ∧
  (∀ (ep : Nat) (r : Record) (s : Machine.State), s.commandOf ep 4 = some r → s.hasWork (recHandle r.bytes) = true →
    (s.work (recHandle r.bytes)).savedAt ≠ none →
    ∃ t, exec (.message ep) s = .next t ∧ OnlyRecord s t ep r (fun q => { q with held := true })) ∧
  (∀ (ep : Nat) (r : Record) (s : Machine.State), s.commandOf ep 5 = some r → let h := recHandle r.bytes
    s.hasWork h = true → ∀ u, s.writeSpan 0 (s.work h).asid 0 3 (le r.bytes 16 8) (s.queryResult h) = .ok u →
      ∃ t, exec (.query ep) s = .next t ∧ CommandDone u t ep r 0 0 ∧ { t with endpoints := u.endpoints, hostOut := u.hostOut } = u)

/-- R310, R361, R363, R365 to R368, R371, R377: a round admits the first bid in rank order that can be placed; a load that passes its checks commits
its working and starts its thread; a pre-empt gates a working, and once it is quiet writes its image and frees what it held; a move puts a quiet
working on free claims. The number of a handle, the identity of the loader and when a reservation falls are the model's choice (log entries 25, 29 and
73). -/
def Obligations.AdmissionLoadAndMove : Prop :=
  (∀ (e : Entrant) (d row col k h : Nat) (l : List Entrant) (s : Machine.State), s.portUp = true →
    (∀ d, d < 4 → (s.die d).tasks = [] ∧ (s.die d).reserved = none) → (∀ a, a ∈ s.ranked → a.bypass < s.bypassBound) →
    s.firstBid false [] s.ranked = some (e, (d, row, col, k), l) → (if e.bid.handle = 0 then s.freshHandle else some e.bid.handle) = some h →
    ∃ t, exec .admissionRound s = .next t ∧ (∃ j, t.jobs = s.jobs ++ [j] ∧ j.bytes = e.bytes ∧ j.source = e.key ∧ j.bid = e.bid ∧ j.die = d ∧
        j.row = row ∧ j.col = col ∧ j.thread = k ∧ j.handle = h ∧ j.parent = e.parent ∧ j.home = e.home) ∧
      (t.endpoint e.key).queue.map (fun q => q.age) = ((s.endpoint e.key).queue.filter (fun q => q.age != e.age)).map (fun q => q.age) ∧
      t.nextHandle = (if e.bid.handle = 0 then h % 65535 + 1 else s.nextHandle) ∧ t.works = s.works ∧ t.mem = s.mem) ∧
  (∀ (l : List Entrant) (s : Machine.State), s.bypassBound = max (s.die 0).arbBypass.toNat 1 ∧
    s.ranked.Pairwise (fun a b => Entrant.above b a = false) ∧ (∀ a, a ∈ s.ranked ↔ (a ∈ s.hostBids ∨ a ∈ s.taskBids)) ∧
    (∀ e p m, s.firstBid false [] l = some (e, p, m) → s.placement e = some p ∧ ∃ a b, l = a ++ e :: b ∧
      (∀ q, q ∈ a → s.placement q = none ∨ (s.reservation q = none ∧ ∃ o, o ∈ a ∧ s.holds o = true)) ∧
      (∀ q, q ∈ a → s.placement q = none → s.holds q = true → (s.reservation e).isSome = true) ∧
      (∀ q, q ∈ m → q ∈ a ∧ s.placement q = none ∧ s.reservation q = none))) ∧
  (∀ (h : Nat) (again : Bool) (j : Job) (l : List Byte) (w : Working) (s s2 s3 : Machine.State), s.jobs.find? (fun j => j.handle == h) = some j →
    j.source < 64 → recType j.bytes = 0 → j.parent = none → let st := recStart j.bytes (s.die 0).raceOk
    let r := loadReader 0 (le j.bytes 10 2) 0 again
    s.loadBytes r st.config = .ok (l, s2) → s2.launchChecks r st l j.die j.row j.col j.thread = .ok (w, [], s3) →
    ∃ t, exec (.loadImage h (.sectors again)) s = .next t ∧ t.work h = { w with launch := some (j.source, recTag j.bytes), parent := none } ∧
      (w.asid = st.asid ∧ w.prio = st.prio ∧ w.die = j.die ∧ w.row = j.row ∧ w.col = j.col ∧ w.thread = j.thread ∧ w.state = .idle) ∧
      (∀ b, b < w.width * w.height → (t.claim (w.claimAt b)).owner = h) ∧ (∀ k, k ∈ t.jobs → k.handle ≠ h) ∧
      (let x := t.thread j.thread
       x.bound = h ∧ x.pc = BitVec.ofNat 64 st.entry ∧ x.held = 1 ∧ x.f = false ∧ x.intrap = false ∧ x.wait = .none ∧
          (∀ n, x.reg n = if n = 2 then BitVec.ofNat 64 st.stack else if n = 3 then BitVec.ofNat 64 st.tp else 0)) ∧
      (∀ n, n ≠ j.thread → t.thread n = s3.thread n) ∧ (∀ b, (∀ d, ¬ RingByte s3 d b) → t.byte b = s3.byte b) ∧
      (let c := completion (recTag j.bytes) 0 0 h j.die j.col j.row 0 0 0 st.graphKey
       t.hostOut = s3.hostOut ++ [{ ep := j.source, bytes := c }])) ∧
  (∀ (ep : Nat) (r : Record) (s : Machine.State), s.commandOf ep 1 = some r → let h := recHandle r.bytes
    let w := s.work h
    s.hasWork h = true → w.savedAt = none → w.killing = none → w.rolling = none → w.subst = [] → w.loading = false →
    (w.gated = false → let u := if s.sinksDone h && w.state == .running then s.endPhase h else s
      ∃ t, exec (.preempt ep) s = .next t ∧ OnlyWork u t h { u.work h with gated := true }) ∧
    (∀ s2, w.gated = true → s.quiet h = true → r.begun = none → let s1 := s.settle h
      let img := s1.saveImage h true
      img.length ≤ le r.bytes 24 8 → s1.writeSpan 0 w.asid 0 (img.length / 32 + 1) (le r.bytes 16 8) img = .ok s2 →
      let c := completion (recTag r.bytes) (recType r.bytes) 0 h w.die w.col w.row 0 0 img.length w.graphKey.toNat
      ∃ t, exec (.preempt ep) s = .next t ∧ t.work h = { w with savedAt := some (le r.bytes 16 8), gated := false, retire := [] } ∧
        (t.thread w.thread).bound = 0 ∧ (∀ b, b < w.width * w.height → (t.claim (elemOfBlock w b 0 / 8)).owner = 0) ∧
        t.hostOut = s2.hostOut ++ [{ ep := ep, bytes := c }] ∧
        (s1.badSectors h img = [] → w.retire = [] → t.mem = s2.mem))) ∧
  (∀ (h row col k : Nat) (s : Machine.State), let w := s.work h
    let sn := (s.settle h).snapshot h true []
    let m := { saveRect [] with
      width := w.width, height := w.height, islands := w.islands, layoutOff := 0,
      bytes := (List.range 256).flatMap (fun i => toBytes 64 (w.entry i)) }
    let b : Bid := { width := w.width, height := w.height, islands := w.islands, aligns := BitVec.ofNat 8 m.alignBits,
                     counters := sn.counters.map (fun p => p.1), blocks := sn.thread.poolUse }
    h ≠ 0 → s.hasWork h = true → w.nomove = false → (s.die 0).compact = true → w.live = true → w.loading = false → w.retire = [] →
    s.quiet h = true → s.placeAt 255 b w.die row col = some k →
    ∃ t, exec (.move h row col) s = .next t ∧ (t.work h).die = w.die ∧ (t.work h).row = row ∧ (t.work h).col = col ∧ (t.work h).thread = k ∧
      (t.work h).state = w.state ∧ (∀ b, b < w.width * w.height → (t.claim ((t.work h).claimAt b)).owner = h) ∧
      (let x := s.thread w.thread
       let y := t.thread k
       y.bound = x.bound ∧ y.pc = x.pc ∧ y.frames = x.frames ∧ (∀ n, y.reg n = x.reg n) ∧ y.wait = x.wait ∧ y.trapvec = x.trapvec) ∧
      (k ≠ w.thread → (t.thread w.thread).bound = 0) ∧ t.hostOut = s.hostOut)

/-! ### The port, the links and the platform -/

/-- R402 to R405, R504 to R506: the host reads and writes registered memory and its command ring, or is answered with a NAK, and a mark of congestion
is answered first; frames and messages set the port's state; a link replays a flit, drops a lane, or fails, where a haulage port sends the flits it
had not delivered again by another port. The bytes returned of a bad sector, the die and the lanes of a crosscut link and the other path are the
model's choice (log entries 48, 50 and 71). -/
def Obligations.PortAndLinks : Prop :=
  (∀ (ep va n : Nat) (mark : Bool) (s : Machine.State), s.epUp ep = true →
    let u := { s with hostOut := s.hostOut ++ (if mark then [{ ep := ep, kind := .congestion, bytes := [] }] else []) }
    (va + n ≤ 16384 → ∃ t, exec (.rdmaRead ⟨ep, mark⟩ 0 va n) s = .next t ∧
      Answered u t ep .data ((List.range n).map (fun i => SMap.get 0 (s.endpoint ep).ring (va + i)))) ∧
    (16384 < va + n → ∃ t, exec (.rdmaRead ⟨ep, mark⟩ 0 va n) s = .next t ∧ Answered u t ep .nak [])) ∧
  (∀ (ep k va n : Nat) (s : Machine.State), s.epUp ep = true → k ≠ 0 → let r := Config.rdmaRegion k
    (inRegion r va n = false → ∃ t, exec (.rdmaRead ⟨ep, false⟩ k va n) s = .next t ∧ Answered s t ep .nak []) ∧
    (inRegion r va n = true → (∀ l u, s.readHost r.1 r.2.2.2 (n / 32 + 2) va n = .ok (l, u) →
        ∃ t, exec (.rdmaRead ⟨ep, false⟩ k va n) s = .next t ∧ Answered u t ep .data l) ∧
      (∀ a c u, s.readHost r.1 r.2.2.2 (n / 32 + 2) va n = .error (a, c, u) →
        ∃ t, exec (.rdmaRead ⟨ep, false⟩ k va n) s = .next t ∧ t.hostOut = u.hostOut ++ [{ ep := ep, kind := .nak, bytes := [] }]))) ∧
  (∀ (ep va : Nat) (l : List Byte) (s : Machine.State), s.epUp ep = true → va + l.length ≤ 16384 →
    ∃ t x, exec (.rdmaWrite ⟨ep, false⟩ 0 va l) s = .next t ∧ OnlyEndpoint s { t with hostOut := s.hostOut } ep { s.endpoint ep with ring := x } ∧
      t.hostOut = s.hostOut ++ [{ ep := ep, kind := .ack, bytes := [] }] ∧
      (∀ i, i < l.length → SMap.get 0 x (va + i) = l.getD i 0) ∧
      (∀ a, (a < va ∨ va + l.length ≤ a) → SMap.get 0 x a = SMap.get 0 (s.endpoint ep).ring a)) ∧
  (∀ (ep k va : Nat) (l : List Byte) (s : Machine.State), s.epUp ep = true → k ≠ 0 → let r := Config.rdmaRegion k
    (inRegion r va l.length = false → ∃ t, exec (.rdmaWrite ⟨ep, false⟩ k va l) s = .next t ∧ Answered s t ep .nak []) ∧
    (inRegion r va l.length = true → (∀ u, s.writeSpan 0 r.1 r.2.2.2 (l.length / 32 + 2) va l = .ok u →
        ∃ t, exec (.rdmaWrite ⟨ep, false⟩ k va l) s = .next t ∧ Answered u t ep .ack []) ∧
      (∀ a c u, s.writeSpan 0 r.1 r.2.2.2 (l.length / 32 + 2) va l = .error (a, c, u) →
        ∃ t, exec (.rdmaWrite ⟨ep, false⟩ k va l) s = .next t ∧ t.hostOut = u.hostOut ++ [{ ep := ep, kind := .nak, bytes := [] }]))) ∧
  (∀ (ep k va : Nat) (l : List Byte) (s : Machine.State), s.epUp ep = true →
    exec (.rdmaWrite ⟨ep, true⟩ k va l) s =
      exec (.rdmaWrite ⟨ep, false⟩ k va l) { s with hostOut := s.hostOut ++ [{ ep := ep, kind := .congestion, bytes := [] }] }) ∧
  (∀ (ep : Nat) (s : Machine.State), s.epUp ep = true → ∃ t, exec (.congestionNotification ep) s = .next t ∧
    OnlyEndpoint s t ep { s.endpoint ep with congestion := (s.endpoint ep).congestion + 1 }) ∧
  (∀ (en pa : BitVec 8) (s : Machine.State), ∃ t, exec (.priorityFlowControl en pa) s = .next t ∧
    (∀ i, i < 8 → t.pfc.getLsbD i = if en.getLsbD i then pa.getLsbD i else s.pfc.getLsbD i) ∧ { t with pfc := s.pfc } = s) ∧
  (∀ s : Machine.State, (s.drainHost.hostSent ++ s.drainHost.hostOut).Perm (s.hostSent ++ s.hostOut) ∧
    (∀ m, m ∈ s.hostOut → (m ∈ s.drainHost.hostOut ↔ s.paused m.ep = true))) ∧
  (∀ (v : BitVec 62) (a b : Bool) (s : Machine.State),
    (∃ t, exec (.ptpSync v) s = .next t ∧ t = { s with ptpReceipt := v }) ∧
    (∃ t, exec (.ptpFollowUp v a b) s = .next t ∧
      t.ptpNs = (if a = true ∨ s.ptpValid = false then v + s.ptpDelay + (s.ptpNs - s.ptpReceipt) else s.ptpNs) ∧ t.ptpValid = true ∧
      (t.ptpLock = true ↔ b = true ∧ a = false ∧ s.ptpValid = true) ∧
      { t with ptpNs := s.ptpNs, ptpValid := s.ptpValid, ptpLock := s.ptpLock } = s) ∧
    (∃ t, exec (.ptpDelayResp v b) s = .next t ∧ t = { s with ptpDelay := v, ptpLock := b && s.ptpValid })) ∧
  (∀ (l : Link) (lane : Nat) (ks : List Nat) (s : Machine.State), let n := linkNumber l
    let x := s.link n
    (lane < 4 → ∃ t, exec (.linkFlitReplay ⟨l, lane⟩) s = .next t ∧ t.link n = { x with replays := x.replays + 1 } ∧
      (∀ k, k ≠ n → t.link k = s.link k) ∧
      ((t.die (linkDie n)).errWin (.link n lane)).n =
        (((s.die (linkDie n)).errWin (.link n lane)).at' (s.die (linkDie n)).cycles).n + 1 ∧
      (∀ b, (∀ d, ¬ RingByte s d b) → t.byte b = s.byte b) ∧ t.flits = s.flits ∧ t.elems = s.elems ∧ t.threads = s.threads ∧
      t.works = s.works) ∧
    (x.up = true → 0 < x.lanes → ∃ t, exec (.linkLaneRetrain l) s = .next t ∧ t.link n = { x with lanes := x.lanes - 1 } ∧
      (∀ k, k ≠ n → t.link k = s.link k) ∧ (∀ b, (∀ d, ¬ RingByte s d b) → t.byte b = s.byte b) ∧ t.flits = s.flits ∧ t.elems = s.elems ∧
      t.threads = s.threads ∧ t.works = s.works) ∧
    (let u := s.setLink n { x with up := false }
     (32 ≤ n → ∃ t, exec (.linkFailure l ks) s = .next t ∧ t.link n = { x with up := false } ∧
       (∀ k, k ≠ n → t.link k = s.link k) ∧ { t with links := s.links } = s) ∧
     (n < 32 → u.hauls = true → ks.Pairwise (· < ·) → ∃ t, exec (.linkFailure l ks) s = .next t ∧ t.link n = { x with up := false } ∧
       (∀ k, k ≠ n → t.link k = s.link k) ∧ t.flits = s.flits ++ ks.filterMap (fun k => s.flits[k]?) ∧
       { t with links := s.links, flits := s.flits } = s) ∧
     (∀ h, n < 32 → u.hauls = false → ∃ t, exec (.linkFailure l ks) s = .next t ∧ t.link n = { x with up := false } ∧ t.elems = s.elems ∧
       t.threads = s.threads ∧ (h ∉ u.haulUsers → t.work h = s.work h) ∧
       (h ∈ u.haulUsers → s.hasWork h = true → (s.work h).killing = none → ∃ v, (t.work h).killing = some (.faulted, v) ∧
         v.toNat % 256 = 0x52)))) ∧
  (∀ (h d d' : Nat) (s : Machine.State), d < 4 → d' < 4 →
    (∀ k, k ∈ crossPath d d' → 32 ≤ k ∧ k < 36 ∧ k ∉ crossOther d d') ∧
    (∀ pa, dieOfAddr pa = d' → d ≠ d' → s.cutOff d pa = true → s.hasWork h = true → (s.work h).killing = none →
      ∃ v, ((s.cross h d pa).work h).killing = some (.faulted, v) ∧ v.toNat % 256 = 0x52))

/-- R11, R406 to R409, R416 to R421, R523 to R526: cold reset keeps the boot flash; the firmware of every die starts from the first slot that passes,
or the package is in recovery mode, where its flash can be written; each later stage extends a register; a sample takes temperatures, alerts and wear;
the droop detector trips where the supply is below its level, and releases. The supply as a value of an event is the model's choice (log entry 78). -/
def Obligations.PlatformEvents : Prop :=
  (∀ s : Machine.State, ∃ t, exec .coldReset s = .next t ∧ t.flash = s.flash ∧ t.package = s.package ∧
    { t with flash := [], package := 0, agenda := [], free := 0 } = Machine.State.reset) ∧
  (∀ s : Machine.State, s.recovery = false → (s.die 0).started = false →
    let dead := (s.bootCheck 0).1 ≠ 0 ∧ (s.bootCheck 1).1 ≠ 0
    (∀ k stat, (((s.bootCheck 0).1 = 0 ∧ k = 0 ∧ stat = 0) ∨
        ((s.bootCheck 0).1 ≠ 0 ∧ (s.bootCheck 1).1 = 0 ∧ k = 1 ∧ stat = bootField (s.bootCheck 0))) →
      ∃ t, exec .bootImageCheck s = .next t ∧ { t with dies := s.dies } = s ∧ ∀ d, d < 4 → (t.die d).started = true ∧
        (t.die d).bootstat = BitVec.ofNat 64 (stat + k * 2 ^ 32) ∧
        SMap.get 0 (t.die d).meas 0 = Config.sha384 (digestBytes (SMap.get 0 (s.die d).meas 0) ++ digestBytes (s.bootDigest k)) ∧
        (∀ m, 1 < m → SMap.get 0 (t.die d).meas m = SMap.get 0 (s.die d).meas m)) ∧
    (dead → ∃ t, exec .bootImageCheck s = .next t ∧ t.recovery = true ∧ { t with dies := s.dies, recovery := false } = s ∧
      ∀ d, d < 4 → (t.die d).started = (s.die d).started ∧ (t.die d).meas = (s.die d).meas ∧
        (t.die d).bootstat = BitVec.ofNat 64 (bootField (s.bootCheck 0) + bootField (s.bootCheck 1) * 2 ^ 16 + 3 * 2 ^ 32 + 2 ^ 34))) ∧
  (∀ (off : Nat) (l : List Byte) (s : Machine.State), s.recovery = true → off % 4096 = 0 → l.length = 4096 → off < 0x04000000 →
    ∃ t, exec (.flashWrite off l) s = .next t ∧ { t with flash := s.flash } = s ∧
      (∀ i, i < 4096 → SMap.get 0 t.flash (off + i) = l.getD i 0) ∧
      (∀ a, (a < off ∨ off + 4096 ≤ a) → SMap.get 0 t.flash a = SMap.get 0 s.flash a)) ∧
  (∀ (d : Nat) (temps osc : List Nat) (s : Machine.State), d < 4 → let x := s.die d
    x.sampledAt + 2 ^ x.thPeriod.toNat ≤ x.cycles → ∃ t, exec (.thermalSample d temps osc) s = .next t ∧
      (t.die d).sample = x.sample + 1 ∧ (t.die d).sampledAt = x.cycles ∧ (∀ k, k ≠ d → t.die k = s.die k) ∧
      (x.thEn = false → (t.die d).alerts = x.alerts) ∧ (∀ b, (∀ d, ¬ RingByte s d b) → t.byte b = s.byte b) ∧
      t.works = s.works ∧ t.elems = s.elems ∧ t.threads = s.threads ∧
      (∀ q, q < 48 → let y := s.quad (d * 48 + q)
        let z := t.quad (d * 48 + q)
        let v := min (temps.getD q 0) 1023
        let dr := drift (Config.fuseBirth (d * 48 + q)).toNat (min (osc.getD q 0) 65535)
        let limit := max y.limit.toNat 1
        let alert := fun kind => BitVec.ofNat 64 (1 + kind * 2 + q * 2 ^ 8 + v * 2 ^ 16 + (x.sample + 1) % 2 ^ 32 * 2 ^ 32)
        z.temp = BitVec.ofNat 12 v ∧ z.peak = BitVec.ofNat 12 (max y.peak.toNat v) ∧ z.wearNow = BitVec.ofNat 16 (min (osc.getD q 0) 65535) ∧
        (x.thEn = true → x.thot.toNat ≤ v → alert 0 ∈ (t.die d).alerts) ∧
        (x.thEn = true → v < x.thot.toNat → v ≤ x.tcool.toNat → y.stepAt x.cycles ≠ 0 → alert 1 ∈ (t.die d).alerts) ∧
        (dr < (y.derate.toNat + 1) * limit → z.derate = y.derate) ∧
        (y.derate.toNat < 12 → (y.derate.toNat + 1) * limit ≤ dr → dr < (y.derate.toNat + 2) * limit →
          z.derate = BitVec.ofNat 16 (y.derate.toNat + 1)))) ∧
  (∀ (d m stage : Nat) (g : BitVec 384) (r : List Act) (s : Machine.State), s.agenda = .measure d m stage g :: r → d < 4 → 2 ≤ m → m ≤ 7 →
    (s.die d).started = true → (m, stage) ∉ (s.die d).stages → ∃ t, Machine.step s = .next t ∧
      SMap.get 0 (t.die d).meas m = Config.sha384 (digestBytes (SMap.get 0 (s.die d).meas m) ++ digestBytes g) ∧
      (∀ n, n ≠ m → SMap.get 0 (t.die d).meas n = SMap.get 0 (s.die d).meas n) ∧ (∀ k, k ≠ d → t.die k = s.die k) ∧
      { t with dies := s.dies, agenda := s.agenda } = s) ∧
  (∀ (d q v : Nat) (s : Machine.State), d < 4 → q < 48 → let x := s.quad (d * 48 + q)
    let k := d * 48 + q
    (650000 ≤ v + 1000 * x.thresh.toNat → ∃ t, exec (.droopTrip k v) s = .next t ∧ OnlyQuad s t (d * 48 + q) { x with supply := v }) ∧
    (v + 1000 * x.thresh.toNat < 650000 → x.drooped = false → ∃ t, exec (.droopTrip k v) s = .next t ∧ OnlyQuad s t (d * 48 + q) { x with
      supply := v, drooped := true, above := 0, droopCount := BitVec.ofNat 32 (min (x.droopCount.toNat + 1) 65535),
      droopSide := x.droopSide.note (s.die d).cycles x.droopCount.toNat 1 }) ∧
    (v + 1000 * x.thresh.toNat < 650000 → x.drooped = true → ∃ t, exec (.droopTrip k v) s = .next t ∧
      OnlyQuad s t (d * 48 + q) { x with supply := v, above := 0 }) ∧
    (x.drooped = true → 64 ≤ x.above →
      ∃ t, exec (.droopRelease d q) s = .next t ∧ OnlyQuad s t (d * 48 + q) { x with drooped := false, above := 0 }) ∧
    (x.drooped = true → x.above < 64 → ∃ t, exec (.droopRelease d q) s = .next t ∧ OnlyQuad s t (d * 48 + q) x))

/-- R410, R411: the SPDM responder answers its seven requests in their order and keeps the transcript that it signs; the TAP's four
instructions and its reset. The bytes of requests and answers are the model's (log entry 14). -/
def Obligations.AttestationAndTap : Prop :=
  (∀ s : Machine.State, (s.die 0).started = true → let p := s.platform
    (∃ t, exec .getVersion s = .next t ∧ SpdmReply { s with platform := { p with transcript := [] } } t [0x84] [0x04, 0x13]
      (fun p => { p with spdmVersion := true, spdmCaps := false, spdmAlgs := false })) ∧
    (p.spdmVersion = true → ∃ t, exec .getCapabilities s = .next t ∧ SpdmReply s t [0xE1] [0x61] (fun p => { p with spdmCaps := true })) ∧
    (∀ rsa sha, (p.spdmCaps = true → rsa = true → sha = true → ∃ t, exec (.negotiateAlgorithms rsa sha) s = .next t ∧
        SpdmReply s t [0xE3] [0x63] (fun p => { p with spdmAlgs := true })) ∧
      ((rsa = false ∨ sha = false) → ∃ t, exec (.negotiateAlgorithms rsa sha) s = .next t ∧ t.platform.spdmAlgs = p.spdmAlgs)) ∧
    (p.spdmAlgs = true →
      (∃ t, exec .getDigests s = .next t ∧ SpdmReply s t [0x81] (0x01 :: digestBytes (Config.sha384 Config.certificateChain)) id) ∧
      (∀ off n, ∃ t, exec (.getCertificate off n) s = .next t ∧
        SpdmReply s t ([0x82] ++ toBytes 2 off ++ toBytes 2 n) (0x02 :: (Config.certificateChain.drop off).take n) id) ∧
      (∀ nonce, ∃ t, exec (.challenge nonce) s = .next t ∧
        SpdmReply s t (0x83 :: nonce) (0x03 :: Config.spdmSign (p.transcript ++ 0x83 :: nonce)) id) ∧
      (∀ b nonce, let q := [0xE0, BitVec.ofNat 8 b] ++ nonce
        ∃ t l, exec (.getMeasurements b nonce) s = .next t ∧ SpdmReply s t q (0x60 :: l ++ Config.spdmSign (p.transcript ++ q)) id ∧
          (∀ m, m < 8 → b = m + 1 → l = digestBytes (SMap.get 0 (s.die 0).meas m)) ∧
          (∀ m d, m < 8 → 1 ≤ d → d ≤ 3 → b = 8 * d + m + 1 → l = digestBytes (SMap.get 0 (s.die d).meas m)) ∧
          (b = 0xF0 → l = Config.spdmSlhSign (p.transcript ++ q))))) ∧
  (∀ s : Machine.State, let p := s.platform
    (∃ t, exec .bypass s = .next t ∧ t = { s with platform := { p with tapIr := .bypass, tapDr := 0, driving := false } }) ∧
    (∃ t, exec .idcode s = .next t ∧ t = { s with platform := { p with tapIr := .idcode, tapDr := 0x100485E7, driving := false } }) ∧
    (∀ l, ∃ t, exec (.samplePreload l) s = .next t ∧ t.platform.tapIr = .sample ∧ t.platform.boundary = l ∧ t.platform.driving = false ∧
      { t with platform := p } = s) ∧
    (∃ t, exec .extest s = .next t ∧ t = { s with platform := { p with tapIr := .extest, driving := true } }) ∧
    (∃ t, exec .trst s = .next t ∧ t.platform.tapIr = .idcode ∧ t.platform.driving = false ∧ { t with platform := p } = s))

/-! ### The machine -/

/-- R11, R310, R316: what cold reset leaves. No working, token or thread in use, memory in its canonical form, and the registers at the values of
their Reset columns. Where the manual gives no value, the 0 is the model's choice (log entry 4). -/
def Obligations.ResetValues : Prop :=
  let s := Machine.State.reset
  Inv s ∧ s.works = [] ∧ s.flights = [] ∧ s.credits = [] ∧ s.jobs = [] ∧ s.hostOut = [] ∧ s.hostSent = [] ∧ (∀ k, s.spaceOf k = 4) ∧
  (∀ e, ((s.elem e).p = 0 ∧ (s.elem e).rr = 0 ∧ (s.elem e).gen = 0 ∧ (s.elem e).active = 0 ∧ (s.elem e).accs = []) ∧
    ∀ q, (s.elem e).queue q = []) ∧
  (∀ k, (s.claim k).owner = 0 ∧ (s.claim k).retired = false) ∧ (∀ i, (s.island i).tab = isltabReset) ∧
  (∀ t, (s.thread t).bound = 0 ∧ (s.thread t).f = false ∧ (s.thread t).intrap = false ∧ (s.thread t).trappc = 0 ∧ (s.thread t).trapcause = 0 ∧
    (s.thread t).trapvec = 0 ∧ (s.thread t).traparg = 0 ∧ (s.thread t).faultva = 0 ∧ (s.thread t).canWin = 24 ∧ (s.thread t).canEn = true) ∧
  (∀ q, let x := s.quad q
    x.temp = 0 ∧ x.peak = 0 ∧ x.step = 0 ∧ x.fset = 28 ∧ x.derate = 0 ∧ x.limit = 20 ∧ x.thresh = 40 ∧ x.droopCount = 0 ∧ x.drooped = false ∧
    ∀ n, x.copies n = (0, 0, 0)) ∧
  (∀ d, let x := s.die d
    x.tasks = [] ∧ x.arbBypass = 8 ∧ x.raceOk = false ∧ x.compact = true ∧ x.thot = 380 ∧ x.tcool = 340 ∧ x.thPeriod = 20 ∧ x.thEn = true ∧
    x.alerts = [] ∧ x.ringEn = false ∧ x.ringSize = 6 ∧ x.ringBase = 0 ∧ x.head = 0 ∧ x.tail = 0 ∧ x.dropped = 0 ∧ x.errctl = 0 ∧ x.ceThr = 4 ∧
    x.ceWin = 32 ∧ x.mmThr = 2 ∧ x.rpThr = 3 ∧ x.rpWin = 24 ∧ x.rvMax = 8 ∧ x.cwInt = 20 ∧ x.cwEn = true ∧ x.cwHold = true ∧ x.wkGo = false ∧
    x.bootstat = 0 ∧ x.started = false ∧ (∀ m, SMap.get 0 x.meas m = 0) ∧ ∀ n, (x.hoist n).busy = false) ∧
  s.ptpNs = 0 ∧ s.ptpLock = false ∧ s.ptpValid = false ∧ s.recovery = false ∧ s.platform.tapIr = .idcode

/-- Every step keeps memory in its canonical form: addresses rising, and no entry equal to what an unlisted address reads as. The form is the model's
way to hold memory as plain data (log entry 3). -/
def Obligations.StepKeepsMemoryForm : Prop :=
  ∀ s t : Machine.State, Inv s → Machine.step s = .next t → Inv t

/-- R61, R65, R68, R130, R131, R309: a step runs the decoded instruction. The thread that a core takes runs the instruction whose word or two words
lie at its PC; an element runs the first ready slot of its context, or that of its held cycle, and a second slot that may fire with it; one that would
read a bad item consumes it instead; an event runs as it stands. The list of acts and the cursor are the model's own (log entries 1 and 7). -/
def Obligations.StepRunsDecoded : Prop :=
  (∀ (c n va a : Nat) (i : Instr) (r : List Act) (s u : Machine.State), s.agenda = .core c :: r → let s0 := { s with agenda := r }
    let s1 := s0.beginIssue c n
    s0.nextThread c = some n → va = (s1.thread n).pc.toNat → va % 4 = 0 → s1.fetchAt n va = .ok a u →
    (decodeForeman (u.word a 4) 0 = .ok i → twoWords i = false → Machine.step s = exec i u) ∧
    (∀ e, decodeForeman (u.word a 4) 0 = .error e → Machine.step s = exec (.illegalInstruction (BitVec.ofNat 32 (u.word a 4))) u) ∧
    (∀ b v, decodeForeman (u.word a 4) 0 = .ok i → twoWords i = true → u.fetchAt n ((s1.thread n).pc + 4).toNat = .ok b v →
      ∀ j, decodeForeman (u.word a 4) (v.word b 4) = .ok j → Machine.step s = exec j v)) ∧
  (∀ (c n : Nat) (s : Machine.State), let t := s.beginIssue c n
    t.cur = { s.cur with thread := n } ∧ t.threads = s.threads ∧ t.mem = s.mem ∧ t.works = s.works ∧ t.elems = s.elems ∧
    (s.nextThread c = some n → s.mayIssue n = true ∧ coreBase c ≤ n ∧ n < coreBase c + 4) ∧
    (c < 192 → (t.quad c).turn = (n + 1) % 4 ∧ (t.quad c).issued = some (s.quad c).cyc)) ∧
  (∀ (e n : Nat) (i : Instr) (r : List Act) (s : Machine.State), s.agenda = .fire e :: r → let s0 := { s with agenda := r }
    s0.firedNow e = false → (∀ u, s0.meets e none = some u → Machine.step s = .next u) ∧
    (s0.meets e none = none → (s0.curCfg e).instr n = some i → s0.yields e i = false →
      (∀ u, s0.heldSlot e = none → s0.firstSlot e = some n → s0.meets e (some i) = some u → Machine.step s = .next u) ∧
      (s0.heldSlot e = none → s0.firstSlot e = some n → s0.meets e (some i) = none → let u := s0.noteTake e i
        (s0.watched e = false → Machine.step s = exec i { u with cur := { u.cur with elem := e, slot := n, second := false } }) ∧
        (s0.watched e = true → s0.watchHeld e = false → Machine.step s = exec i ((u.setPending e ((u.cwRowOf e).pending + 1)).onSlot e n false)) ∧
        (s0.watchHeld e = true → Machine.step s = .next (s0.holdCycle e n))) ∧
      (s0.heldSlot e = some n → (s0.cwRowOf e).pending ≠ 1 → s0.slotReady e n = true → s0.meets e (some i) = none →
        Machine.step s = exec i (((s0.dropHold e).noteTake e i).onSlot e n false)) ∧
      (s0.heldSlot e = some n → (s0.cwRowOf e).pending = 1 → Machine.step s = .next s0))) ∧
  (∀ (e f n : Nat) (i : Instr) (r : List Act) (s : Machine.State), s.agenda = .fire2 e :: r → let s0 := { s with agenda := r }
    s0.firedNow e = true → (s0.elem e).first = some f → (s0.elem e).second = false → s0.secondSlot e f = some n →
    (s0.curCfg e).instr n = some i → s0.yields e i = false → s0.meets e (some i) = none → let u := s0.noteTake e i
    ((s0.watched e = false ∨ s0.watchHeld e = true) → Machine.step s = exec i (u.onSlot e n true)) ∧
    (s0.watched e = true → s0.watchHeld e = false → Machine.step s = exec i ((u.setPending e ((u.cwRowOf e).pending + 1)).onSlot e n true))) ∧
  (∀ (i : Instr) (r : List Act) (s : Machine.State), s.agenda = .event i :: r → Instr.isEvent i = true →
    Machine.step s = exec i { s with agenda := r }) ∧
  (∀ s : Machine.State, s.agenda = [] → ∃ t, Machine.step s = .next t ∧ { t with agenda := [] } = s ∧ (∀ c, c < 196 → Act.core c ∈ t.agenda) ∧
    (∀ q, q < 192 → Act.tick q ∈ t.agenda) ∧ (∀ d, d < 4 → Act.tickAssay d ∈ t.agenda) ∧ Act.settle ∈ t.agenda ∧
    ∀ k i, (s.claims.any (fun p => p.1 == k && p.2.owner != 0)) = true → i < 8 → Act.fire (k * 8 + i) ∈ t.agenda)

/-- R108 to R117, R130 to R134: words written out from the encodings decode to the instructions that they stand for. -/
def Obligations.WordsDecode : Prop :=
  decodeTableWord 32 0x04400001 = some (.addi 4 0 1) ∧
  decodeTableWord 32 0x90000002 = some (.rbacq 1) ∧
  decodeTableWord 32 0xA0800002 = some (.sysr 8 0 2) ∧
  decodeTableWord 32 0xF4D00000 = some (.rvbeg 13) ∧
  decodeTableWord 64 0x0000006020800000 = some (.li 8 0x60) ∧
  decodeTableWord 32 0x78B24C04 = some (.waita 11 9 12 .pkg) ∧
  decodeTableWord 96 0x800000402428441841300000 = some (.madSat
    { x := false, pm := 0, pv := 0, qa := some 0, ta := .any, qb := some 1, tb := .any, tv := 0, ty := .s16x2, sa := .q 0, sb := .q 1,
      d0 := .reg 3, d1 := .link .e true false, pa := true, pb := true, ot := 0, ps := 0, pc := 0 }) ∧
  decodeTableWord 96 0x80000040CAC84500E0300000 = some (.tramWalk
    { x := false, pm := 0, pv := 0, qa := some 0, ta := .any, qb := some 1, tb := .any, tv := 0, ty := .c12, sa := .q 0, sb := .q 1,
      d0 := .link .e false false, d1 := .none, pa := true, pb := true, ot := 0, ps := 0, pc := 0 }) ∧
  decodeTableWord 96 0x800009C0D3C8835060200000 = some (.tmul
    { x := false, pm := 0, pv := 0, qa := some 1, ta := .any, qb := none, tb := .any, tv := 0, ty := .c12, sa := .q 1, sb := .v 0,
      d0 := .port 0 false false, d1 := .link .s false false, pa := true, pb := false, ot := 0, ps := 0, pc := 0 }) ∧
  decodeTableWord 96 0x800019C0C3DDCE0040210000 = some (.scatr
    { x := false, pm := 0, pv := 0, qa := some 3, ta := .any, qb := none, tb := .any, tv := 0, ty := .c13, sa := .lane, sb := .q 3,
      d0 := .link .w false false, d1 := .link .e false false, pa := true, pb := false, ot := 1, ps := 0, pc := 0 })

/-- R108 to R119, R130 to R134, R312 to R354: decoding the words of a well-formed instruction gives it back, with every operand at every value; and
a word that decodes to an instruction is the one that stands for it. -/
def Obligations.EncodingRoundTrips : Prop :=
  (∀ i : Instr, Instr.wf i = true → encode i ≠ [] → decodeTableWord (32 * (encode i).length) (wordsNat (encode i)) = some i) ∧
  (∀ (i : Instr) (w : Nat), w < 2 ^ 32 → decodeTableWord 32 w = some i → twoWords i = false → wordsNat (encode i) = w) ∧
  (∀ (i : Instr) (w : Nat), w < 2 ^ 64 → decodeTableWord 64 w = some i → twoWords i = true → wordsNat (encode i) = w) ∧
  (∀ (i : Instr) (w : Nat), w < 2 ^ 96 → decodeTableWord 96 w = some i → Instr.wf i = true ∧ wordsNat (encode i) = w)
end

