-- ==== Sys2Proof/Laws/SMap.lean ====
section
/-! SUPPORT. The laws of sparse maps: what is read after a write, and that every operation keeps the canonical form. -/

namespace Sys2Proof.Machine

open Sys2Proof

variable {α : Type}

@[simp] theorem SMap.get_nil (d : α) (i : Nat) : SMap.get d [] i = d := rfl

theorem SMap.get_insert (d : α) (m : SMap α) (i j : Nat) (x : α) :
    SMap.get d (SMap.insert m i x) j = if i = j then x else SMap.get d m j := by
  induction m with
  | nil => simp [SMap.insert, SMap.get]
  | cons p r ih =>
    obtain ⟨k, v⟩ := p
    simp only [SMap.insert]
    split
    · next h => subst h; simp only [SMap.get]; split <;> simp_all
    · split
      · simp [SMap.get]
      · simp only [SMap.get, ih]
        split
        · next h => subst h; simp_all; intro h; omega
        · rfl

theorem SMap.get_erase (d : α) (m : SMap α) (i j : Nat) :
    SMap.get d (SMap.erase m i) j = if i = j then d else SMap.get d m j := by
  induction m with
  | nil => simp [SMap.erase]
  | cons p r ih =>
    obtain ⟨k, v⟩ := p
    simp only [SMap.erase] at ih ⊢
    rw [List.filter_cons]
    by_cases h : k = i
    · subst h
      simp only [bne_self_eq_false, Bool.false_eq_true, if_false, ih, SMap.get]
      split <;> simp_all
    · have hb : (k != i) = true := by simp [h]
      simp only [hb, if_true, SMap.get, ih]
      split
      · next hk => subst hk; simp [Ne.symm h]
      · rfl

theorem SMap.get_set [DecidableEq α] (d : α) (m : SMap α) (i j : Nat) (x : α) :
    SMap.get d (SMap.set d m i x) j = if i = j then x else SMap.get d m j := by
  unfold SMap.set
  split
  · next h => rw [SMap.get_erase, h]
  · rw [SMap.get_insert]

@[simp] theorem SMap.get_set_self [DecidableEq α] (d : α) (m : SMap α) (i : Nat) (x : α) :
    SMap.get d (SMap.set d m i x) i = x := by simp [SMap.get_set]

theorem SMap.get_set_of_ne [DecidableEq α] (d : α) (m : SMap α) {i j : Nat} (x : α) (h : i ≠ j) :
    SMap.get d (SMap.set d m i x) j = SMap.get d m j := by simp [SMap.get_set, h]

/-! ### The canonical form -/

theorem SMap.wfFrom_weaken [DecidableEq α] (d : α) (m : SMap α) {a b : Nat} (h : a ≤ b) (hm : SMap.wfFrom d b m = true) :
    SMap.wfFrom d a m = true := by
  cases m with
  | nil => rfl
  | cons p r =>
    simp only [SMap.wfFrom, Bool.and_eq_true, decide_eq_true_eq] at hm ⊢
    exact ⟨⟨by omega, hm.1.2⟩, hm.2⟩

theorem SMap.wfFrom_insert [DecidableEq α] (d : α) (m : SMap α) (lo i : Nat) (x : α) (hx : x ≠ d) (hi : lo ≤ i)
    (hm : SMap.wfFrom d lo m = true) : SMap.wfFrom d lo (SMap.insert m i x) = true := by
  induction m generalizing lo with
  | nil => simp [SMap.insert, SMap.wfFrom, hx, hi]
  | cons p r ih =>
    obtain ⟨k, v⟩ := p
    simp only [SMap.wfFrom, Bool.and_eq_true, decide_eq_true_eq] at hm
    simp only [SMap.insert]
    split
    · simp only [SMap.wfFrom, Bool.and_eq_true, decide_eq_true_eq]
      exact ⟨⟨hm.1.1, hx⟩, hm.2⟩
    · split
      · simp only [SMap.wfFrom, Bool.and_eq_true, decide_eq_true_eq]
        exact ⟨⟨hi, hx⟩, ⟨by omega, hm.1.2⟩, hm.2⟩
      · simp only [SMap.wfFrom, Bool.and_eq_true, decide_eq_true_eq]
        exact ⟨hm.1, ih (k + 1) (by omega) hm.2⟩

theorem SMap.wfFrom_erase [DecidableEq α] (d : α) (m : SMap α) (lo i : Nat) (hm : SMap.wfFrom d lo m = true) :
    SMap.wfFrom d lo (SMap.erase m i) = true := by
  induction m generalizing lo with
  | nil => rfl
  | cons p r ih =>
    obtain ⟨k, v⟩ := p
    simp only [SMap.wfFrom, Bool.and_eq_true, decide_eq_true_eq] at hm
    simp only [SMap.erase] at ih ⊢
    rw [List.filter_cons]
    split
    · simp only [SMap.wfFrom, Bool.and_eq_true, decide_eq_true_eq]
      exact ⟨hm.1, ih (k + 1) hm.2⟩
    · exact SMap.wfFrom_weaken d _ (by omega) (ih (k + 1) hm.2)

/-- A write keeps the canonical form. -/
theorem SMap.wf_set [DecidableEq α] (d : α) (m : SMap α) (i : Nat) (x : α) (hm : SMap.wf d m = true) :
    SMap.wf d (SMap.set d m i x) = true := by
  unfold SMap.set
  split
  · exact SMap.wfFrom_erase d m 0 i hm
  · next h => exact SMap.wfFrom_insert d m 0 i x h (Nat.zero_le i) hm

theorem SMap.wf_mod [DecidableEq α] (d : α) (m : SMap α) (i : Nat) (f : α → α) (hm : SMap.wf d m = true) :
    SMap.wf d (SMap.mod d m i f) = true := SMap.wf_set d m i _ hm

end Sys2Proof.Machine
end

