-- ==== Sys2Proof/Laws/State.lean ====
section
/-! SUPPORT. What is read of a state after each update: one lemma per field per update, and the banks by their accessors. -/

namespace Sys2Proof.Machine

open Sys2Proof

variable (s : State)

/-! ### State.setElem -/

@[simp] theorem State.setElem_mem (k : Nat) (x : Elem) : (s.setElem k x).mem = s.mem := rfl
@[simp] theorem State.setElem_poison (k : Nat) (x : Elem) : (s.setElem k x).poison = s.poison := rfl
@[simp] theorem State.setElem_badSec (k : Nat) (x : Elem) : (s.setElem k x).badSec = s.badSec := rfl
@[simp] theorem State.setElem_claims (k : Nat) (x : Elem) : (s.setElem k x).claims = s.claims := rfl
@[simp] theorem State.setElem_flights (k : Nat) (x : Elem) : (s.setElem k x).flights = s.flights := rfl
@[simp] theorem State.setElem_space (k : Nat) (x : Elem) : (s.setElem k x).space = s.space := rfl
@[simp] theorem State.setElem_credits (k : Nat) (x : Elem) : (s.setElem k x).credits = s.credits := rfl
@[simp] theorem State.setElem_tiles (k : Nat) (x : Elem) : (s.setElem k x).tiles = s.tiles := rfl
@[simp] theorem State.setElem_islands (k : Nat) (x : Elem) : (s.setElem k x).islands = s.islands := rfl
@[simp] theorem State.setElem_threads (k : Nat) (x : Elem) : (s.setElem k x).threads = s.threads := rfl
@[simp] theorem State.setElem_quads (k : Nat) (x : Elem) : (s.setElem k x).quads = s.quads := rfl
@[simp] theorem State.setElem_dies (k : Nat) (x : Elem) : (s.setElem k x).dies = s.dies := rfl
@[simp] theorem State.setElem_works (k : Nat) (x : Elem) : (s.setElem k x).works = s.works := rfl
@[simp] theorem State.setElem_endpoints (k : Nat) (x : Elem) : (s.setElem k x).endpoints = s.endpoints := rfl
@[simp] theorem State.setElem_jobs (k : Nat) (x : Elem) : (s.setElem k x).jobs = s.jobs := rfl
@[simp] theorem State.setElem_shelf (k : Nat) (x : Elem) : (s.setElem k x).shelf = s.shelf := rfl
@[simp] theorem State.setElem_ended (k : Nat) (x : Elem) : (s.setElem k x).ended = s.ended := rfl
@[simp] theorem State.setElem_nextHandle (k : Nat) (x : Elem) : (s.setElem k x).nextHandle = s.nextHandle := rfl
@[simp] theorem State.setElem_age (k : Nat) (x : Elem) : (s.setElem k x).age = s.age := rfl
@[simp] theorem State.setElem_hostOut (k : Nat) (x : Elem) : (s.setElem k x).hostOut = s.hostOut := rfl
@[simp] theorem State.setElem_hostSent (k : Nat) (x : Elem) : (s.setElem k x).hostSent = s.hostSent := rfl
@[simp] theorem State.setElem_ptpNs (k : Nat) (x : Elem) : (s.setElem k x).ptpNs = s.ptpNs := rfl
@[simp] theorem State.setElem_ptpLock (k : Nat) (x : Elem) : (s.setElem k x).ptpLock = s.ptpLock := rfl
@[simp] theorem State.setElem_ptpValid (k : Nat) (x : Elem) : (s.setElem k x).ptpValid = s.ptpValid := rfl
@[simp] theorem State.setElem_ptpReceipt (k : Nat) (x : Elem) : (s.setElem k x).ptpReceipt = s.ptpReceipt := rfl
@[simp] theorem State.setElem_ptpDelay (k : Nat) (x : Elem) : (s.setElem k x).ptpDelay = s.ptpDelay := rfl
@[simp] theorem State.setElem_pfc (k : Nat) (x : Elem) : (s.setElem k x).pfc = s.pfc := rfl
@[simp] theorem State.setElem_flits (k : Nat) (x : Elem) : (s.setElem k x).flits = s.flits := rfl
@[simp] theorem State.setElem_filters (k : Nat) (x : Elem) : (s.setElem k x).filters = s.filters := rfl
@[simp] theorem State.setElem_links (k : Nat) (x : Elem) : (s.setElem k x).links = s.links := rfl
@[simp] theorem State.setElem_flash (k : Nat) (x : Elem) : (s.setElem k x).flash = s.flash := rfl
@[simp] theorem State.setElem_recovery (k : Nat) (x : Elem) : (s.setElem k x).recovery = s.recovery := rfl
@[simp] theorem State.setElem_package (k : Nat) (x : Elem) : (s.setElem k x).package = s.package := rfl
@[simp] theorem State.setElem_platform (k : Nat) (x : Elem) : (s.setElem k x).platform = s.platform := rfl
@[simp] theorem State.setElem_agenda (k : Nat) (x : Elem) : (s.setElem k x).agenda = s.agenda := rfl
@[simp] theorem State.setElem_cur (k : Nat) (x : Elem) : (s.setElem k x).cur = s.cur := rfl
@[simp] theorem State.setElem_free (k : Nat) (x : Elem) : (s.setElem k x).free = s.free := rfl
theorem State.elem_setElem (k j : Nat) (x : Elem) : (s.setElem k x).elem j = if k = j then x else s.elem j := SMap.get_set _ _ _ _ _
@[simp] theorem State.elem_setElem_self (k : Nat) (x : Elem) : (s.setElem k x).elem k = x := SMap.get_set_self _ _ _ _
theorem State.elem_setElem_ne {k j : Nat} (x : Elem) (h : k ≠ j) : (s.setElem k x).elem j = s.elem j := SMap.get_set_of_ne _ _ _ h
@[simp] theorem State.claim_setElem (k j : Nat) (x : Elem) : (s.setElem k x).claim j = s.claim j := rfl
@[simp] theorem State.tile_setElem (k j : Nat) (x : Elem) : (s.setElem k x).tile j = s.tile j := rfl
@[simp] theorem State.island_setElem (k j : Nat) (x : Elem) : (s.setElem k x).island j = s.island j := rfl
@[simp] theorem State.thread_setElem (k j : Nat) (x : Elem) : (s.setElem k x).thread j = s.thread j := rfl
@[simp] theorem State.quad_setElem (k j : Nat) (x : Elem) : (s.setElem k x).quad j = s.quad j := rfl
@[simp] theorem State.die_setElem (k j : Nat) (x : Elem) : (s.setElem k x).die j = s.die j := rfl
@[simp] theorem State.work_setElem (k j : Nat) (x : Elem) : (s.setElem k x).work j = s.work j := rfl
@[simp] theorem State.byte_setElem (k a : Nat) (x : Elem) : (s.setElem k x).byte a = s.byte a := rfl

/-! ### State.setClaim -/

@[simp] theorem State.setClaim_mem (k : Nat) (x : Claim) : (s.setClaim k x).mem = s.mem := rfl
@[simp] theorem State.setClaim_poison (k : Nat) (x : Claim) : (s.setClaim k x).poison = s.poison := rfl
@[simp] theorem State.setClaim_badSec (k : Nat) (x : Claim) : (s.setClaim k x).badSec = s.badSec := rfl
@[simp] theorem State.setClaim_elems (k : Nat) (x : Claim) : (s.setClaim k x).elems = s.elems := rfl
@[simp] theorem State.setClaim_flights (k : Nat) (x : Claim) : (s.setClaim k x).flights = s.flights := rfl
@[simp] theorem State.setClaim_space (k : Nat) (x : Claim) : (s.setClaim k x).space = s.space := rfl
@[simp] theorem State.setClaim_credits (k : Nat) (x : Claim) : (s.setClaim k x).credits = s.credits := rfl
@[simp] theorem State.setClaim_tiles (k : Nat) (x : Claim) : (s.setClaim k x).tiles = s.tiles := rfl
@[simp] theorem State.setClaim_islands (k : Nat) (x : Claim) : (s.setClaim k x).islands = s.islands := rfl
@[simp] theorem State.setClaim_threads (k : Nat) (x : Claim) : (s.setClaim k x).threads = s.threads := rfl
@[simp] theorem State.setClaim_quads (k : Nat) (x : Claim) : (s.setClaim k x).quads = s.quads := rfl
@[simp] theorem State.setClaim_dies (k : Nat) (x : Claim) : (s.setClaim k x).dies = s.dies := rfl
@[simp] theorem State.setClaim_works (k : Nat) (x : Claim) : (s.setClaim k x).works = s.works := rfl
@[simp] theorem State.setClaim_endpoints (k : Nat) (x : Claim) : (s.setClaim k x).endpoints = s.endpoints := rfl
@[simp] theorem State.setClaim_jobs (k : Nat) (x : Claim) : (s.setClaim k x).jobs = s.jobs := rfl
@[simp] theorem State.setClaim_shelf (k : Nat) (x : Claim) : (s.setClaim k x).shelf = s.shelf := rfl
@[simp] theorem State.setClaim_ended (k : Nat) (x : Claim) : (s.setClaim k x).ended = s.ended := rfl
@[simp] theorem State.setClaim_nextHandle (k : Nat) (x : Claim) : (s.setClaim k x).nextHandle = s.nextHandle := rfl
@[simp] theorem State.setClaim_age (k : Nat) (x : Claim) : (s.setClaim k x).age = s.age := rfl
@[simp] theorem State.setClaim_hostOut (k : Nat) (x : Claim) : (s.setClaim k x).hostOut = s.hostOut := rfl
@[simp] theorem State.setClaim_hostSent (k : Nat) (x : Claim) : (s.setClaim k x).hostSent = s.hostSent := rfl
@[simp] theorem State.setClaim_ptpNs (k : Nat) (x : Claim) : (s.setClaim k x).ptpNs = s.ptpNs := rfl
@[simp] theorem State.setClaim_ptpLock (k : Nat) (x : Claim) : (s.setClaim k x).ptpLock = s.ptpLock := rfl
@[simp] theorem State.setClaim_ptpValid (k : Nat) (x : Claim) : (s.setClaim k x).ptpValid = s.ptpValid := rfl
@[simp] theorem State.setClaim_ptpReceipt (k : Nat) (x : Claim) : (s.setClaim k x).ptpReceipt = s.ptpReceipt := rfl
@[simp] theorem State.setClaim_ptpDelay (k : Nat) (x : Claim) : (s.setClaim k x).ptpDelay = s.ptpDelay := rfl
@[simp] theorem State.setClaim_pfc (k : Nat) (x : Claim) : (s.setClaim k x).pfc = s.pfc := rfl
@[simp] theorem State.setClaim_flits (k : Nat) (x : Claim) : (s.setClaim k x).flits = s.flits := rfl
@[simp] theorem State.setClaim_filters (k : Nat) (x : Claim) : (s.setClaim k x).filters = s.filters := rfl
@[simp] theorem State.setClaim_links (k : Nat) (x : Claim) : (s.setClaim k x).links = s.links := rfl
@[simp] theorem State.setClaim_flash (k : Nat) (x : Claim) : (s.setClaim k x).flash = s.flash := rfl
@[simp] theorem State.setClaim_recovery (k : Nat) (x : Claim) : (s.setClaim k x).recovery = s.recovery := rfl
@[simp] theorem State.setClaim_package (k : Nat) (x : Claim) : (s.setClaim k x).package = s.package := rfl
@[simp] theorem State.setClaim_platform (k : Nat) (x : Claim) : (s.setClaim k x).platform = s.platform := rfl
@[simp] theorem State.setClaim_agenda (k : Nat) (x : Claim) : (s.setClaim k x).agenda = s.agenda := rfl
@[simp] theorem State.setClaim_cur (k : Nat) (x : Claim) : (s.setClaim k x).cur = s.cur := rfl
@[simp] theorem State.setClaim_free (k : Nat) (x : Claim) : (s.setClaim k x).free = s.free := rfl
@[simp] theorem State.elem_setClaim (k j : Nat) (x : Claim) : (s.setClaim k x).elem j = s.elem j := rfl
theorem State.claim_setClaim (k j : Nat) (x : Claim) : (s.setClaim k x).claim j = if k = j then x else s.claim j := SMap.get_set _ _ _ _ _
@[simp] theorem State.claim_setClaim_self (k : Nat) (x : Claim) : (s.setClaim k x).claim k = x := SMap.get_set_self _ _ _ _
theorem State.claim_setClaim_ne {k j : Nat} (x : Claim) (h : k ≠ j) : (s.setClaim k x).claim j = s.claim j := SMap.get_set_of_ne _ _ _ h
@[simp] theorem State.tile_setClaim (k j : Nat) (x : Claim) : (s.setClaim k x).tile j = s.tile j := rfl
@[simp] theorem State.island_setClaim (k j : Nat) (x : Claim) : (s.setClaim k x).island j = s.island j := rfl
@[simp] theorem State.thread_setClaim (k j : Nat) (x : Claim) : (s.setClaim k x).thread j = s.thread j := rfl
@[simp] theorem State.quad_setClaim (k j : Nat) (x : Claim) : (s.setClaim k x).quad j = s.quad j := rfl
@[simp] theorem State.die_setClaim (k j : Nat) (x : Claim) : (s.setClaim k x).die j = s.die j := rfl
@[simp] theorem State.work_setClaim (k j : Nat) (x : Claim) : (s.setClaim k x).work j = s.work j := rfl
@[simp] theorem State.byte_setClaim (k a : Nat) (x : Claim) : (s.setClaim k x).byte a = s.byte a := rfl

/-! ### State.setTile -/

@[simp] theorem State.setTile_mem (k : Nat) (x : Tile) : (s.setTile k x).mem = s.mem := rfl
@[simp] theorem State.setTile_poison (k : Nat) (x : Tile) : (s.setTile k x).poison = s.poison := rfl
@[simp] theorem State.setTile_badSec (k : Nat) (x : Tile) : (s.setTile k x).badSec = s.badSec := rfl
@[simp] theorem State.setTile_elems (k : Nat) (x : Tile) : (s.setTile k x).elems = s.elems := rfl
@[simp] theorem State.setTile_claims (k : Nat) (x : Tile) : (s.setTile k x).claims = s.claims := rfl
@[simp] theorem State.setTile_flights (k : Nat) (x : Tile) : (s.setTile k x).flights = s.flights := rfl
@[simp] theorem State.setTile_space (k : Nat) (x : Tile) : (s.setTile k x).space = s.space := rfl
@[simp] theorem State.setTile_credits (k : Nat) (x : Tile) : (s.setTile k x).credits = s.credits := rfl
@[simp] theorem State.setTile_islands (k : Nat) (x : Tile) : (s.setTile k x).islands = s.islands := rfl
@[simp] theorem State.setTile_threads (k : Nat) (x : Tile) : (s.setTile k x).threads = s.threads := rfl
@[simp] theorem State.setTile_quads (k : Nat) (x : Tile) : (s.setTile k x).quads = s.quads := rfl
@[simp] theorem State.setTile_dies (k : Nat) (x : Tile) : (s.setTile k x).dies = s.dies := rfl
@[simp] theorem State.setTile_works (k : Nat) (x : Tile) : (s.setTile k x).works = s.works := rfl
@[simp] theorem State.setTile_endpoints (k : Nat) (x : Tile) : (s.setTile k x).endpoints = s.endpoints := rfl
@[simp] theorem State.setTile_jobs (k : Nat) (x : Tile) : (s.setTile k x).jobs = s.jobs := rfl
@[simp] theorem State.setTile_shelf (k : Nat) (x : Tile) : (s.setTile k x).shelf = s.shelf := rfl
@[simp] theorem State.setTile_ended (k : Nat) (x : Tile) : (s.setTile k x).ended = s.ended := rfl
@[simp] theorem State.setTile_nextHandle (k : Nat) (x : Tile) : (s.setTile k x).nextHandle = s.nextHandle := rfl
@[simp] theorem State.setTile_age (k : Nat) (x : Tile) : (s.setTile k x).age = s.age := rfl
@[simp] theorem State.setTile_hostOut (k : Nat) (x : Tile) : (s.setTile k x).hostOut = s.hostOut := rfl
@[simp] theorem State.setTile_hostSent (k : Nat) (x : Tile) : (s.setTile k x).hostSent = s.hostSent := rfl
@[simp] theorem State.setTile_ptpNs (k : Nat) (x : Tile) : (s.setTile k x).ptpNs = s.ptpNs := rfl
@[simp] theorem State.setTile_ptpLock (k : Nat) (x : Tile) : (s.setTile k x).ptpLock = s.ptpLock := rfl
@[simp] theorem State.setTile_ptpValid (k : Nat) (x : Tile) : (s.setTile k x).ptpValid = s.ptpValid := rfl
@[simp] theorem State.setTile_ptpReceipt (k : Nat) (x : Tile) : (s.setTile k x).ptpReceipt = s.ptpReceipt := rfl
@[simp] theorem State.setTile_ptpDelay (k : Nat) (x : Tile) : (s.setTile k x).ptpDelay = s.ptpDelay := rfl
@[simp] theorem State.setTile_pfc (k : Nat) (x : Tile) : (s.setTile k x).pfc = s.pfc := rfl
@[simp] theorem State.setTile_flits (k : Nat) (x : Tile) : (s.setTile k x).flits = s.flits := rfl
@[simp] theorem State.setTile_filters (k : Nat) (x : Tile) : (s.setTile k x).filters = s.filters := rfl
@[simp] theorem State.setTile_links (k : Nat) (x : Tile) : (s.setTile k x).links = s.links := rfl
@[simp] theorem State.setTile_flash (k : Nat) (x : Tile) : (s.setTile k x).flash = s.flash := rfl
@[simp] theorem State.setTile_recovery (k : Nat) (x : Tile) : (s.setTile k x).recovery = s.recovery := rfl
@[simp] theorem State.setTile_package (k : Nat) (x : Tile) : (s.setTile k x).package = s.package := rfl
@[simp] theorem State.setTile_platform (k : Nat) (x : Tile) : (s.setTile k x).platform = s.platform := rfl
@[simp] theorem State.setTile_agenda (k : Nat) (x : Tile) : (s.setTile k x).agenda = s.agenda := rfl
@[simp] theorem State.setTile_cur (k : Nat) (x : Tile) : (s.setTile k x).cur = s.cur := rfl
@[simp] theorem State.setTile_free (k : Nat) (x : Tile) : (s.setTile k x).free = s.free := rfl
@[simp] theorem State.elem_setTile (k j : Nat) (x : Tile) : (s.setTile k x).elem j = s.elem j := rfl
@[simp] theorem State.claim_setTile (k j : Nat) (x : Tile) : (s.setTile k x).claim j = s.claim j := rfl
theorem State.tile_setTile (k j : Nat) (x : Tile) : (s.setTile k x).tile j = if k = j then x else s.tile j := SMap.get_set _ _ _ _ _
@[simp] theorem State.tile_setTile_self (k : Nat) (x : Tile) : (s.setTile k x).tile k = x := SMap.get_set_self _ _ _ _
theorem State.tile_setTile_ne {k j : Nat} (x : Tile) (h : k ≠ j) : (s.setTile k x).tile j = s.tile j := SMap.get_set_of_ne _ _ _ h
@[simp] theorem State.island_setTile (k j : Nat) (x : Tile) : (s.setTile k x).island j = s.island j := rfl
@[simp] theorem State.thread_setTile (k j : Nat) (x : Tile) : (s.setTile k x).thread j = s.thread j := rfl
@[simp] theorem State.quad_setTile (k j : Nat) (x : Tile) : (s.setTile k x).quad j = s.quad j := rfl
@[simp] theorem State.die_setTile (k j : Nat) (x : Tile) : (s.setTile k x).die j = s.die j := rfl
@[simp] theorem State.work_setTile (k j : Nat) (x : Tile) : (s.setTile k x).work j = s.work j := rfl
@[simp] theorem State.byte_setTile (k a : Nat) (x : Tile) : (s.setTile k x).byte a = s.byte a := rfl

/-! ### State.setIsland -/

@[simp] theorem State.setIsland_mem (k : Nat) (x : Island) : (s.setIsland k x).mem = s.mem := rfl
@[simp] theorem State.setIsland_poison (k : Nat) (x : Island) : (s.setIsland k x).poison = s.poison := rfl
@[simp] theorem State.setIsland_badSec (k : Nat) (x : Island) : (s.setIsland k x).badSec = s.badSec := rfl
@[simp] theorem State.setIsland_elems (k : Nat) (x : Island) : (s.setIsland k x).elems = s.elems := rfl
@[simp] theorem State.setIsland_claims (k : Nat) (x : Island) : (s.setIsland k x).claims = s.claims := rfl
@[simp] theorem State.setIsland_flights (k : Nat) (x : Island) : (s.setIsland k x).flights = s.flights := rfl
@[simp] theorem State.setIsland_space (k : Nat) (x : Island) : (s.setIsland k x).space = s.space := rfl
@[simp] theorem State.setIsland_credits (k : Nat) (x : Island) : (s.setIsland k x).credits = s.credits := rfl
@[simp] theorem State.setIsland_tiles (k : Nat) (x : Island) : (s.setIsland k x).tiles = s.tiles := rfl
@[simp] theorem State.setIsland_threads (k : Nat) (x : Island) : (s.setIsland k x).threads = s.threads := rfl
@[simp] theorem State.setIsland_quads (k : Nat) (x : Island) : (s.setIsland k x).quads = s.quads := rfl
@[simp] theorem State.setIsland_dies (k : Nat) (x : Island) : (s.setIsland k x).dies = s.dies := rfl
@[simp] theorem State.setIsland_works (k : Nat) (x : Island) : (s.setIsland k x).works = s.works := rfl
@[simp] theorem State.setIsland_endpoints (k : Nat) (x : Island) : (s.setIsland k x).endpoints = s.endpoints := rfl
@[simp] theorem State.setIsland_jobs (k : Nat) (x : Island) : (s.setIsland k x).jobs = s.jobs := rfl
@[simp] theorem State.setIsland_shelf (k : Nat) (x : Island) : (s.setIsland k x).shelf = s.shelf := rfl
@[simp] theorem State.setIsland_ended (k : Nat) (x : Island) : (s.setIsland k x).ended = s.ended := rfl
@[simp] theorem State.setIsland_nextHandle (k : Nat) (x : Island) : (s.setIsland k x).nextHandle = s.nextHandle := rfl
@[simp] theorem State.setIsland_age (k : Nat) (x : Island) : (s.setIsland k x).age = s.age := rfl
@[simp] theorem State.setIsland_hostOut (k : Nat) (x : Island) : (s.setIsland k x).hostOut = s.hostOut := rfl
@[simp] theorem State.setIsland_hostSent (k : Nat) (x : Island) : (s.setIsland k x).hostSent = s.hostSent := rfl
@[simp] theorem State.setIsland_ptpNs (k : Nat) (x : Island) : (s.setIsland k x).ptpNs = s.ptpNs := rfl
@[simp] theorem State.setIsland_ptpLock (k : Nat) (x : Island) : (s.setIsland k x).ptpLock = s.ptpLock := rfl
@[simp] theorem State.setIsland_ptpValid (k : Nat) (x : Island) : (s.setIsland k x).ptpValid = s.ptpValid := rfl
@[simp] theorem State.setIsland_ptpReceipt (k : Nat) (x : Island) : (s.setIsland k x).ptpReceipt = s.ptpReceipt := rfl
@[simp] theorem State.setIsland_ptpDelay (k : Nat) (x : Island) : (s.setIsland k x).ptpDelay = s.ptpDelay := rfl
@[simp] theorem State.setIsland_pfc (k : Nat) (x : Island) : (s.setIsland k x).pfc = s.pfc := rfl
@[simp] theorem State.setIsland_flits (k : Nat) (x : Island) : (s.setIsland k x).flits = s.flits := rfl
@[simp] theorem State.setIsland_filters (k : Nat) (x : Island) : (s.setIsland k x).filters = s.filters := rfl
@[simp] theorem State.setIsland_links (k : Nat) (x : Island) : (s.setIsland k x).links = s.links := rfl
@[simp] theorem State.setIsland_flash (k : Nat) (x : Island) : (s.setIsland k x).flash = s.flash := rfl
@[simp] theorem State.setIsland_recovery (k : Nat) (x : Island) : (s.setIsland k x).recovery = s.recovery := rfl
@[simp] theorem State.setIsland_package (k : Nat) (x : Island) : (s.setIsland k x).package = s.package := rfl
@[simp] theorem State.setIsland_platform (k : Nat) (x : Island) : (s.setIsland k x).platform = s.platform := rfl
@[simp] theorem State.setIsland_agenda (k : Nat) (x : Island) : (s.setIsland k x).agenda = s.agenda := rfl
@[simp] theorem State.setIsland_cur (k : Nat) (x : Island) : (s.setIsland k x).cur = s.cur := rfl
@[simp] theorem State.setIsland_free (k : Nat) (x : Island) : (s.setIsland k x).free = s.free := rfl
@[simp] theorem State.elem_setIsland (k j : Nat) (x : Island) : (s.setIsland k x).elem j = s.elem j := rfl
@[simp] theorem State.claim_setIsland (k j : Nat) (x : Island) : (s.setIsland k x).claim j = s.claim j := rfl
@[simp] theorem State.tile_setIsland (k j : Nat) (x : Island) : (s.setIsland k x).tile j = s.tile j := rfl
theorem State.island_setIsland (k j : Nat) (x : Island) : (s.setIsland k x).island j = if k = j then x else s.island j := SMap.get_set _ _ _ _ _
@[simp] theorem State.island_setIsland_self (k : Nat) (x : Island) : (s.setIsland k x).island k = x := SMap.get_set_self _ _ _ _
theorem State.island_setIsland_ne {k j : Nat} (x : Island) (h : k ≠ j) : (s.setIsland k x).island j = s.island j := SMap.get_set_of_ne _ _ _ h
@[simp] theorem State.thread_setIsland (k j : Nat) (x : Island) : (s.setIsland k x).thread j = s.thread j := rfl
@[simp] theorem State.quad_setIsland (k j : Nat) (x : Island) : (s.setIsland k x).quad j = s.quad j := rfl
@[simp] theorem State.die_setIsland (k j : Nat) (x : Island) : (s.setIsland k x).die j = s.die j := rfl
@[simp] theorem State.work_setIsland (k j : Nat) (x : Island) : (s.setIsland k x).work j = s.work j := rfl
@[simp] theorem State.byte_setIsland (k a : Nat) (x : Island) : (s.setIsland k x).byte a = s.byte a := rfl

/-! ### State.setThread -/

@[simp] theorem State.setThread_mem (k : Nat) (x : Thread) : (s.setThread k x).mem = s.mem := rfl
@[simp] theorem State.setThread_poison (k : Nat) (x : Thread) : (s.setThread k x).poison = s.poison := rfl
@[simp] theorem State.setThread_badSec (k : Nat) (x : Thread) : (s.setThread k x).badSec = s.badSec := rfl
@[simp] theorem State.setThread_elems (k : Nat) (x : Thread) : (s.setThread k x).elems = s.elems := rfl
@[simp] theorem State.setThread_claims (k : Nat) (x : Thread) : (s.setThread k x).claims = s.claims := rfl
@[simp] theorem State.setThread_flights (k : Nat) (x : Thread) : (s.setThread k x).flights = s.flights := rfl
@[simp] theorem State.setThread_space (k : Nat) (x : Thread) : (s.setThread k x).space = s.space := rfl
@[simp] theorem State.setThread_credits (k : Nat) (x : Thread) : (s.setThread k x).credits = s.credits := rfl
@[simp] theorem State.setThread_tiles (k : Nat) (x : Thread) : (s.setThread k x).tiles = s.tiles := rfl
@[simp] theorem State.setThread_islands (k : Nat) (x : Thread) : (s.setThread k x).islands = s.islands := rfl
@[simp] theorem State.setThread_quads (k : Nat) (x : Thread) : (s.setThread k x).quads = s.quads := rfl
@[simp] theorem State.setThread_dies (k : Nat) (x : Thread) : (s.setThread k x).dies = s.dies := rfl
@[simp] theorem State.setThread_works (k : Nat) (x : Thread) : (s.setThread k x).works = s.works := rfl
@[simp] theorem State.setThread_endpoints (k : Nat) (x : Thread) : (s.setThread k x).endpoints = s.endpoints := rfl
@[simp] theorem State.setThread_jobs (k : Nat) (x : Thread) : (s.setThread k x).jobs = s.jobs := rfl
@[simp] theorem State.setThread_shelf (k : Nat) (x : Thread) : (s.setThread k x).shelf = s.shelf := rfl
@[simp] theorem State.setThread_ended (k : Nat) (x : Thread) : (s.setThread k x).ended = s.ended := rfl
@[simp] theorem State.setThread_nextHandle (k : Nat) (x : Thread) : (s.setThread k x).nextHandle = s.nextHandle := rfl
@[simp] theorem State.setThread_age (k : Nat) (x : Thread) : (s.setThread k x).age = s.age := rfl
@[simp] theorem State.setThread_hostOut (k : Nat) (x : Thread) : (s.setThread k x).hostOut = s.hostOut := rfl
@[simp] theorem State.setThread_hostSent (k : Nat) (x : Thread) : (s.setThread k x).hostSent = s.hostSent := rfl
@[simp] theorem State.setThread_ptpNs (k : Nat) (x : Thread) : (s.setThread k x).ptpNs = s.ptpNs := rfl
@[simp] theorem State.setThread_ptpLock (k : Nat) (x : Thread) : (s.setThread k x).ptpLock = s.ptpLock := rfl
@[simp] theorem State.setThread_ptpValid (k : Nat) (x : Thread) : (s.setThread k x).ptpValid = s.ptpValid := rfl
@[simp] theorem State.setThread_ptpReceipt (k : Nat) (x : Thread) : (s.setThread k x).ptpReceipt = s.ptpReceipt := rfl
@[simp] theorem State.setThread_ptpDelay (k : Nat) (x : Thread) : (s.setThread k x).ptpDelay = s.ptpDelay := rfl
@[simp] theorem State.setThread_pfc (k : Nat) (x : Thread) : (s.setThread k x).pfc = s.pfc := rfl
@[simp] theorem State.setThread_flits (k : Nat) (x : Thread) : (s.setThread k x).flits = s.flits := rfl
@[simp] theorem State.setThread_filters (k : Nat) (x : Thread) : (s.setThread k x).filters = s.filters := rfl
@[simp] theorem State.setThread_links (k : Nat) (x : Thread) : (s.setThread k x).links = s.links := rfl
@[simp] theorem State.setThread_flash (k : Nat) (x : Thread) : (s.setThread k x).flash = s.flash := rfl
@[simp] theorem State.setThread_recovery (k : Nat) (x : Thread) : (s.setThread k x).recovery = s.recovery := rfl
@[simp] theorem State.setThread_package (k : Nat) (x : Thread) : (s.setThread k x).package = s.package := rfl
@[simp] theorem State.setThread_platform (k : Nat) (x : Thread) : (s.setThread k x).platform = s.platform := rfl
@[simp] theorem State.setThread_agenda (k : Nat) (x : Thread) : (s.setThread k x).agenda = s.agenda := rfl
@[simp] theorem State.setThread_cur (k : Nat) (x : Thread) : (s.setThread k x).cur = s.cur := rfl
@[simp] theorem State.setThread_free (k : Nat) (x : Thread) : (s.setThread k x).free = s.free := rfl
@[simp] theorem State.elem_setThread (k j : Nat) (x : Thread) : (s.setThread k x).elem j = s.elem j := rfl
@[simp] theorem State.claim_setThread (k j : Nat) (x : Thread) : (s.setThread k x).claim j = s.claim j := rfl
@[simp] theorem State.tile_setThread (k j : Nat) (x : Thread) : (s.setThread k x).tile j = s.tile j := rfl
@[simp] theorem State.island_setThread (k j : Nat) (x : Thread) : (s.setThread k x).island j = s.island j := rfl
theorem State.thread_setThread (k j : Nat) (x : Thread) : (s.setThread k x).thread j = if k = j then x else s.thread j := SMap.get_set _ _ _ _ _
@[simp] theorem State.thread_setThread_self (k : Nat) (x : Thread) : (s.setThread k x).thread k = x := SMap.get_set_self _ _ _ _
theorem State.thread_setThread_ne {k j : Nat} (x : Thread) (h : k ≠ j) : (s.setThread k x).thread j = s.thread j := SMap.get_set_of_ne _ _ _ h
@[simp] theorem State.quad_setThread (k j : Nat) (x : Thread) : (s.setThread k x).quad j = s.quad j := rfl
@[simp] theorem State.die_setThread (k j : Nat) (x : Thread) : (s.setThread k x).die j = s.die j := rfl
@[simp] theorem State.work_setThread (k j : Nat) (x : Thread) : (s.setThread k x).work j = s.work j := rfl
@[simp] theorem State.byte_setThread (k a : Nat) (x : Thread) : (s.setThread k x).byte a = s.byte a := rfl

/-! ### State.setQuad -/

@[simp] theorem State.setQuad_mem (k : Nat) (x : Quad) : (s.setQuad k x).mem = s.mem := rfl
@[simp] theorem State.setQuad_poison (k : Nat) (x : Quad) : (s.setQuad k x).poison = s.poison := rfl
@[simp] theorem State.setQuad_badSec (k : Nat) (x : Quad) : (s.setQuad k x).badSec = s.badSec := rfl
@[simp] theorem State.setQuad_elems (k : Nat) (x : Quad) : (s.setQuad k x).elems = s.elems := rfl
@[simp] theorem State.setQuad_claims (k : Nat) (x : Quad) : (s.setQuad k x).claims = s.claims := rfl
@[simp] theorem State.setQuad_flights (k : Nat) (x : Quad) : (s.setQuad k x).flights = s.flights := rfl
@[simp] theorem State.setQuad_space (k : Nat) (x : Quad) : (s.setQuad k x).space = s.space := rfl
@[simp] theorem State.setQuad_credits (k : Nat) (x : Quad) : (s.setQuad k x).credits = s.credits := rfl
@[simp] theorem State.setQuad_tiles (k : Nat) (x : Quad) : (s.setQuad k x).tiles = s.tiles := rfl
@[simp] theorem State.setQuad_islands (k : Nat) (x : Quad) : (s.setQuad k x).islands = s.islands := rfl
@[simp] theorem State.setQuad_threads (k : Nat) (x : Quad) : (s.setQuad k x).threads = s.threads := rfl
@[simp] theorem State.setQuad_dies (k : Nat) (x : Quad) : (s.setQuad k x).dies = s.dies := rfl
@[simp] theorem State.setQuad_works (k : Nat) (x : Quad) : (s.setQuad k x).works = s.works := rfl
@[simp] theorem State.setQuad_endpoints (k : Nat) (x : Quad) : (s.setQuad k x).endpoints = s.endpoints := rfl
@[simp] theorem State.setQuad_jobs (k : Nat) (x : Quad) : (s.setQuad k x).jobs = s.jobs := rfl
@[simp] theorem State.setQuad_shelf (k : Nat) (x : Quad) : (s.setQuad k x).shelf = s.shelf := rfl
@[simp] theorem State.setQuad_ended (k : Nat) (x : Quad) : (s.setQuad k x).ended = s.ended := rfl
@[simp] theorem State.setQuad_nextHandle (k : Nat) (x : Quad) : (s.setQuad k x).nextHandle = s.nextHandle := rfl
@[simp] theorem State.setQuad_age (k : Nat) (x : Quad) : (s.setQuad k x).age = s.age := rfl
@[simp] theorem State.setQuad_hostOut (k : Nat) (x : Quad) : (s.setQuad k x).hostOut = s.hostOut := rfl
@[simp] theorem State.setQuad_hostSent (k : Nat) (x : Quad) : (s.setQuad k x).hostSent = s.hostSent := rfl
@[simp] theorem State.setQuad_ptpNs (k : Nat) (x : Quad) : (s.setQuad k x).ptpNs = s.ptpNs := rfl
@[simp] theorem State.setQuad_ptpLock (k : Nat) (x : Quad) : (s.setQuad k x).ptpLock = s.ptpLock := rfl
@[simp] theorem State.setQuad_ptpValid (k : Nat) (x : Quad) : (s.setQuad k x).ptpValid = s.ptpValid := rfl
@[simp] theorem State.setQuad_ptpReceipt (k : Nat) (x : Quad) : (s.setQuad k x).ptpReceipt = s.ptpReceipt := rfl
@[simp] theorem State.setQuad_ptpDelay (k : Nat) (x : Quad) : (s.setQuad k x).ptpDelay = s.ptpDelay := rfl
@[simp] theorem State.setQuad_pfc (k : Nat) (x : Quad) : (s.setQuad k x).pfc = s.pfc := rfl
@[simp] theorem State.setQuad_flits (k : Nat) (x : Quad) : (s.setQuad k x).flits = s.flits := rfl
@[simp] theorem State.setQuad_filters (k : Nat) (x : Quad) : (s.setQuad k x).filters = s.filters := rfl
@[simp] theorem State.setQuad_links (k : Nat) (x : Quad) : (s.setQuad k x).links = s.links := rfl
@[simp] theorem State.setQuad_flash (k : Nat) (x : Quad) : (s.setQuad k x).flash = s.flash := rfl
@[simp] theorem State.setQuad_recovery (k : Nat) (x : Quad) : (s.setQuad k x).recovery = s.recovery := rfl
@[simp] theorem State.setQuad_package (k : Nat) (x : Quad) : (s.setQuad k x).package = s.package := rfl
@[simp] theorem State.setQuad_platform (k : Nat) (x : Quad) : (s.setQuad k x).platform = s.platform := rfl
@[simp] theorem State.setQuad_agenda (k : Nat) (x : Quad) : (s.setQuad k x).agenda = s.agenda := rfl
@[simp] theorem State.setQuad_cur (k : Nat) (x : Quad) : (s.setQuad k x).cur = s.cur := rfl
@[simp] theorem State.setQuad_free (k : Nat) (x : Quad) : (s.setQuad k x).free = s.free := rfl
@[simp] theorem State.elem_setQuad (k j : Nat) (x : Quad) : (s.setQuad k x).elem j = s.elem j := rfl
@[simp] theorem State.claim_setQuad (k j : Nat) (x : Quad) : (s.setQuad k x).claim j = s.claim j := rfl
@[simp] theorem State.tile_setQuad (k j : Nat) (x : Quad) : (s.setQuad k x).tile j = s.tile j := rfl
@[simp] theorem State.island_setQuad (k j : Nat) (x : Quad) : (s.setQuad k x).island j = s.island j := rfl
@[simp] theorem State.thread_setQuad (k j : Nat) (x : Quad) : (s.setQuad k x).thread j = s.thread j := rfl
theorem State.quad_setQuad (k j : Nat) (x : Quad) : (s.setQuad k x).quad j = if k = j then x else s.quad j := SMap.get_set _ _ _ _ _
@[simp] theorem State.quad_setQuad_self (k : Nat) (x : Quad) : (s.setQuad k x).quad k = x := SMap.get_set_self _ _ _ _
theorem State.quad_setQuad_ne {k j : Nat} (x : Quad) (h : k ≠ j) : (s.setQuad k x).quad j = s.quad j := SMap.get_set_of_ne _ _ _ h
@[simp] theorem State.die_setQuad (k j : Nat) (x : Quad) : (s.setQuad k x).die j = s.die j := rfl
@[simp] theorem State.work_setQuad (k j : Nat) (x : Quad) : (s.setQuad k x).work j = s.work j := rfl
@[simp] theorem State.byte_setQuad (k a : Nat) (x : Quad) : (s.setQuad k x).byte a = s.byte a := rfl

/-! ### State.setDie -/

@[simp] theorem State.setDie_mem (k : Nat) (x : Die) : (s.setDie k x).mem = s.mem := rfl
@[simp] theorem State.setDie_poison (k : Nat) (x : Die) : (s.setDie k x).poison = s.poison := rfl
@[simp] theorem State.setDie_badSec (k : Nat) (x : Die) : (s.setDie k x).badSec = s.badSec := rfl
@[simp] theorem State.setDie_elems (k : Nat) (x : Die) : (s.setDie k x).elems = s.elems := rfl
@[simp] theorem State.setDie_claims (k : Nat) (x : Die) : (s.setDie k x).claims = s.claims := rfl
@[simp] theorem State.setDie_flights (k : Nat) (x : Die) : (s.setDie k x).flights = s.flights := rfl
@[simp] theorem State.setDie_space (k : Nat) (x : Die) : (s.setDie k x).space = s.space := rfl
@[simp] theorem State.setDie_credits (k : Nat) (x : Die) : (s.setDie k x).credits = s.credits := rfl
@[simp] theorem State.setDie_tiles (k : Nat) (x : Die) : (s.setDie k x).tiles = s.tiles := rfl
@[simp] theorem State.setDie_islands (k : Nat) (x : Die) : (s.setDie k x).islands = s.islands := rfl
@[simp] theorem State.setDie_threads (k : Nat) (x : Die) : (s.setDie k x).threads = s.threads := rfl
@[simp] theorem State.setDie_quads (k : Nat) (x : Die) : (s.setDie k x).quads = s.quads := rfl
@[simp] theorem State.setDie_works (k : Nat) (x : Die) : (s.setDie k x).works = s.works := rfl
@[simp] theorem State.setDie_endpoints (k : Nat) (x : Die) : (s.setDie k x).endpoints = s.endpoints := rfl
@[simp] theorem State.setDie_jobs (k : Nat) (x : Die) : (s.setDie k x).jobs = s.jobs := rfl
@[simp] theorem State.setDie_shelf (k : Nat) (x : Die) : (s.setDie k x).shelf = s.shelf := rfl
@[simp] theorem State.setDie_ended (k : Nat) (x : Die) : (s.setDie k x).ended = s.ended := rfl
@[simp] theorem State.setDie_nextHandle (k : Nat) (x : Die) : (s.setDie k x).nextHandle = s.nextHandle := rfl
@[simp] theorem State.setDie_age (k : Nat) (x : Die) : (s.setDie k x).age = s.age := rfl
@[simp] theorem State.setDie_hostOut (k : Nat) (x : Die) : (s.setDie k x).hostOut = s.hostOut := rfl
@[simp] theorem State.setDie_hostSent (k : Nat) (x : Die) : (s.setDie k x).hostSent = s.hostSent := rfl
@[simp] theorem State.setDie_ptpNs (k : Nat) (x : Die) : (s.setDie k x).ptpNs = s.ptpNs := rfl
@[simp] theorem State.setDie_ptpLock (k : Nat) (x : Die) : (s.setDie k x).ptpLock = s.ptpLock := rfl
@[simp] theorem State.setDie_ptpValid (k : Nat) (x : Die) : (s.setDie k x).ptpValid = s.ptpValid := rfl
@[simp] theorem State.setDie_ptpReceipt (k : Nat) (x : Die) : (s.setDie k x).ptpReceipt = s.ptpReceipt := rfl
@[simp] theorem State.setDie_ptpDelay (k : Nat) (x : Die) : (s.setDie k x).ptpDelay = s.ptpDelay := rfl
@[simp] theorem State.setDie_pfc (k : Nat) (x : Die) : (s.setDie k x).pfc = s.pfc := rfl
@[simp] theorem State.setDie_flits (k : Nat) (x : Die) : (s.setDie k x).flits = s.flits := rfl
@[simp] theorem State.setDie_filters (k : Nat) (x : Die) : (s.setDie k x).filters = s.filters := rfl
@[simp] theorem State.setDie_links (k : Nat) (x : Die) : (s.setDie k x).links = s.links := rfl
@[simp] theorem State.setDie_flash (k : Nat) (x : Die) : (s.setDie k x).flash = s.flash := rfl
@[simp] theorem State.setDie_recovery (k : Nat) (x : Die) : (s.setDie k x).recovery = s.recovery := rfl
@[simp] theorem State.setDie_package (k : Nat) (x : Die) : (s.setDie k x).package = s.package := rfl
@[simp] theorem State.setDie_platform (k : Nat) (x : Die) : (s.setDie k x).platform = s.platform := rfl
@[simp] theorem State.setDie_agenda (k : Nat) (x : Die) : (s.setDie k x).agenda = s.agenda := rfl
@[simp] theorem State.setDie_cur (k : Nat) (x : Die) : (s.setDie k x).cur = s.cur := rfl
@[simp] theorem State.setDie_free (k : Nat) (x : Die) : (s.setDie k x).free = s.free := rfl
@[simp] theorem State.elem_setDie (k j : Nat) (x : Die) : (s.setDie k x).elem j = s.elem j := rfl
@[simp] theorem State.claim_setDie (k j : Nat) (x : Die) : (s.setDie k x).claim j = s.claim j := rfl
@[simp] theorem State.tile_setDie (k j : Nat) (x : Die) : (s.setDie k x).tile j = s.tile j := rfl
@[simp] theorem State.island_setDie (k j : Nat) (x : Die) : (s.setDie k x).island j = s.island j := rfl
@[simp] theorem State.thread_setDie (k j : Nat) (x : Die) : (s.setDie k x).thread j = s.thread j := rfl
@[simp] theorem State.quad_setDie (k j : Nat) (x : Die) : (s.setDie k x).quad j = s.quad j := rfl
theorem State.die_setDie (k j : Nat) (x : Die) : (s.setDie k x).die j = if k = j then x else s.die j := SMap.get_set _ _ _ _ _
@[simp] theorem State.die_setDie_self (k : Nat) (x : Die) : (s.setDie k x).die k = x := SMap.get_set_self _ _ _ _
theorem State.die_setDie_ne {k j : Nat} (x : Die) (h : k ≠ j) : (s.setDie k x).die j = s.die j := SMap.get_set_of_ne _ _ _ h
@[simp] theorem State.work_setDie (k j : Nat) (x : Die) : (s.setDie k x).work j = s.work j := rfl
@[simp] theorem State.byte_setDie (k a : Nat) (x : Die) : (s.setDie k x).byte a = s.byte a := rfl

/-! ### State.setWork -/

@[simp] theorem State.setWork_mem (k : Nat) (x : Working) : (s.setWork k x).mem = s.mem := rfl
@[simp] theorem State.setWork_poison (k : Nat) (x : Working) : (s.setWork k x).poison = s.poison := rfl
@[simp] theorem State.setWork_badSec (k : Nat) (x : Working) : (s.setWork k x).badSec = s.badSec := rfl
@[simp] theorem State.setWork_elems (k : Nat) (x : Working) : (s.setWork k x).elems = s.elems := rfl
@[simp] theorem State.setWork_claims (k : Nat) (x : Working) : (s.setWork k x).claims = s.claims := rfl
@[simp] theorem State.setWork_flights (k : Nat) (x : Working) : (s.setWork k x).flights = s.flights := rfl
@[simp] theorem State.setWork_space (k : Nat) (x : Working) : (s.setWork k x).space = s.space := rfl
@[simp] theorem State.setWork_credits (k : Nat) (x : Working) : (s.setWork k x).credits = s.credits := rfl
@[simp] theorem State.setWork_tiles (k : Nat) (x : Working) : (s.setWork k x).tiles = s.tiles := rfl
@[simp] theorem State.setWork_islands (k : Nat) (x : Working) : (s.setWork k x).islands = s.islands := rfl
@[simp] theorem State.setWork_threads (k : Nat) (x : Working) : (s.setWork k x).threads = s.threads := rfl
@[simp] theorem State.setWork_quads (k : Nat) (x : Working) : (s.setWork k x).quads = s.quads := rfl
@[simp] theorem State.setWork_dies (k : Nat) (x : Working) : (s.setWork k x).dies = s.dies := rfl
@[simp] theorem State.setWork_endpoints (k : Nat) (x : Working) : (s.setWork k x).endpoints = s.endpoints := rfl
@[simp] theorem State.setWork_jobs (k : Nat) (x : Working) : (s.setWork k x).jobs = s.jobs := rfl
@[simp] theorem State.setWork_shelf (k : Nat) (x : Working) : (s.setWork k x).shelf = s.shelf := rfl
@[simp] theorem State.setWork_ended (k : Nat) (x : Working) : (s.setWork k x).ended = s.ended := rfl
@[simp] theorem State.setWork_nextHandle (k : Nat) (x : Working) : (s.setWork k x).nextHandle = s.nextHandle := rfl
@[simp] theorem State.setWork_age (k : Nat) (x : Working) : (s.setWork k x).age = s.age := rfl
@[simp] theorem State.setWork_hostOut (k : Nat) (x : Working) : (s.setWork k x).hostOut = s.hostOut := rfl
@[simp] theorem State.setWork_hostSent (k : Nat) (x : Working) : (s.setWork k x).hostSent = s.hostSent := rfl
@[simp] theorem State.setWork_ptpNs (k : Nat) (x : Working) : (s.setWork k x).ptpNs = s.ptpNs := rfl
@[simp] theorem State.setWork_ptpLock (k : Nat) (x : Working) : (s.setWork k x).ptpLock = s.ptpLock := rfl
@[simp] theorem State.setWork_ptpValid (k : Nat) (x : Working) : (s.setWork k x).ptpValid = s.ptpValid := rfl
@[simp] theorem State.setWork_ptpReceipt (k : Nat) (x : Working) : (s.setWork k x).ptpReceipt = s.ptpReceipt := rfl
@[simp] theorem State.setWork_ptpDelay (k : Nat) (x : Working) : (s.setWork k x).ptpDelay = s.ptpDelay := rfl
@[simp] theorem State.setWork_pfc (k : Nat) (x : Working) : (s.setWork k x).pfc = s.pfc := rfl
@[simp] theorem State.setWork_flits (k : Nat) (x : Working) : (s.setWork k x).flits = s.flits := rfl
@[simp] theorem State.setWork_filters (k : Nat) (x : Working) : (s.setWork k x).filters = s.filters := rfl
@[simp] theorem State.setWork_links (k : Nat) (x : Working) : (s.setWork k x).links = s.links := rfl
@[simp] theorem State.setWork_flash (k : Nat) (x : Working) : (s.setWork k x).flash = s.flash := rfl
@[simp] theorem State.setWork_recovery (k : Nat) (x : Working) : (s.setWork k x).recovery = s.recovery := rfl
@[simp] theorem State.setWork_package (k : Nat) (x : Working) : (s.setWork k x).package = s.package := rfl
@[simp] theorem State.setWork_platform (k : Nat) (x : Working) : (s.setWork k x).platform = s.platform := rfl
@[simp] theorem State.setWork_agenda (k : Nat) (x : Working) : (s.setWork k x).agenda = s.agenda := rfl
@[simp] theorem State.setWork_cur (k : Nat) (x : Working) : (s.setWork k x).cur = s.cur := rfl
@[simp] theorem State.setWork_free (k : Nat) (x : Working) : (s.setWork k x).free = s.free := rfl
@[simp] theorem State.elem_setWork (k j : Nat) (x : Working) : (s.setWork k x).elem j = s.elem j := rfl
@[simp] theorem State.claim_setWork (k j : Nat) (x : Working) : (s.setWork k x).claim j = s.claim j := rfl
@[simp] theorem State.tile_setWork (k j : Nat) (x : Working) : (s.setWork k x).tile j = s.tile j := rfl
@[simp] theorem State.island_setWork (k j : Nat) (x : Working) : (s.setWork k x).island j = s.island j := rfl
@[simp] theorem State.thread_setWork (k j : Nat) (x : Working) : (s.setWork k x).thread j = s.thread j := rfl
@[simp] theorem State.quad_setWork (k j : Nat) (x : Working) : (s.setWork k x).quad j = s.quad j := rfl
@[simp] theorem State.die_setWork (k j : Nat) (x : Working) : (s.setWork k x).die j = s.die j := rfl
theorem State.work_setWork (k j : Nat) (x : Working) : (s.setWork k x).work j = if k = j then x else s.work j := SMap.get_set _ _ _ _ _
@[simp] theorem State.work_setWork_self (k : Nat) (x : Working) : (s.setWork k x).work k = x := SMap.get_set_self _ _ _ _
theorem State.work_setWork_ne {k j : Nat} (x : Working) (h : k ≠ j) : (s.setWork k x).work j = s.work j := SMap.get_set_of_ne _ _ _ h
@[simp] theorem State.byte_setWork (k a : Nat) (x : Working) : (s.setWork k x).byte a = s.byte a := rfl

/-! ### State.setSpace -/

@[simp] theorem State.setSpace_mem (k n : Nat) : (s.setSpace k n).mem = s.mem := rfl
@[simp] theorem State.setSpace_poison (k n : Nat) : (s.setSpace k n).poison = s.poison := rfl
@[simp] theorem State.setSpace_badSec (k n : Nat) : (s.setSpace k n).badSec = s.badSec := rfl
@[simp] theorem State.setSpace_elems (k n : Nat) : (s.setSpace k n).elems = s.elems := rfl
@[simp] theorem State.setSpace_claims (k n : Nat) : (s.setSpace k n).claims = s.claims := rfl
@[simp] theorem State.setSpace_flights (k n : Nat) : (s.setSpace k n).flights = s.flights := rfl
@[simp] theorem State.setSpace_credits (k n : Nat) : (s.setSpace k n).credits = s.credits := rfl
@[simp] theorem State.setSpace_tiles (k n : Nat) : (s.setSpace k n).tiles = s.tiles := rfl
@[simp] theorem State.setSpace_islands (k n : Nat) : (s.setSpace k n).islands = s.islands := rfl
@[simp] theorem State.setSpace_threads (k n : Nat) : (s.setSpace k n).threads = s.threads := rfl
@[simp] theorem State.setSpace_quads (k n : Nat) : (s.setSpace k n).quads = s.quads := rfl
@[simp] theorem State.setSpace_dies (k n : Nat) : (s.setSpace k n).dies = s.dies := rfl
@[simp] theorem State.setSpace_works (k n : Nat) : (s.setSpace k n).works = s.works := rfl
@[simp] theorem State.setSpace_endpoints (k n : Nat) : (s.setSpace k n).endpoints = s.endpoints := rfl
@[simp] theorem State.setSpace_jobs (k n : Nat) : (s.setSpace k n).jobs = s.jobs := rfl
@[simp] theorem State.setSpace_shelf (k n : Nat) : (s.setSpace k n).shelf = s.shelf := rfl
@[simp] theorem State.setSpace_ended (k n : Nat) : (s.setSpace k n).ended = s.ended := rfl
@[simp] theorem State.setSpace_nextHandle (k n : Nat) : (s.setSpace k n).nextHandle = s.nextHandle := rfl
@[simp] theorem State.setSpace_age (k n : Nat) : (s.setSpace k n).age = s.age := rfl
@[simp] theorem State.setSpace_hostOut (k n : Nat) : (s.setSpace k n).hostOut = s.hostOut := rfl
@[simp] theorem State.setSpace_hostSent (k n : Nat) : (s.setSpace k n).hostSent = s.hostSent := rfl
@[simp] theorem State.setSpace_ptpNs (k n : Nat) : (s.setSpace k n).ptpNs = s.ptpNs := rfl
@[simp] theorem State.setSpace_ptpLock (k n : Nat) : (s.setSpace k n).ptpLock = s.ptpLock := rfl
@[simp] theorem State.setSpace_ptpValid (k n : Nat) : (s.setSpace k n).ptpValid = s.ptpValid := rfl
@[simp] theorem State.setSpace_ptpReceipt (k n : Nat) : (s.setSpace k n).ptpReceipt = s.ptpReceipt := rfl
@[simp] theorem State.setSpace_ptpDelay (k n : Nat) : (s.setSpace k n).ptpDelay = s.ptpDelay := rfl
@[simp] theorem State.setSpace_pfc (k n : Nat) : (s.setSpace k n).pfc = s.pfc := rfl
@[simp] theorem State.setSpace_flits (k n : Nat) : (s.setSpace k n).flits = s.flits := rfl
@[simp] theorem State.setSpace_filters (k n : Nat) : (s.setSpace k n).filters = s.filters := rfl
@[simp] theorem State.setSpace_links (k n : Nat) : (s.setSpace k n).links = s.links := rfl
@[simp] theorem State.setSpace_flash (k n : Nat) : (s.setSpace k n).flash = s.flash := rfl
@[simp] theorem State.setSpace_recovery (k n : Nat) : (s.setSpace k n).recovery = s.recovery := rfl
@[simp] theorem State.setSpace_package (k n : Nat) : (s.setSpace k n).package = s.package := rfl
@[simp] theorem State.setSpace_platform (k n : Nat) : (s.setSpace k n).platform = s.platform := rfl
@[simp] theorem State.setSpace_agenda (k n : Nat) : (s.setSpace k n).agenda = s.agenda := rfl
@[simp] theorem State.setSpace_cur (k n : Nat) : (s.setSpace k n).cur = s.cur := rfl
@[simp] theorem State.setSpace_free (k n : Nat) : (s.setSpace k n).free = s.free := rfl
@[simp] theorem State.elem_setSpace (k j n : Nat) : (s.setSpace k n).elem j = s.elem j := rfl
@[simp] theorem State.claim_setSpace (k j n : Nat) : (s.setSpace k n).claim j = s.claim j := rfl
@[simp] theorem State.tile_setSpace (k j n : Nat) : (s.setSpace k n).tile j = s.tile j := rfl
@[simp] theorem State.island_setSpace (k j n : Nat) : (s.setSpace k n).island j = s.island j := rfl
@[simp] theorem State.thread_setSpace (k j n : Nat) : (s.setSpace k n).thread j = s.thread j := rfl
@[simp] theorem State.quad_setSpace (k j n : Nat) : (s.setSpace k n).quad j = s.quad j := rfl
@[simp] theorem State.die_setSpace (k j n : Nat) : (s.setSpace k n).die j = s.die j := rfl
@[simp] theorem State.work_setSpace (k j n : Nat) : (s.setSpace k n).work j = s.work j := rfl
theorem State.spaceOf_setSpace (k j n : Nat) : (s.setSpace k n).spaceOf j = if k = j then n else s.spaceOf j := SMap.get_set _ _ _ _ _
@[simp] theorem State.byte_setSpace (k a n : Nat) : (s.setSpace k n).byte a = s.byte a := rfl

/-! ### State.setByte and State.setBytes -/

@[simp] theorem State.setByte_poison (a : Nat) (b : Byte) : (s.setByte a b).poison = s.poison := rfl
@[simp] theorem State.setByte_badSec (a : Nat) (b : Byte) : (s.setByte a b).badSec = s.badSec := rfl
@[simp] theorem State.setByte_elems (a : Nat) (b : Byte) : (s.setByte a b).elems = s.elems := rfl
@[simp] theorem State.setByte_claims (a : Nat) (b : Byte) : (s.setByte a b).claims = s.claims := rfl
@[simp] theorem State.setByte_flights (a : Nat) (b : Byte) : (s.setByte a b).flights = s.flights := rfl
@[simp] theorem State.setByte_space (a : Nat) (b : Byte) : (s.setByte a b).space = s.space := rfl
@[simp] theorem State.setByte_credits (a : Nat) (b : Byte) : (s.setByte a b).credits = s.credits := rfl
@[simp] theorem State.setByte_tiles (a : Nat) (b : Byte) : (s.setByte a b).tiles = s.tiles := rfl
@[simp] theorem State.setByte_islands (a : Nat) (b : Byte) : (s.setByte a b).islands = s.islands := rfl
@[simp] theorem State.setByte_threads (a : Nat) (b : Byte) : (s.setByte a b).threads = s.threads := rfl
@[simp] theorem State.setByte_quads (a : Nat) (b : Byte) : (s.setByte a b).quads = s.quads := rfl
@[simp] theorem State.setByte_dies (a : Nat) (b : Byte) : (s.setByte a b).dies = s.dies := rfl
@[simp] theorem State.setByte_works (a : Nat) (b : Byte) : (s.setByte a b).works = s.works := rfl
@[simp] theorem State.setByte_endpoints (a : Nat) (b : Byte) : (s.setByte a b).endpoints = s.endpoints := rfl
@[simp] theorem State.setByte_jobs (a : Nat) (b : Byte) : (s.setByte a b).jobs = s.jobs := rfl
@[simp] theorem State.setByte_shelf (a : Nat) (b : Byte) : (s.setByte a b).shelf = s.shelf := rfl
@[simp] theorem State.setByte_ended (a : Nat) (b : Byte) : (s.setByte a b).ended = s.ended := rfl
@[simp] theorem State.setByte_nextHandle (a : Nat) (b : Byte) : (s.setByte a b).nextHandle = s.nextHandle := rfl
@[simp] theorem State.setByte_age (a : Nat) (b : Byte) : (s.setByte a b).age = s.age := rfl
@[simp] theorem State.setByte_hostOut (a : Nat) (b : Byte) : (s.setByte a b).hostOut = s.hostOut := rfl
@[simp] theorem State.setByte_hostSent (a : Nat) (b : Byte) : (s.setByte a b).hostSent = s.hostSent := rfl
@[simp] theorem State.setByte_ptpNs (a : Nat) (b : Byte) : (s.setByte a b).ptpNs = s.ptpNs := rfl
@[simp] theorem State.setByte_ptpLock (a : Nat) (b : Byte) : (s.setByte a b).ptpLock = s.ptpLock := rfl
@[simp] theorem State.setByte_ptpValid (a : Nat) (b : Byte) : (s.setByte a b).ptpValid = s.ptpValid := rfl
@[simp] theorem State.setByte_ptpReceipt (a : Nat) (b : Byte) : (s.setByte a b).ptpReceipt = s.ptpReceipt := rfl
@[simp] theorem State.setByte_ptpDelay (a : Nat) (b : Byte) : (s.setByte a b).ptpDelay = s.ptpDelay := rfl
@[simp] theorem State.setByte_pfc (a : Nat) (b : Byte) : (s.setByte a b).pfc = s.pfc := rfl
@[simp] theorem State.setByte_flits (a : Nat) (b : Byte) : (s.setByte a b).flits = s.flits := rfl
@[simp] theorem State.setByte_filters (a : Nat) (b : Byte) : (s.setByte a b).filters = s.filters := rfl
@[simp] theorem State.setByte_links (a : Nat) (b : Byte) : (s.setByte a b).links = s.links := rfl
@[simp] theorem State.setByte_flash (a : Nat) (b : Byte) : (s.setByte a b).flash = s.flash := rfl
@[simp] theorem State.setByte_recovery (a : Nat) (b : Byte) : (s.setByte a b).recovery = s.recovery := rfl
@[simp] theorem State.setByte_package (a : Nat) (b : Byte) : (s.setByte a b).package = s.package := rfl
@[simp] theorem State.setByte_platform (a : Nat) (b : Byte) : (s.setByte a b).platform = s.platform := rfl
@[simp] theorem State.setByte_agenda (a : Nat) (b : Byte) : (s.setByte a b).agenda = s.agenda := rfl
@[simp] theorem State.setByte_cur (a : Nat) (b : Byte) : (s.setByte a b).cur = s.cur := rfl
@[simp] theorem State.setByte_free (a : Nat) (b : Byte) : (s.setByte a b).free = s.free := rfl
@[simp] theorem State.elem_setByte (k a : Nat) (b : Byte) : (s.setByte a b).elem k = s.elem k := rfl
@[simp] theorem State.claim_setByte (k a : Nat) (b : Byte) : (s.setByte a b).claim k = s.claim k := rfl
@[simp] theorem State.tile_setByte (k a : Nat) (b : Byte) : (s.setByte a b).tile k = s.tile k := rfl
@[simp] theorem State.island_setByte (k a : Nat) (b : Byte) : (s.setByte a b).island k = s.island k := rfl
@[simp] theorem State.thread_setByte (k a : Nat) (b : Byte) : (s.setByte a b).thread k = s.thread k := rfl
@[simp] theorem State.quad_setByte (k a : Nat) (b : Byte) : (s.setByte a b).quad k = s.quad k := rfl
@[simp] theorem State.die_setByte (k a : Nat) (b : Byte) : (s.setByte a b).die k = s.die k := rfl
@[simp] theorem State.work_setByte (k a : Nat) (b : Byte) : (s.setByte a b).work k = s.work k := rfl
theorem State.byte_setByte (a j : Nat) (b : Byte) : (s.setByte a b).byte j = if a = j then b else s.byte j := SMap.get_set _ _ _ _ _

@[simp] theorem State.setBytes_poison (a : Nat) (l : List Byte) : (s.setBytes a l).poison = s.poison := by
  induction l generalizing s a with
  | nil => rfl
  | cons b r ih => exact ih _ _
@[simp] theorem State.setBytes_badSec (a : Nat) (l : List Byte) : (s.setBytes a l).badSec = s.badSec := by
  induction l generalizing s a with
  | nil => rfl
  | cons b r ih => exact ih _ _
@[simp] theorem State.setBytes_elems (a : Nat) (l : List Byte) : (s.setBytes a l).elems = s.elems := by
  induction l generalizing s a with
  | nil => rfl
  | cons b r ih => exact ih _ _
@[simp] theorem State.setBytes_claims (a : Nat) (l : List Byte) : (s.setBytes a l).claims = s.claims := by
  induction l generalizing s a with
  | nil => rfl
  | cons b r ih => exact ih _ _
@[simp] theorem State.setBytes_flights (a : Nat) (l : List Byte) : (s.setBytes a l).flights = s.flights := by
  induction l generalizing s a with
  | nil => rfl
  | cons b r ih => exact ih _ _
@[simp] theorem State.setBytes_space (a : Nat) (l : List Byte) : (s.setBytes a l).space = s.space := by
  induction l generalizing s a with
  | nil => rfl
  | cons b r ih => exact ih _ _
@[simp] theorem State.setBytes_credits (a : Nat) (l : List Byte) : (s.setBytes a l).credits = s.credits := by
  induction l generalizing s a with
  | nil => rfl
  | cons b r ih => exact ih _ _
@[simp] theorem State.setBytes_tiles (a : Nat) (l : List Byte) : (s.setBytes a l).tiles = s.tiles := by
  induction l generalizing s a with
  | nil => rfl
  | cons b r ih => exact ih _ _
@[simp] theorem State.setBytes_islands (a : Nat) (l : List Byte) : (s.setBytes a l).islands = s.islands := by
  induction l generalizing s a with
  | nil => rfl
  | cons b r ih => exact ih _ _
@[simp] theorem State.setBytes_threads (a : Nat) (l : List Byte) : (s.setBytes a l).threads = s.threads := by
  induction l generalizing s a with
  | nil => rfl
  | cons b r ih => exact ih _ _
@[simp] theorem State.setBytes_quads (a : Nat) (l : List Byte) : (s.setBytes a l).quads = s.quads := by
  induction l generalizing s a with
  | nil => rfl
  | cons b r ih => exact ih _ _
@[simp] theorem State.setBytes_dies (a : Nat) (l : List Byte) : (s.setBytes a l).dies = s.dies := by
  induction l generalizing s a with
  | nil => rfl
  | cons b r ih => exact ih _ _
@[simp] theorem State.setBytes_works (a : Nat) (l : List Byte) : (s.setBytes a l).works = s.works := by
  induction l generalizing s a with
  | nil => rfl
  | cons b r ih => exact ih _ _
@[simp] theorem State.setBytes_endpoints (a : Nat) (l : List Byte) : (s.setBytes a l).endpoints = s.endpoints := by
  induction l generalizing s a with
  | nil => rfl
  | cons b r ih => exact ih _ _
@[simp] theorem State.setBytes_jobs (a : Nat) (l : List Byte) : (s.setBytes a l).jobs = s.jobs := by
  induction l generalizing s a with
  | nil => rfl
  | cons b r ih => exact ih _ _
@[simp] theorem State.setBytes_shelf (a : Nat) (l : List Byte) : (s.setBytes a l).shelf = s.shelf := by
  induction l generalizing s a with
  | nil => rfl
  | cons b r ih => exact ih _ _
@[simp] theorem State.setBytes_ended (a : Nat) (l : List Byte) : (s.setBytes a l).ended = s.ended := by
  induction l generalizing s a with
  | nil => rfl
  | cons b r ih => exact ih _ _
@[simp] theorem State.setBytes_nextHandle (a : Nat) (l : List Byte) : (s.setBytes a l).nextHandle = s.nextHandle := by
  induction l generalizing s a with
  | nil => rfl
  | cons b r ih => exact ih _ _
@[simp] theorem State.setBytes_age (a : Nat) (l : List Byte) : (s.setBytes a l).age = s.age := by
  induction l generalizing s a with
  | nil => rfl
  | cons b r ih => exact ih _ _
@[simp] theorem State.setBytes_hostOut (a : Nat) (l : List Byte) : (s.setBytes a l).hostOut = s.hostOut := by
  induction l generalizing s a with
  | nil => rfl
  | cons b r ih => exact ih _ _
@[simp] theorem State.setBytes_hostSent (a : Nat) (l : List Byte) : (s.setBytes a l).hostSent = s.hostSent := by
  induction l generalizing s a with
  | nil => rfl
  | cons b r ih => exact ih _ _
@[simp] theorem State.setBytes_ptpNs (a : Nat) (l : List Byte) : (s.setBytes a l).ptpNs = s.ptpNs := by
  induction l generalizing s a with
  | nil => rfl
  | cons b r ih => exact ih _ _
@[simp] theorem State.setBytes_ptpLock (a : Nat) (l : List Byte) : (s.setBytes a l).ptpLock = s.ptpLock := by
  induction l generalizing s a with
  | nil => rfl
  | cons b r ih => exact ih _ _
@[simp] theorem State.setBytes_ptpValid (a : Nat) (l : List Byte) : (s.setBytes a l).ptpValid = s.ptpValid := by
  induction l generalizing s a with
  | nil => rfl
  | cons b r ih => exact ih _ _
@[simp] theorem State.setBytes_ptpReceipt (a : Nat) (l : List Byte) : (s.setBytes a l).ptpReceipt = s.ptpReceipt := by
  induction l generalizing s a with
  | nil => rfl
  | cons b r ih => exact ih _ _
@[simp] theorem State.setBytes_ptpDelay (a : Nat) (l : List Byte) : (s.setBytes a l).ptpDelay = s.ptpDelay := by
  induction l generalizing s a with
  | nil => rfl
  | cons b r ih => exact ih _ _
@[simp] theorem State.setBytes_pfc (a : Nat) (l : List Byte) : (s.setBytes a l).pfc = s.pfc := by
  induction l generalizing s a with
  | nil => rfl
  | cons b r ih => exact ih _ _
@[simp] theorem State.setBytes_flits (a : Nat) (l : List Byte) : (s.setBytes a l).flits = s.flits := by
  induction l generalizing s a with
  | nil => rfl
  | cons b r ih => exact ih _ _
@[simp] theorem State.setBytes_filters (a : Nat) (l : List Byte) : (s.setBytes a l).filters = s.filters := by
  induction l generalizing s a with
  | nil => rfl
  | cons b r ih => exact ih _ _
@[simp] theorem State.setBytes_links (a : Nat) (l : List Byte) : (s.setBytes a l).links = s.links := by
  induction l generalizing s a with
  | nil => rfl
  | cons b r ih => exact ih _ _
@[simp] theorem State.setBytes_flash (a : Nat) (l : List Byte) : (s.setBytes a l).flash = s.flash := by
  induction l generalizing s a with
  | nil => rfl
  | cons b r ih => exact ih _ _
@[simp] theorem State.setBytes_recovery (a : Nat) (l : List Byte) : (s.setBytes a l).recovery = s.recovery := by
  induction l generalizing s a with
  | nil => rfl
  | cons b r ih => exact ih _ _
@[simp] theorem State.setBytes_package (a : Nat) (l : List Byte) : (s.setBytes a l).package = s.package := by
  induction l generalizing s a with
  | nil => rfl
  | cons b r ih => exact ih _ _
@[simp] theorem State.setBytes_platform (a : Nat) (l : List Byte) : (s.setBytes a l).platform = s.platform := by
  induction l generalizing s a with
  | nil => rfl
  | cons b r ih => exact ih _ _
@[simp] theorem State.setBytes_agenda (a : Nat) (l : List Byte) : (s.setBytes a l).agenda = s.agenda := by
  induction l generalizing s a with
  | nil => rfl
  | cons b r ih => exact ih _ _
@[simp] theorem State.setBytes_cur (a : Nat) (l : List Byte) : (s.setBytes a l).cur = s.cur := by
  induction l generalizing s a with
  | nil => rfl
  | cons b r ih => exact ih _ _
@[simp] theorem State.setBytes_free (a : Nat) (l : List Byte) : (s.setBytes a l).free = s.free := by
  induction l generalizing s a with
  | nil => rfl
  | cons b r ih => exact ih _ _
@[simp] theorem State.elem_setBytes (k a : Nat) (l : List Byte) : (s.setBytes a l).elem k = s.elem k := by simp [State.elem]
@[simp] theorem State.claim_setBytes (k a : Nat) (l : List Byte) : (s.setBytes a l).claim k = s.claim k := by simp [State.claim]
@[simp] theorem State.tile_setBytes (k a : Nat) (l : List Byte) : (s.setBytes a l).tile k = s.tile k := by simp [State.tile]
@[simp] theorem State.island_setBytes (k a : Nat) (l : List Byte) : (s.setBytes a l).island k = s.island k := by simp [State.island]
@[simp] theorem State.thread_setBytes (k a : Nat) (l : List Byte) : (s.setBytes a l).thread k = s.thread k := by simp [State.thread]
@[simp] theorem State.quad_setBytes (k a : Nat) (l : List Byte) : (s.setBytes a l).quad k = s.quad k := by simp [State.quad]
@[simp] theorem State.die_setBytes (k a : Nat) (l : List Byte) : (s.setBytes a l).die k = s.die k := by simp [State.die]
@[simp] theorem State.work_setBytes (k a : Nat) (l : List Byte) : (s.setBytes a l).work k = s.work k := by simp [State.work]

/-- A byte outside those written is as before. -/
theorem State.byte_setBytes_of_out (a j : Nat) (l : List Byte) (h : j < a ∨ a + l.length ≤ j) :
    (s.setBytes a l).byte j = s.byte j := by
  induction l generalizing s a with
  | nil => rfl
  | cons b r ih =>
    simp only [List.length_cons] at h
    simp only [State.setBytes]
    rw [ih _ _ (by omega), State.byte_setByte, if_neg (by omega)]

/-- A byte written is what was written. -/
theorem State.byte_setBytes_of_in (a i : Nat) (l : List Byte) (h : i < l.length) :
    (s.setBytes a l).byte (a + i) = l[i] := by
  induction l generalizing s a i with
  | nil => simp at h
  | cons b r ih =>
    simp only [State.setBytes]
    cases i with
    | zero => rw [State.byte_setBytes_of_out _ _ _ _ (by omega), State.byte_setByte]; simp
    | succ n =>
      have := ih (s.setByte a b) (a + 1) n (by simpa using h)
      rw [show a + (n + 1) = a + 1 + n by omega, this]
      rfl

/-- Writing bytes changes memory alone. -/
theorem State.setBytes_eq (a : Nat) (l : List Byte) : s.setBytes a l = { s with mem := (s.setBytes a l).mem } := by
  induction l generalizing s a with
  | nil => rfl
  | cons b r ih => exact (ih _ _).trans rfl

/-- Every write keeps the canonical form of memory. -/
theorem State.memory_wf_setByte (a : Nat) (b : Byte) (h : Memory.wf s.mem = true) : Memory.wf (s.setByte a b).mem = true :=
  SMap.wf_set _ _ _ _ h

theorem State.memory_wf_setBytes (a : Nat) (l : List Byte) (h : Memory.wf s.mem = true) : Memory.wf (s.setBytes a l).mem = true := by
  induction l generalizing s a with
  | nil => exact h
  | cons b r ih => exact ih _ _ (State.memory_wf_setByte s a b h)

end Sys2Proof.Machine
end

