-- ==== Sys2Proof/Laws/Firing.lean ====
section
/-! SUPPORT. What one firing of an element comes to (R73): each of its parts, and State.fire as a whole. -/

namespace Sys2Proof.Machine

open Sys2Proof

/-! ### The parts of a firing leave everything else alone -/

theorem firedWork_refl (x : Working) : FiredWork x x := rfl

theorem firedWork_trans {x y z : Working} (h : FiredWork x y) (k : FiredWork y z) : FiredWork x z := by
  unfold FiredWork at *
  rw [k, h]

theorem firedWork_die {x y : Working} (h : FiredWork x y) : y.die = x.die := by
  unfold FiredWork at h
  rw [h]

/-- What every part of a firing of element e keeps. -/
structure FiresOnly (s t : State) (e : Nat) : Prop where
  others : ∀ f, f ≠ e → t.elem f = s.elem f
  threads : CanariesOnly s t
  works : ∀ h, FiredWork (s.work h) (t.work h)
  ring : ∀ d, (t.die d).ringBase = (s.die d).ringBase ∧ (t.die d).ringSize = (s.die d).ringSize
  memory : ∀ a, ¬ RingByte s (s.work (s.owner e)).die a → t.byte a = s.byte a ∧ SameMarks s t a
  rest : t = { s with mem := t.mem, poison := t.poison, badSec := t.badSec, elems := t.elems, flights := t.flights, credits := t.credits,
                      space := t.space, threads := t.threads, dies := t.dies, works := t.works }

theorem FiresOnly.claims {s t : State} {e : Nat} (h : FiresOnly s t e) : t.claims = s.claims := by rw [h.rest]
theorem FiresOnly.quads {s t : State} {e : Nat} (h : FiresOnly s t e) : t.quads = s.quads := by rw [h.rest]
theorem FiresOnly.cur {s t : State} {e : Nat} (h : FiresOnly s t e) : t.cur = s.cur := by rw [h.rest]

theorem FiresOnly.owner {s t : State} {e : Nat} (h : FiresOnly s t e) (f : Nat) : t.owner f = s.owner f := by
  simp only [State.owner, State.claim, h.claims]

theorem FiresOnly.quad {s t : State} {e : Nat} (h : FiresOnly s t e) (q : Nat) : t.quad q = s.quad q := by
  simp only [State.quad, h.quads]

theorem FiresOnly.workDie {s t : State} {e : Nat} (h : FiresOnly s t e) (k : Nat) : (t.work k).die = (s.work k).die := firedWork_die (h.works k)

theorem FiresOnly.refl (s : State) (e : Nat) : FiresOnly s s e :=
  ⟨fun _ _ => rfl, fun _ => rfl, fun _ => rfl, fun _ => ⟨rfl, rfl⟩, fun _ _ => ⟨rfl, rfl, rfl⟩, rfl⟩

theorem FiresOnly.trans {s t u : State} {e : Nat} (h : FiresOnly s t e) (k : FiresOnly t u e) : FiresOnly s u e where
  others f hf := (k.others f hf).trans (h.others f hf)
  threads n := by rw [k.threads n, h.threads n]
  works n := firedWork_trans (h.works n) (k.works n)
  ring d := ⟨(k.ring d).1.trans (h.ring d).1, (k.ring d).2.trans (h.ring d).2⟩
  memory a ha := by
    have h1 := h.memory a ha
    have h2 := k.memory a (by simpa only [RingByte, h.owner, h.workDie, (h.ring _).1, (h.ring _).2] using ha)
    exact ⟨h2.1.trans h1.1, h2.2.1.trans h1.2.1, h2.2.2.trans h1.2.2⟩
  rest := by rw [k.rest, h.rest]

/-- A change of the element itself. -/
theorem FiresOnly.setElem (s : State) (e : Nat) (x : Elem) : FiresOnly s (s.setElem e x) e where
  others _ hf := State.elem_setElem_ne _ _ (Ne.symm hf)
  threads _ := rfl
  works _ := rfl
  ring _ := ⟨rfl, rfl⟩
  memory _ _ := ⟨rfl, rfl, rfl⟩
  rest := rfl

theorem FiresOnly.modElem (s : State) (e : Nat) (f : Elem → Elem) : FiresOnly s (s.modElem e f) e := FiresOnly.setElem _ _ _

/-- A change of the fields of a working that firings write. -/
theorem FiresOnly.setWork (s : State) (e h : Nat) (x : Working)
    (hx : FiredWork (s.work h) x) : FiresOnly s (s.setWork h x) e where
  others _ _ := rfl
  threads _ := rfl
  works k := by
    rw [State.work_setWork]
    split
    · next hk => subst hk; exact hx
    · rfl
  ring _ := ⟨rfl, rfl⟩
  memory _ _ := ⟨rfl, rfl, rfl⟩
  rest := rfl

theorem FiresOnly.report (s : State) (e h : Nat) (k : Token) : FiresOnly s (s.report h k) e := by
  unfold State.report
  split
  · exact FiresOnly.setWork s e h _ rfl
  · exact FiresOnly.refl s e

theorem FiresOnly.canaryEvent (s : State) (e h : Nat) : FiresOnly s (s.canaryEvent h) e := by
  unfold State.canaryEvent
  split
  · exact FiresOnly.refl s e
  · refine ⟨fun _ _ => rfl, fun n => ?_, fun _ => rfl, fun _ => ⟨rfl, rfl⟩, fun _ _ => ⟨rfl, rfl, rfl⟩, rfl⟩
    simp only [State.modThread, State.thread_setThread]
    split
    · next hn => subst hn; rfl
    · rfl

theorem FiresOnly.createPoison (s : State) (e h o c : Nat) : FiresOnly s (s.createPoison h o c) e := by
  refine FiresOnly.setWork s e h _ ?_
  split
  · rfl
  · split <;> rfl
  · rfl

theorem setPhys_eq (s : State) (a : Nat) (l : List Byte) : s.setPhys a l = { s with mem := (s.setPhys a l).mem } := by
  unfold State.setPhys
  split
  · exact State.setBytes_eq s a l
  · rfl

/-- A physical write touches only its bytes. -/
theorem byte_setPhys_of_out (s : State) (a j : Nat) (l : List Byte) (h : j < a ∨ a + l.length ≤ j) :
    (s.setPhys a l).byte j = s.byte j := by
  unfold State.setPhys
  split
  · exact State.byte_setBytes_of_out s a j l h
  · rfl

theorem toBytes_length (n v : Nat) : (toBytes n v).length = n := by
  induction n generalizing v with
  | zero => rfl
  | succ n ih => simp [toBytes, ih]

theorem errRec_bytes_length (r : ErrRec) (w : Working) (d t q : Nat) : (r.bytes w d t q).length = 64 := by
  simp [ErrRec.bytes, toBytes_length]

/-- A physical write inside the ring of the element's die. -/
theorem FiresOnly.setPhys (s : State) (e a : Nat) (l : List Byte)
    (h : ∀ j, a ≤ j → j < a + l.length → RingByte s (s.work (s.owner e)).die j) : FiresOnly s (s.setPhys a l) e := by
  rw [setPhys_eq]
  refine ⟨fun _ _ => rfl, fun _ => rfl, fun _ => rfl, fun _ => ⟨rfl, rfl⟩, fun j hj => ⟨?_, rfl, rfl⟩, rfl⟩
  show (s.setPhys a l).byte j = s.byte j
  refine byte_setPhys_of_out s a j l ?_
  by_cases h1 : j < a
  · exact .inl h1
  · exact .inr (Nat.not_lt.mp fun h2 => hj (h j (Nat.not_lt.mp h1) h2))

/-! The marks of sectors -/

theorem poisoned_setPoison (s : State) (a b : Nat) (x : Bool) : (s.setPoison a x).poisoned b = if sectorOf a = sectorOf b then x else s.poisoned b := by
  simp only [State.poisoned, State.setPoison, SMap.get_set]

theorem isBad_setBad (s : State) (a b : Nat) (x : Bool) : (s.setBad a x).isBad b = if badUnit a = badUnit b then x else s.isBad b := by
  simp only [State.isBad, State.setBad, SMap.get_set]

/-- A unit lies in the sector of each of its bytes. -/
theorem sectorOf_badUnit (a : Nat) : sectorOf (badUnit a) = sectorOf a := by
  unfold badUnit sectorOf
  split <;> omega

theorem inWindow_sector {x b : Nat} (h : x / 32 = b / 32) : inWindow x = inWindow b := by
  unfold inWindow
  rw [Bool.eq_iff_iff]
  simp only [Bool.and_eq_true, decide_eq_true_eq]
  omega

theorem badUnit_of {x b : Nat} (h : x / 32 = b / 32) : badUnit x = if inWindow b then x / 8 * 8 else b / 32 * 32 := by
  unfold badUnit sectorOf
  rw [inWindow_sector h, h]

/-- The marks of a sector cleared, of that sector alone. -/
theorem isBad_clearSector (s : State) (a b : Nat) : (s.clearSector a).isBad b = if sectorOf a = sectorOf b then false else s.isBad b := by
  have hu : sectorOf a = sectorOf b →
      badUnit (sectorOf a) = badUnit b ∨ badUnit (sectorOf a + 8) = badUnit b ∨ badUnit (sectorOf a + 16) = badUnit b ∨
        badUnit (sectorOf a + 24) = badUnit b := by
    intro h
    have hb : a / 32 = b / 32 := by unfold sectorOf at h; omega
    unfold sectorOf
    rw [badUnit_of (x := a / 32 * 32) (b := b) (by omega), badUnit_of (x := a / 32 * 32 + 8) (b := b) (by omega),
      badUnit_of (x := a / 32 * 32 + 16) (b := b) (by omega), badUnit_of (x := a / 32 * 32 + 24) (b := b) (by omega), badUnit_of (x := b) rfl]
    split <;> omega
  have hn : ∀ k, k < 32 → badUnit (sectorOf a + k) = badUnit b → sectorOf a = sectorOf b := by
    intro k hk h
    have := congrArg sectorOf h
    rw [sectorOf_badUnit, sectorOf_badUnit] at this
    unfold sectorOf at *
    omega
  unfold State.clearSector
  dsimp only
  simp only [isBad_setBad]
  by_cases h : sectorOf a = sectorOf b
  · rw [if_pos h]
    rcases hu h with h1 | h1 | h1 | h1 <;> simp [h1]
  · have k0 : ¬ badUnit (sectorOf a) = badUnit b := fun q => h (hn 0 (by omega) q)
    have k1 : ¬ badUnit (sectorOf a + 8) = badUnit b := fun q => h (hn 8 (by omega) q)
    have k2 : ¬ badUnit (sectorOf a + 16) = badUnit b := fun q => h (hn 16 (by omega) q)
    have k3 : ¬ badUnit (sectorOf a + 24) = badUnit b := fun q => h (hn 24 (by omega) q)
    rw [if_neg h]
    simp [k0, k1, k2, k3]

theorem poisoned_clearSector (s : State) (a b : Nat) : (s.clearSector a).poisoned b = s.poisoned b := rfl
theorem clearSector_eq (s : State) (a : Nat) : s.clearSector a = { s with badSec := (s.clearSector a).badSec } := rfl

theorem poisoned_setBad (s : State) (a b : Nat) (x : Bool) : (s.setBad a x).poisoned b = s.poisoned b := rfl
theorem isBad_setPoison (s : State) (a b : Nat) (x : Bool) : (s.setPoison a x).isBad b = s.isBad b := rfl

theorem marks_markWrite (s : State) (a n : Nat) (x : Bool) (b : Nat) :
    (s.markWrite a n x).poisoned b = (if sectorOf a = sectorOf b then x || (if n = 32 then false else s.poisoned a) else s.poisoned b) ∧
    (s.markWrite a n x).isBad b = (if sectorOf a = sectorOf b ∧ n = 32 then false else s.isBad b) := by
  have hp : sectorOf a = sectorOf b → s.poisoned a = s.poisoned b := fun h => by simp [State.poisoned, h]
  unfold State.markWrite
  by_cases hn : n = 32 <;> by_cases hx : x = true <;> by_cases hs : sectorOf a = sectorOf b <;>
    simp [hn, hx, hs, poisoned_setPoison, isBad_clearSector, poisoned_clearSector, isBad_setPoison, hp]

theorem markWrite_eq (s : State) (a n : Nat) (x : Bool) :
    s.markWrite a n x = { s with poison := (s.markWrite a n x).poison, badSec := (s.markWrite a n x).badSec } := by
  unfold State.markWrite; dsimp only; split <;> split <;> rfl

/-- A record's place cleaned changes only marks, and only those of its two sectors. -/
theorem cleanRecord_eq (s : State) (a : Nat) :
    s.cleanRecord a = { s with poison := (s.cleanRecord a).poison, badSec := (s.cleanRecord a).badSec } := by
  unfold State.cleanRecord
  split
  · rw [markWrite_eq (s.markWrite a 32 false), markWrite_eq s]
  · rfl

theorem marks_cleanRecord (s : State) (a b : Nat) (ha : a % 32 = 0) (hb : b < a ∨ a + 64 ≤ b) : SameMarks s (s.cleanRecord a) b := by
  unfold State.cleanRecord
  split
  · have h1 : ¬ sectorOf a = sectorOf b := by unfold sectorOf; omega
    have h2 : ¬ sectorOf (a + 32) = sectorOf b := by unfold sectorOf; omega
    refine ⟨?_, ?_⟩
    · rw [(marks_markWrite (s.markWrite a 32 false) _ _ _ _).1, (marks_markWrite s _ _ _ _).1]; simp [h1, h2, marks_markWrite]
    · rw [(marks_markWrite (s.markWrite a 32 false) _ _ _ _).2, (marks_markWrite s _ _ _ _).2]; simp [h1, h2]
  · exact ⟨rfl, rfl⟩

theorem FiresOnly.cleanRecord (s : State) (e a : Nat) (ha : a % 32 = 0)
    (h : ∀ j, a ≤ j → j < a + 64 → RingByte s (s.work (s.owner e)).die j) : FiresOnly s (s.cleanRecord a) e := by
  have hm := marks_cleanRecord s a
  have he := cleanRecord_eq s a
  generalize s.cleanRecord a = t at hm he
  refine ⟨fun _ _ => by rw [he]; rfl, fun _ => by rw [he]; rfl, fun _ => by rw [he]; rfl, fun _ => by rw [he]; exact ⟨rfl, rfl⟩, fun j hj => ?_, by rw [he]⟩
  refine ⟨by rw [he]; rfl, hm j ha ?_⟩
  by_cases h1 : j < a
  · exact .inl h1
  · exact .inr (Nat.not_lt.mp fun h2 => hj (h j (Nat.not_lt.mp h1) h2))

/-- A change of a die that leaves its ring where it is. -/
theorem FiresOnly.setDie (s : State) (e d : Nat) (x : Die) (h : x.ringBase = (s.die d).ringBase ∧ x.ringSize = (s.die d).ringSize) :
    FiresOnly s (s.setDie d x) e := by
  refine ⟨fun _ _ => rfl, fun _ => rfl, fun _ => rfl, fun k => ?_, fun _ _ => ⟨rfl, rfl, rfl⟩, rfl⟩
  rw [State.die_setDie]
  split
  · next hk => subst hk; exact h
  · exact ⟨rfl, rfl⟩

theorem ring_slot (b m n j : Nat) (hm : n % m < m) (h1 : b + n % m * 64 ≤ j) (h2 : j < b + n % m * 64 + 64) :
    b ≤ j ∧ j < b + m * 64 + 4 := ⟨by omega, by omega⟩

theorem ring_mirror (b m j : Nat) (h1 : b + m * 64 ≤ j) (h2 : j < b + m * 64 + 4) : b ≤ j ∧ j < b + m * 64 + 4 :=
  ⟨by omega, h2⟩

theorem FiresOnly.ringWrite (s : State) (e : Nat) (r : ErrRec) : FiresOnly s (s.ringWrite (s.work (s.owner e)).die r) e := by
  unfold State.ringWrite
  dsimp only
  split
  · exact FiresOnly.setDie s e _ _ ⟨rfl, rfl⟩
  · generalize hd : (s.work (s.owner e)).die = d
    have hm := Nat.mod_lt (s.die d).tail (Nat.two_pow_pos (s.die d).ringSize.toNat)
    have h1 : FiresOnly s (s.setPhys ((s.die d).ringBase * 2 ^ 12 + (s.die d).tail % 2 ^ (s.die d).ringSize.toNat * 64)
        (r.bytes (s.work r.handle) d (s.die d).cycles (s.die d).tail)) e := by
      refine FiresOnly.setPhys s e _ _ fun j ha hb => ?_
      rw [errRec_bytes_length] at hb
      rw [hd]
      exact ring_slot _ _ _ _ hm ha hb
    have h0 := h1.trans (FiresOnly.cleanRecord _ e ((s.die d).ringBase * 2 ^ 12 + (s.die d).tail % 2 ^ (s.die d).ringSize.toNat * 64)
      (by omega) fun j ha hb => by
        have hw := h1.workDie (s.owner e)
        rw [h1.owner, hw, hd]
        simp only [RingByte, (h1.ring d).1, (h1.ring d).2]
        exact ring_slot _ _ _ _ hm ha hb)
    replace h1 := h0
    generalize hs : State.cleanRecord (s.setPhys _ _) _ = s1 at h1 ⊢
    generalize hx : ({ s.die d with tail := ((s.die d).tail + 1) % 2 ^ 32 } : Die) = x
    have hb : x.ringBase = (s.die d).ringBase := by rw [← hx]
    have hz : x.ringSize = (s.die d).ringSize := by rw [← hx]
    have h2 : FiresOnly s1 (s1.setDie d x) e :=
      FiresOnly.setDie s1 e _ _ ⟨hb.trans (h1.ring d).1.symm, hz.trans (h1.ring d).2.symm⟩
    have h3 := h1.trans h2
    refine h3.trans (FiresOnly.setPhys _ e _ _ fun j ha hb' => ?_)
    rw [toBytes_length] at hb'
    have hw : ((s1.setDie d x).work ((s1.setDie d x).owner e)).die = d := by rw [h3.owner, h3.workDie, hd]
    rw [hw]
    simp only [RingByte, State.die_setDie_self, hb, hz]
    exact ring_mirror _ _ _ ha hb'

theorem FiresOnly.log (s : State) (e : Nat) (r : ErrRec) : FiresOnly s (s.log (s.work (s.owner e)).die r) e := by
  unfold State.log
  dsimp only
  split
  · exact (FiresOnly.ringWrite s e r).trans (FiresOnly.report _ e _ _)
  · exact FiresOnly.ringWrite s e r

theorem FiresOnly.guardDrop (s : State) (e code : Nat) (k : Token) : FiresOnly s (s.guardDrop e code k) e := by
  unfold State.guardDrop
  dsimp only
  have hx : ∀ t, FiredWork (s.work (s.owner e)) ((s.work (s.owner e)).countDrop e t) := fun _ => rfl
  replace hx := hx (s.quad ((s.work (s.owner e)).thread / 4)).cyc
  generalize (s.work (s.owner e)).countDrop e _ = x at hx ⊢
  have h1 : FiresOnly s (s.setWork (s.owner e) x) e := FiresOnly.setWork s e (s.owner e) x hx
  generalize hr : reportToken _ = tok
  have h2 := h1.trans (FiresOnly.report _ e (s.owner e) tok)
  split
  · have hd : (s.work (s.owner e)).die = ((State.report (s.setWork (s.owner e) x) (s.owner e) tok).work
        ((State.report (s.setWork (s.owner e) x) (s.owner e) tok).owner e)).die := by rw [h2.owner, h2.workDie]
    rw [hd]
    exact h2.trans (FiresOnly.log _ e _)
  · exact h2

theorem FiresOnly.addFlight (s : State) (e : Nat) (l : List Flight) : FiresOnly s { s with flights := l } e :=
  ⟨fun _ _ => rfl, fun _ => rfl, fun _ => rfl, fun _ => ⟨rfl, rfl⟩, fun _ _ => ⟨rfl, rfl, rfl⟩, rfl⟩

theorem FiresOnly.addCredit (s : State) (e : Nat) (l : List CreditBack) : FiresOnly s { s with credits := l } e :=
  ⟨fun _ _ => rfl, fun _ => rfl, fun _ => rfl, fun _ => ⟨rfl, rfl⟩, fun _ _ => ⟨rfl, rfl, rfl⟩, rfl⟩

theorem FiresOnly.setSpace (s : State) (e k n : Nat) : FiresOnly s (s.setSpace k n) e :=
  ⟨fun _ _ => rfl, fun _ => rfl, fun _ => rfl, fun _ => ⟨rfl, rfl⟩, fun _ _ => ⟨rfl, rfl, rfl⟩, rfl⟩

theorem FiresOnly.send (s : State) (e path dst queue : Nat) (k : Token) (o : Origin) : FiresOnly s (s.send e path dst queue k o) e :=
  ((FiresOnly.setElem s e _).trans (FiresOnly.setSpace _ e _ _)).trans (FiresOnly.addFlight _ e _)

theorem FiresOnly.writeVia (s : State) (e r : Nat) (d : Dest) (k : Token) (o : Origin) : FiresOnly s (s.writeVia e r d k o) e := by
  unfold State.writeVia
  split
  · exact FiresOnly.modElem s e _
  · exact FiresOnly.modElem s e _
  · split
    · exact FiresOnly.guardDrop s e _ k
    · split
      · exact FiresOnly.send s e _ _ _ k o
      · exact FiresOnly.refl s e
  · split
    · exact FiresOnly.send s e _ _ _ k o
    · exact FiresOnly.refl s e
  · exact FiresOnly.report s e _ k
  all_goals exact FiresOnly.refl s e

theorem FiresOnly.writeOpt (s : State) (e : Nat) (d : Dest) (k : Option Token) : FiresOnly s (s.writeOpt e d k) e := by
  cases k with
  | none => exact FiresOnly.refl s e
  | some k => exact FiresOnly.writeVia s e _ d k _

theorem FiresOnly.writeBoth (s : State) (e : Nat) (w : EWord) (t0 t1 : Option Token) : FiresOnly s (s.writeBoth e w t0 t1) e := by
  unfold State.writeBoth
  split
  · exact (FiresOnly.writeOpt s e w.d1 t1).trans (FiresOnly.writeOpt _ e w.d0 t0)
  · exact (FiresOnly.writeOpt s e w.d0 t0).trans (FiresOnly.writeOpt _ e w.d1 t1)

theorem FiresOnly.countSink (s : State) (e h : Nat) : FiresOnly s (s.countSink h e) e := by
  have h1 : FiresOnly s (s.modWork h (fun w => { w with sinks := w.sinks ++ [e] })) e := FiresOnly.setWork s e h _ rfl
  unfold State.countSink
  dsimp only
  split
  · exact h1.trans (FiresOnly.setWork _ e h _ rfl)
  · exact h1

theorem FiresOnly.popQueue (s : State) (e q : Nat) : FiresOnly s (s.popQueue e q) e := by
  unfold State.popQueue
  split
  · exact FiresOnly.refl s e
  · next k r _ =>
    dsimp only
    have h1 := (FiresOnly.modElem s e (fun x => x.setQueue q r)).trans (FiresOnly.addCredit _ e
      ((s.modElem e (fun x => x.setQueue q r)).credits ++ [⟨e, q, ((s.modElem e (fun x => x.setQueue q r)).quad (quadOf e)).cyc⟩]))
    split
    · exact h1.trans (FiresOnly.countSink _ e _)
    · exact h1

theorem FiresOnly.popAll (s : State) (e : Nat) (l : List Nat) : FiresOnly s (s.popAll e l) e := by
  induction l generalizing s with
  | nil => exact FiresOnly.refl s e
  | cons q r ih => exact (FiresOnly.popQueue s e q).trans (ih _)

theorem FiresOnly.noteFiring (s : State) (e : Nat) (x : History) : FiresOnly s (s.noteFiring e x) e := FiresOnly.setElem _ _ _

/-- A firing changes nothing outside its element but flights, credits, the working's counts, the canary and, at a guard, the error ring. -/
theorem FiresOnly.fire (s : State) (e op : Nat) (w : EWord) (t0 t1 : Option Token) (upd : Elem → Elem) (pops : List Nat) (exc : Bool) :
    FiresOnly s (s.fire e op w t0 t1 upd pops exc) e := by
  unfold State.fire
  dsimp only
  have h1 := ((FiresOnly.writeBoth s e w t0 t1).trans (FiresOnly.modElem _ e upd)).trans
    ((FiresOnly.popAll _ e pops).trans (FiresOnly.modElem _ e (fun x => { x with p := maskPreds w x.p })))
  split
  · exact h1.trans ((FiresOnly.createPoison _ e _ _ _).trans ((FiresOnly.noteFiring _ e _).trans (FiresOnly.canaryEvent _ e _)))
  · exact h1.trans ((FiresOnly.noteFiring _ e _).trans (FiresOnly.canaryEvent _ e _))

/-! ### The element itself -/

/-- The fields of an element that tokens, pops and the note of a firing leave alone. -/
def Elem.core (x : Elem) : Elem :=
  { x with v := [], p := 0, q := [], rr := 0, latent := [], count := 0, hist := [], cyc := 0, first := none, rr0 := 0, second := false, used := [],
           win := 0, fired := 0 }

/-- Memory, its marks and the dies are as they were. -/
structure Still (s t : State) : Prop where
  mem : t.mem = s.mem
  poison : t.poison = s.poison
  badSec : t.badSec = s.badSec
  dies : t.dies = s.dies

theorem Still.refl (s : State) : Still s s := ⟨rfl, rfl, rfl, rfl⟩
theorem Still.trans {s t u : State} (h : Still s t) (k : Still t u) : Still s u :=
  ⟨k.mem.trans h.mem, k.poison.trans h.poison, k.badSec.trans h.badSec, k.dies.trans h.dies⟩

/-- The element as a write to a consumer slot leaves it. -/
structure PutsToken (s t : State) (e : Nat) (d : Dest) (k : Option Token) : Prop where
  core : (t.elem e).core = (s.elem e).core
  reg : ∀ n, (t.elem e).reg n = regPut d k n ((s.elem e).reg n)
  pred : (t.elem e).p = predPut d k (s.elem e).p
  queue : ∀ q, (t.elem e).queue q = (s.elem e).queue q
  count : (t.elem e).count = (s.elem e).count
  flights : t.flights = s.flights ++ flightsOpt s e d k
  credits : t.credits = s.credits
  report : Unguarded s e d → (t.work (s.owner e)).report = reportPut d k (s.work (s.owner e)).report
  still : Unguarded s e d → Still s t

@[simp] theorem State.elem_modElem_self (s : State) (e : Nat) (f : Elem → Elem) : (s.modElem e f).elem e = f (s.elem e) :=
  State.elem_setElem_self _ _ _

@[simp] theorem Elem.reg_setReg (x : Elem) (n m : Nat) (v : VReg) : (x.setReg n v).reg m = if n = m then v else x.reg m :=
  SMap.get_set _ _ _ _ _
@[simp] theorem Elem.queue_setQueue (x : Elem) (n m : Nat) (l : List QEntry) :
    (x.setQueue n l).queue m = if n = m then l else x.queue m := SMap.get_set _ _ _ _ _
@[simp] theorem Elem.reg_setQueue (x : Elem) (n m : Nat) (l : List QEntry) : (x.setQueue n l).reg m = x.reg m := rfl
@[simp] theorem Elem.queue_setReg (x : Elem) (n m : Nat) (v : VReg) : (x.setReg n v).queue m = x.queue m := rfl

theorem PutsToken.nothing (s : State) (e : Nat) (d : Dest) (k : Option Token) (h1 : ∀ n v, regPut d k n v = v) (h2 : ∀ p, predPut d k p = p)
    (h3 : flightsOpt s e d k = []) (h4 : ∀ l, reportPut d k l = l) : PutsToken s s e d k :=
  ⟨rfl, fun n => (h1 n _).symm, (h2 _).symm, fun _ => rfl, rfl, by rw [h3, List.append_nil], rfl, fun _ => (h4 _).symm, fun _ => ⟨rfl, rfl, rfl, rfl⟩⟩

/-- A token put in flight. -/
theorem PutsToken.sent (s : State) (e path dst queue : Nat) (d : Dest) (k : Token) (h1 : ∀ n v, regPut d (some k) n v = v)
    (h2 : ∀ p, predPut d (some k) p = p)
    (h3 : flightsTo s e d k = [⟨e, path, dst, queue, k, .fired e (destCode d) (s.elem e).count, (s.quad (quadOf e)).cyc⟩])
    (h4 : ∀ l, reportPut d (some k) l = l) :
    PutsToken s (s.send e path dst queue k (.fired e (destCode d) (s.elem e).count)) e d (some k) := by
  have hx : (s.send e path dst queue k (.fired e (destCode d) (s.elem e).count)).elem e = { s.elem e with
      cyc := (s.quad (quadOf e)).cyc, used := path :: usedNow (s.elem e) (s.quad (quadOf e)).cyc,
      first := if (s.elem e).cyc = (s.quad (quadOf e)).cyc then (s.elem e).first else none,
      second := (s.elem e).cyc == (s.quad (quadOf e)).cyc && (s.elem e).second } := State.elem_setElem_self _ _ _
  refine ⟨by rw [hx]; rfl, fun n => ?_, ?_, fun q => ?_, by rw [hx], ?_, rfl, fun _ => (h4 _).symm, fun _ => ⟨rfl, rfl, rfl, rfl⟩⟩
  · rw [h1, hx]; rfl
  · rw [h2, hx]
  · rw [hx]; rfl
  · simp only [flightsOpt, h3]; rfl

theorem PutsToken.guard (s : State) (e : Nat) (dir : Dir) (tp lp : Bool) (k : Token) (code : Nat) (h : s.guardedLink e (linkNum dir) = true) :
    PutsToken s (s.guardDrop e code k) e (.link dir tp lp) (some k) := by
  have he : (s.guardDrop e code k).elems = s.elems ∧ (s.guardDrop e code k).flights = s.flights ∧
      (s.guardDrop e code k).credits = s.credits := by
    have hrep : ∀ (u : State) (h : Nat) (k : Token), (u.report h k).elems = u.elems ∧ (u.report h k).flights = u.flights ∧
        (u.report h k).credits = u.credits := by
      intro u h k; unfold State.report; split <;> exact ⟨rfl, rfl, rfl⟩
    have hring : ∀ (u : State) (d : Nat) (r : ErrRec), (u.ringWrite d r).elems = u.elems ∧ (u.ringWrite d r).flights = u.flights ∧
        (u.ringWrite d r).credits = u.credits := by
      intro u d r
      unfold State.ringWrite
      dsimp only
      split
      · exact ⟨rfl, rfl, rfl⟩
      · rw [setPhys_eq, State.setDie, cleanRecord_eq, setPhys_eq u]; exact ⟨rfl, rfl, rfl⟩
    have hlog : ∀ (u : State) (d : Nat) (r : ErrRec), (u.log d r).elems = u.elems ∧ (u.log d r).flights = u.flights ∧
        (u.log d r).credits = u.credits := by
      intro u d r
      unfold State.log
      dsimp only
      split
      · have a := hrep (u.ringWrite d r) r.handle
        have b := hring u d r
        exact ⟨(a _).1.trans b.1, (a _).2.1.trans b.2.1, (a _).2.2.trans b.2.2⟩
      · exact hring u d r
    unfold State.guardDrop
    dsimp only
    split
    · refine ⟨(hlog _ _ _).1.trans (hrep _ _ _).1, (hlog _ _ _).2.1.trans (hrep _ _ _).2.1, (hlog _ _ _).2.2.trans (hrep _ _ _).2.2⟩
    · exact hrep _ _ _
  have hx : (s.guardDrop e code k).elem e = s.elem e := by simp only [State.elem, he.1]
  have hno : ¬ Unguarded s e (.link dir tp lp) := fun hu => by simp [hu dir tp lp rfl] at h
  refine ⟨by rw [hx], fun n => by rw [hx]; rfl, by rw [hx]; rfl, fun q => by rw [hx], by rw [hx], ?_, he.2.2, fun hu => absurd hu hno, fun hu => absurd hu hno⟩
  rw [he.2.1]
  simp [flightsOpt, flightsTo, h]

theorem PutsToken.writeOpt (s : State) (e : Nat) (d : Dest) (k : Option Token) : PutsToken s (s.writeOpt e d k) e d k := by
  cases k with
  | none =>
    refine PutsToken.nothing s e d none (fun n v => ?_) (fun p => ?_) rfl (fun l => ?_)
    all_goals cases d <;> rfl
  | some k =>
    simp only [State.writeOpt, State.writeDest]
    unfold State.writeVia
    split
    · next n =>
      refine ⟨by rw [State.elem_modElem_self]; rfl, fun m => ?_, by rw [State.elem_modElem_self]; rfl, fun q => by rw [State.elem_modElem_self]; rfl,
        by rw [State.elem_modElem_self]; rfl, by simp [flightsOpt, flightsTo, State.modElem], rfl, fun _ => rfl, fun _ => ⟨rfl, rfl, rfl, rfl⟩⟩
      rw [State.elem_modElem_self, Elem.reg_setReg]; rfl
    · next n =>
      refine ⟨by rw [State.elem_modElem_self]; rfl, fun m => by rw [State.elem_modElem_self]; rfl, by rw [State.elem_modElem_self]; rfl,
        fun q => by rw [State.elem_modElem_self]; rfl, by rw [State.elem_modElem_self], by simp [flightsOpt, flightsTo, State.modElem], rfl,
        fun _ => rfl, fun _ => ⟨rfl, rfl, rfl, rfl⟩⟩
    · next dir tp lp =>
      split
      · next h => exact PutsToken.guard s e dir tp lp k _ h
      · next h =>
        split
        · next t ht =>
          simp only [linkTarget, Option.map_eq_some_iff] at ht
          obtain ⟨n, hn, rfl⟩ := ht
          exact PutsToken.sent s e _ _ _ _ k (fun _ _ => rfl) (fun _ => rfl) (by simp [flightsTo, h, hn]) (fun _ => rfl)
        · next ht =>
          simp only [linkTarget, Option.map_eq_none_iff] at ht
          exact PutsToken.nothing s e _ _ (fun _ _ => rfl) (fun _ => rfl) (by simp [flightsOpt, flightsTo, ht]) (fun _ => rfl)
    · next n tp lp =>
      split
      · next t ht =>
        simp only [State.routeOf, routeTarget, Option.map_eq_some_iff] at ht
        obtain ⟨m, hm, rfl⟩ := ht
        exact PutsToken.sent s e _ _ _ _ k (fun _ _ => rfl) (fun _ => rfl) (by simp [flightsTo, hm]) (fun _ => rfl)
      · next ht =>
        simp only [State.routeOf, routeTarget, Option.map_eq_none_iff] at ht
        exact PutsToken.nothing s e _ _ (fun _ _ => rfl) (fun _ => rfl) (by simp [flightsOpt, flightsTo, ht]) (fun _ => rfl)
    · unfold State.report
      have hr : s.reportRoom (s.owner e) = decide ((s.work (s.owner e)).report.length < 16) := rfl
      split
      · next h =>
        rw [hr, decide_eq_true_eq] at h
        refine ⟨rfl, fun _ => rfl, rfl, fun _ => rfl, rfl, by simp [flightsOpt, flightsTo, State.modWork], rfl, fun _ => ?_,
          fun _ => ⟨rfl, rfl, rfl, rfl⟩⟩
        simp only [State.modWork, State.work_setWork_self, reportPut, if_pos h]
      · next h =>
        rw [hr, decide_eq_true_eq] at h
        exact ⟨rfl, fun _ => rfl, rfl, fun _ => rfl, rfl, by simp [flightsOpt, flightsTo], rfl, fun _ => by simp only [reportPut, if_neg h],
          fun _ => ⟨rfl, rfl, rfl, rfl⟩⟩
    all_goals exact PutsToken.nothing s e _ _ (fun _ _ => rfl) (fun _ => rfl) rfl (fun _ => rfl)

/-- Both consumer slots, in either order: a guarded first slot puts no token anywhere. -/
structure PutsBoth (s t : State) (e : Nat) (w : EWord) (t0 t1 : Option Token) : Prop where
  core : (t.elem e).core = (s.elem e).core
  reg : ∀ n, (t.elem e).reg n = regPut w.d1 t1 n (regPut w.d0 t0 n ((s.elem e).reg n))
  pred : (t.elem e).p = predPut w.d1 t1 (predPut w.d0 t0 (s.elem e).p)
  queue : ∀ q, (t.elem e).queue q = (s.elem e).queue q
  flights : t.flights = s.flights ++ flightsOpt s e w.d0 t0 ++ flightsOpt s e w.d1 t1
  report : Unguarded s e w.d0 → Unguarded s e w.d1 →
    (t.work (s.owner e)).report = reportPut w.d1 t1 (reportPut w.d0 t0 (s.work (s.owner e)).report)
  still : Unguarded s e w.d0 → Unguarded s e w.d1 → Still s t

/-! ### Pops -/

/-- What popping queues does to the element and the rest. -/
structure PopsQueues (s t : State) (e : Nat) (l : List Nat) : Prop where
  core : (t.elem e).core = (s.elem e).core
  reg : ∀ n, (t.elem e).reg n = (s.elem e).reg n
  pred : (t.elem e).p = (s.elem e).p
  queue : ∀ q, (t.elem e).queue q = ((s.elem e).queue q).drop (l.count q)
  flights : t.flights = s.flights
  report : ∀ h, (t.work h).report = (s.work h).report
  still : Still s t

theorem PopsQueues.trans {s t u : State} {e : Nat} {l k : List Nat} (a : PopsQueues s t e l) (b : PopsQueues t u e k) :
    PopsQueues s u e (l ++ k) := by
  refine ⟨b.core.trans a.core, fun n => (b.reg n).trans (a.reg n), b.pred.trans a.pred, fun p => ?_, b.flights.trans a.flights,
    fun h => (b.report h).trans (a.report h), a.still.trans b.still⟩
  rw [b.queue p, a.queue p, List.drop_drop, List.count_append, Nat.add_comm]

/-- A count of sinks concerns the working alone. -/
theorem PopsQueues.countSink (s : State) (e h : Nat) : PopsQueues s (s.countSink h e) e [] := by
  have one : ∀ (u : State) (f : Working → Working), (∀ w, (f w).report = w.report) → PopsQueues u (u.modWork h f) e [] := by
    intro u f hf
    refine ⟨rfl, fun _ => rfl, rfl, fun _ => rfl, rfl, fun k => ?_, ⟨rfl, rfl, rfl, rfl⟩⟩
    simp only [State.modWork, State.work_setWork]
    split
    · next hk => subst hk; exact hf _
    · rfl
  have h1 := one s (fun w => { w with sinks := w.sinks ++ [e] }) fun _ => rfl
  unfold State.countSink
  dsimp only
  split
  · exact h1.trans (one _ (fun w => { w with mark := w.quads.map (fun q => (q, (State.quad _ q).cyc)) }) fun _ => rfl)
  · exact h1

theorem PopsQueues.one (s : State) (e q : Nat) : PopsQueues s (s.popQueue e q) e [q] := by
  unfold State.popQueue
  split
  · next h =>
    refine ⟨rfl, fun _ => rfl, rfl, fun p => ?_, rfl, fun _ => rfl, ⟨rfl, rfl, rfl, rfl⟩⟩
    by_cases hp : q = p
    · subst hp; rw [h]; simp
    · simp [hp]
  · next k r h =>
    have hq : ∀ p, (((s.elem e).setQueue q r)).queue p = ((s.elem e).queue p).drop ([q].count p) := by
      intro p
      rw [Elem.queue_setQueue]
      by_cases hp : q = p
      · subst hp; rw [h]; simp
      · simp [hp]
    have hx : (s.modElem e (fun x => x.setQueue q r)).elem e = (s.elem e).setQueue q r := State.elem_modElem_self _ _ _
    dsimp only
    generalize hu : ({ s.modElem e (fun x => x.setQueue q r) with credits := _ } : State) = u
    have h1 : PopsQueues s u e [q] := by
      subst hu
      refine ⟨?_, fun n => ?_, ?_, fun p => ?_, rfl, fun h => rfl, ⟨rfl, rfl, rfl, rfl⟩⟩
      · show ((s.modElem e (fun x => x.setQueue q r)).elem e).core = _; rw [hx]; rfl
      · show ((s.modElem e (fun x => x.setQueue q r)).elem e).reg n = _; rw [hx]; rfl
      · show ((s.modElem e (fun x => x.setQueue q r)).elem e).p = _; rw [hx]; rfl
      · show ((s.modElem e (fun x => x.setQueue q r)).elem e).queue p = _; rw [hx]; exact hq p
    split
    · exact h1.trans (PopsQueues.countSink u e _)
    · exact h1

theorem PopsQueues.all (s : State) (e : Nat) (l : List Nat) : PopsQueues s (s.popAll e l) e l := by
  induction l generalizing s with
  | nil => exact ⟨rfl, fun _ => rfl, rfl, fun _ => by simp [State.popAll], rfl, fun _ => rfl, ⟨rfl, rfl, rfl, rfl⟩⟩
  | cons q r ih => exact (PopsQueues.one s e q).trans (ih _)

/-! ### The end of a firing -/

/-- Poison, the note and the canary: nothing of the element but its history and counts. -/
structure Notes (s t : State) (e : Nat) : Prop where
  core : (t.elem e).core = (s.elem e).core
  reg : ∀ n, (t.elem e).reg n = (s.elem e).reg n
  pred : (t.elem e).p = (s.elem e).p
  queue : ∀ q, (t.elem e).queue q = (s.elem e).queue q
  flights : t.flights = s.flights
  report : ∀ h, (t.work h).report = (s.work h).report
  still : Still s t

theorem Notes.poison (s : State) (e h o c : Nat) : Notes s (s.createPoison h o c) e := by
  refine ⟨rfl, fun _ => rfl, rfl, fun _ => rfl, rfl, fun k => ?_, ⟨rfl, rfl, rfl, rfl⟩⟩
  unfold State.createPoison
  dsimp only
  rw [State.work_setWork]
  split
  · next hk =>
    subst hk
    split
    · rfl
    · split <;> rfl
    · rfl
  · rfl

theorem Notes.note (s : State) (e : Nat) (x : History) : Notes s (s.noteFiring e x) e := by
  unfold State.noteFiring
  dsimp only
  refine ⟨?_, fun n => ?_, ?_, fun q => ?_, rfl, fun _ => rfl, ⟨rfl, rfl, rfl, rfl⟩⟩
  · rw [State.elem_setElem_self]; simp only [Elem.core]
  · rw [State.elem_setElem_self]; simp only [Elem.reg]
  · rw [State.elem_setElem_self]
  · rw [State.elem_setElem_self]; simp only [Elem.queue]

theorem Notes.canary (s : State) (e h : Nat) : Notes s (s.canaryEvent h) e := by
  unfold State.canaryEvent
  split <;> exact ⟨rfl, fun _ => rfl, rfl, fun _ => rfl, rfl, fun _ => rfl, ⟨rfl, rfl, rfl, rfl⟩⟩

theorem Notes.trans {s t u : State} {e : Nat} (h : Notes s t e) (k : Notes t u e) : Notes s u e :=
  ⟨k.core.trans h.core, fun n => (k.reg n).trans (h.reg n), k.pred.trans h.pred, fun q => (k.queue q).trans (h.queue q),
    k.flights.trans h.flights, fun w => (k.report w).trans (h.report w), h.still.trans k.still⟩

/-! ### The whole firing -/

theorem sameCore_of_core {x y : Elem} (h : y.core = x.core) : SameCore x y := by
  obtain ⟨⟩ := x
  obtain ⟨⟩ := y
  simp only [Elem.core, Elem.mk.injEq] at h
  simp only [SameCore, Elem.mk.injEq]
  simp_all

/-- What a guard, a route or a quad's cycle is does not change within a firing. -/
theorem flightsOpt_eq {s t : State} {e : Nat} (h : FiresOnly s t e) (hc : (t.elem e).core = (s.elem e).core)
    (hn : (t.elem e).count = (s.elem e).count) (d : Dest) (k : Option Token) :
    flightsOpt t e d k = flightsOpt s e d k := by
  have hg : ∀ l, t.guardedLink e l = s.guardedLink e l := by
    intro l
    have hw : FiredWork _ _ := h.works (s.owner e)
    unfold FiredWork at hw
    simp only [State.guardedLink, h.owner]
    split
    · rfl
    · rw [hw]; rfl
  have ha : (t.elem e).active = (s.elem e).active := by
    have h := congrArg (fun x => x.active) hc
    simpa only [Elem.core] using h
  have hr : ∀ n, t.route e n = s.route e n := by
    intro n
    simp only [State.route, State.claim, h.claims, ha]
  cases k with
  | none => rfl
  | some k => simp only [flightsOpt, flightsTo, hg, hr, h.quad, hn]

theorem unguarded_iff {s t : State} {e : Nat} (h : FiresOnly s t e) (d : Dest) : Unguarded t e d ↔ Unguarded s e d := by
  have hg : ∀ l, t.guardedLink e l = s.guardedLink e l := by
    intro l
    have hw : FiredWork _ _ := h.works (s.owner e)
    unfold FiredWork at hw
    simp only [State.guardedLink, h.owner]
    split
    · rfl
    · rw [hw]; rfl
  simp only [Unguarded, hg]

theorem putsBoth (s : State) (e : Nat) (w : EWord) (t0 t1 : Option Token) : PutsBoth s (s.writeBoth e w t0 t1) e w t0 t1 := by
  unfold State.writeBoth
  split
  · next h =>
    simp only [State.dropsFirst, Bool.and_eq_true, beq_iff_eq] at h
    have h0 : ∃ dir tp lp, w.d0 = .link dir tp lp ∧ s.guardedLink e (linkNum dir) = true := by
      revert h
      cases w.d0 <;> simp +contextual
    obtain ⟨dir, tp, lp, hd, hg⟩ := h0
    have hno : ¬ Unguarded s e w.d0 := fun hu => by simp [hu dir tp lp hd] at hg
    have p1 := PutsToken.writeOpt s e w.d1 t1
    have f1 := FiresOnly.writeOpt s e w.d1 t1
    have p0 := PutsToken.writeOpt (s.writeOpt e w.d1 t1) e w.d0 t0
    have hr : ∀ (k : Option Token) n v, regPut w.d1 k n v = v := by rw [h.2]; intros; rfl
    have hp : ∀ (k : Option Token) p, predPut w.d1 k p = p := by rw [h.2]; intros; rfl
    have hf : ∀ (k : Option Token), flightsOpt s e w.d1 k = [] := by rw [h.2]; intro k; cases k <;> rfl
    have hg0 : ∀ (k : Option Token), flightsOpt s e w.d0 k = [] := by rw [hd]; intro k; cases k <;> simp [flightsOpt, flightsTo, hg]
    refine ⟨p0.core.trans p1.core, fun n => ?_, ?_, fun q => (p0.queue q).trans (p1.queue q), ?_, fun u => absurd u hno, fun u => absurd u hno⟩
    · rw [p0.reg, p1.reg, hr, hr]
    · rw [p0.pred, p1.pred, hp, hp]
    · rw [p0.flights, p1.flights, flightsOpt_eq f1 p1.core p1.count, hf, hg0]
  · have p0 := PutsToken.writeOpt s e w.d0 t0
    have f0 := FiresOnly.writeOpt s e w.d0 t0
    have p1 := PutsToken.writeOpt (s.writeOpt e w.d0 t0) e w.d1 t1
    refine ⟨p1.core.trans p0.core, fun n => by rw [p1.reg, p0.reg], by rw [p1.pred, p0.pred], fun q => (p1.queue q).trans (p0.queue q), ?_,
      fun u0 u1 => ?_, fun u0 u1 => ?_⟩
    · rw [p1.flights, p0.flights, flightsOpt_eq f0 p0.core p0.count]
    · have q1 := p1.report ((unguarded_iff f0 w.d1).mpr u1)
      rw [f0.owner] at q1
      rw [q1, p0.report u0]
    · exact (p0.still u0).trans (p1.still ((unguarded_iff f0 w.d1).mpr u1))

/-- One firing, with the change upd of the element between its tokens and its pops. -/
theorem firedWith (s : State) (e op : Nat) (w : EWord) (t0 t1 : Option Token) (upd : Elem → Elem) (pops : List Nat) (exc : Bool) :
    FiredWith s (s.fire e op w t0 t1 upd pops exc) e w t0 t1 upd pops := by
  have hall := FiresOnly.fire s e op w t0 t1 upd pops exc
  have pb := putsBoth s e w t0 t1
  generalize hb : s.writeBoth e w t0 t1 = b at pb
  have f2 := FiresOnly.modElem b e upd
  have e2 : (b.modElem e upd).elem e = upd (b.elem e) := State.elem_modElem_self _ _ _
  generalize hc : b.modElem e upd = c at f2 e2
  have f3 := FiresOnly.popAll c e pops
  have p3 := PopsQueues.all c e pops
  generalize hd : c.popAll e pops = d at f3 p3
  have f4 := FiresOnly.modElem d e (fun x => { x with p := maskPreds w x.p })
  have e4 : (d.modElem e (fun x => { x with p := maskPreds w x.p })).elem e = { d.elem e with p := maskPreds w (d.elem e).p } :=
    State.elem_modElem_self _ _ _
  have r4 : (d.modElem e (fun x => { x with p := maskPreds w x.p })).flights = d.flights ∧
      (∀ h, ((d.modElem e (fun x => { x with p := maskPreds w x.p })).work h) = d.work h) ∧
      Still d (d.modElem e (fun x => { x with p := maskPreds w x.p })) := ⟨rfl, fun _ => rfl, ⟨rfl, rfl, rfl, rfl⟩⟩
  generalize hg : d.modElem e (fun x => { x with p := maskPreds w x.p }) = g at f4 e4 r4
  have hn : Notes g (s.fire e op w t0 t1 upd pops exc) e := by
    unfold State.fire
    simp only [hb, hc, hd, hg]
    split
    · exact (Notes.poison _ _ _ _ _).trans ((Notes.note _ _ _).trans (Notes.canary _ _ _))
    · exact (Notes.note _ _ _).trans (Notes.canary _ _ _)
  generalize ht : s.fire e op w t0 t1 upd pops exc = t at hn hall
  have rc : c.flights = b.flights ∧ (∀ h, c.work h = b.work h) ∧ Still b c := by
    rw [← hc]; exact ⟨rfl, fun _ => rfl, ⟨rfl, rfl, rfl, rfl⟩⟩
  refine ⟨⟨hall.others, ?_, hall.threads, hall.works, fun u0 u1 => ?_, hall.memory, fun u0 u1 => ?_, hall.rest⟩, b.elem e, ?_, ?_⟩
  · rw [hn.flights, r4.1, p3.flights, rc.1, pb.flights]
  · rw [hn.report, r4.2.1, p3.report, rc.2.1, pb.report u0 u1]
  · have q := ((((pb.still u0 u1).trans rc.2.2).trans p3.still).trans r4.2.2).trans hn.still
    exact ⟨q.mem, q.poison, q.badSec, q.dies⟩
  · exact ⟨pb.reg, pb.pred, pb.queue, sameCore_of_core pb.core⟩
  · refine ⟨fun n => ?_, ?_, fun q => ?_, sameCore_of_core ?_⟩
    · rw [hn.reg, e4, ← e2, ← p3.reg]; rfl
    · rw [hn.pred, e4, ← e2, ← p3.pred]; rfl
    · rw [hn.queue, e4, ← e2, ← p3.queue]; rfl
    · rw [hn.core, e4, ← e2, ← p3.core]; rfl

/-- One firing of an instruction that changes the element only by its tokens, pops and masks. -/
theorem fired (s : State) (e op : Nat) (w : EWord) (t0 t1 : Option Token) (pops : List Nat) (exc : Bool) :
    Fired s (s.fire e op w t0 t1 id pops exc) e w t0 t1 pops := by
  have h := firedWith s e op w t0 t1 id pops exc
  obtain ⟨y, hy, hz⟩ := h.element
  refine ⟨h.toFiredAround, fun n => ?_, ?_, fun q => ?_, ?_⟩
  · rw [hz.regs]; exact hy.regs n
  · rw [hz.preds]; simp only [id, hy.preds]
  · rw [hz.queues]; simp only [id, hy.queues]
  · have a := hy.kept
    have b := hz.kept
    simp only [id, SameCore] at a b ⊢
    rw [← b] at a
    rw [← a]

end Sys2Proof.Machine
end

