-- ==== Sys2Proof/Laws/Foreman.lean ====
section
/-! SUPPORT. What the shared operations of foreman instructions do: the register check, the end of an instruction, and a thread's stores. -/

namespace Sys2Proof.Machine

open Sys2Proof

/-- An instruction whose registers are held runs its body (R311). -/
theorem onThread_of {s : State} {l : List Reg} (h : Holds s l) (b : Nat → Thread → Out) :
    s.onThread l b = b s.cur.thread (s.thread s.cur.thread) := by
  unfold State.onThread
  have : l.find? (fun r => !(s.thread s.cur.thread).holds r.toNat) = none := by
    rw [List.find?_eq_none]; intro r hr; have := h r hr; simp at this ⊢; exact this
  simp only [this]

/-- On a foreman thread the working instructions run alike (R536). -/
theorem onWorking_of {s : State} {l : List Reg} (h : Holds s l) (f : OnForeman s) (b : Nat → Thread → Out) :
    s.onWorking l b = b s.cur.thread (s.thread s.cur.thread) := by
  unfold OnForeman at f
  simp [State.onWorking, f, onThread_of h]

theorem Thread.reg_setReg (x : Thread) (n r : Nat) (v : DWord) : (x.setReg n v).reg r = if r = n ∧ r ≠ 0 then v else x.reg r := by
  unfold Thread.setReg Thread.reg
  by_cases hn : n = 0
  · subst hn; by_cases hr : r = 0 <;> simp [hr]
  · by_cases hr : r = 0
    · simp [hr]
    · simp [hr, hn, SMap.get_set, eq_comm]

theorem onlyThread_setThread (s : State) (n : Nat) (x : Thread) : OnlyThread s (s.setThread n x) n :=
  ⟨rfl, fun _ h => State.thread_setThread_ne _ _ (Ne.symm h)⟩

/-- A register written and the PC moved. -/
theorem writesReg_advance (x : Thread) (rd : Nat) (v : DWord) (k : Nat) : WritesReg x ((x.setReg rd v).advance k) rd v k :=
  ⟨fun r => Thread.reg_setReg _ _ _ _, by simp [Thread.advance, Thread.setReg]; split <;> rfl,
   by simp [Thread.advance, Thread.setReg]; split <;> rfl⟩

/-! ### Stores -/

theorem byte_setBytes_in (s : State) (a : Nat) (l : List Byte) (k : Nat) (h : k < l.length) : (s.setBytes a l).byte (a + k) = l.getD k 0 := by
  rw [State.byte_setBytes_of_in s a k l h]; simp [h]

/-- The undo log takes records and changes nothing else. -/
theorem saveUndo_eq (s : State) (h a : Nat) : s.saveUndo h a = { s with tiles := (s.saveUndo h a).tiles } := by
  unfold State.saveUndo; split <;> rfl

theorem tile_saveUndo (s : State) (h a n : Nat) : (s.saveUndo h a).tile n = { s.tile n with undo := ((s.saveUndo h a).tile n).undo } := by
  unfold State.saveUndo
  split
  · rw [State.tile_setTile]; split
    · next e => subst e; rfl
    · rfl
  · rfl

theorem forN_keeps {α : Type} (p : α → Prop) (f : Nat → α → α) (hf : ∀ i a, p a → p (f i a)) (n i : Nat) (a : α) (h : p a) :
    p (forN f n i a) := by
  induction n generalizing i a with
  | zero => exact h
  | succ n ih => exact ih _ _ (hf _ _ h)

/-- A write wakes watches and does nothing else. -/
structure Watches (s t : State) : Prop where
  elems : ∀ e, t.elem e = { s.elem e with watches := (t.elem e).watches }
  rest : t = { s with elems := t.elems }

theorem touchWatches_only (s : State) (a n : Nat) : Watches s (s.touchWatches a n) := by
  unfold State.touchWatches
  split
  · exact ⟨fun _ => rfl, rfl⟩
  · dsimp only
    refine forN_keeps (Watches s) _ (fun i t h => ?_) 8 0 s ⟨fun _ => rfl, rfl⟩
    split
    · exact h
    · refine ⟨fun e => ?_, ?_⟩
      · rw [State.modElem, State.elem_setElem]
        split
        · next he => subst he; rw [h.elems]
        · exact h.elems e
      · rw [h.rest]; rfl

/-- What the record of a repaired sector changes. -/
structure Logs (s t : State) : Prop where
  memory : ∀ b, (∀ d, ¬ RingByte s d b) → t.byte b = s.byte b ∧ SameMarks s t b
  works : ∀ h, t.work h = { s.work h with report := (t.work h).report }
  rest : t = { s with mem := t.mem, poison := t.poison, badSec := t.badSec, dies := t.dies, works := t.works }

theorem Logs.refl (s : State) : Logs s s := ⟨fun _ _ => ⟨rfl, rfl, rfl⟩, fun _ => rfl, rfl⟩

theorem ringWrite_eq (s : State) (d : Nat) (r : ErrRec) :
    s.ringWrite d r = { s with mem := (s.ringWrite d r).mem, poison := (s.ringWrite d r).poison, badSec := (s.ringWrite d r).badSec,
                               dies := (s.ringWrite d r).dies } := by
  unfold State.ringWrite
  dsimp only
  split
  · rfl
  · rw [setPhys_eq (State.setDie _ _ _), State.setDie, cleanRecord_eq, setPhys_eq s]

theorem byte_ringWrite (s : State) (d : Nat) (r : ErrRec) (b : Nat) (hb : ¬ RingByte s d b) :
    (s.ringWrite d r).byte b = s.byte b ∧ SameMarks s (s.ringWrite d r) b := by
  unfold State.ringWrite
  dsimp only
  split
  · exact ⟨rfl, rfl, rfl⟩
  · unfold RingByte at hb
    have hm : (s.die d).tail % 2 ^ (s.die d).ringSize.toNat < 2 ^ (s.die d).ringSize.toNat := Nat.mod_lt _ (Nat.two_pow_pos _)
    have out : b < (s.die d).ringBase * 2 ^ 12 + (s.die d).tail % 2 ^ (s.die d).ringSize.toNat * 64 ∨
        (s.die d).ringBase * 2 ^ 12 + (s.die d).tail % 2 ^ (s.die d).ringSize.toNat * 64 + 64 ≤ b := by
      by_cases h1 : b < (s.die d).ringBase * 2 ^ 12 + (s.die d).tail % 2 ^ (s.die d).ringSize.toNat * 64
      · exact .inl h1
      · by_cases h2 : (s.die d).ringBase * 2 ^ 12 + (s.die d).tail % 2 ^ (s.die d).ringSize.toNat * 64 + 64 ≤ b
        · exact .inr h2
        · exact absurd (ring_slot _ _ _ _ hm (Nat.not_lt.mp h1) (Nat.not_le.mp h2)) hb
    have ha : ((s.die d).ringBase * 2 ^ 12 + (s.die d).tail % 2 ^ (s.die d).ringSize.toNat * 64) % 32 = 0 := by omega
    refine ⟨?_, ?_⟩
    rotate_left
    · have hd : ∀ (u : State) (k : Nat) (x : Die) (c : Nat) (l : List Byte), SameMarks s u b → SameMarks s ((u.setDie k x).setPhys c l) b := by
        intro u k x c l hu
        rw [setPhys_eq]
        exact hu
      apply hd
      generalize (s.die d).tail % 2 ^ (s.die d).ringSize.toNat = n at out ha ⊢
      generalize r.bytes _ _ _ _ = l
      have h0 := setPhys_eq s ((s.die d).ringBase * 2 ^ 12 + n * 64) l
      generalize s.setPhys ((s.die d).ringBase * 2 ^ 12 + n * 64) l = s1 at h0
      have h1 := marks_cleanRecord s1 _ b ha out
      generalize s1.cleanRecord _ = s2 at h1
      have h2 : s1.poisoned b = s.poisoned b ∧ s1.isBad b = s.isBad b := by rw [h0]; exact ⟨rfl, rfl⟩
      exact ⟨h1.1.trans h2.1, h1.2.trans h2.2⟩
    rw [byte_setPhys_of_out]
    · show (State.cleanRecord (State.setPhys _ _ _) _).byte b = _
      rw [cleanRecord_eq]
      show (State.setPhys _ _ _).byte b = _
      rw [byte_setPhys_of_out]
      rw [errRec_bytes_length]
      exact out
    · rw [toBytes_length]
      by_cases h1 : b < (s.die d).ringBase * 2 ^ 12 + 2 ^ (s.die d).ringSize.toNat * 64
      · exact .inl h1
      · by_cases h2 : (s.die d).ringBase * 2 ^ 12 + 2 ^ (s.die d).ringSize.toNat * 64 + 4 ≤ b
        · exact .inr h2
        · exact absurd (ring_mirror _ _ _ (Nat.not_lt.mp h1) (Nat.not_le.mp h2)) hb

theorem log_only (s : State) (d : Nat) (r : ErrRec) : Logs s (s.log d r) := by
  have base : Logs s (s.ringWrite d r) :=
    ⟨fun b hb => byte_ringWrite s d r b (hb d), fun h => by rw [ringWrite_eq]; rfl, by rw [ringWrite_eq]⟩
  unfold State.log
  dsimp only
  split
  · unfold State.report
    split
    · refine ⟨fun b hb => base.memory b hb, fun h => ?_, ?_⟩
      · rw [State.modWork, State.work_setWork]
        split
        · next e => subst e; rw [base.works]
        · exact base.works h
      · rw [base.rest]; rfl
    · exact base
  · exact base

/-- The errors that a write finds hang on the marks of errors alone. -/
theorem findsBad_of {s t : State} (h : t.badSec = s.badSec) (a : Nat) (p : Nat → Bool) : t.findsBad a p = s.findsBad a p := by
  unfold State.findsBad State.isBad
  rw [h]

/-- What the writing of part of a bad sector does (R488). -/
structure Parts (s t : State) (a : Nat) (p : Nat → Bool) : Prop where
  memory : ∀ b, (s.findsBad a p = true → ∀ d, ¬ RingByte s d b) → t.byte b = s.byte b
  bad : ∀ b, sectorOf a = sectorOf b ∨ (s.findsBad a p = true → ∀ d, ¬ RingByte s d b) →
    t.isBad b = (if sectorOf a = sectorOf b ∧ s.findsBad a p = true then false else s.isBad b)
  poisoned : ∀ b, sectorOf a = sectorOf b ∨ (s.findsBad a p = true → ∀ d, ¬ RingByte s d b) →
    t.poisoned b = (if sectorOf a = sectorOf b ∧ s.findsBad a p = true then true else s.poisoned b)
  works : ∀ h, t.work h = { s.work h with report := (t.work h).report }
  rest : t = { s with mem := t.mem, dies := t.dies, works := t.works, poison := t.poison, badSec := t.badSec }

theorem partWrite_does (s : State) (h a : Nat) (p : Nat → Bool) : Parts s (s.partWrite h a p) a p := by
  unfold State.partWrite
  by_cases hb : s.findsBad a p = true
  · rw [if_pos hb]
    unfold State.partRecord
    generalize (if inWindow a = true then bits a 33 32 else if h = 0 then a / 2 ^ 37 else (s.work h).die) = d
    have hl := log_only s d { cause := if inWindow a then 0x23 else 0x21, outcome := 1, handle := h, paddr := sectorOf a }
    generalize s.log d { cause := if inWindow a then 0x23 else 0x21, outcome := 1, handle := h, paddr := sectorOf a } = u at hl
    refine ⟨fun b h1 => (hl.memory b (fun d hd => h1 hb d hd)).1, fun b h1 => ?_, fun b h1 => ?_, fun k => hl.works k, ?_⟩
    · rw [isBad_setPoison, isBad_clearSector]
      by_cases hs : sectorOf a = sectorOf b
      · simp [hs, hb]
      · simp only [hs, if_false, false_and]
        exact (hl.memory b (fun d hd => (h1.resolve_left hs) hb d hd)).2.2
    · rw [poisoned_setPoison, poisoned_clearSector]
      by_cases hs : sectorOf a = sectorOf b
      · simp [hs, hb]
      · simp only [hs, if_false, false_and]
        exact (hl.memory b (fun d hd => (h1.resolve_left hs) hb d hd)).2.1
    · rw [State.setPoison, clearSector_eq, hl.rest]
  · rw [if_neg hb]
    exact ⟨fun _ _ => rfl, fun b _ => by simp [hb], fun b _ => by simp [hb], fun _ => rfl, rfl⟩

theorem badSec_markWrite (s : State) (a n : Nat) (x : Bool) (h : n ≠ 32) : (s.markWrite a n x).badSec = s.badSec := by
  unfold State.markWrite
  simp only [h, if_false]
  split <;> rfl

/-- A store of fewer than 32 bytes of one sector, whole. -/
theorem stored (s : State) (h a : Nat) (l : List Byte) (x : Bool) (hl : l.length < 32) : StoredAt s (s.store h a l x) a l x := by
  unfold State.store
  have e1 := saveUndo_eq s h a
  have m1 := tile_saveUndo s h a
  generalize s.saveUndo h a = s1 at e1 m1 ⊢
  have b1 : ∀ b, s1.byte b = s.byte b := fun b => by rw [e1]; rfl
  have p1 : ∀ b, s1.poisoned b = s.poisoned b := fun b => by rw [e1]; rfl
  have r1 : ∀ d b, RingByte s1 d b = RingByte s d b := fun d b => by rw [e1]; rfl
  have e2 : s1.setBytes a l = { s1 with mem := (s1.setBytes a l).mem } := State.setBytes_eq _ _ _
  have i2 := byte_setBytes_in s1 a l
  have o2 := State.byte_setBytes_of_out s1 a
  generalize hs2 : s1.setBytes a l = s2 at e2 i2 ⊢
  have p2 : ∀ b, s2.poisoned b = s1.poisoned b := fun b => by rw [e2]; rfl
  have r2 : ∀ d b, RingByte s2 d b = RingByte s1 d b := fun d b => by rw [e2]; rfl
  have e3 := markWrite_eq s2 a l.length x
  have k3 := marks_markWrite s2 a l.length x
  have d3 : (s2.markWrite a l.length x).badSec = s.badSec := by rw [badSec_markWrite _ _ _ _ (by omega), e2, e1]
  generalize s2.markWrite a l.length x = s3 at e3 k3 d3 ⊢
  have b3 : ∀ b, s3.byte b = s2.byte b := fun b => by rw [e3]; rfl
  have r3 : ∀ d b, RingByte s3 d b = RingByte s2 d b := fun d b => by rw [e3]; rfl
  have g3 : ∀ b, s3.isBad b = s.isBad b := fun b => by unfold State.isBad; rw [d3]
  have f3 := findsBad_of (t := s3) (s := s) d3 a (within a l.length)
  have k4 := partWrite_does s3 h a (within a l.length)
  generalize s3.partWrite h a (within a l.length) = s4 at k4 ⊢
  have k5 := touchWatches_only s4 a l.length
  generalize s4.touchWatches a l.length = s5 at k5 ⊢
  have b5 : ∀ b, s5.byte b = s4.byte b := fun b => by rw [k5.rest]; rfl
  have g5 : ∀ b, s5.isBad b = s4.isBad b := fun b => by rw [k5.rest]; rfl
  have p5 : ∀ b, s5.poisoned b = s4.poisoned b := fun b => by rw [k5.rest]; rfl
  have hn : l.length ≠ 32 := by omega
  refine ⟨fun hb k hk => ?_, fun b hb hr => ?_, ?_, fun b hb => ?_, fun b hb hr => ⟨?_, ?_⟩, fun e => ?_, fun k => ?_, fun n => ?_, ?_⟩
  · rw [b5, k4.memory _ (fun hh => by rw [f3, hb] at hh; exact absurd hh (by simp)), b3]; exact i2 k hk
  · rw [b5, k4.memory _ (fun hh d => by rw [r3, r2, r1]; exact hr (by rwa [f3] at hh) d), b3, ← hs2, o2 _ _ hb, b1]
  · rw [p5, k4.poisoned _ (.inl rfl), (k3 a).1, f3]
    simp only [hn, p2, p1]
    cases s.findsBad a (within a l.length) <;> simp
  · rw [g5, k4.bad _ (.inl hb.symm), f3, g3]
    cases s.findsBad a (within a l.length) <;> simp [hb]
  · rw [p5, k4.poisoned _ (.inr fun hh d => by rw [r3, r2, r1]; exact hr (by rwa [f3] at hh) d), (k3 b).1]; simp [Ne.symm hb, p2, p1]
  · rw [g5, k4.bad _ (.inr fun hh d => by rw [r3, r2, r1]; exact hr (by rwa [f3] at hh) d), g3]; simp [Ne.symm hb]
  · rw [k5.elems]; simp only [State.elem]; rw [k4.rest, e3, e2, e1]
  · have : s5.work k = s4.work k := by rw [k5.rest]; rfl
    rw [this, k4.works]; simp only [State.work]; rw [e3, e2, e1]
  · have : s5.tile n = s1.tile n := by rw [k5.rest, k4.rest, e3, e2]; rfl
    rw [this]; exact m1 n
  · rw [k5.rest, k4.rest, e3, e2, e1]

/-! ### Translations -/

theorem TransOnly.refl (s : State) (l : Option Tlb) : TransOnly s s l :=
  ⟨fun _ => rfl, fun _ => rfl, fun _ => rfl, fun _ => rfl, fun _ _ => rfl, rfl⟩

theorem TransOnly.trans {s t u : State} {l : Option Tlb} (h : TransOnly s t l) (k : TransOnly t u l) : TransOnly s u l where
  elems e := by rw [k.elems e, h.elems e]
  quads q := by rw [k.quads q, h.quads q]
  dies d := by rw [k.dies d, h.dies d]
  threads n := by rw [k.threads n, h.threads n]
  memory a ha := (k.memory a ha).trans (h.memory a ha)
  rest := by have := k.rest; rw [← h.rest, ← this]

theorem TransOnly.modElem (s : State) (l : Option Tlb) (e : Nat) (f : List Tlb → List Tlb) :
    TransOnly s (s.modElem e (fun x => { x with tlb := f x.tlb })) l where
  elems k := by
    rw [State.modElem, State.elem_setElem]; split
    · next h => subst h; rfl
    · rfl
  quads _ := rfl
  dies _ := rfl
  threads _ := rfl
  memory _ _ := rfl
  rest := rfl

theorem TransOnly.modQuad (s : State) (l : Option Tlb) (e : Nat) (f : List Tlb → List Tlb) :
    TransOnly s (s.modQuad e (fun x => { x with tlb := f x.tlb })) l where
  elems _ := rfl
  quads k := by
    rw [State.modQuad, State.quad_setQuad]; split
    · next h => subst h; rfl
    · rfl
  dies _ := rfl
  threads _ := rfl
  memory _ _ := rfl
  rest := rfl

theorem TransOnly.modDie (s : State) (l : Option Tlb) (e : Nat) (f : List Tlb → List Tlb) :
    TransOnly s (s.modDie e (fun x => { x with tlb := f x.tlb })) l where
  elems _ := rfl
  quads _ := rfl
  dies k := by
    rw [State.modDie, State.die_setDie]; split
    · next h => subst h; rfl
    · rfl
  threads _ := rfl
  memory _ _ := rfl
  rest := rfl

theorem TransOnly.cachePut (s : State) (p : TransPlace) (n : Nat) (t : Tlb) (l : Option Tlb) : TransOnly s (s.cachePut p n t) l := by
  have h1 : TransOnly s (match p.elem with
    | some e => s.modElem e (fun x => { x with tlb := tlbPut 16 x.tlb t })
    | none => s) l := by
    split
    · exact TransOnly.modElem s l _ (fun l => tlbPut 16 l t)
    · exact TransOnly.refl s l
  have h2 : ∀ u, TransOnly u (match p.quad with
    | some q => if 2 ≤ n then u.modQuad q (fun x => { x with tlb := tlbPut 4096 x.tlb t }) else u
    | none => u) l := by
    intro u
    split
    · split
      · exact TransOnly.modQuad u l _ (fun l => tlbPut 4096 l t)
      · exact TransOnly.refl u l
    · exact TransOnly.refl u l
  unfold State.cachePut
  dsimp only
  split
  · exact TransOnly.trans (TransOnly.trans h1 (h2 _)) (TransOnly.modDie _ l _ (fun l => tlbPut 65536 l t))
  · exact TransOnly.trans h1 (h2 _)

theorem TransOnly.useLeaf (s : State) (t : Tlb) (acc : Acc) : TransOnly s (s.useLeaf t acc) (some t) := by
  unfold State.useLeaf
  dsimp only
  split
  · exact TransOnly.refl s _
  · rw [setPhys_eq]
    refine ⟨fun _ => rfl, fun _ => rfl, fun _ => rfl, fun _ => rfl, fun a ha => ?_, rfl⟩
    show (State.setPhys _ _ _).byte a = _
    exact byte_setPhys_of_out _ _ _ _ (by simpa [toBytes_length] using ha t rfl)

/-- A translation that succeeds changes the caches and its leaf alone (R390, R391). -/
theorem translate_only {s s' : State} {p : TransPlace} {asid va ident pa : Nat} {acc : Acc} {tl : Tlb}
    (h : s.translate p asid va acc ident = .ok pa tl s') : TransOnly s s' (leafFor s p asid va) := by
  have key : ∀ n t, s.throughLeaf p va acc ident n t = .ok pa tl s' → TransOnly s s' (some t) := fun n t ht => by
    unfold State.throughLeaf at ht
    split at ht
    · exact nomatch ht
    · injection ht with _ _ h3
      rw [← h3]; exact TransOnly.trans (TransOnly.useLeaf s t acc) (TransOnly.cachePut _ _ _ _ _)
  unfold State.translate at h
  unfold leafFor
  split at h
  · next t ht =>
    try rw [ht]
    exact key _ _ h
  · next ht =>
    try rw [ht]
    split at h
    · next t hw => simp only [hw]; exact key _ _ h
    · exact nomatch h
    · exact nomatch h

/-- A crossing to a die that a path reaches tells the canary at most. -/
theorem TransOnly.cross (s : State) (h d pa : Nat) (l : Option Tlb) (hc : s.cutOff d pa = false) : TransOnly s (s.cross h d pa) l := by
  unfold State.cross
  split
  · exact TransOnly.refl s l
  · rw [hc]
    simp only [Bool.false_eq_true, if_false]
    unfold State.canaryEvent
    split
    · exact TransOnly.refl s l
    · refine ⟨fun _ => rfl, fun _ => rfl, fun _ => rfl, fun n => ?_, fun _ _ => rfl, rfl⟩
      simp only [State.modThread, State.thread_setThread]
      split
      · next hn => subst hn; rfl
      · rfl

/-- An access of a thread that finds its location changes the caches and its leaf alone. -/
theorem touch_only {s s' : State} {n va a : Nat} {acc : Acc} (h : s.touch n va acc = .ok a s') :
    TransOnly s s' (leafFor s (threadPlace n) (s.work (s.thread n).bound).asid va) := by
  unfold State.touch at h
  split at h
  · split at h
    · injection h with _ h2; rw [← h2]; exact TransOnly.refl _ _
    · exact nomatch h
  · dsimp only at h
    split at h
    · exact nomatch h
    · split at h
      · split at h
        · injection h with _ h2; rw [← h2]; exact TransOnly.refl _ _
        · exact nomatch h
      · split at h
        · next ht =>
          split at h
          · exact nomatch h
          · next hc =>
            injection h with _ h2
            rw [← h2]
            exact TransOnly.trans (translate_only ht) (TransOnly.cross _ _ _ _ _ (by simpa using hc))
        · split at h <;> exact nomatch h
        · exact nomatch h

end Sys2Proof.Machine
end

