-- ==== Sys2Proof/Laws/Lanes.lean ====
section
/-! SUPPORT. Lanes and elements: what a lane built by a function reads, and what an element-by-element computation gives (R147, R151). -/

namespace Sys2Proof.Machine

open Sys2Proof

theorem Lanes.get_ofFn (f : Nat → Word) (l : Nat) (h : l < 8) : (Lanes.ofFn f).get l = f l := by
  match l, h with
  | 0, _ | 1, _ | 2, _ | 3, _ | 4, _ | 5, _ | 6, _ | 7, _ => rfl

theorem Lanes.get_set (p : Lanes) (n l : Nat) (x : Word) (h : l < 8) : (p.set n x).get l = if l = n then x else p.get l :=
  Lanes.get_ofFn _ l h

/-- A packed lane lies below the bits of its elements. -/
theorem packElems_lt (n : Nat) (f : Nat → Nat) (k : Nat) : packElems n f k < 2 ^ (n * k) := by
  induction k with
  | zero => simp [packElems]
  | succ k ih =>
    have h : f k % 2 ^ n < 2 ^ n := Nat.mod_lt _ (Nat.two_pow_pos n)
    calc packElems n f k + f k % 2 ^ n * 2 ^ (n * k) < 2 ^ (n * k) + f k % 2 ^ n * 2 ^ (n * k) := by omega
      _ = (f k % 2 ^ n + 1) * 2 ^ (n * k) := by rw [Nat.add_mul, Nat.one_mul, Nat.add_comm]
      _ ≤ 2 ^ n * 2 ^ (n * k) := Nat.mul_le_mul_right _ h
      _ = 2 ^ (n * (k + 1)) := by rw [← Nat.pow_add]; congr 1; rw [Nat.mul_add, Nat.mul_one, Nat.add_comm]

/-- Element e of a packed lane. -/
theorem packElems_at (n : Nat) (f : Nat → Nat) (k e : Nat) (h : e < k) : packElems n f k / 2 ^ (n * e) % 2 ^ n = f e % 2 ^ n := by
  induction k with
  | zero => omega
  | succ k ih =>
    simp only [packElems]
    by_cases he : e = k
    · subst he
      rw [Nat.add_mul_div_right _ _ (Nat.two_pow_pos _), Nat.div_eq_of_lt (packElems_lt n f e), Nat.zero_add, Nat.mod_mod]
    · have hlt : e < k := by omega
      have hk : n * k = n * e + (n + n * (k - e - 1)) := by
        have : k = e + (1 + (k - e - 1)) := by omega
        calc n * k = n * (e + (1 + (k - e - 1))) := by rw [← this]
          _ = n * e + (n + n * (k - e - 1)) := by rw [Nat.mul_add, Nat.mul_add, Nat.mul_one]
      rw [hk, Nat.pow_add, Nat.pow_add, Nat.mul_comm (2 ^ (n * e)), ← Nat.mul_assoc, Nat.add_mul_div_right _ _ (Nat.two_pow_pos _),
        Nat.mul_comm (2 ^ n), ← Nat.mul_assoc, Nat.add_mul_mod_self_right]
      exact ih hlt

theorem width_count (t : Ty) : Ty.width t * Ty.count t = 32 := by cases t <;> rfl

/-- Lane l of an element-by-element result. -/
theorem ewise_get (t : Ty) (m : BitVec 8) (f : Nat → Nat → Nat × Bool) (l : Nat) (h : l < 8) : (ewise t m f).1.p.get l =
    if mbit m l then BitVec.ofNat 32 (packElems (Ty.width t) (fun e => (f l e).1) (Ty.count t)) else 0 := Lanes.get_ofFn _ l h

/-- Element e of a valid lane of an element-by-element result. -/
theorem elemAt_ewise (t : Ty) (m : BitVec 8) (f : Nat → Nat → Nat × Bool) (l e : Nat) (h : l < 8) (hm : mbit m l = true) (he : e < Ty.count t) :
    elemAt (Ty.width t) (ewise t m f).1 l e = (f l e).1 % 2 ^ Ty.width t := by
  have hlt : packElems (Ty.width t) (fun e => (f l e).1) (Ty.count t) < 2 ^ 32 := by
    have := packElems_lt (Ty.width t) (fun e => (f l e).1) (Ty.count t); rwa [width_count] at this
  unfold elemAt
  rw [ewise_get t m f l h, hm, if_pos rfl, BitVec.toNat_ofNat, Nat.mod_eq_of_lt hlt]
  exact packElems_at _ (fun e => (f l e).1) _ e he

theorem anyBelow_eq (p : Nat → Bool) (k : Nat) : anyBelow p k = (List.range k).any p := by
  induction k with
  | zero => rfl
  | succ k ih => simp [anyBelow, ih, List.range_succ]

theorem mbit_and (a b : BitVec 8) (l : Nat) : mbit (a &&& b) l = (mbit a l && mbit b l) := by simp [mbit]

/-- An element-by-element computation is the result of its rule (R147, R151): f gives the rule's values, m is the lanes valid in every operand,
and the poison of the operands is added. -/
theorem laneResult_of_ewise (R : LaneRule) (ops : List VReg) (t : Ty) (m : BitVec 8) (f : Nat → Nat → Nat × Bool) (hw : R.width = Ty.width t)
    (hc : R.count = Ty.count t) (hm : ∀ l, l < 8 → mbit m l = ops.all (fun o => mbit o.m l))
    (hf : ∀ (r : VReg) l k, ops ≠ [] → f l k = R.value (elemAt (Ty.width t) (ops.getD 0 r) l k) (elemAt (Ty.width t) (ops.getD 1 r) l k)
      (elemAt (Ty.width t) (ops.getD 2 r) l k)) (hne : ops ≠ []) :
    LaneResult R ops { (ewise t m f).1 with x := ops.any (fun o => o.x) || (ewise t m f).2 } where
  valid l h := hm l h
  invalid l h hl := by
    have : mbit m l = false := hl
    show (ewise t m f).1.p.get l = 0
    rw [ewise_get t m f l h, this]; rfl
  value l k h hk hl := by
    rw [hw, ← hf _ l k hne]
    exact elemAt_ewise t m f l k h hl (hc ▸ hk)
  poison := by
    simp only [ewise, anyBelow_eq]
    congr 2
    funext l
    congr 1
    rw [hc]
    congr 1
    funext k
    rw [hw, ← hf _ l k hne]

end Sys2Proof.Machine
end

