-- ==== Sys2Proof/Laws/Memory.lean ====
section
/-! SUPPORT. Memory: what a byte reads after a write, and that every operation over memory keeps its canonical form. -/

namespace Sys2Proof.Machine

open Sys2Proof

/-- Memory at reset is in its canonical form. -/
theorem inv_reset : Inv State.reset := rfl

/-- The invariant concerns memory alone. -/
theorem inv_of_mem {s t : State} (h : t.mem = s.mem) (hs : Inv s) : Inv t := by unfold Inv at *; rw [h]; exact hs

theorem inv_setByte {s : State} (a : Nat) (b : Byte) (hs : Inv s) : Inv (s.setByte a b) := SMap.wf_set _ _ _ _ hs

theorem inv_setBytes {s : State} (a : Nat) (l : List Byte) (hs : Inv s) : Inv (s.setBytes a l) := by
  induction l generalizing s a with
  | nil => exact hs
  | cons b r ih => exact ih (a + 1) (inv_setByte a b hs)

theorem inv_setPhys {s : State} (a : Nat) (l : List Byte) (hs : Inv s) : Inv (s.setPhys a l) := by
  unfold State.setPhys; split
  · exact inv_setBytes a l hs
  · exact hs

/-- Cells taken out of memory leave the form. -/
theorem wfFrom_filter (p : Host.Cell → Bool) (m : List Host.Cell) (lo : Nat) (h : SMap.wfFrom 0#8 lo m = true) :
    SMap.wfFrom 0#8 lo (m.filter p) = true := by
  induction m generalizing lo with
  | nil => rfl
  | cons c r ih =>
    obtain ⟨k, v⟩ := c
    simp only [SMap.wfFrom, Bool.and_eq_true, decide_eq_true_eq] at h
    rw [List.filter_cons]
    split
    · simp only [SMap.wfFrom, Bool.and_eq_true, decide_eq_true_eq]; exact ⟨h.1, ih (k + 1) h.2⟩
    · exact SMap.wfFrom_weaken _ _ (by omega) (ih (k + 1) h.2)

theorem inv_filter {s : State} (p : Host.Cell → Bool) (hs : Inv s) : Inv { s with mem := s.mem.filter p } := wfFrom_filter p s.mem 0 hs

theorem inv_ringWrite {s : State} (d : Nat) (r : ErrRec) (hs : Inv s) : Inv (s.ringWrite d r) := by
  unfold State.ringWrite; dsimp only; split
  · exact inv_of_mem rfl hs
  · exact inv_setPhys _ _ (inv_of_mem (by rw [State.setDie, cleanRecord_eq]) (inv_setPhys _ _ hs))

theorem inv_report {s : State} (h : Nat) (k : Token) (hs : Inv s) : Inv (s.report h k) := by
  unfold State.report; split
  · exact inv_of_mem rfl hs
  · exact hs

theorem inv_log {s : State} (d : Nat) (r : ErrRec) (hs : Inv s) : Inv (s.log d r) := by
  unfold State.log; dsimp only; split
  · exact inv_report _ _ (inv_ringWrite d r hs)
  · exact inv_ringWrite d r hs

/-- A fold of steps that keep the form keeps it. -/
theorem inv_foldl {α : Type} (f : State → α → State) (hf : ∀ s a, Inv s → Inv (f s a)) (l : List α) {s : State} (hs : Inv s) :
    Inv (l.foldl f s) := by
  induction l generalizing s with
  | nil => exact hs
  | cons a r ih => exact ih (hf s a hs)

theorem inv_forN (f : Nat → State → State) (hf : ∀ i s, Inv s → Inv (f i s)) (n i : Nat) {s : State} (hs : Inv s) : Inv (forN f n i s) :=
  forN_keeps Inv f hf n i s hs

theorem inv_store {s : State} (h a : Nat) (l : List Byte) (x : Bool) (hs : Inv s) : Inv (s.store h a l x) := by
  have h1 : Inv (s.saveUndo h a) := inv_of_mem (by rw [saveUndo_eq]) hs
  have h2 := inv_setBytes a l h1
  have h3 : Inv (((s.saveUndo h a).setBytes a l).markWrite a l.length x) := inv_of_mem (by rw [markWrite_eq]) h2
  have h4 : ∀ p, Inv ((((s.saveUndo h a).setBytes a l).markWrite a l.length x).partWrite h a p) := by
    intro p
    unfold State.partWrite; split
    · exact inv_of_mem rfl (inv_log _ _ h3)
    · exact h3
  unfold State.store
  exact inv_of_mem (by rw [(touchWatches_only _ _ _).rest]) (h4 _)

end Sys2Proof.Machine
end

