-- ==== Sys2Proof/Tests/Slice0.lean ====
section
/-! SUPPORT. Tests of the model. For every obligation with hypotheses, witnesses wit_<obligation>… that states meet them, at the ends of their
ranges; ill-formed terms that WellFormed refuses; words written out from the spec's encodings, with what they decode to; and single steps with
results from the spec's examples. -/

namespace Sys2Proof.Tests

set_option Elab.async false

open Sys2Proof Sys2Proof.Machine

/-- Each word of n bits decodes to the instruction beside it. -/
def decodesAs (n : Nat) (l : List (Nat × Instr)) : Bool := l.all (fun p => decodeTableWord n p.1 == some p.2)
/-- An element word of the fields that the tests vary. -/
def ew (qa qb : Option (Fin 6)) (ty : Ty) (sa sb : Src) (d0 d1 : Dest) (pa pb : Bool) (ot : BitVec 4) : EWord :=
  { x := false, pm := 0, pv := 0, qa := qa, ta := .any, qb := qb, tb := .any, tv := 0, ty := ty, sa := sa, sb := sb, d0 := d0, d1 := d1,
    pa := pa, pb := pb, ot := ot, ps := 0, pc := 0 }

/-! ### States that the tests start from -/

/-- Working 1 with one claim of die 0, and its thread 0, which runs at the start of the working's tile SRAM; the firmware of every die has
started. -/
def base : State := { State.reset.placeProgram [] with dies := (List.range 4).map (fun d => (d, { started := true })) }

/-- Parts of base changed. -/
def withThread (f : Thread → Thread) (s : State := base) : State := s.modThread 0 f
def withWork (f : Working → Working) (s : State := base) : State := s.modWork 1 f
def withQuad (f : Quad → Quad) (s : State := base) : State := s.modQuad 0 f
def withDie (f : Die → Die) (s : State := base) : State := s.modDie 0 f
def withElem (e : Nat) (f : Elem → Elem) (s : State := base) : State := s.modElem e f

/-- Thread 0 with registers 4 to 7 as given. -/
def regs (a b c d : DWord) (s : State := base) : State := withThread (fun x => { x with g := [(4, a), (5, b), (6, c), (7, d)] }) s

/-- Thread 0 waiting. -/
def waiting (w : Wait) (s : State := base) : State := withThread (fun x => { x with wait := w }) s

/-- The start of working 1's tile SRAM. -/
def tileBase : DWord := BitVec.ofNat 64 (2 ^ 40)

/-- The instruction that an outcome gives a next state for, read by f. -/
def after {α : Type} (f : State → α) (o : Host.Outcome State Fault Refusal) : Option α :=
  match o with
  | .next t => some (f t)
  | _ => none

/-- An access of a memory opcode with nothing in it. -/
def accOf (seq op : Nat) (desc : Word := 0) : Access :=
  { seq := seq, op := op, ty := 12, a := VReg.zero, b := VReg.zero, desc := desc, d0 := 0x380, d1 := 0x380, t0 := 0, t1 := 0, l0 := false,
    l1 := false, c := 0, i := 0, x := false }

/-- A layout entry of R201 in tile SRAM: readable, writable and atomic, one dimension; flags are bits [7:3], size a code of R201. -/
def entOf (space flags size ext base0 base1 : Nat) : BitVec 512 :=
  BitVec.ofNat 512 (space + flags * 2 ^ 3 + size * 2 ^ 8 + 7 * 2 ^ 16 + ext * 2 ^ 64 + 2 ^ 192 + base0 * 2 ^ 320 + base1 * 2 ^ 384)

/-- Entries: 0 words of four bytes, 1 the same with a shadow, 2 sectors, and 3 words in HBM. -/
def layout4 : SMap (BitVec 512) :=
  [(0, entOf 2 0 2 16 0x100 0), (1, entOf 2 2 2 16 0x200 0x300), (2, entOf 2 0 5 8 0x400 0), (3, entOf 1 0 2 16 0x1000 0)]

/-- Working 1 with these entries. -/
def laid (s : State := base) : State := withWork (fun w => { w with layout := layout4 }) s

/-- A copy of one element (R290): the kind, the entries, and the completion word's place and value. -/
def cmdOf (kind flags sent dent cent n0 cc cv : Nat) : Nat :=
  kind + flags * 2 ^ 8 + sent * 2 ^ 16 + dent * 2 ^ 24 + cent * 2 ^ 32 + (n0 + 2 ^ 32 + 2 ^ 64 + 2 ^ 96) * 2 ^ 320 + cc * 2 ^ 448 + cv * 2 ^ 480

/-- Bytes in memory. -/
def stored (a : Nat) (l : List Byte) (s : State := base) : State := s.setBytes a l

/-- Every hoist of die 0 busy. -/
def busy (s : State := base) : State :=
  withDie (fun d => { d with hoists := (List.range 32).map (fun n => (n, ({ busy := true } : Hoist))) }) s

/-- An open region with nothing kept. -/
def region : Region :=
  { restart := 0, rd := 7, retry := 0, keeps := [], regs := [], macs := [], isls := [], state := .running, active := 0, next := 0, expl := false,
    budget := 0, inPhase := true, sinks := [], room := [] }

/-- A configuration image of one block (R120, R126) in version 3 form: context, then the CRC-64 of the block and of the image. Its element at
position 0 is the phase element, and no slot is used. -/
def imageBytes (ctx blockCrc imageCrc : Nat) : List Byte :=
  List.flatten [toBytes 4 0x0003C0F6, [1, 1, 0, BitVec.ofNat 8 (2 ^ ctx)], toBytes 8 1, toBytes 8 64, toBytes 16 0, toBytes 8 2000, toBytes 8 0,
    toBytes 8 imageCrc, toBytes 8 blockCrc, toBytes 8 (0xB10C300000000000 + 0xFFFF + ctx * 2 ^ 16), List.replicate 1571 0, [8],
    List.replicate 119 0, [1], List.replicate 159 0, [2], List.replicate 68 0]

/-- The image of context 0; its CRCs are worked out by R122 outside Lean. -/
def image0 : List Byte := imageBytes 0 0xF3111120785942A0 0x2E2625D9A03E1036

/-- Memory that holds a list of bytes from an address, and nothing else. -/
def memOf : Nat → List Byte → List Host.Cell
  | _, [] => []
  | a, b :: l => if b = 0 then memOf (a + 1) l else (a, b) :: memOf (a + 1) l

theorem get_memOf_below (l : List Byte) (a i : Nat) (h : i < a) : SMap.get 0#8 (memOf a l) i = 0 := by
  induction l generalizing a with
  | nil => rfl
  | cons b l ih =>
    rw [memOf]
    split
    · exact ih (a + 1) (by omega)
    · rw [SMap.get, if_neg (by omega)]; exact ih (a + 1) (by omega)

theorem get_memOf (l : List Byte) (a i : Nat) : SMap.get 0#8 (memOf a l) (a + i) = l.getD i 0 := by
  induction l generalizing a i with
  | nil => rfl
  | cons b l ih =>
    rw [memOf]
    cases i with
    | zero =>
      split
      · rw [get_memOf_below _ _ _ (by omega)]; simp_all
      · rw [SMap.get, if_pos (by omega)]; rfl
    | succ i =>
      have e : a + (i + 1) = a + 1 + i := by omega
      split
      · rw [e, ih]; rfl
      · rw [SMap.get, if_neg (by omega), e, ih]; rfl

theorem bytesAt_length (s : State) (a n : Nat) : (s.bytesAt a n).length = n := by
  induction n generalizing a with
  | zero => rfl
  | succ n ih => rw [State.bytesAt, List.length_cons, ih]

theorem bytesAt_getElem (s : State) (a n k : Nat) (h : k < (s.bytesAt a n).length) : (s.bytesAt a n)[k] = s.byte (a + k) := by
  induction n generalizing a k with
  | zero => exact absurd h (Nat.not_lt_zero _)
  | succ n ih =>
    cases k with
    | zero => rfl
    | succ k =>
      have := ih (a + 1) k (by rw [bytesAt_length] at h ⊢; omega)
      simp only [State.bytesAt, List.getElem_cons_succ, this]; congr 1; omega

/-- A leaf of 2^30 bytes at address 0, readable and writable, used and written (R386, R388). -/
def leaf0 : Tlb := ⟨0, 0, 30, 0xCF, 0⟩

/-- A state with this leaf in the caches of die 0, quad 0 and element 7. -/
def mapped (s : State := base) : State :=
  withElem 7 (fun x => { x with tlb := [leaf0] }) (withDie (fun d => { d with tlb := [leaf0] }) (withQuad (fun q => { q with tlb := [leaf0] }) s))

/-- A check that passes with no overlaps. -/
def passes (r : Except LoadErr (List Overlap)) : Bool :=
  match r with
  | .ok l => l.isEmpty
  | .error _ => false

theorem passes_eq {r : Except LoadErr (List Overlap)} (h : passes r = true) : r = .ok [] := by
  cases r <;> simp_all [passes]

/-! ### Translation through this leaf -/

/-- The caches of die 0 and quad 0 hold leaf0. -/
structure Maps (s : State) : Prop where
  quads : s.quads = (mapped base).quads
  dies : s.dies = (mapped base).dies

theorem Maps.cachePut {s : State} (m : Maps s) (p : TransPlace) (he : p.elem = none) (hq : p.quad = none ∨ p.quad = some 0) (hd : p.die = 0)
    (n : Nat) : s.cachePut p n leaf0 = s := by
  have h1 : s.modDie 0 (fun x => { x with tlb := tlbPut 65536 x.tlb leaf0 }) = s := by
    have : (s.modDie 0 (fun x => { x with tlb := tlbPut 65536 x.tlb leaf0 })).dies = s.dies := by
      rw [State.modDie, State.setDie, State.die, m.dies]; rfl
    have e : ∀ l, l = s.dies → { s with dies := l } = s := by rintro _ rfl; rfl
    exact e _ this
  have h2 : s.modQuad 0 (fun x => { x with tlb := tlbPut 4096 x.tlb leaf0 }) = s := by
    have : (s.modQuad 0 (fun x => { x with tlb := tlbPut 4096 x.tlb leaf0 })).quads = s.quads := by
      rw [State.modQuad, State.setQuad, State.quad, m.quads]; rfl
    have e : ∀ l, l = s.quads → { s with quads := l } = s := by rintro _ rfl; rfl
    exact e _ this
  obtain ⟨e, q, d⟩ := p
  subst he hd
  rcases hq with rfl | rfl
  · by_cases hn : 3 ≤ n <;> simp [State.cachePut, hn, h1]
  · by_cases hn : 3 ≤ n <;> by_cases hm : 2 ≤ n <;> simp [State.cachePut, hn, hm, h1, h2]

theorem Maps.translate {s : State} (m : Maps s) (p : TransPlace) (he : p.elem = none) (hq : p.quad = none ∨ p.quad = some 0) (hd : p.die = 0)
    (va : Nat) (acc : Acc) (ident : Nat) (h : va < 2 ^ 30) : s.translate p 0 va acc ident = .ok va leaf0 s := by
  have ht : ∀ l, l = [leaf0] → tlbFind l 0 va = some leaf0 := by
    rintro _ rfl
    have : va / 2 ^ 30 * 2 ^ 30 = 0 := by omega
    simp [tlbFind, leaf0, this] <;> omega
  have hf : ∃ n, s.cacheFind p 0 va = some (n, leaf0) ∧ s.cachePut p n leaf0 = s := by
    have q0 : (s.quad 0).tlb = [leaf0] := by rw [State.quad, m.quads]; rfl
    have d0 : (s.die 0).tlb = [leaf0] := by rw [State.die, m.dies]; rfl
    refine ⟨if p.quad = none then 3 else 2, ?_, m.cachePut p he hq hd _⟩
    rcases hq with hq | hq <;> simp [State.cacheFind, he, hq, hd, q0, d0, ht]
  have hu : leafUsed leaf0 acc = leaf0 := by cases acc <;> rfl
  have hr : leafRefuses leaf0 acc ident = none := by cases acc <;> rfl
  have ha : leafAddr leaf0 va = va := by
    have : leafAddr leaf0 va = 0 * 2 ^ 30 + va % 2 ^ 30 := rfl
    omega
  have hl : s.useLeaf leaf0 acc = s := by rw [State.useLeaf]; simp [hu]
  obtain ⟨n, hf, hc⟩ := hf
  rw [State.translate, hf]
  simp only [State.throughLeaf, hr, hu, ha, hl, hc]

theorem not_window {va : Nat} (h : va < 2 ^ 30) : inWindow va = false := by
  have : ¬ 2 ^ 40 ≤ va := by omega
  rw [inWindow, decide_eq_false this]; rfl

/-- Thread 0 of a working whose address space is 0 finds every address below 2^30 at itself. -/
theorem Maps.touch {s : State} (m : Maps s) (ha : (s.work (s.thread 0).bound).asid = 0) (va : Nat) (acc : Acc) (h : va < 2 ^ 30) :
    s.touch 0 va acc = .ok va s := by
  have h56 : ¬ 2 ^ 56 ≤ va := by omega
  have hi : isAssay 0 = false := rfl
  rw [State.touch, hi, if_neg (by simp), if_neg h56, not_window h, if_neg (by simp), ha]
  have hd : dieOfAddr va = 0 := by
    rw [dieOfAddr, not_window h, if_neg (by simp)]
    omega
  have hc : s.cutOff (dieOfThread 0) va = false := by rw [State.cutOff, hd]; rfl
  have hx : s.cross (s.thread 0).bound (dieOfThread 0) va = s := by rw [State.cross, hd]; rfl
  rw [m.translate _ rfl (.inr rfl) rfl va acc _ h]
  simp only [hc, hx]; rfl

/-- The loader and the banksman do too, on die 0. -/
theorem Maps.loadFind {s : State} (m : Maps s) (va : Nat) (h : va < 2 ^ 30) : State.loadFind 0 0 s va = .ok va s := by
  have h56 : ¬ 2 ^ 56 ≤ va := by omega
  rw [State.loadFind, if_neg h56, not_window h, if_neg (by simp), m.translate _ rfl (.inl rfl) rfl va _ _ h]

theorem bytesAt_append (s : State) (a m n : Nat) : s.bytesAt a (m + n) = s.bytesAt a m ++ s.bytesAt (a + m) n := by
  induction m generalizing a with
  | zero => rw [Nat.zero_add]; rfl
  | succ m ih => rw [Nat.succ_add, State.bytesAt, State.bytesAt, ih, List.cons_append, show a + 1 + m = a + (m + 1) by omega]

theorem readSectors_of {s : State} {r : Reader} (hb : s.badSec = []) (hf : ∀ va, va < 2 ^ 30 → r.find s va = .ok va s) (n va : Nat)
    (h : va + 32 * n ≤ 2 ^ 30) : s.readSectors r n va = .ok (s.bytesAt va (32 * n)) s := by
  induction n generalizing va with
  | zero => rfl
  | succ n ih =>
    have hg : s.isBad va = false := by rw [State.isBad, hb]; rfl
    have e : 32 * (n + 1) = 32 + 32 * n := by omega
    simp [State.readSectors, hf va (by omega), hg, ih (va + 32) (by omega), e, bytesAt_append]

/-- A reading of bytes that memory holds from an address that is a multiple of 32. -/
theorem readSpan_of {s : State} {r : Reader} (hb : s.badSec = []) (hf : ∀ va, va < 2 ^ 30 → r.find s va = .ok va s) (va n : Nat) (l : List Byte)
    (hm : s.mem = memOf va l) (ha : va % 32 = 0) (h : va + n + 64 ≤ 2 ^ 30) (hl : n ≤ l.length) : s.readSpan r va n = .ok (l.take n) s := by
  rw [State.readSpan, show va / 32 * 32 = va by omega, readSectors_of hb hf _ _ (by omega), ha]
  have e : sliceB (s.bytesAt va (32 * ((0 + n + 31) / 32))) 0 n = l.take n := by
    have hlen : ((s.bytesAt va (32 * ((0 + n + 31) / 32))).take n).length = n := by rw [List.length_take, bytesAt_length]; omega
    rw [sliceB, List.drop_zero, hlen, Nat.sub_self, List.replicate_zero, List.append_nil]
    apply List.ext_getElem
    · rw [hlen, List.length_take]; omega
    · intro k h1 h2
      rw [List.getElem_take, List.getElem_take, bytesAt_getElem, State.byte, hm, get_memOf]
      rw [List.length_take] at h2
      simp [List.getD, List.getElem?_eq_getElem (show k < l.length by omega)]
  simp only [e]

theorem readImage_of {s : State} {r : Reader} (hb : s.badSec = []) (hf : ∀ va, va < 2 ^ 30 → r.find s va = .ok va s) (va : Nat) (l : List Byte)
    (hm : s.mem = memOf va l) (ha : va % 32 = 0) (h : va + l.length + 128 ≤ 2 ^ 30) (h64 : 64 ≤ l.length)
    (h2 : (imageOf (l.take 64)).fieldErr.isSome = false) (h3 : (imageOf (l.take 64)).length = l.length) : s.readImage r va = .ok l s := by
  rw [State.readImage, readSpan_of hb hf va 64 l hm ha (by omega) h64]
  simp [h2, h3, readSpan_of hb hf va l.length l hm ha (by omega) (Nat.le_refl _)]

/-! ### Writing through this leaf -/

/-- A store to HBM of a state without uncorrectable errors changes memory and marks alone. -/
theorem store_plain (s : State) (h a : Nat) (l : List Byte) (x : Bool) (hb : s.badSec = []) (ha : a < 2 ^ 30) :
    ∃ m p, s.store h a l x = { s with mem := m, poison := p } := by
  have hw : windowTile a = none := by rw [windowTile, not_window ha]; rfl
  have h1 : s.saveUndo h a = s := by rw [State.saveUndo, hw]
  have h2 : ∀ (l : List Byte) (a : Nat) (s : State), ∃ m, s.setBytes a l = { s with mem := m } := by
    intro l
    induction l with
    | nil => exact fun a s => ⟨s.mem, rfl⟩
    | cons b l ih => exact fun a s => by obtain ⟨m, e⟩ := ih (a + 1) (s.setByte a b); exact ⟨m, e⟩
  obtain ⟨m, h2⟩ := h2 l a s
  have h3 : ∃ p, ({ s with mem := m } : State).markWrite a l.length x = { s with mem := m, poison := p } := by
    have e1 : ∀ b, ({ s with mem := m } : State).setBad b false = { s with mem := m } := by
      intro b
      have : SMap.set false ([] : SMap Bool) (badUnit b) false = [] := rfl
      rw [State.setBad]; simp only [hb, this]
    have e : ({ s with mem := m } : State).clearSector a = { s with mem := m } := by simp only [State.clearSector, e1]
    by_cases hn : l.length = 32 <;> cases x <;> simp [State.markWrite, hn, e, State.setPoison]
  obtain ⟨p, h3⟩ := h3
  have h4 : ({ s with mem := m, poison := p } : State).partWrite h a (within a l.length) = { s with mem := m, poison := p } := by
    have : ∀ b, ({ s with mem := m, poison := p } : State).isBad b = false := by
      intro b
      show SMap.get false s.badSec _ = false
      rw [hb]; rfl
    simp [State.partWrite, State.findsBad, this]
  exact ⟨m, p, by rw [State.store, h1, h2, h3, h4, State.touchWatches, hw]⟩

theorem writeSectors_of (s : State) (bad : List Nat) (va : Nat) (l : List Byte) (f n : Nat) (m : Maps s) (hb : s.badSec = [])
    (ha : (s.work (s.thread 0).bound).asid = 0) (h : va + 32 * (n + f) ≤ 2 ^ 30) : ∃ t, s.writeSectors 0 bad va l f n = .ok t := by
  induction f generalizing s n with
  | zero => exact ⟨s, rfl⟩
  | succ f ih =>
    have hw : windowTile (va + 32 * n) = none := by rw [windowTile, not_window (by omega)]; rfl
    have hr : s.undoRoom (s.thread 0).bound (va + 32 * n) = true := by rw [State.undoRoom, hw]
    have ht : s.touchWrite 0 (va + 32 * n) .write = .ok (va + 32 * n) s := by
      rw [State.touchWrite, m.touch ha _ _ (by omega)]; simp [hr]
    obtain ⟨mm, p, e⟩ := store_plain s (s.thread 0).bound (va + 32 * n) (sliceB l (32 * n) 32) (bad.contains n) hb (by omega)
    rw [State.writeSectors, ht]
    simp only [e]
    exact ih { s with mem := mm, poison := p } (n + 1) ⟨m.quads, m.dies⟩ hb ha (by omega)

theorem writeSpan_of (s : State) (ident f va : Nat) (l : List Byte) (m : Maps s) (hb : s.badSec = []) (h : va + 32 * f ≤ 2 ^ 30) :
    ∃ t, s.writeSpan 0 0 ident f va l = .ok t := by
  induction f generalizing s va l with
  | zero => exact ⟨s, rfl⟩
  | succ f ih =>
    have h56 : ¬ 2 ^ 56 ≤ va := by omega
    rw [State.writeSpan]
    split
    · exact ⟨s, rfl⟩
    · rw [not_window (by omega), m.translate _ rfl (.inl rfl) rfl va _ _ (by omega)]
      obtain ⟨mm, p, e⟩ := store_plain s 0 va (l.take (32 - va % 32)) false hb (by omega)
      simp only [e, Bool.false_eq_true, if_false]
      exact ih { s with mem := mm, poison := p } _ _ ⟨m.quads, m.dies⟩ hb (by omega)

/-! ### The length of a save image -/

theorem placeSections_snd (o : Nat) (l : List (List Byte)) : (placeSections o l).flatMap (fun q => pad64 q.2) = l.flatMap pad64 := by
  induction l generalizing o with
  | nil => rfl
  | cons a l ih => rw [placeSections, List.flatMap_cons, List.flatMap_cons, ih]

theorem pad64_length (l : List Byte) : (pad64 l).length ≤ l.length + 64 := by
  rw [pad64, List.length_append, List.length_replicate, alignUp]; omega

theorem area_length (l : List Byte) : (area l).length ≤ 2 ^ 28 := by
  have := List.length_take_le (2 ^ 28 - 1) l
  rw [area]; omega

/-- A thread about to save its working of one claim at address 0x10000. -/
def saving : State := mapped (withWork (fun w => { w with islands := false }) (regs 0x10000 0 0 0))

theorem flatMap_length {α : Type} (f : α → List Byte) (k : Nat) (l : List α) (h : ∀ a ∈ l, (f a).length ≤ k) :
    (l.flatMap f).length ≤ l.length * k := by
  induction l with
  | nil => simp
  | cons a l ih =>
    rw [List.flatMap_cons, List.length_append, List.length_cons, Nat.succ_mul]
    have := h a (by simp)
    have := ih (fun b hb => h b (by simp [hb]))
    omega

theorem toBytes_len (n v : Nat) : (toBytes n v).length = n := by
  induction n generalizing v with
  | zero => rfl
  | succ n ih => rw [toBytes, List.length_cons, ih]

theorem blockBytes_length (w : Working) (b : BlockCfg) (c i : Nat) : (blockBytes w b c i).length ≤ 1936 := by
  have h1 := flatMap_length (fun e : ElemCfg => (List.range 16).flatMap (fun n => toBytes 12 (SMap.get 0 e.slots n).toNat)) (16 * 12)
    ((List.range 8).map (fun p => b.elem p)) (fun e _ => by
      have := flatMap_length (fun n => toBytes 12 (SMap.get 0 e.slots n).toNat) 12 (List.range 16) (fun _ _ => Nat.le_of_eq (toBytes_len _ _))
      rwa [List.length_range] at this)
  have h2 := flatMap_length (fun p : Nat × ElemCfg => ((List.range 4).flatMap (fun n => toBytes 4 (SMap.get 0 p.2.k n).toNat)) ++
      toBytes 15 p.2.conflict.toNat ++ toBytes 1 0 ++ toBytes 2 p.2.rotate.toNat ++ toBytes 1 p.2.preds.toNat ++
      toBytes 1 (posKind p.1 + b2n p.2.sink * 4 + b2n p.2.phase * 8) ++ toBytes 4 0) 40
    ((List.range 8).zip ((List.range 8).map (fun p => b.elem p))) (fun p _ => by
      have := flatMap_length (fun n => toBytes 4 (SMap.get 0 p.2.k n).toNat) 4 (List.range 4) (fun _ _ => Nat.le_of_eq (toBytes_len _ _))
      rw [List.length_range] at this
      simp only [List.length_append, toBytes_len]; omega)
  have h3 := flatMap_length (fun n => toBytes 4 (SMap.get 0 b.routes n).toNat) 4 (List.range 16) (fun _ _ => Nat.le_of_eq (toBytes_len _ _))
  simp only [List.length_map, List.length_zip, List.length_range, Nat.min_self] at h1 h2 h3
  simp only [blockBytes, List.length_append, toBytes_len]
  omega

theorem section1_length (s : State) (h : Nat) (whole : Bool) (k : Nat) (hk : (s.work h).width * (s.work h).height = k) :
    (s.section h whole 1).length ≤ 4 * (k * 1936) := by
  have e := flatMap_length (fun c => (List.range ((s.work h).width * (s.work h).height)).flatMap (fun i =>
      blockBytes (s.work h) ((s.claim ((s.work h).claimAt i)).block c) c i)) (k * 1936) (List.range 4) (fun c _ => by
    have := flatMap_length (fun i => blockBytes (s.work h) ((s.claim ((s.work h).claimAt i)).block c) c i) 1936
      (List.range ((s.work h).width * (s.work h).height)) (fun _ _ => blockBytes_length _ _ _ _)
    rw [List.length_range] at this; rwa [← hk])
  rwa [List.length_range] at e

theorem section2_length (s : State) (h : Nat) (whole : Bool) : (s.section h whole 2).length ≤ 256 * 64 := by
  have := flatMap_length (fun i => toBytes 64 ((s.work h).entry i)) 64 (List.range 256) (fun _ _ => Nat.le_of_eq (toBytes_len _ _))
  rwa [List.length_range] at this

theorem section3_length (s : State) (h : Nat) (whole : Bool) (k : Nat) (hk : (s.work h).elems.length = k)
    (he : ∀ e ∈ (s.work h).elems, (s.elemWords e).length ≤ 352) : (s.section h whole 3).length ≤ k * (352 * 8) := by
  have := flatMap_length (fun e => (s.elemWords e).flatMap (fun v => toBytes 8 v.toNat)) (352 * 8) (s.work h).elems (fun e m => by
    have := flatMap_length (fun v : DWord => toBytes 8 v.toNat) 8 (s.elemWords e) (fun _ _ => Nat.le_of_eq (toBytes_len _ _))
    have := he e m
    omega)
  rwa [hk] at this

theorem section5_length (s : State) (h t a b : Nat) (whole : Bool) (ht : (s.work h).tiles = [t]) (hb : shareBanks (s.work h) t = [a, b]) :
    (s.section h whole 5).length ≤ 2 ^ 18 + 2 ^ 28 := by
  have := area_length (Config.tileBytes (s.ownUndo h t) (s.ownSpecs h t))
  simp only [State.section, ht, State.tilePart, List.flatMap_cons, List.flatMap_nil, hb, List.length_append, bytesAt_length, List.length_nil]
  omega

theorem section6_length (s : State) (h : Nat) (whole : Bool) (hh : (s.work h).head.length = 656) :
    (s.section h whole 6).length ≤ 656 + 2 ^ 28 := by
  have := area_length (Config.restBytes (s.work h).regions (s.work h).keeps ((s.work h).elems.map (fun e => (s.elem e).pending)))
  simp only [State.section, List.length_append, hh]
  omega

theorem section0_length (s : State) (h : Nat) (whole : Bool) : (s.section h whole 0).length ≤ 2 ^ 28 := by
  rw [State.section]
  split
  · exact area_length _
  · exact Nat.zero_le _

theorem saveImage_length (s : State) (h : Nat) (whole : Bool) (k : Nat → Nat) (hk : ∀ n, n < 8 → (s.section h whole n).length ≤ k n) :
    (s.saveImage h whole).length ≤ k 0 + k 1 + k 2 + k 3 + k 4 + k 5 + k 6 + k 7 + 1024 := by
  have e : (((List.range 8).map (s.section h whole)).flatMap pad64).length ≤ k 0 + k 1 + k 2 + k 3 + k 4 + k 5 + k 6 + k 7 + 8 * 64 := by
    have p := fun n (hn : n < 8) => Nat.le_trans (pad64_length (s.section h whole n)) (Nat.add_le_add_right (hk n hn) 64)
    have := p 0 (by omega); have := p 1 (by omega); have := p 2 (by omega); have := p 3 (by omega)
    have := p 4 (by omega); have := p 5 (by omega); have := p 6 (by omega); have := p 7 (by omega)
    have r : List.range 8 = [0, 1, 2, 3, 4, 5, 6, 7] := rfl
    simp only [r, List.map_cons, List.map_nil, List.flatMap_cons, List.flatMap_nil, List.length_append, List.length_nil]
    omega
  have f : (List.flatMap (fun q : Nat × List Byte => toBytes 4 q.1 ++ toBytes 4 q.2.length)
      (placeSections 128 ((List.range 8).map (s.section h whole)))).length ≤ 8 * 8 :=
    flatMap_length _ 8 _ (fun _ _ => by simp [toBytes_len])
  simp only [State.saveImage, placeSections_snd, List.length_append, toBytes_len]
  omega

/-- The image of a working of one claim without islands or commands stays below 2^30 - 2^17 bytes. -/
theorem small_image (s : State) (h t a b : Nat) (whole : Bool) (h1 : (s.work h).width * (s.work h).height = 1)
    (h3 : (s.work h).elems.length = 8) (he : ∀ e ∈ (s.work h).elems, (s.elemWords e).length ≤ 352)
    (h4 : (s.section h whole 4).length = 0) (ht : (s.work h).tiles = [t]) (hb : shareBanks (s.work h) t = [a, b])
    (hh : (s.work h).head.length = 656) (h7 : (s.section h whole 7).length = 0) : (s.saveImage h whole).length ≤ 2 ^ 30 - 2 ^ 17 := by
  have : (s.saveImage h whole).length ≤ 2 ^ 28 + 7744 + 16384 + 22528 + 0 + (2 ^ 18 + 2 ^ 28) + (656 + 2 ^ 28) + 0 + 1024 := saveImage_length s h whole
    (fun n => match n with | 0 => 2 ^ 28 | 1 => 7744 | 2 => 16384 | 3 => 22528 | 4 => 0 | 5 => 2 ^ 18 + 2 ^ 28 | 6 => 656 + 2 ^ 28 | _ => 0)
    (fun n hn => by
      have c : n = 0 ∨ n = 1 ∨ n = 2 ∨ n = 3 ∨ n = 4 ∨ n = 5 ∨ n = 6 ∨ n = 7 := by omega
      rcases c with rfl | rfl | rfl | rfl | rfl | rfl | rfl | rfl
      · exact section0_length _ _ _
      · exact section1_length _ _ _ 1 h1
      · exact section2_length _ _ _
      · exact section3_length _ _ _ 8 h3 he
      · exact Nat.le_of_eq h4
      · exact section5_length _ _ _ _ _ _ ht hb
      · exact section6_length _ _ _ hh
      · exact Nat.le_of_eq h7)
  omega

/-- A save image that is its header alone (R378): flags, feature map, handle and CRC-64. -/
def savedBytes (flags features handle crc : Nat) : List Byte :=
  List.flatten [toBytes 6 0x010100035A7E, toBytes 2 flags, toBytes 8 features, toBytes 8 handle, toBytes 8 128, toBytes 88 0, toBytes 8 crc]

/-- A sound one, one that asks for a feature that the part lacks, and one with section 0, of handle 0 and of handle 2. -/
def saved0 : List Byte := savedBytes 0 0 0 0xED925277D5385F10
def savedFeature : List Byte := savedBytes 0 256 0 0xAD9E0C688C07D151
def savedWhole : List Byte := savedBytes 2 0 0 0xA847828841ACDB73
def savedTwo : List Byte := savedBytes 2 0 2 0x067994C8D82C8C42

theorem readSave_of {s : State} {r : Reader} (hb : s.badSec = []) (hf : ∀ va, va < 2 ^ 30 → r.find s va = .ok va s) (va : Nat) (l : List Byte)
    (hm : s.mem = memOf va l) (ha : va % 32 = 0) (h : va + 1024 ≤ 2 ^ 30) (hl : l.length = 128) (h3 : le l 24 8 = 128) : s.readSave r va = .ok l s := by
  have e : s.readSpan r va 128 = .ok l s := by
    rw [readSpan_of hb hf va 128 l hm ha (by omega) (by omega), ← hl, List.take_length]
  rw [State.readSave, e]
  simp only [h3, e]
  split <;> rfl

/-! ### Witnesses: foreman statements -/

theorem wit_ForemanComputes : (∃ R, aluRule (.foremanAdd 0 7 7) = some R ∧ Holds base R.names) ∧
    (∃ R, immRule (.shai 7 0 63) = some R ∧ Holds base R.names) ∧ ∃ l f, cmpRule (.cmpi 7 0x2000) = some (l, f) ∧ Holds base l :=
  ⟨⟨_, rfl, by decide⟩, ⟨_, rfl, by decide⟩, ⟨_, _, rfl, by decide⟩⟩

/-- In the window, by an assay thread at the last HBM byte, and through a leaf. -/
theorem wit_ThreadAccessFrame : (base.touch 0 (2 ^ 40) .read = .ok (2 ^ 40) base ∧ inWindow (2 ^ 40) = true) ∧
    (base.touch 768 (2 ^ 39 - 1) .write = .ok (2 ^ 39 - 1) base ∧ isAssay 768 = true) ∧
    (mapped base).touch 0 (2 ^ 30 - 1) .read = .ok (2 ^ 30 - 1) (mapped base) :=
  ⟨⟨rfl, by decide⟩, ⟨rfl, by decide⟩, Maps.touch ⟨rfl, rfl⟩ rfl _ _ (by decide)⟩

/-- Thread 0 with addresses in working 1's tile SRAM. -/
def tiled : State := regs (tileBase + 16) 1 tileBase (tileBase + 1)

theorem wit_ForemanLoads : ∃ L, loadRule (.ldB64 0 4 0x3FF8) = some L ∧ Holds tiled [L.rd, L.ra] ∧
    (effAddr (tiled.thread 0) L.ra L.imm).toNat % L.bytes = 0 ∧
    tiled.touchRead 0 (effAddr (tiled.thread 0) L.ra L.imm).toNat .read = .ok (2 ^ 40 + 8) tiled := ⟨_, rfl, by decide, by decide, rfl⟩

theorem wit_ForemanStores : ∃ L, storeRule (.stB8 5 7 0) = some L ∧ Holds tiled [L.rd, L.ra] ∧
    (effAddr (tiled.thread 0) L.ra L.imm).toNat % L.bytes = 0 ∧
    tiled.touchWrite 0 (effAddr (tiled.thread 0) L.ra L.imm).toNat .write = .ok (2 ^ 40 + 1) tiled := ⟨_, rfl, by decide, by decide, rfl⟩

theorem wit_ForemanAtomics : ∃ L, amoRule (.foremanAmoCas 5 6 0 .plain .wrk) = some L ∧ Holds tiled [L.rd, L.ra, L.rb] ∧
    ((tiled.thread 0).reg L.ra).toNat % 4 = 0 ∧
    tiled.touchWrite 0 ((tiled.thread 0).reg L.ra).toNat .atomic = .ok (2 ^ 40) tiled ∧ tiled.isBad (2 ^ 40) = false :=
  ⟨_, rfl, by decide, by decide, rfl, by decide⟩

theorem wit_MisalignedAccessTraps : ∃ l f, alignRule (.tqpush 4) = some (l, f, 64) ∧ Holds tiled l ∧ OnForeman tiled ∧
    (f (tiled.thread 0)).toNat % 64 ≠ 0 := ⟨_, _, rfl, by decide, by decide, by decide⟩

/-- Register 7 is the last of block 0 and register 8 the first of block 1. -/
theorem wit_RegisterBlockTraps :
    (namedRegs (.foremanAdd 7 8 63)).find? (fun q : Reg => !(base.thread 0).holds q) = some 8 ∧ OnForeman base := by decide

/-- Both outcomes of the comparison, in order and when the waiting thread looks again. -/
theorem wit_FencesAndWordWaits : Holds tiled [5, 6, 0] ∧ (tiled.thread 0).wait = .none ∧ ((tiled.thread 0).reg 6).toNat % 4 = 0 ∧
    tiled.touchRead 0 ((tiled.thread 0).reg 6).toNat .read = .ok (2 ^ 40) tiled ∧
    tiled.word (2 ^ 40) 4 = ((tiled.thread 0).reg 0).toNat ∧ tiled.word (2 ^ 40) 4 ≠ ((tiled.thread 0).reg 5).toNat ∧
    let s := waiting (.waita (2 ^ 40) 0 7)
    s.waitOf 0 = .waita (2 ^ 40) 0 7 ∧ s.touchRead 0 (2 ^ 40) .read = .ok (2 ^ 40) s :=
  ⟨by decide, by decide, by decide, rfl, by decide, by decide, by decide, rfl⟩

/-- Every condition of R133 holds in one of two states and fails in the other, but AL. -/
theorem wit_BranchesAndCalls : (CondTrue (base.thread 0) .ne ∧ ¬ CondTrue (base.thread 0) .eq) ∧
    Holds tiled [1, 6] ∧ ((tiled.thread 0).reg 6).toNat % 4 = 0 ∧
    let s := tiled.setBytes (2 ^ 40) [0xFF, 0, 0, 0x8C]
    s.touchRead 0 ((s.thread 0).reg 6).toNat .fetch = .ok (2 ^ 40) s ∧ s.word (2 ^ 40) 4 = 0x8C000000 + (0xFF : BitVec 8).toNat ∧
    s.word (2 ^ 40) 4 ≠ 0x8C000000 + (0xFE : BitVec 8).toNat :=
  ⟨by unfold CondTrue; decide, by decide, by decide, rfl, by decide, by decide⟩

/-- A thread of 16 frames. -/
def framed : State := withThread (fun x => { x with frames := List.replicate 16 ⟨1, []⟩ })

/-- Four threads that hold every block. -/
def full : State := (List.range 4).foldl (fun s n => s.modThread n (fun x => { x with held := 0xFF })) base

/-- Thread 0 waits for blocks and thread 1 runs. -/
def second : State := { waiting (.rbacq 0x40) with cur := { thread := 1 } }

theorem wit_RegisterBlocks :
    ((0x40 : BitVec 7) ≠ 0 ∧ (base.thread 0).frames.length < 16 ∧ (base.grantBelow 0).poolHas 0 0x40 = true ∧
      (second.thread 1).frames.length < 16 ∧ (second.grantBelow 1).poolHas 1 0x40 = true) ∧
    (∀ m k, m < 1 → m / 4 = 1 / 4 → (base.thread m).wait ≠ .rbacq k) ∧
    ((∀ i k, i / 4 = 1 / 4 → i ≠ 0 → (second.thread i).wait ≠ .rbacq k) ∧ second.waitOf 0 = .rbacq (0x40 : BitVec 7).toNat ∧
      second.poolHas 0 0x40 = true) ∧
    (let s := waiting (.rbacq 0x41)
     s.waitOf 0 = .rbacq (0x41 : BitVec 7).toNat ∧ s.poolHas 0 0x41 = true ∧ s.olderRbacq 0 = false ∧ s.lowerIssues 0 = false) ∧
    (let s := withThread (fun x => x.bindBlocks 0x40)
     (s.thread 0).frames = ((base.thread 0).bindBlocks 0x40).frames ∧ ∀ r, r < 64 → inMask 0x40 r = true → (s.thread 0).holds r = true) ∧
    (framed.thread 0).frames.length = 16 ∧
    ((full.thread 0).frames.length ≠ 16 ∧ (full.grantBelow 0).poolHas 0 0x7F = false) ∧
    (∀ fr r, (framed.thread 0).frames = fr :: r → fr.mask ≠ 2) ∧
    let s := waiting (.rbacq 1) (withQuad (fun q => { q with cyc := 2 ^ 24 }))
    s.waitOf 0 = .rbacq 1 ∧ (s.thread 0).canEn = true ∧ (s.thread 0).waitAt + 2 ^ (s.thread 0).canWin.toNat ≤ (s.quad (quadOfThread 0)).cyc :=
  ⟨by decide, fun m k h _ => by obtain rfl : m = 0 := by omega
                                exact fun h => Wait.noConfusion h,
    ⟨fun i k h hi => by have : i = 1 ∨ i = 2 ∨ i = 3 := by omega
                        rcases this with rfl | rfl | rfl <;> exact fun h => Wait.noConfusion h, by decide, by decide⟩,
    by decide, by decide, by decide, by decide, by intro fr r h; cases h; decide, by decide⟩

/-- A thread in its handler, of a working that is not being killed, and an assay thread in its handler. -/
theorem wit_TrapEntry : ((base.thread 0).intrap = false ∧ (base.thread 0).trapvec ≠ 0) ∧
    (let s := (withThread (fun x => { x with intrap := true })).modThread 783 (fun x => { x with intrap := true })
     (s.thread 783).intrap = true ∧ isAssay 783 = true ∧ (s.thread 0).intrap = true ∧ isAssay 0 = false ∧
       s.hasWork (s.thread 0).bound = true ∧ (s.work (s.thread 0).bound).killing = none) := by decide

/-- A thread with a held trap. -/
def holding : State := withThread (fun x => { x with heldTraps := [{ cause := 0x07 }] })

theorem wit_TrapInstructions : ((base.thread 0).intrap = false ∧ (base.thread 0).trapvec ≠ 0 ∧ OnForeman base) ∧
    (let s := { base.modThread 768 (fun x => { x with trapvec := 4 }) with cur := { thread := 768 } }
     isAssay s.cur.thread = true ∧ (s.thread s.cur.thread).intrap = false ∧ (s.thread s.cur.thread).trapvec ≠ 0) ∧
    (waiting (.syscall 0x2001)).waitOf 0 = .syscall 0x2001 ∧ (base.thread 0).heldTraps = [] ∧
    (holding.thread 0).heldTraps = { cause := 0x07 } :: [] ∧ (holding.thread 0).trapvec ≠ 0 ∧ (holding.thread 0).intrap = false ∧
    (holding.thread 0).stopped = false ∧ (holding.thread 0).wait.abandoned = true ∧ (holding.work (holding.thread 0).bound).live = true := by
  decide

/-- The first and the last listed registers, one with an index, one a program may not write, and numbers that are not listed. -/
theorem wit_SystemRegisterInstructions : (Listed 0x000 ∧ Listed 0x13D ∧ (0 : Reg) = 0 ∧ Holds base [7, 0]) ∧
    (Listed 0x13B ∧ Indexed 0x13B ∧ Indexed 0x010) ∧ (isAssay 768 = true ∧ UserWritable 0x000 ∧ UserWritable 0x010) ∧
    (isAssay 0 = false ∧ ¬ UserWritable 0x110 ∧ ¬ UserWritable 0x002) ∧ (¬ Listed 0x00C ∧ ¬ Listed 0x13E ∧ ¬ Listed 0x3FFF) ∧
    (¬ Indexed 0x000 ∧ (7 : Reg) ≠ 0) := ⟨by decide, by decide, by decide, by decide, by decide, by decide⟩

/-- A state in which every field that a read clears is there. -/
def guarding : State := withWork (fun w => { w with guardCount := 3 })

theorem wit_SystemRegisterReads : ((7 : Reg) ≠ 0 ∧ Holds base [7, 0] ∧ base.cur.thread < 784) ∧
    (let s := withWork (fun w => { w with regions := List.replicate 4 region, keeps := List.replicate 31 0x100 })
     (s.work (s.thread s.cur.thread).bound).regions.length ≤ 4 ∧ (s.work (s.thread s.cur.thread).bound).keeps.length ≤ 31 ∧
       (s.work (s.thread s.cur.thread).bound).regions = region :: List.replicate 3 region) ∧
    (base.work (base.thread base.cur.thread).bound).regions = [] ∧ (Listed 0x002 ∧ readClears 0x002 = false) ∧
    ((0x132, 0, 32) ∈ clearedFields base 768 0 ∧ (0x008, 0, 32) ∈ clearedFields guarding 0 0 ∧ (0x121, 16, 12) ∈ clearedFields base 768 47 ∧
      (0x125, 16, 16) ∈ clearedFields base 768 47 ∧ (0x139, 32, 16) ∈ clearedFields base 768 95 ∧ (0x13B, 40, 8) ∈ clearedFields base 768 0) :=
  ⟨by decide, by decide, by decide, by decide, by decide⟩

theorem wit_SystemRegisterWrites : ((0x000, 0x1F) ∈ plainFields base 0 0 ∧ UserWritable 0x000) ∧
    ((0x100, 0x3FF) ∈ plainFields base 768 0 ∧ (0x122, 0xF) ∈ plainFields base 768 47 ∧ isAssay 768 = true) ∧
    ((0x010, 0x0001FFFFFFFFFFFF) ∈ plainFields base 0 0 ∧ UserWritable 0x010) ∧
    ((0x120, 32, 5, 16, 24) ∈ rangedFields base 768 0 ∧ (0x123, 0, 5, 8, 28) ∈ rangedFields base 768 47 ∧
      (0x13B, 0, 5, 10, 30) ∈ rangedFields base 768 0) ∧
    (¬ (isAssay 0 = true ∧ dieOfThread 0 = 0) ∧ ¬ (isAssay 772 = true ∧ dieOfThread 772 = 0)) :=
  ⟨by decide, by decide, by decide, by decide, by decide⟩

theorem wit_RegisterEvents : firstAlert (withDie (fun d => { d with alerts := [7] }) |>.die 0) = some 7 ∧ firstAlert (base.die 0) = none ∧
    (let v : DWord := 0x1000001
     (base.die 0).wkGo = false ∧ v.getLsbD 24 = true ∧ v.toNat % 2 ^ 16 ≠ 0 ∧ base.hasWork (v.toNat % 2 ^ 16) = true ∧
       (base.work (v.toNat % 2 ^ 16)).killing = none) ∧
    (let s := withDie (fun d => { d with wkGo := true, wkHandle := 2 })
     (s.die 0).wkGo = true ∧ s.hasWork (s.die 0).wkHandle.toNat = false) ∧
    (0x100 ∈ dieRegisters.map (fun p => p.1) ∧ 0x13D ∈ dieRegisters.map (fun p => p.1)) := by decide

/-! ### Witnesses: working control, synchronization, tasks, regions -/

/-- A working in a state of R336. -/
def inState (r : RunState) : State := withWork (fun w => { w with state := r })

theorem wit_WaitForWorking : ((8 : BitVec 4) ≠ 0 ∧ Holds base [7] ∧ (base.thread 0).wait = .none ∧ base.wfiBits 0 &&& (8 : BitVec 4).toNat = 0) ∧
    (inState .paused).wfiBits 0 &&& (4 : BitVec 4).toNat ≠ 0 ∧
    (let s := waiting (.wfi 7 4) (inState .paused)
     s.waitOf 0 = .wfi 7 4 ∧ s.wfiBits 0 &&& 4 ≠ 0 ∧ s.wfiBits 0 &&& 1 = 0) ∧ (base.thread 0).bound ≠ 0 := by decide

/-- A working whose context 0 has one sink, which has counted. -/
def sunk : State :=
  (withWork (fun w => { w with sinks := [7] })).setClaim 0 { owner := 1, blocks := [(0, { elems := [(7, { sink := true })] })] }

/-- The cycle of the last count is noted: quad 0 stands in it, or past it. -/
def marked (c : Nat) (s : State) : State := withWork (fun w => { w with mark := [(0, c)] }) s

theorem wit_WorkingControl : OnForeman base ∧ Holds base [7] ∧ ((inState .idle).work 1).state = .idle ∧ (base.work 1).state ≠ .idle ∧
    ((inState .paused).work 1).state = .paused ∧ (base.work 1).state ≠ .paused ∧
    ((base.work 1).inPhase = true ∧ base.sinksDone 1 = false) ∧
    (let s := marked 0 sunk
     (s.work 1).inPhase = true ∧ (s.work 1).pastMark (0 / 4) (s.quad (0 / 4)).cyc = false ∧ s.sinksDone 1 = true ∧ (s.work 1).state = .running) ∧
    (let s := marked 7 sunk
     s.sinksDone 1 = true ∧ (s.work 1).pastMark (0 / 4) (s.quad (0 / 4)).cyc = true ∧ (s.work 1).state = .running) ∧
    (let s := withWork (fun w => { w with inPhase := false })
     (s.work 1).inPhase = false ∧ (s.work 1).mark = []) ∧
    (let s := marked 7 (withWork (fun w => { w with inPhase := false }))
     (s.work 1).inPhase = false ∧ (s.work 1).pastMark (0 / 4) (s.quad (0 / 4)).cyc = true) ∧
    (let s := marked 0 (withWork (fun w => { w with inPhase := false }))
     (s.work 1).inPhase = false ∧ (s.work 1).mark ≠ [] ∧ (s.work 1).pastMark (0 / 4) (s.quad (0 / 4)).cyc = false) ∧
    ((inState .paused).work 1).inPhase = true := by decide

theorem wit_PhasesAndStops : (let s := withWork (fun w => { w with inPhase := false, budget := 1 })
      s.phaseReady 1 = true ∧ ∀ e p, e ∈ (s.work 1).elems → p ∈ (s.elem e).latent → p.1 ≠ (s.work 1).next.toNat) ∧
    (0 ∈ (base.work 1).elems ∧ 8 ∉ (base.work 1).elems) ∧
    (sunk.sinksDone 1 = true ∧ (sunk.work 1).state = .running ∧ (sunk.work 1).live = true) ∧
    (∀ ends, let s := waiting (.wstop ends) (withWork (fun w => { w with stopping := some ends }))
      s.observable 1 = true ∧ (s.work 1).live = true ∧ (s.thread (s.work 1).thread).bound = 1 ∧
        (s.thread (s.work 1).thread).wait = .wstop ends ∧ (s.work 1).stopping = some ends ∧ (s.work 1).inPhase = true) ∧
    (let s := waiting (.rvbeg 7) (withWork (fun w => { w with stopping := some false }))
     s.observable 1 = true ∧ (s.work 1).live = true ∧ (s.thread (s.work 1).thread).bound = 1 ∧ (s.thread (s.work 1).thread).wait = .rvbeg 7) := by
  refine ⟨⟨by decide, fun e p he hp => ?_⟩, by decide, by decide, by decide, by decide⟩
  have : e = 0 ∨ e = 1 ∨ e = 2 ∨ e = 3 ∨ e = 4 ∨ e = 5 ∨ e = 6 ∨ e = 7 := by
    have h : ((withWork (fun w => { w with inPhase := false, budget := 1 })).work 1).elems = [0, 1, 2, 3, 4, 5, 6, 7] := by decide
    rw [h] at he; simpa using he
  rcases this with rfl | rfl | rfl | rfl | rfl | rfl | rfl | rfl <;> cases hp

theorem wit_WorkingQueries : (∃ f, queryRule (.wqueryPhases 7) = some (7, f)) ∧ OnForeman base ∧ Holds base [7] ∧
    (base.thread 0).wait = .none ∧ base.observable (base.thread 0).bound = true ∧
    (let s := withElem 7 (fun x => { x with accs := [accOf 1 0xB0] }) (withWork (fun w => { w with awaited := [(7, 1)] }))
     s.observable (s.thread 0).bound = false) ∧
    (∃ f, readRule (.rdsPoisonRecord 7) = some (7, [7], f)) ∧
    (let s := regs 63 0 0 0
     Holds s [7, 4] ∧ ((s.thread 0).reg 4).toNat < 64 ∧ CounterIs s 0 ((s.thread 0).reg 4).toNat 0) :=
  ⟨⟨_, rfl⟩, by decide, by decide, by decide, by decide, by decide, ⟨_, rfl⟩, by decide⟩

/-- Counter 63 of quad 0 at a value. -/
def counting (v : DWord) (s : State := regs 63 3 (tileBase + 64) 0) : State := withQuad (fun q => { q with sync := [(63, (v, v, v))] }) s

theorem wit_Semaphores : (∀ v, v = (0 : DWord) ∨ v = 1 ∨ v = 0xFFFFFFFFFFFFFFFF → let s := counting v
      OnForeman s ∧ Holds s [7, 4, 5] ∧ CounterIs s 0 (((s.thread 0).reg 4).toNat % 64) v ∧ (s.thread 0).wait = .none) ∧
    (∀ m k, m ≠ 0 → m / 4 = 0 / 4 → ((counting 1).thread m).wait ≠ .semaP 63 k) ∧
    let s := waiting (.semaP 63 7) (counting 1)
    s.waitOf 0 = .semaP 63 7 ∧ CounterIs s 0 63 1 ∧ (1 : DWord) ≠ 0 ∧ s.olderSema 0 63 = false := by
  refine ⟨fun v hv => by rcases hv with rfl | rfl | rfl <;> decide, ?_, by decide⟩
  intro m k h h4
  have : m = 1 ∨ m = 2 ∨ m = 3 := by omega
  rcases this with rfl | rfl | rfl <;> exact fun h => Wait.noConfusion h

theorem wit_Barriers : (let s := counting 2
      OnForeman s ∧ Holds s [7, 4, 5] ∧ CounterIs s 0 (((s.thread 0).reg 4).toNat % 64) 2 ∧ (s.thread 0).arrival = none ∧
        (s.thread 0).wait = .none ∧ 1 ≤ ((s.thread 0).reg 5).toNat % 8 ∧ ((s.thread 0).reg 5).toNat % 8 ≤ 4 ∧
        (2 : DWord).toNat % 2 ^ 32 + 1 = ((s.thread 0).reg 5).toNat % 8) ∧
    (0 : DWord).toNat % 2 ^ 32 + 1 ≠ (((counting 0).thread 0).reg 5).toNat % 8 ∧
    (Holds base [7, 7, 7] ∧ ((base.thread 0).reg 7).toNat % 8 = 0) ∧ 4 < (((regs 0 0 0 5).thread 0).reg 7).toNat % 8 ∧
    (let s := waiting (.barw 63 0 7) (counting (2 ^ 32))
     s.waitOf 0 = .barw 63 0 7 ∧ CounterIs s 0 63 (2 ^ 32) ∧ (2 ^ 32 : DWord).toNat / 2 ^ 32 ≠ 0) ∧
    (let s := waiting (.barw 63 1 7) (counting (2 ^ 32))
     s.waitOf 0 = .barw 63 1 7 ∧ (2 ^ 32 : DWord).toNat / 2 ^ 32 = 1) := by decide

/-- A record whose counter is 63 and whose pushing thread is thread 0. -/
def record63 : List Byte := List.replicate 35 0 ++ 63 :: List.replicate 28 0

/-- A die queue with one record of thread 0. -/
def queued : State := withDie (fun d => { d with tasks := [⟨record63, 0, 1, 0, none⟩] }) (counting 1)

theorem wit_TaskQueue : (let s := (counting 65534).setByte (2 ^ 40 + 64 + 35) 63
      OnForeman s ∧ Holds s [6] ∧ (s.thread 0).wait = .none ∧ ((s.thread 0).reg 6).toNat % 64 = 0 ∧ s.badIn (2 ^ 40 + 64) 64 = false ∧
        CounterIs s 0 (((s.bytesAt (2 ^ 40 + 64) 64).getD 35 0).toNat % 64) 65534 ∧ (s.die (dieOfThread 0)).tasks.length < 4096 ∧
        (65534 : DWord).toNat % 2 ^ 16 < 65535) ∧
    (let s := (counting 65535).setByte (2 ^ 40 + 64 + 35) 63
     CounterIs s 0 (((s.bytesAt (2 ^ 40 + 64) 64).getD 35 0).toNat % 64) 65535 ∧
       ¬ ((s.die (dieOfThread 0)).tasks.length < 4096 ∧ (65535 : DWord).toNat % 2 ^ 16 < 65535)) ∧
    base.ownTask 0 = none ∧
    (OnForeman queued ∧ Holds queued [7, 6] ∧ queued.ownTask 0 = some ⟨record63, 0, 1, 0, none⟩ ∧ record63.length = 64 ∧
      ((queued.thread 0).reg 6).toNat % 64 = 0 ∧ (2 ^ 40 + 64) % 64 = 0 ∧ CounterIs queued 0 ((record63.getD 35 0).toNat % 64) 1 ∧
      1 ≤ (1 : DWord).toNat % 2 ^ 16) := by decide

theorem wit_TaskQueue_touches : ((counting 65534).setByte (2 ^ 40 + 64 + 35) 63).touchRead 0 (2 ^ 40 + 64) .read =
      .ok (2 ^ 40 + 64) ((counting 65534).setByte (2 ^ 40 + 64 + 35) 63) ∧
    queued.touchWrite64 0 ((queued.thread 0).reg 6).toNat = .ok (2 ^ 40 + 64) queued := ⟨rfl, rfl⟩

/-- Thread 0 with the command of 64 bytes at tileBase + 64. -/
def commanded (cmd : Nat) : State := laid (stored (2 ^ 40 + 64) (toBytes 64 cmd) (regs 0 0 (tileBase + 64) 0))

/-- A copy of entry 0 to entry 2's neighbour that is accepted, one of a size that is refused, and no idle hoist. -/
theorem wit_HoistCommands : (let s := commanded (cmdOf 0 0 0 1 0 16 3 9)
      let cmd := BitVec.ofNat 512 (ofBytes (s.bytesAt (2 ^ 40 + 64) 64))
      let x := s.takeCommand (s.thread 0).bound (0 % 192) none 0 cmd
      OnForeman s ∧ Holds s [7, 6] ∧ (s.thread 0).wait = .none ∧ ((s.thread 0).reg 6).toNat % 64 = 0 ∧ s.badIn (2 ^ 40 + 64) 64 = false ∧
        (s.die 0).idleHoist = some 0 ∧ s.hoistReason 0 (s.thread 0).bound x = none) ∧
    (let s := commanded (cmdOf 0 0 0 2 0 16 3 9)
     let cmd := BitVec.ofNat 512 (ofBytes (s.bytesAt (2 ^ 40 + 64) 64))
     (s.die 0).idleHoist = some 0 ∧
       s.hoistReason 0 (s.thread 0).bound (s.takeCommand (s.thread 0).bound (0 % 192) none 0 cmd) = some 5) ∧
    ((busy (commanded 0)).die 0).idleHoist = none := by decide +kernel

theorem wit_HoistCommands_touch : (commanded 0).touchRead 0 (2 ^ 40 + 64) .read = .ok (2 ^ 40 + 64) (commanded 0) ∧
    (busy (commanded 0)).touchRead 0 (2 ^ 40 + 64) .read = .ok (2 ^ 40 + 64) (busy (commanded 0)) := ⟨rfl, rfl⟩

/-- A region that keeps entry 1. -/
def keeping : State := withWork (fun w => { w with layout := layout4, regions := [{ region with keeps := [0x100] }] })

theorem wit_PublishFlipsEntry : OnForeman base ∧ Holds base [4] ∧
    (let s := laid (regs 0x100 1 2 0xFF)
     (entSpace ((s.work 1).entry (((s.thread 0).reg 4).toNat % 256)) ≠ 0 ∧ entShv ((s.work 1).entry (((s.thread 0).reg 4).toNat % 256)) = false) ∧
     entSpace ((s.work 1).entry (((s.thread 0).reg 7).toNat % 256)) = 0 ∧
     (entSpace ((s.work 1).entry 1) ≠ 0 ∧ entShv ((s.work 1).entry 1) = true ∧ (s.work 1).keepsEntry 1 = false)) ∧
    (entSpace ((keeping.work 1).entry 1) ≠ 0 ∧ entShv ((keeping.work 1).entry 1) = true ∧ (keeping.work 1).keepsEntry 1 = true) := by decide +kernel

theorem wit_RecoveryRegions :
    (let s := laid (regs 0xFFF01 3 0x100 7)
     OnForeman s ∧ Holds s [4, 5, 6, 7] ∧ (s.work 1).keeps.length < 31 ∧ s.itemOk 1 ((s.thread 0).reg 4).toNat = true ∧
       s.itemOk 1 ((s.thread 0).reg 5).toNat = false ∧ s.itemOk 1 ((s.thread 0).reg 6).toNat = true ∧ ((s.thread 0).reg 7).toNat % 8 = 7 ∧
       ((s.thread 0).reg 6).toNat % 8 ≠ 7) ∧
    31 ≤ ((withWork (fun w => { w with keeps := List.replicate 31 0xFFF01 })).work 1).keeps.length ∧
    4 ≤ ((withWork (fun w => { w with regions := List.replicate 4 region })).work 1).regions.length ∧
    (∀ r, let s := withWork (fun w => { w with state := r, regions := List.replicate 3 region })
      (s.work 1).regions.length < 4 ∧ s.checkpointFull (s.work 1) = none ∧ (s.work 1).state = r ∧ s.observable 1 = true) ∧
    (let s := withElem 7 (fun x => { x with accs := [accOf 1 0xB0] }) (withWork (fun w => { w with state := .paused, awaited := [(7, 1)] }))
     s.checkpointFull (s.work 1) = none ∧ (s.work 1).state ≠ .running ∧ s.observable 1 = false) ∧
    ((base.work 1).regions = [] ∧ (keeping.work 1).regions ≠ []) ∧
    (let s := waiting (.rvend 6) keeping
     s.waitOf 0 = .rvend 6 ∧ s.rvendReady (s.thread 0).bound = true ∧
       (s.work (s.thread 0).bound).regions = { region with keeps := [0x100] } :: []) := by
  refine ⟨by decide +kernel, by decide +kernel, by decide +kernel, ?_, by decide +kernel, by decide +kernel, by decide +kernel⟩
  intro r; cases r <;> decide +kernel

/-- A hoist that waits for the writes of a unit, and a thread that waits for the acknowledgement. -/
def unitOut : State :=
  waiting (.invr 0 (2 ^ 40) 64 false 3)
    (withDie (fun d => { d with hoists := [(31, { busy := true, handle := 1, sent := true, peers := [(3, 0)] })] }))

theorem wit_Invalidations : (let s := regs 0 tileBase 64 1
      Holds s [4, 5, 6, 7, 0] ∧ isAssay 0 = false ∧ ((s.thread 0).reg 7).toNat % 2 ^ 16 ≠ (s.work (s.thread 0).bound).asid ∧
        ((s.thread 0).reg 4).toNat % 2 ^ 16 = (s.work (s.thread 0).bound).asid ∧ (s.thread 0).reg 0 = 0 ∧ (s.thread 0).reg 6 ≠ 0) ∧
    isAssay 768 = true ∧ (Scope.elem ∉ [Scope.die, .pkg, .pod] ∧ Scope.die ∈ [Scope.die, .pkg, .pod] ∧ Scope.pod ∈ [Scope.die, .pkg, .pod]) ∧
    (let s := waiting (.invr 0 (2 ^ 40) 64 false 3)
     s.waitOf 0 = .invr 0 (2 ^ 40) 64 false 3 ∧ ∀ d ∈ List.range 4, (s.die d).hoists = []) ∧
    (unitOut.waitOf 0 = .invr 0 (2 ^ 40) 64 false 3 ∧ 0 < 4 ∧ 0 ∈ scopeDies 3 (dieOfThread 0) ∧
      ∃ p ∈ (unitOut.die 0).hoists, p.2.busy = true ∧ p.2.sent = true ∧ p.2.peers ≠ [] ∧ (unitOut.work p.2.handle).asid = 0) := by decide +kernel

/-! ### The image's CRCs, each byte's work done before the next -/

/-- One bit of the register, without a choice. -/
def crcShift (c : Nat) : Nat := (c / 2) ^^^ (c % 2 * 0xC96C5795D7870F42)

def crcStep (c b : Nat) : Nat := crcShift (crcShift (crcShift (crcShift (crcShift (crcShift (crcShift (crcShift (c ^^^ b))))))))

def crcRun : List Byte → Nat → Nat
  | [], c => c
  | b :: l, c => match crcStep c b.toNat with
    | 0 => crcRun l 0
    | n + 1 => crcRun l (n + 1)

theorem crcBit_eq (c : Nat) : crcBit c = crcShift c := by
  unfold crcBit crcShift
  rcases Nat.mod_two_eq_zero_or_one c with h | h <;> simp [h]

theorem crcByte_eq (c b : Nat) : crcByte c b = crcStep c b := by simp [crcByte, crcStep, forN, crcBit_eq]

theorem crcRun_eq (l : List Byte) (c : Nat) : l.foldl (fun c b => crcByte c b.toNat) c = crcRun l c := by
  induction l generalizing c with
  | nil => rfl
  | cons b l ih =>
    rw [List.foldl_cons, ih, crcByte_eq, crcRun]
    split <;> simp_all

theorem crcOk_of (l : List Byte) (off : Nat)
    (h : (le l off 8 == crcRun (zeroCrc l off) 0xFFFFFFFFFFFFFFFF ^^^ 0xFFFFFFFFFFFFFFFF) = true) : crcOk l off = true := by
  rw [crcOk, crc64, crcRun_eq]; exact h

theorem crc_image0 : crcOk image0 56 = true := crcOk_of _ _ (by decide +kernel)
theorem crc_block0 : crcOk ((imageOf image0).block 0).bytes 0 = true := crcOk_of _ _ (by decide +kernel)

theorem headerErr_image0 : (imageOf image0).headerErr = none := by
  have h : (imageOf image0).fieldErr = none := by decide +kernel
  have e : (imageOf image0).bytes = image0 := rfl
  rw [Image.headerErr, h, e, crc_image0]; rfl

theorem blockErr_image0 : (imageOf image0).blockErr none ((imageOf image0).block 0) = none := by
  rw [Image.blockErr, crc_block0]; decide +kernel

theorem ofBytes_zeros (n : Nat) : ofBytes (List.replicate n 0#8) = 0 := by
  induction n with
  | zero => rfl
  | succ n ih => simp [List.replicate_succ, ofBytes, ih]

theorem le_zeros (a b : List Byte) (m off n : Nat) (h1 : a.length ≤ off) (h2 : off + n ≤ a.length + m) :
    le (a ++ (List.replicate m 0#8 ++ b)) off n = 0 := by
  have e : ((a ++ (List.replicate m 0#8 ++ b)).drop off).take n = List.replicate n 0#8 := by
    rw [List.drop_append, List.drop_eq_nil_of_le h1, List.nil_append, List.drop_append, List.drop_replicate, List.take_append,
      List.take_replicate, List.length_replicate]
    have h3 : min n (m - (off - a.length)) = n := by omega
    have h4 : n - (m - (off - a.length)) = 0 := by omega
    rw [h3, h4]; simp
  simp [le, sliceB, e, ofBytes_zeros]

/-- The block: its header, its words and the rest of the record of position 0, and what follows. -/
theorem block0_bytes : ((imageOf image0).block 0).bytes = sliceB image0 64 16 ++ (List.replicate 1571 0#8 ++ sliceB image0 1651 349) := by
  decide +kernel

theorem word_block0 (p n : Nat) (hp : p < 8) (hn : n < 16) : ((imageOf image0).block 0).word p n = 0 := by
  rw [Block.word, block0_bytes]
  exact le_zeros _ _ _ _ _ (by unfold wordOff; show 16 ≤ _; omega) (by unfold wordOff; show _ ≤ 16 + 1571; omega)

theorem firstErr_none {α : Type} (f : α → Option LoadErr) (l : List α) (h : ∀ a ∈ l, f a = none) : firstErr f l = none := by
  induction l with
  | nil => rfl
  | cons a l ih => rw [firstErr, h a (by simp), ih (fun b hb => h b (by simp [hb]))]; rfl

theorem wordsErr_image0 : (imageOf image0).wordsErr (fun _ => 0) 0 ((imageOf image0).block 0) = none := by
  refine firstErr_none _ _ (fun k hk => ?_)
  have hk : k < 128 := List.mem_range.mp hk
  rw [Image.wordErr, word_block0 _ _ (by omega) (by omega)]; rfl

theorem phaseFlags_image0 : phaseFlags [(imageOf image0).block 0] = [(0, 0)] := by decide +kernel

theorem names_image0 (p : Nat) (hp : p < 8) : ((imageOf image0).block 0).names p = [] := by
  have : ∀ n ∈ List.range 16, (fun n => let v := ((imageOf image0).block 0).word p n
      if !bit v 95 then none
      else
        let r := rawOf v
        if (0xB0 ≤ r.op && r.op ≤ 0xB2) || (0xC0 ≤ r.op && r.op ≤ 0xCA) then
          (descConst r).map (fun k => bits (((imageOf image0).block 0).const p k) 7 0) else none) n = (none : Option Nat) := by
    intro n hn
    have hn : n < 16 := List.mem_range.mp hn
    simp only [word_block0 p n hp hn]; rfl
  rw [Block.names, List.filterMap_eq_nil_iff.mpr this]; rfl

theorem recErr_image0 : firstErr (fun b => firstErr b.recErr (List.range 8)) [(imageOf image0).block 0] = none := by decide +kernel

theorem blockChecks_of (m : Image) (b : Block) (own : Option (Nat × Nat)) (hl : m.blockList = [b]) (h1 : m.blockErr none b = none)
    (h2 : m.wordsErr (fun _ => 0) 0 b = none) (h3 : firstErr (fun b => firstErr b.recErr (List.range 8)) [b] = none)
    (h4 : phaseFlags [b] = [(0, 0)]) (h5 : bit (b.recFlags 0) 3 = true) (ho : own = none ∨ own = some (0, 0)) :
    m.blockChecks m.blockList (fun _ => 0) 0 own = none := by
  rcases ho with rfl | rfl <;> simp [Image.blockChecks, hl, Image.blocksErr, h1, firstErr, h2, Image.recordsErr, h3, h4, h5] at * <;> simp_all

theorem blockChecks_image0 (own : Option (Nat × Nat)) (ho : own = none ∨ own = some (0, 0)) :
    (imageOf image0).blockChecks (imageOf image0).blockList (fun _ => 0) 0 own = none :=
  blockChecks_of _ _ own rfl blockErr_image0 wordsErr_image0 recErr_image0 phaseFlags_image0 (by decide +kernel) ho

theorem image0_fields : (imageOf (image0.take 64)).fieldErr.isSome = false := by decide +kernel
theorem image0_length : (imageOf (image0.take 64)).length = image0.length := by decide +kernel

/-- A working that waits for its image at address 0x10000, for context 0. -/
def loading : State :=
  { mapped (waiting (.wload 0x10000 1 7) (withWork (fun w => { w with loading := true, islands := false, state := .idle }))) with
    mem := memOf 0x10000 image0 }

theorem wit_ImagesLoaded_read (again : Bool) :
    loading.readImage ⟨fun s a => s.touch (loading.work 1).thread a .read,
      fun s pa => if again then goodAgain (loading.work 1).die 1 s pa else none⟩ 0x10000 = .ok image0 loading :=
  have m : Maps loading := ⟨rfl, rfl⟩
  have hl : image0.length = 2000 := by decide +kernel
  readImage_of rfl (fun va h => m.touch rfl va .read h) 0x10000 image0 rfl rfl (by omega) (by omega) image0_fields image0_length

theorem wit_ImagesLoaded_waits : loading.jobs = [] ∧ (loading.thread (loading.work 1).thread).wait = .wload 0x10000 1 7 ∧
    (loading.work 1).loading = true ∧ (loading.work 1).killing = none ∧ (loading.work 1).savedAt = none := by decide

theorem wit_ImagesLoaded_checks : wloadChecks (loading.work 1) (imageOf image0) 1 = .ok [] := by
  have h1 : wloadErr (loading.work 1) (imageOf image0) 1 = none := by decide +kernel
  have h2 : (imageOf image0).declsErr (fun _ => 0) (imageOf image0).blockList = none := by decide +kernel
  have h3 : (imageOf image0).overlaps (loading.work 1) (fun _ => 0) ((imageOf image0).blockList.filter (fun b => bit 1 b.ctx)) = [] := by
    decide +kernel
  have he : (loading.work 1).entry = fun _ => 0 := by
    have : (loading.work 1).layout = [] := rfl
    funext n; rw [Working.entry, this]; exact BitVec.toNat_zero
  have hs : (loading.work 1).subs = 0 := rfl
  have hq : (loading.work 1).phaseAt = (0, 0) := rfl
  have hr : (loading.work 1).raceX = false := rfl
  rw [wloadChecks, headerErr_image0, h1, he, hs, hq, blockChecks_image0 _ (.inr rfl), h2, h3, hr]; rfl

theorem saving_settles : saving.settle 1 = saving := rfl

theorem saving_length (whole : Bool) : (saving.saveImage 1 whole).length ≤ 2 ^ 30 - 2 ^ 17 := by
  have h : ∀ e ∈ (saving.work 1).elems, (saving.elemWords e).length ≤ 352 := by decide +kernel
  have h2 : (saving.work 1).tiles = [0] ∧ shareBanks (saving.work 1) 0 = [0, 1] ∧ (saving.work 1).head.length = 656 ∧
    (saving.section 1 whole 7).length = 0 ∧ (saving.work 1).elems.length = 8 := by cases whole <;> decide +kernel
  exact small_image saving 1 0 0 1 whole rfl h2.2.2.2.2 h rfl h2.1 h2.2.1 h2.2.2.1 h2.2.2.2.1

theorem touchSectors_of (s : State) (va n : Nat) (m : Maps s) (ha : (s.work (s.thread 0).bound).asid = 0) (h : va + 32 * n ≤ 2 ^ 30) :
    ∃ b, s.touchSectors 0 va n = .ok b s := by
  induction n generalizing va with
  | zero => exact ⟨va, rfl⟩
  | succ n ih =>
    have hw : windowTile va = none := by rw [windowTile, not_window (by omega)]; rfl
    have hr : s.undoRoom (s.thread 0).bound va = true := by rw [State.undoRoom, hw]
    have ht : s.touchWrite 0 va .write = .ok va s := by
      rw [State.touchWrite, m.touch ha _ _ (by omega)]; simp [hr]
    rw [State.touchSectors, ht]
    exact ih (va + 32) (by omega)

theorem wit_WsaveWrites : OnForeman saving ∧ Holds saving [7, 4] ∧ ((saving.thread 0).reg 4).toNat % 64 = 0 ∧
    (∃ b, saving.touchSectors 0 ((saving.thread 0).reg 4).toNat (((saving.settle 1).saveImage 1 false).length / 32) = .ok b saving) ∧
    let s1 := saving.settle 1
    let img := s1.saveImage 1 false
    ∃ s2, ({ s1 with shelf := s1.snapshot 1 false img :: s1.shelf } : State).writeSectors 0 (s1.badSectors 1 img)
      ((saving.thread 0).reg 4).toNat img (img.length / 32) 0 = .ok s2 := by
  have hv : ((saving.thread 0).reg 4).toNat = 0x10000 := rfl
  refine ⟨by decide, by decide, by decide, ?_, ?_⟩
  · rw [hv, saving_settles]
    exact touchSectors_of _ _ _ ⟨rfl, rfl⟩ rfl (by have := saving_length false; omega)
  · rw [hv, saving_settles]
    exact writeSectors_of _ _ _ _ _ _ ⟨rfl, rfl⟩ rfl rfl (by have := saving_length false; omega)

/-- The working of this thread with a save image at address 0x10000. -/
def restoring (l : List Byte) : State := { saving with mem := memOf 0x10000 l }

theorem wit_WrestReads (l : List Byte) (hl : l.length = 128) (h3 : le l 24 8 = 128) : OnForeman (restoring l) ∧ Holds (restoring l) [7, 4] ∧
    (restoring l).readSave ⟨fun s a => s.touch 0 a .read, fun _ _ => none⟩ (((restoring l).thread 0).reg 4).toNat = .ok l (restoring l) := by
  have m : Maps (restoring l) := ⟨rfl, rfl⟩
  refine ⟨show isAssay 0 = false by decide, show ∀ r ∈ [(7 : Reg), 4], (saving.thread 0).holds r = true by decide, ?_⟩
  exact readSave_of rfl (fun va h => m.touch rfl va .read h) 0x10000 l rfl rfl (by omega) hl h3

theorem wit_WrestImages : (∀ l, l = saved0 ∨ l = savedFeature ∨ l = savedWhole → l.length = 128 ∧ le l 24 8 = 128) ∧
    (let w := saving.work 1
     let fits := fun l => saveImageOk l && le l 3 1 == w.ident.toNat && le l 4 1 == w.width && le l 5 1 == w.height && bit (le l 6 1) 0 == w.islands
     fits saved0 = true ∧ lacking (le saved0 8 8) = 0 ∧ fits savedFeature = true ∧ lacking (le savedFeature 8 8) ≠ 0 ∧
       fits (saved0.set 3 1) = false ∧
       (let s := restoring saved0
        s.hoistsFree w.die ((s.snapOf 1 w saved0).hoists.length - (s.ownHoists 1).length) = true)) := by
  refine ⟨?_, by decide +kernel⟩
  rintro l (rfl | rfl | rfl) <;> decide +kernel

/-! ### Witnesses: element instructions -/

/-- The state in which a placed element word is to fire, with its element under the cursor. -/
def placed (w : Nat) : State :=
  let s := State.reset.withFetchWord 96 w
  { s with cur := { s.cur with elem := placeElem (bits w 63 56) } }

/-- The word of an element instruction. -/
def wordOf (n : Nat) : Option EWord := ((decodeTableWord 96 n).bind elemCode).map (fun p => p.2)

/-- A word's instruction has a rule of a family and is ready where it is placed. -/
def readyUnder {α : Type} (rule : Instr → Option α) (n : Nat) : Bool :=
  match decodeTableWord 96 n with
  | some i => (rule i).isSome && (placed n).instrReady (placed n).cur.elem i
  | none => false

/-- The placed element with something changed. -/
def placedWith (f : Elem → Elem) (n : Nat) : State := (placed n).modElem (placed n).cur.elem f

/-- Each instruction of R152 to R155 fires where its word is placed. -/
theorem wit_ElementIntegerResults : [0x8000004000084418E0300000, 0x8000004001184418E0300000, 0x8000004002284418E0300000,
    0x8000004003384418E0300000, 0x8000004004484418E0300000, 0x800001C005580018E0200000, 0x800001C006080018E0200000,
    0x8000004007184418E0300000, 0x8000004008284418E0300000, 0x8000004009384418E0300000, 0x800000400A484418E0300000,
    0x800000400B584418E0300000, 0x800000400C084418E0300000, 0x800001C00D180018E0200000, 0x800001C00E280018E0200000,
    0x8000004010B84418E0300000, 0x8000004011B84418E0300000, 0x8000004012B84418E0300000, 0x800001C013B80018E0200000,
    0x8000004014B84418E0300000, 0x8000004015B84418E0300000, 0x8000004018B84418E0300000, 0x8000004019084418E0300000,
    0x800000401A284418E0300000, 0x800000401B184418E0300000, 0x8000004020484478E0300000, 0x8000004021484478E0300000,
    0x8000004022484478E0300000, 0x8000004024484478E0300000, 0x8000004029484478E0300000, 0x800001C02528001841200000,
    0x800001C02628001841200000].all (readyUnder intRule) = true := by decide +kernel

theorem wit_ElementFloatResults : [0x8000004040684418E0300000, 0x8000004041784418E0300000, 0x8000004042884418E0300000,
    0x8000004043684418E0300000, 0x8000004044784418E0300000, 0x8000004045884418E0300000, 0x800001C046680018E0200000,
    0x800001C047780018E0200000, 0x8000004048884418E0300000, 0x8000004049684418E0300000, 0x800000404A784418E0300000,
    0x800000404B884418E0300000, 0x800001C058680018E0200000, 0x800001C059680018E0200000, 0x800001C05A680018E0200000,
    0x800001C05B680018E0200000].all (readyUnder floatRule) = true := by decide +kernel

theorem wit_ElementTokenResults : [0x8000004070084418E0300000, 0x8000004071084418E0300000, 0x8000004072084418E0300000,
    0x8000004096084418E0300000, 0x800001C099C80018E0200000, 0x8000004099D84418E0300000,
    0x8000004099E84418E0300000, 0x800039C09C009F18E0000000, 0x800039C09D009F40E0000000, 0x800039C09E009F48E0000000,
    0x800039C09F030018E0000000, 0x800039C0E2C00018E0000000, 0x800039C0E2D00018E0000000, 0x800039C0E2E00018E0000000,
    0x800039C0E2F00018E0000000, 0x800001C090080018E0200000].all (readyUnder tokenRule) = true := by decide +kernel

/-- The reductions and prefix sums, with eight valid lanes and with none. -/
theorem wit_ElementReductions : [0x800001C078280018E0200000, 0x800001C079280018E0200000, 0x800001C07A280018E0200000,
    0x800001C07B880018E0200000, 0x800001C07C880018E0200000, 0x800001C07D880018E0200000].all (readyUnder reduceRule) = true ∧
    [0x800001C080580018E0200000, 0x800001C081780018E0200000].all (readyUnder prefixRule) = true ∧
    ((wordOf 0x800001C078280018E0200000).map (fun w => ((placed 0x800001C078280018E0200000).opA (placed 0x800001C078280018E0200000).cur.elem w).m) = some 0xFF) ∧
    (let s := placedWith (fun x => x.setQueue 0 [⟨{ Token.zero with l := true }, .restored false⟩]) 0x800001C078280018E0200000
     (wordOf 0x800001C078280018E0200000).map (fun w => (s.ready s.cur.elem w, (s.opA s.cur.elem w).m)) = some (true, 0)) := by decide +kernel

/-- CVT, CVT.rz and CVT.rs, of one part and of two. -/
theorem wit_ElementConversions : [0x800001C050781818E0200000, 0x800001C051781818E0200000, 0x800001C052781818E0200000].all
      (readyUnder convRule) = true ∧
    [0x800001C050681C18E0200000, 0x800001C051681C18E0200000, 0x800001C052681C18E0200000].all (readyUnder convRule) = true ∧
    (wordOf 0x800001C050781818E0200000).map (fun w => decide (Ty.count w.ty < Ty.count (tyOf (srcCode w.sb)))) = some false ∧
    (wordOf 0x800001C050681C18E0200000).map (fun w => decide (Ty.count w.ty < Ty.count (tyOf (srcCode w.sb)))) = some true := by
  decide +kernel

theorem wit_ElementTokenFlow : [0x800001C09108008060200000, 0x800001C092000380E0200000, 0x800001C098080018E0290000,
    0x8000004098C84418E0300000, 0x800039C0E3000380E0000000, 0x800000409308450681300000, 0x800011C094084418E0200000,
    0x8000004095084418E0300000].all (readyUnder elemCode) = true ∧
    (let bar : Token := { Token.zero with t := 15 }
     let s := placedWith (fun x => (x.setQueue 0 [⟨bar, .restored false⟩]).setQueue 1 [⟨bar, .restored false⟩]) 0x800000409A000018E0300000
     (wordOf 0x800000409A000018E0300000).map (s.readyBfwd s.cur.elem) = some true) := by decide +kernel

/-- PACK, TAGA, TAGF and TAGX; TAGA with every tag but the last in use. -/
theorem wit_ElementPackAndTags : [0x800001C097081018E0200000, 0x80000040A0081018E0300000, 0x80000040A1081018E0300000,
    0x80000040A2084418E0300000, 0x800001C0A2C80018E0200000].all (readyUnder elemCode) = true ∧
    (let s := placedWith (fun x => x.setReg 4 (setMap VReg.zero (2 ^ 63 - 1))) 0x80000040A0081018E0300000
     (wordOf 0x80000040A0081018E0300000).map (s.readyTaga s.cur.elem) = some true) := by decide +kernel

theorem wit_ElementChains : [0x800001C0A4D80380E0200000, 0x800001C0A5D80380E0200000, 0x800001C0A6D80380E0200000,
    0x800001C0A6F00380E0200000, 0x800039C0A7D00018E0000000, 0x800039C0A7E00018E0000000].all (readyUnder elemCode) = true := by decide +kernel

/-- SPAWN and JOIN with the counter that they name at 0, FENCE, and ETRAP in a working that neither ends nor freezes. -/
theorem wit_ElementTasksAndTraps : [0x800001C0A8085B80E0200000, 0x800039C0A9006418E0000000, 0x800001C0E0086818E0200000,
    0x800001C0E1080380E0200000].all (readyUnder elemCode) = true ∧
    (let s := placed 0x800001C0A8085B80E0200000
     (wordOf 0x800001C0A8085B80E0200000).map (fun w => decide (CounterIs s 0 ((s.opB s.cur.elem w).p.a0.toNat / 2 ^ 8 % 2 ^ 6) 0)) = some true) ∧
    (let s := placed 0x800039C0A9006418E0000000
     (wordOf 0x800039C0A9006418E0000000).map (fun w => decide (CounterIs s 0 ((s.opB s.cur.elem w).p.a0.toNat % 2 ^ 6) 0)) = some true) ∧
    (let s := placed 0x800001C0E1080380E0200000
     let h := s.owner s.cur.elem
     s.hasWork h = true ∧ (s.work h).killing = none ∧ (s.work h).freeze = none) := by decide +kernel

/-- Every instruction that issues an access, with its rule, LD and ST, and SWATCH. -/
theorem wit_ElementMemoryIssue : [0x800001C0B0C8020040200000, 0x80000040B1D8460040300000, 0x800001C0C2E8020040200000,
    0x800019C0C3DDCE0040210000, 0x80000040C4C8460040300000, 0x80000040C5D8460040300000, 0x80000040C6E8460040300000,
    0x80000040C7F8460040300000, 0x800001C0C8C8020040200000, 0x800001C0C9C8020040200000, 0x80000040CAC84500E0300000,
    0x80000040CB08460040300000].all (fun n => readyUnder (issueRule (placed n).cur.elem (placed n)) n) = true ∧
    [0x80000040B2F8460040300000, 0x800001C0C0C8020040200000, 0x80000040C1D8460040300000].all (readyUnder elemCode) = true := by decide +kernel

/-- Two sectors of a speculation, and a tile whose SE at position 3 has it open on bank 0. -/
def specSectors : SMap (List Byte × Bool) := [(2 ^ 40 + 64, (List.replicate 32 7, false)), (2 ^ 40 + 128, (List.replicate 32 9, true))]
def speculating (n : Nat) : State := (placed n).setTile 0 { specs := [⟨0, 3, 0, specSectors⟩] }

theorem wit_ElementSpeculation : (let n := 0x800001C0B4C80018E0200000
      let w := wordOf n
      w.map ((placed n).ready (placed n).cur.elem) = some true ∧ tileOf (placed n).cur.elem = 0 ∧
        w.map (fun w => (SMap.get 0 ((placed n).curCfg (placed n).cur.elem).k (tyCode w.ty - 12)).toNat % 16) = some 0 ∧
        ((placed n).tile 0).specs = [] ∧
        (let s := (placed n).setTile 0 { specs := [⟨1, 3, 0, []⟩] }
         (s.tile 0).specs.length < 2 ∧ ∀ p, p ∈ (s.tile 0).specs → p.bank ≠ 0)) ∧
    (let s := speculating 0x800001C0B6C80018E0200000
     (wordOf 0x800001C0B6C80018E0200000).map (fun w => (s.ready s.cur.elem w,
       (s.tile (tileOf s.cur.elem)).specs.any (fun p => p.opener == s.cur.elem &&
         p.bank == (SMap.get 0 (s.curCfg s.cur.elem).k (tyCode w.ty - 12)).toNat % 16))) = some (true, true)) ∧
    (let s := speculating 0x800001C0B5C80018E0200000
     (wordOf 0x800001C0B5C80018E0200000).map (fun w => (s.ready s.cur.elem w,
       (s.tile (tileOf s.cur.elem)).specs.find? (fun p => p.opener == s.cur.elem &&
         p.bank == (SMap.get 0 (s.curCfg s.cur.elem).k (tyCode w.ty - 12)).toNat % 16))) =
       some (true, some ⟨0, 3, 0, specSectors⟩) ∧ (s.elem s.cur.elem).accs = []) ∧
    (∀ q, q ∈ specSectors → q.1 % 32 = 0 ∧ q.2.1.length = 32) ∧ specSectors.Pairwise (fun q r => q.1 ≠ r.1) := by decide +kernel

/-! ### Witnesses: matrix islands -/

/-- Island 0 of a state changed. -/
def withIsl (f : Island → Island) (s : State) : State := s.setIsland 0 (f (s.island 0))

/-- Operand slot 0 and accumulator slot 0 claimed by context 0. -/
def claimed (s : State) (o : OSlot := {}) (z : ASlot := {}) : State :=
  withIsl (fun i => (i.setOp 0 { o with claim := some 0 }).setAcc 0 { z with claim := some 0 }) s

/-- The token in queue 0 of the placed element with lane 0 as given. -/
def lane0 (n : Word) (m : BitVec 8) (s : State) : State :=
  s.modElem s.cur.elem (fun x => x.setQueue 0 [⟨{ Token.zero with l := true, m := m, p := { Lanes.zero with a0 := n } }, .restored false⟩])

/-- The words of the six instructions on type 12 to 15 as their encodings ask, and the readiness and slots that they find. -/
def finds {α : Type} (n : Nat) (f : State → Nat → EWord → α) (s : State) : Option α := (wordOf n).map (f s s.cur.elem)

theorem wit_MatrixIslandCommands_oclm : let op := 0x800001C0D0C8035060200000
    let acc := 0x800001C0D0D8035060200000
    let find := fun (s : State) e w => (s.readyOclm e w, s.oclmFinds e w)
    finds op find (placed op) = some (true, .fresh 0) ∧ finds op find (lane0 63 1 (placed op)) = some (true, .fresh 63) ∧
    finds op find (lane0 64 1 (placed op)) = some (true, .noSlot) ∧ finds op find (lane0 0xFFFFFFFF 1 (claimed (placed op))) = some (true, .fresh 1) ∧
    finds op find (claimed (placed op)) = some (true, .held 0) ∧ finds op find (lane0 0 0 (placed op)) = some (true, .noSlot) ∧
    finds acc find (lane0 7 1 (placed acc)) = some (true, .fresh 7) ∧ finds acc find (lane0 8 1 (placed acc)) = some (true, .noSlot) ∧
    finds acc find (claimed (placed acc)) = some (true, .held 0) := by decide +kernel

theorem wit_MatrixIslandCommands_slots : let rls := 0x800001C0D1D8035060200000
    let rlsOp := 0x800001C0D1C8035060200000
    let clr := 0x800001C0D508035060200000
    finds rls (fun s e w => (s.readyOrls e w, s.orlsSlot e w)) (claimed (placed rls)) = some (true, some 0) ∧
    finds rlsOp (fun s e w => (s.readyOrls e w, s.orlsSlot e w)) (claimed (placed rlsOp)) = some (true, some 0) ∧
    finds rls (fun s e w => (s.readyOrls e w, s.orlsSlot e w)) (placed rls) = some (true, none) ∧
    finds clr (fun s e w => (s.readyTzero e w, s.tzeroSlot e w)) (claimed (placed clr)) = some (true, some 0) ∧
    finds clr (fun s e w => (s.readyTzero e w, s.tzeroSlot e w)) (placed clr) = some (true, none) := by decide +kernel

theorem wit_MatrixIslandCommands_tload : let load := 0x80000040D2C8475060300000
    finds load (fun s e w => (s.readyTload e w, s.tloadSlot e w)) (claimed (placed load)) = some (true, some 0) ∧
    finds load (fun s e w => (s.readyTload e w, s.tloadSlot e w)) (placed load) = some (true, none) := by decide +kernel

theorem wit_MatrixIslandCommands_tmul : let mul := 0x800009C0D3C8835060200000
    let find := fun (s : State) e w => (s.readyTmul e w && (s.tmulMisuse e w).isNone, s.tmulSlots e w)
    finds mul find (claimed (placed mul) { fill := 2 }) = some (true, some (0, 0, 0)) ∧
    finds mul find (placed mul) = some (true, none) := by decide +kernel

theorem wit_MatrixIslandCommands_tout : let out := 0x80000040D4F8475060300000
    let find := fun (s : State) e w => (s.readyTout e w && (s.toutMisuse e w).isNone, s.toutSlot e w)
    finds out find (claimed (placed out) {} { kind := 1 }) = some (true, some 0) ∧
    finds out find (claimed (placed out) {} { kind := 1, psn := true }) = some (true, some 0) ∧
    finds out find (placed out) = some (true, none) := by decide +kernel

/-- AE 0 with an island macro under way on slots 0. -/
def macroed (a : Access) (o : OSlot := {}) (z : ASlot := {}) : State :=
  withElem 0 (fun x => { x with accs := [a] }) (claimed (laid) o z)

theorem noBad {s : State} (h : s.badSec = []) : (∀ p, s.isBad p = false) ∧ ∀ p n, s.badIn p n = false := by
  have : ∀ p, s.isBad p = false := fun p => by rw [State.isBad, h]; rfl
  exact ⟨this, fun p n => by simp [State.badIn, this]⟩

/-- Rows 0 and 63 of a TLOAD with no uncorrectable word. -/
theorem wit_MatrixIslandRowsAndSteps_fill : ∀ k, k = 0 ∨ k = 63 → let a := { accOf 1 0xD2 with total := 64, prg := k }
    let s := macroed a { fill := 1 }
    s.macroDue 0 = some a ∧ a.op = 0xD2 ∧ a.prg < 64 ∧ (∀ p, s.isBad p = false) ∧ ∀ p n, s.badIn p n = false := by
  rintro k (rfl | rfl) <;> exact ⟨by decide +kernel, by decide, by decide, noBad rfl⟩

/-- A TMUL of two blocks of bf16 at its first and at its last, and the last of one of e2m1. -/
theorem wit_MatrixIslandRowsAndSteps_step : ∀ p, p = (0, 0, 2) ∨ p = (0, 1, 2) ∨ p = (7, 7, 8) →
    let a : Access := { accOf 1 0xD3 with prg := p.2.1, total := p.2.2 }
    let s := macroed a { fill := 2, rdr := 2, fmt := p.1 } { busy := true, kind := 1 }
    let q := s.quad (quadOfTile 0)
    let i := (s.island 0).boundary
    (s.island 0).throttleOk q.step.toNat q.cyc = true ∧ tabSeek i.tab (tabNext i.tab) ≠ none ∧
      (s.setIsland 0 i).stepEntry 0 i.tab = some (0, a) ∧ (fmtPerStep ((s.island 0).op a.a.p.a0.toNat).fmt = 1 ∨ a.prg + 1 = a.total) := by
  rintro p (rfl | rfl | rfl) <;> decide +kernel

theorem wit_MatrixIslandRowsAndSteps_block : 63 < 64 ∧ ({ kind := 2 } : ASlot).kind = 2 ∧
    ({ kind := 1 } : ASlot).kind ≠ 2 ∧ fmtMx ({ fmt := 4 } : OSlot).fmt = false := by decide

/-- A TOUT as f32 and one in an MX format under a fixed scale, of a slot of zeros. -/
theorem wit_MatrixIslandRowsAndSteps_out : ∀ p, p = (0, 0) ∨ p = (5 * 2 ^ 14 + 2 ^ 26, 63) → let a : Access := { accOf 1 0xD4 (BitVec.ofNat 32 p.1) with
      total := 64, prg := p.2, b := { VReg.zero with p := { Lanes.zero with a1 := 127 } } }
    let s := macroed a {} { busy := true, kind := 1 }
    let z := (s.isl 0).acc 0
    let row := toutRow z a.desc.toNat 127 a.prg
    let l := s.toutWrites 0 a row.1 row.2
    s.macroDue 0 = some a ∧ macSlot a = 0 ∧ a.b.p.a1.toNat % 256 = 127 ∧ (s.isl 0).bad.contains (0, true) = false ∧
      (∀ b, b < 2 → rescale (toutElem (toutFmt a.desc.toNat)) 127 (z.blockOf a.prg b) = none) ∧
      (s.writeMarked 0 (l.map (fun p => (p.1, p.2.1))) (fun sec => z.psn || l.any (fun p => sectorOf p.1 == sec &&
        toutMx (toutFmt a.desc.toNat) && blockExc (z.blockOf a.prg p.2.2)))).isSome = true := by
  rintro p (rfl | rfl) <;> decide +kernel

/-! ### Witnesses: accesses under way -/

/-- A place is a location for which f holds. -/
def placedAt (p : Place) (f : Nat → State → Bool) : Bool :=
  match p with
  | .ok pa s => f pa s
  | _ => false

theorem placedAt_ok {p : Place} {f : Nat → State → Bool} (h : placedAt p f = true) : ∃ pa s, p = .ok pa s ∧ f pa s = true := by
  cases p with
  | ok pa s => exact ⟨pa, s, rfl, h⟩
  | _ => exact absurd h (by simp [placedAt])

/-- A translation gives an address. -/
def translated (r : Trans) : Bool :=
  match r with
  | .ok _ _ _ => true
  | _ => false

/-- An access whose A and B are valid in every lane. -/
def accFull (op : Nat) (desc : Word := 0) (base : Nat := 0x100) : Access :=
  { accOf 1 op desc with a := { VReg.zero with m := 0xFF }, b := { VReg.zero with m := 0xFF }, base := base }

/-- The element that makes an access: the SE at position 3, or the ME at position 7 with its caches filled. -/
def making (e : Nat) (a : Access) : State := withElem e (fun x => { x with accs := [a] }) (mapped laid)

/-- Two bytes of the sector at the start of entry 0, written by AE 0 with the poison mark and without, and over an error. -/
theorem wit_ElementWritesBytes : let l := [(2 ^ 40 + 0x100, (7 : Byte)), (2 ^ 40 + 0x11F, 9)]
    (laid.writeMarked 0 l (fun _ => false)).isSome = true ∧ (laid.writeMarked 0 l (fun _ => true)).isSome = true ∧
    (∀ p ∈ l, laid.findsBad p.1 (inList l) = false) ∧ (∀ p ∈ l, ∀ q ∈ l, p.1 = q.1 → p.2 = q.2) ∧
    (let l := addrBytes (2 ^ 40 + 0x100) (List.replicate 32 7)
     coversCount (2 ^ 40 + 0x100) l = 32 ∧ (laid.writeMarked 0 l (fun _ => false)).isSome = true) ∧
    (let s := laid.setBad (2 ^ 40 + 0x118) true
     (s.writeMarked 0 l (fun _ => false)).isSome = true ∧ s.findsBad (2 ^ 40 + 0x11F) (inList l) = true) := by decide +kernel

/-- No byte of the window lies in an error ring of a base of 0. -/
theorem notRing (d a : Nat) (h : 2 ^ 40 ≤ a) : ¬ RingByte laid d a := by
  have hb : (laid.die d).ringBase = 0 := by
    rw [State.die, show laid.dies = [(0, { started := true }), (1, { started := true }), (2, { started := true }), (3, { started := true })] from rfl]
    simp only [SMap.get]
    split <;> try rfl
    split <;> try rfl
    split <;> try rfl
    split <;> rfl
  rintro ⟨_, h2⟩
  have : (laid.die d).ringSize.toNat ≤ 31 := by have := (laid.die d).ringSize.isLt; omega
  have : 2 ^ (laid.die d).ringSize.toNat ≤ 2 ^ 31 := Nat.pow_le_pow_right (by decide) this
  rw [hb] at h2
  omega

/-- A working with a region that keeps entry 0 and room left, one whose undo log is full, and a sector kept already. -/
def keepingEntry (n : Nat) : State :=
  (withWork (fun w => { w with layout := layout4, regions := [{ region with keeps := [0] }] })).setTile 0
    { undo := List.replicate n { handle := 1, depth := 1, entry := 0, sector := 0, old := [], poison := false } }

theorem wit_ElementWritesBytes_undo : windowTile (2 ^ 40 + 0x100) = some 0 ∧ laid.undoNeed (laid.owner 0) (2 ^ 40 + 0x100) = none ∧
    ((keepingEntry 0).undoNeed ((keepingEntry 0).owner 0) (2 ^ 40 + 0x100) = some (1, 0) ∧ (keepingEntry 0).undoUsed 0 + 64 ≤ 65536) ∧
    ((keepingEntry 1024).undoNeed ((keepingEntry 1024).owner 0) (2 ^ 40 + 0x100) ≠ none ∧ 65536 < (keepingEntry 1024).undoUsed 0 + 64) := by
  decide +kernel

/-- An SST of an SE in its own speculation, on a sector that it holds and on one that it does not yet. -/
def specAcc : Access := { accOf 2 0xB1 with specs := [(0, 0)] }
def inSpec : State := laid.setTile 0 { specs := [⟨0, 3, 0, specSectors⟩] }

theorem wit_ElementWritesBytes_spec : ∀ sec, sec = 2 ^ 40 + 64 ∨ sec = 2 ^ 40 + 96 + 2 ^ 7 * 16 →
    sec % 32 = 0 ∧ (match inSpec.specAt 3 specAcc sec with | .some p => p == ⟨0, 3, 0, specSectors⟩ | _ => false) = true ∧
      (inSpec.writeSpec 3 specAcc sec [(sec, 5)] false).isSome = true := by
  rintro sec (rfl | rfl) <;> decide +kernel

theorem wit_AccessesPerform_se : (∀ r, r = 0 ∨ r = 15 → let a := { accFull 0xB0 with a := { VReg.zero with m := 1, p := { Lanes.zero with a0 := r } } }
      (making 3 a).due 3 1 = some a ∧ (making 3 a).badSec = []) ∧
    (let a := accFull 0xB1
     let s := making 3 a
     s.due 3 1 = some a ∧ a.specs = [] ∧ (s.writeSst 3 a ((List.range 32).filterMap (fun j =>
       if s.rowWrites 3 a (j / 4) then (s.rowByte 3 a j).map (fun n => (n, (lanesBytes a.b.p 32).getD j 0)) else none)) a.b.x).isSome = true) ∧
    (windowTile (2 ^ 40 + 64) = some (tileOf 3) ∧ specAcc.specs.find? (fun p => p.1 == bankOf (2 ^ 40 + 64)) = some (0, 0) ∧
      (inSpec.tile (tileOf 3)).specs.find? (fun g => g.opener == 3 && g.bank == 0 && g.begun == 0) = some ⟨0, 3, 0, specSectors⟩) := by
  refine ⟨?_, by decide +kernel, by decide +kernel⟩
  rintro r (rfl | rfl) <;> decide +kernel

theorem wit_AccessesPerform_me : (let a := accFull 0xC0 3 0x1000
      let s := making 7 a
      s.due 7 1 = some a ∧ entPeer (s.accEntry 7 a) = false ∧
        (s.accOne 7 a).any (fun va => placedAt (s.placeRead 7 a va (entSize (s.accEntry 7 a)) .read) (fun _ _ => true)) = true) ∧
    (let a := accFull 0xC1 3 0x1000
     let s := making 7 a
     s.due 7 1 = some a ∧ entPeer (s.accEntry 7 a) = false ∧ stBytes (entSize (s.accEntry 7 a)) a.b ≠ [] ∧
       (s.accOne 7 a).any (fun va => placedAt (s.place 7 a va .write) (fun pa s' =>
         (s'.writeBytes 7 ((stBytes (entSize (s.accEntry 7 a)) a.b).map (fun p => (pa + p.1, p.2))) a.b.x).isSome)) = true) ∧
    (let a := accFull 0xC8 3 0x1000
     let s := making 7 a
     s.due 7 1 = some a ∧ (s.accOne 7 a).any (fun va => translated (s.transCached ⟨some 7, some (quadOf 7), dieOf 7⟩
       (s.work (s.owner 7)).asid va a.acc (entIdent (s.accEntry 7 a)))) = true) := by decide +kernel

/-- The coordinate 16 of an entry of 16 words is out of range. -/
theorem wit_AccessesPerform_out : ∀ op, op = 0xC0 ∨ op = 0xC1 ∨ op = 0xC8 →
    let a := { accFull op with a := { VReg.zero with m := 1, p := { Lanes.zero with a0 := 16 } } }
    (making 7 a).due 7 1 = some a ∧ (making 7 a).accOne 7 a = none := by
  rintro op (rfl | rfl | rfl) <;> decide +kernel

/-- Lane 0 of an AMO with eight lanes on words of their own, its last lane, and the one lane of a CAS. -/
def lanesAt (op : Nat) (desc : Word) (m done : BitVec 8) : Access :=
  { accFull op desc with done := done, a := ⟨Lanes.ofFn (fun i => BitVec.ofNat 32 i), m, false⟩, b := { VReg.zero with m := 0xFF } }

theorem wit_StampAtomicsPerform : ∀ p, p = (lanesAt 0xC4 0 0xFF 0, 7) ∨ p = (lanesAt 0xC5 0 0xFF 0, 0) ∨ p = (lanesAt 0xC6 0 0xFF 0x7F, 7) ∨
      p = (lanesAt 0xC7 0 1 0, 0) ∨ p = (lanesAt 0xC4 (12 * 2 ^ 16) 8 0, 3) → let a := p.1
    let l := p.2
    let s := making 3 a
    s.due 3 1 = some a ∧ 0xC4 ≤ a.op ∧ a.op ≤ 0xC7 ∧ l ∈ s.lanesLeft 3 a ∧
      (∀ k, k ∈ s.lanesLeft 3 a → k < l → a.stampOrd = false ∧ s.laneActs 3 a k ≠ s.laneActs 3 a l) ∧
      entPeer (s.accEntry 3 a) = false ∧ (s.laneActs 3 a l).any (fun va => placedAt (s.placeRead 3 a va 4 .atomic) (fun pa s' =>
        (s'.writeBytes 3 (addrBytes pa (toBytes 4 1)) false).isSome)) = true := by
  rintro p (rfl | rfl | rfl | rfl | rfl) <;> decide +kernel

/-- Page tables at 2^20: address space 0 has one leaf of 2^30 bytes at address 0, readable and writable. -/
def tabled (s : State := laid) : State :=
  stored 0x300000 (toBytes 8 0xF) (stored 0x200000 (toBytes 8 0x300001) (stored 0x100000 (toBytes 8 0x200001)
    (withDie (fun d => { d with astbase := 0x100001 }) s)))

/-- One access parked on a page, and two. -/
theorem wit_MacroElementsAndWalks_walk : ∀ p, p = (0xC0, 1) ∨ p = (0xC1, 2) →
    let a := { accFull p.1 3 0x1000 with stage := .parked, va := 0x1000 }
    let s := withElem 7 (fun x => { x with accs := (List.range p.2).map (fun i => { a with seq := 1 + i }) }) tabled
    let l : Tlb := ⟨0, 0, 30, 0xF, 0x300000⟩
    (s.elem 7).accs.find? (fun b => b.seq == 1) = some a ∧ a.stage = .parked ∧ s.alive 7 = true ∧
      s.walk (dieOf 7) (s.work (s.owner 7)).asid a.va = .leaf l ∧
      (s.parkedOn (quadOf 7) (s.work (s.owner 7)).asid (a.va / 2 ^ 16)).length = p.2 ∧
      ∀ b, b ∈ s.parkedOn (quadOf 7) (s.work (s.owner 7)).asid (a.va / 2 ^ 16) →
        dieOf b.1 = dieOf 7 ∧ leafRefuses l b.2.acc (entIdent (s.accEntry b.1 b.2)) = none := by
  rintro p (rfl | rfl) <;> decide +kernel

/-- No lane left, and the first and the last lane of GATHR and SCATR, of words and of sectors. -/
theorem wit_MacroElementsAndWalks_lanes : (∀ p, p = (0xC2, 0) ∨ p = (0xC2, 2) ∨ p = (0xC3, 0) → let a := { lanesAt p.1 p.2 0xFF 0 with prg := 8, total := 8 }
      let s := making 7 a
      s.macroDue 7 = some a ∧ ∀ k, k < 8 → a.prg ≤ k → s.laneActs 7 a k = none) ∧
    (∀ p, p = (0xC2, 0, 0, 0xFF) ∨ p = (0xC2, 7, 0, 0xFF) ∨ p = (0xC2, 0, 2, 0x81) ∨ p = (0xC2, 7, 2, 0x81) ∨ p = (0xC3, 0, 0, 0xFF) ∨
        p = (0xC3, 7, 0, 0xFF) → let a := { lanesAt p.1 p.2.2.1 (BitVec.ofNat 8 p.2.2.2) 0 with prg := p.2.1, total := 8 }
      let s := making 7 a
      let size := entSize (s.accEntry 7 a)
      let u := s.modAcc 7 a.seq (fun b => { b with prg := p.2.1 })
      s.macroDue 7 = some a ∧ (∀ k, k < p.2.1 → a.prg ≤ k → s.laneActs 7 a k = none) ∧ entPeer (s.accEntry 7 a) = false ∧
        (size = 32 ↔ p.2.2.1 = 2) ∧
        (s.laneActs 7 a p.2.1).any (fun va => placedAt (u.placeRead 7 { a with prg := p.2.1 } va size .read) (fun _ _ => true) &&
          placedAt (u.place 7 { a with prg := p.2.1 } va .write) (fun pa s' =>
            (s'.writeBytes 7 (addrBytes pa (toBytes (min size 4) (a.b.p.get p.2.1).toNat)) a.b.x).isSome)) = true) := by
  refine ⟨?_, ?_⟩
  · rintro p (rfl | rfl | rfl) <;> decide +kernel
  · rintro p (rfl | rfl | rfl | rfl | rfl | rfl) <;> decide +kernel

/-- A chase on a record whose pointer 0 is given, with hops left and with none, and one that has met its end. -/
theorem wit_MacroElementsAndWalks_chase : (∀ p, p = (0x2000, 1) ∨ p = (0x2000, 0) ∨ p = (0, 1) →
      let a := { accFull 0xC9 3 0x1000 with node := 0x1000, total := p.2 }
      let s := stored 0x1000 (toBytes 8 p.1) (making 7 a)
      s.macroDue 7 = some a ∧ a.ended = false ∧ placedAt (s.placeRead 7 a (sectorOf a.node) 32 .read) (fun pa s' =>
        le (s'.bytesAt pa 32) (8 * (a.desc.toNat / 2 ^ 8 % 4)) 8 == p.1) = true) ∧
    (let a := { accFull 0xC9 3 0x1000 with ended := true }
     (making 7 a).macroDue 7 = some a) := by
  refine ⟨?_, by decide +kernel⟩
  rintro p (rfl | rfl | rfl) <;> decide +kernel

/-- Walks of no step from lanes 0 and 7, one from a vertex that is none, and a firing whose walks are done or that has none. -/
theorem wit_MacroElementsAndWalks_tram : (∀ k, k = 0 ∨ k = 7 → let a := { lanesAt 0xCA 3 0xFF 0 with prg := k, total := 8 }
      let s := making 7 a
      s.macroDue 7 = some a ∧ ((List.range 8).filter (fun l => mbit a.a.m l && mbit a.b.m l))[a.prg]? = some k ∧
        (a.a.p.get k).toNat < entExt (s.accEntry 7 a) 0 ∧ a.desc.toNat / 2 ^ 8 % 2 ^ 8 = 0) ∧
    (let a := { lanesAt 0xCA 3 0xFF 0 with total := 8, a := ⟨Lanes.ofFn (fun _ => 16), 0xFF, false⟩ }
     (making 7 a).macroDue 7 = some a ∧ entExt ((making 7 a).accEntry 7 a) 0 ≤ (a.a.p.get 0).toNat) ∧
    (∀ k, k = 0 ∨ k = 8 → let a := { lanesAt 0xCA 3 (BitVec.ofNat 8 (2 ^ k - 1)) 0 with prg := k, total := k }
      (making 7 a).macroDue 7 = some a ∧ ((List.range 8).filter (fun l => mbit a.a.m l && mbit a.b.m l))[a.prg]? = none) := by
  refine ⟨?_, by decide +kernel, ?_⟩ <;> rintro k (rfl | rfl) <;> decide +kernel

/-- A walk of one step to vertex 0, whose record has one neighbour, itself. -/
def walking : Access := { lanesAt 0xCA (3 + 2 ^ 8) 1 0 with total := 1, base := 0x1000 }
def graph : State := stored 0x2000 (toBytes 4 0) (stored 0x1000 (toBytes 8 1 ++ toBytes 8 0x2000) (making 7 walking))

theorem wit_MacroElementsAndWalks_walked : ∃ rest x s', rest.length = 1 ∧ Walked 7 walking graph
    (BitVec.ofNat 64 (walking.seed.toNat * 2 ^ 32 + (walking.b.p.get 0).toNat)) 0 1 rest x s' := by
  have h : placedAt (graph.placeRead 7 walking 0x1000 32 .read) (fun pa s1 => le (s1.bytesAt pa 32) 0 4 == 1 && placedAt (s1.placeRead 7 walking
      (le (s1.bytesAt pa 32) 8 8 + 4 * ((splitmix (BitVec.ofNat 64 (walking.seed.toNat * 2 ^ 32 + (walking.b.p.get 0).toNat))).2.toNat % 2 ^ 32 * 1 / 2 ^ 32)) 4 .read)
      (fun pb s2 => decide (s2.word pb 4 < entExt (s2.accEntry 7 walking) 0))) = true := by decide +kernel
  obtain ⟨pa, s1, h1, h⟩ := placedAt_ok h
  rw [Bool.and_eq_true] at h
  obtain ⟨pb, s2, h2, h3⟩ := placedAt_ok h.2
  exact ⟨_, _, _, rfl, .step graph s1 s2 s2 _ 0 0 0x1000 pa pb 1 [] false (by decide +kernel) h1 (by simpa using h.1) (by decide) h2
    (by simpa using h3) (.done _ _ _)⟩

/-- A performed access with a token for each destination. -/
def replying : Access := { accOf 1 0xB0 with stage := .performed, out0 := [Token.zero], out1 := [Token.zero] }

theorem wit_RepliesWavesAndArrivals_leave : ∀ b : Bool, let a := { replying with res0 := b, res1 := b }
    let s := making 3 a
    (s.elem 3).leaves 1 = some a ∧ s.alive 3 = true ∧ s.cycleHeld 3 = false ∧ a.stage = .performed ∧ a.out0 = [Token.zero] ∧ a.out1 = [Token.zero] ∧
      (let u0 := if a.res0 then s.giveRoom 3 a.r0 (destOf a.d0) else s
       let s1 := u0.writeVia 3 a.r0 (destOf a.d0) Token.zero (.reply 3 a.bare false a.sent0)
       let u1 := if a.res1 then s1.giveRoom 3 a.r1 (destOf a.d1) else s1
       u0.roomVia 3 a.r0 (destOf a.d0) = true ∧ u1.roomVia 3 a.r1 (destOf a.d1) = true) := by decide +kernel

theorem wit_RepliesWavesAndArrivals_wave : let a := accOf 1 0xC0
    let s := withElem 7 (fun x => { x with wbuf := [{ accOf 0 0xC0 with desc := 2 * 2 ^ 8 }, a] })
    (s.elem 7).wbuf.find? (s.elem 7).canEnter = some a ∧ memRoom 7 (s.elem 7) = true ∧ s.alive 7 = true := by
  decide +kernel

/-- An LD whose wave cannot open yet waits; one with no predecessor enters at once. -/
theorem wit_ElementMemoryIssue_wave : let x : Elem := { wbuf := [{ accOf 0 0xC0 with desc := 2 * 2 ^ 8 }] }
    x.nextEnter = none ∧ (∀ b, b ∈ x.wbuf → b.seq ≠ 1) ∧ x.canEnter { accOf 1 0xC0 with desc := 2 * 2 ^ 8 } = false ∧
      x.canEnter (accOf 1 0xC0) = true ∧ memRoom 7 x = true ∧
      memRoom 7 { x with accs := (List.range 64).map (fun i => accOf i 0xC0) } = false := by decide +kernel

theorem wit_RepliesWavesAndArrivals_watch : let a := { accOf 1 0xB2 with stage := .performed, res0 := true, res1 := true }
    let s := withElem 3 (fun x => { x with watches := [a] })
    let u := (s.giveRoom 3 a.r0 (destOf a.d0)).giveRoom 3 a.r1 (destOf a.d1)
    (s.elem 3).watches.find? (fun b => b.seq == 1) = some a ∧ s.alive 3 = true ∧ s.cycleHeld 3 = false ∧
      u.roomVia 3 a.r0 (destOf a.d0) = true ∧ u.roomVia 3 a.r1 (destOf a.d1) = true := by
  decide +kernel

/-- R213, R219: a watch for 0 on a word that holds 0 waits for an earlier store of its SE, and it has triggered once none is left. -/
theorem test_watch_waits_for_earlier_store : ∀ b : Bool, let k := { accOf 2 0xB2 with total := 2, node := 2 ^ 40 + 0x100 }
    let s := withElem 3 (fun x => { x with watches := [k], accs := if b then [accOf 1 0xB1] else [] }) laid
    ((s.armWatches 3).elem 3).watches.map (fun k => (k.total, k.stage)) = [if b then (2, .issued) else (1, .performed)] := by decide +kernel

/-- A token in flight on a link, and on the highest drift route. -/
theorem wit_RepliesWavesAndArrivals_flight : ∀ p, p = 0 ∨ p = 19 → let f : Flight := ⟨3, p, 7, 5, Token.zero, .restored false, 0⟩
    let s := withQuad (fun q => { q with cyc := 1 }) { base with flights := [f] }
    s.flights.find? (fun f => f.src == 3 && f.path == p) = some f ∧ f.stamp < (s.quad (quadOf 3)).cyc ∧ (s.elem f.dst).ladder = none ∧
      s.cycleHeld f.dst = false := by
  rintro p (rfl | rfl) <;> decide +kernel

theorem wit_RepliesWavesAndArrivals_credit : ∀ n, n = 0 ∨ n = 5 → let c : CreditBack := { elem := 3, queue := n, stamp := 0 }
    let s := withQuad (fun q => { q with cyc := 1 }) { base with credits := [c] }
    s.credits.find? (fun c => c.elem == 3 && c.queue == n) = some c ∧ c.stamp < (s.quad (quadOf 3)).cyc := by
  rintro n (rfl | rfl) <;> decide +kernel

/-! ### Witnesses: hoists, peers and collectives -/

/-- An answer that is no error, and f holds of it. -/
def okThen {ε α : Type} (r : Except ε α) (f : α → Bool) : Bool :=
  match r with
  | .ok v => f v
  | .error _ => false

/-- Bytes 4 i to 4 i + 3 of a number in lane i. -/
def lanesOfNat (v : Nat) : VReg := { VReg.zero with m := 0xFF, p := Lanes.ofFn (fun i => BitVec.ofNat 32 (v / 2 ^ (32 * i))) }

/-- The copy of entry 0 to entry 1 that the hoists accept, and the last element of it alone. -/
def copy16 : Nat := cmdOf 0 0 0 1 0 16 3 9

theorem wit_HoistEvents_thread : let s := waiting (.hcopy (2 ^ 40 + 64) 5) (commanded copy16)
    let cmd := BitVec.ofNat 512 (ofBytes (s.bytesAt (2 ^ 40 + 64) 64))
    s.waitOf 0 = .hcopy (2 ^ 40 + 64) 5 ∧ isAssay 0 = false ∧ 2 ^ 40 + 64 < 2 ^ 64 ∧ (2 ^ 40 + 64) % 64 = 0 ∧ s.badIn (2 ^ 40 + 64) 64 = false ∧
      (s.die (dieOfThread 0)).idleHoist = some 0 ∧
      s.hoistReason 0 (s.thread 0).bound (s.takeCommand (s.thread 0).bound (0 % 192) none 0 cmd) = none := by decide +kernel

theorem wit_HoistEvents_touch : let s := waiting (.hcopy (2 ^ 40 + 64) 5) (commanded copy16)
    s.touchRead 0 (2 ^ 40 + 64) .read = .ok (2 ^ 40 + 64) s := rfl

/-- Hoist n of die 0 with a command of working 1, changed by f. -/
def hoisting (n cmd : Nat) (f : Hoist → Hoist) (s : State) : State :=
  s.modHoist 0 n (fun _ => f (s.takeCommand 1 0 none 0 (BitVec.ofNat 512 cmd)))

/-- The first and the last unit of a copy. -/
theorem wit_HoistEvents_unit : ∀ p, p = 0 ∨ p = 15 → let s := hoisting 0 copy16 (fun h => { h with pos := p }) laid
    let h := (s.die 0).hoist 0
    let w := s.work h.handle
    s.hoistLive 0 0 = true ∧ h.kind = 0 ∧ h.sent = false ∧ h.pos < hCount h.cmd.toNat ∧ entPeer h.dst.raw.toNat = false ∧
      okThen (s.copyReads 0 w h (unitLen w h h.pos) 0) (fun r => (hDst w h h.pos).any (fun va =>
        placedAt (r.2.hoistPlace 0 h.handle h.dst va .write) (fun pa s2 =>
          (s2.putSector h.handle (unitBytes w h (sectorOf pa) r.1) (r.1.any (fun v => v.2))).isSome))) = true := by
  rintro p (rfl | rfl) <;> decide +kernel

/-- A unit whose writes a peer has answered. -/
theorem wit_HoistEvents_answered : let s := hoisting 0 copy16 (fun h => { h with sent := true }) laid
    let h := (s.die 0).hoist 0
    s.hoistLive 0 0 = true ∧ h.kind = 0 ∧ h.sent = true ∧ h.peers = [] ∧ h.pos < hCount h.cmd.toNat := by decide +kernel

theorem wit_HoistEvents_sector : let l := [(2 ^ 40 + 0x100, (7 : Byte)), (2 ^ 40 + 0x11F, 9)]
    (laid.putSector 1 l false).isSome = true ∧ (∀ p ∈ l, ∀ q ∈ l, sectorOf p.1 = sectorOf q.1) ∧ (∀ p ∈ l, laid.findsBad p.1 (inList l) = false) := by
  decide +kernel

/-- A stream of one block of s8 (R287 to R289): entry 0 of its table names column 0 and entry 15 any mask, both with codes of one bit. -/
def sluiceStream : List Byte :=
  List.flatten [toBytes 2 0x51C3, [1, 4], toBytes 2 1, toBytes 2 32, toBytes 4 9, toBytes 4 0, toBytes 4 1, toBytes 4 1, toBytes 112 0,
    toBytes 4 0, toBytes 4 1, toBytes 16 0]

/-- A copy, and a sluice into a slot that is being filled by nothing yet. -/
theorem wit_HoistEvents_elem : ∀ p, p = (copy16, none) ∨ p = (cmdOf 1 0 2 0 0 5 3 9, some 0) →
    let a := { accOf 1 0xCB with total := 1, a := lanesOfNat p.1, b := lanesOfNat (p.1 / 2 ^ 256) }
    let s := claimed (stored (2 ^ 40 + 0x400) sluiceStream (making 7 a))
    let h := s.owner 7
    let x := s.takeCommand h ((s.work h).thread % 192) (some 7) ((s.work h).relTile (tileOf 7)) (hcopyeCmd a)
    s.macroDue 7 = some a ∧ (s.die (dieOf 7)).idleHoist = some 0 ∧ s.hoistReason (dieOf 7) h x = none ∧
      (hKind (hcopyeCmd a).toNat = 1 ↔ p.2 = some 0) ∧ (p.2 = some 0 → sluiceIsland (s.work h) (hcopyeCmd a).toNat = some 0) := by
  rintro p (rfl | rfl) <;> decide +kernel

theorem wit_HoistEvents_sluice : ∀ n, n = 0 ∨ n = 1 →
    let s := hoisting 0 (cmdOf 1 0 2 0 0 5 3 9) (fun h => { h with total := 0xFFFFFFFF, skip := n })
      (stored (2 ^ 40 + 0x400) sluiceStream (claimed laid { fill := 1 }))
    let h := (s.die 0).hoist 0
    let w := s.work h.handle
    s.hoistLive 0 0 = true ∧ h.kind = 1 ∧ h.payloadDone = false ∧ sluiceIsland w h.cmd.toNat = some 0 ∧
      okThen (s.sluiceRead 0 0 w h 5 0) (fun r => sluiceHeaderOk r.1 (hN h.cmd.toNat 0) &&
        okThen (r.2.2.sluiceDecode 0 0 w h r.1) (fun v => v.1.isSome && ((v.2.2.die 0).hoist 0).skip == n)) = true := by
  rintro n (rfl | rfl) <;> decide +kernel

/-- Working 1 as both ends of stream 5: hoist 0 sends n records of the ring of entry 2 and hoist 1 receives them into it; the first is posted. -/
def streaming (n : Nat) : State :=
  let s := stored (2 ^ 40 + 0x104) (toBytes 4 1) (laid (withWork (fun w => { w with streams := [BitVec.ofNat 32 (2 ^ 31 + 5), BitVec.ofNat 32 (2 ^ 31 + 2 ^ 16 + 5)] })))
  hoisting 1 (cmdOf 4 0 2 2 0 n 2 0 + 5 * 2 ^ 48) id (hoisting 0 (cmdOf 3 0 2 2 0 n 0 0 + 5 * 2 ^ 48) id s)

theorem wit_HoistEvents_stream : ∀ n, n = 1 ∨ n = 2 → let s := streaming n
    let h := (s.die 0).hoist 0
    let w := s.work 1
    h.handle = 1 ∧ s.hoistLive 0 0 = true ∧ h.kind = 3 ∧ s.hoistLive 0 1 = true ∧ (s.otherEnd 3 h.id.toNat).any (fun o => o.1 == 0 && o.2.1 == 1 &&
      okThen (s.readWord 0 0 h (hCc h.cmd.toNat + 1)) (fun a => okThen (a.2.readWord 0 1 o.2.2 (hCc o.2.2.cmd.toNat + 1)) (fun b =>
        h.prg < a.1 && h.prg < b.1 + entExt o.2.2.dst.raw.toNat 0 && b.2.work 1 == w && o.2.2.handle == 1 &&
        (fixedAt w h.src (fun k => if k = 0 then h.prg % entExt h.src.raw.toNat 0 else 0)).any (fun va =>
          okThen (b.2.hoistBytes 0 0 1 h.src va 32) (fun v =>
            (fixedAt w o.2.2.dst (fun k => if k = 0 then h.prg % entExt o.2.2.dst.raw.toNat 0 else 0)).any (fun vb =>
              okThen (v.2.hoistPut 0 1 1 o.2.2.dst vb v.1.1 v.1.2) (fun s5 =>
                okThen (s5.writeWord 0 1 o.2.2 (hCc o.2.2.cmd.toNat) (h.prg + 1)) (fun s6 =>
                  okThen (s6.writeWord 0 0 h (hCc h.cmd.toNat) (h.prg + 1)) (fun _ => true))))))))) = true := by
  rintro n (rfl | rfl) <;> decide +kernel

/-- A copy whose elements are done, with its completion word, without, and with one at a peer that has answered; and a collective. -/
theorem wit_HoistEvents_word : (let s := hoisting 0 copy16 (fun h => { h with pos := 16 }) laid
      let h := (s.die 0).hoist 0
      s.hoistLive 0 0 = true ∧ h.payloadDone = true ∧ h.kind ≠ 2 ∧ hNcw h.cmd.toNat = false ∧ entPeer h.cmp.raw.toNat = false ∧
        okThen (s.writeWord 0 0 h (hCc h.cmd.toNat) (hCv h.cmd.toNat)) (fun _ => true) = true) ∧
    (let s := hoisting 0 (cmdOf 0 4 0 1 0 16 3 9) (fun h => { h with pos := 16 }) laid
     let h := (s.die 0).hoist 0
     s.hoistLive 0 0 = true ∧ h.payloadDone = true ∧ h.kind ≠ 2 ∧ hNcw h.cmd.toNat = true) ∧
    (let s := hoisting 0 copy16 (fun h => { h with pos := 16, sent := true, cmp := { h.cmp with raw := 3 } }) laid
     let h := (s.die 0).hoist 0
     s.hoistLive 0 0 = true ∧ h.payloadDone = true ∧ hNcw h.cmd.toNat = false ∧ entPeer h.cmp.raw.toNat = true ∧ h.sent = true ∧ h.peers = []) ∧
    (let s := hoisting 0 (cmdOf 2 4 0 1 0 4 8 9 + 5 * 2 ^ 48) (fun h => { h with prg := 1, total := 1, flipped := true }) laid
     let h := (s.die 0).hoist 0
     s.hoistLive 0 0 = true ∧ h.payloadDone = true ∧ h.kind = 2 ∧ h.flipped = true ∧ hNcw h.cmd.toNat = true) := by decide +kernel

/-- A translation gives an address and a state for which f holds. -/
def transThen (r : Trans) (f : Nat → State → Bool) : Bool :=
  match r with
  | .ok pa _ s => f pa s
  | _ => false

/-- A request of source 8 of package 1 at address 0x1000. -/
def request (k : PeerKind) : PeerRequest :=
  { kind := k, package := 1, source := 8, seq := 5, asid := 0, addr := 0x1000, op := 0, ident := 0, len := 32, data := List.replicate 32 7,
    mask := 0xFF, poison := false, die := 0 }

theorem wit_PeersAndCollectives_request : (∀ k, let f := request k
      f.addr < 2 ^ 56 ∧ f.die < 4 ∧ inWindow f.addr = false ∧
        transThen (({ mapped laid with filters := (mapped laid).filters.filter (fun r => !f.released.contains r.source) } : State).translate
            ⟨none, none, f.die⟩ f.asid f.addr (peerAcc f) f.ident) (fun pa s1 => pa % 4 == 0 && !s1.badIn pa f.len && !s1.isBad pa &&
          (s1.putSector 0 (peerCells f pa) f.poison).isSome && (s1.heldReply (stampUnit pa) f).isNone && s1.filterRoom (stampUnit pa) f) = true) ∧
    (let f := request .atomic
     let s := { mapped laid with filters := [⟨stampUnit 0x1000, peerKey f, 5, [1, 2]⟩] }
     transThen (({ s with filters := s.filters.filter (fun r => !f.released.contains r.source) } : State).translate
         ⟨none, none, f.die⟩ f.asid f.addr (peerAcc f) f.ident) (fun pa s1 => s1.heldReply (stampUnit pa) f == some [1, 2]) = true) ∧
    2 ^ 56 ≤ { request .read with addr := 2 ^ 56 }.addr := by
  refine ⟨fun k => ?_, by decide +kernel, by decide⟩
  cases k <;> decide +kernel

theorem wit_PeersAndCollectives_reply : ∀ op, op = 0xC0 ∨ op = 0xC1 → let f : PeerReply := ⟨7, 5, 0, List.replicate 4 7, false⟩
    let a := { accFull op with peers := [(5, 0)] }
    let s := withElem 7 (fun x => { x with peerOut := [5] }) (making 7 a)
    claimRowOf f.source < 48 ∧ f.seq ∈ (s.elem 7).peerOut ∧ (s.elem 7).accs.find? (fun a => a.peers.any (fun p => p.1 == f.seq)) = some a ∧
      a.stage = .issued ∧ a.retry = false ∧ f.cause = 0 ∧ f.seq ∉ ((making 7 a).elem f.source).peerOut := by
  rintro op (rfl | rfl) <;> decide +kernel

/-- Replies to hoists 0 and 31. -/
theorem wit_PeersAndCollectives_hoist : ∀ n, n = 0 ∨ n = 31 → let f : PeerReply := ⟨hoistSource 0 n, 5, 0, List.replicate 4 7, false⟩
    let s := hoisting n copy16 (fun h => { h with peers := [(5, 0)] }) laid
    claimRowOf f.source = 63 ∧ posOf f.source = 0 ∧ f.cause = 0 ∧ dieOf f.source = 0 ∧ claimColOf f.source = n ∧
      ((s.die 0).hoist n).peers.find? (fun p => p.1 == f.seq) = some (5, 0) ∧ ((s.die 0).hoist n).again = [] := by
  rintro n (rfl | rfl) <;> decide +kernel

/-- Working 1 as rank 0 of collective 5, whose rank 1 is in package 1, with an all-reduce of four words of entry 0 into entry 1. -/
def collecting (flags : Nat := 0) : State :=
  hoisting 0 (cmdOf 2 flags 0 1 0 4 8 9 + 5 * 2 ^ 48) (fun h => { h with total := 1 }) (laid (withWork (fun w => { w with colls := [⟨5, 0, 2, [0, 1]⟩] })))

/-- Every party of this package is the one of working 1, with its completion word and without. -/
theorem wit_PeersAndCollectives_collective : ∀ n, n = 0 ∨ n = 4 → let s := collecting n
    let far := [((1 : Nat), List.replicate 16 (7 : Byte))]
    s.hauls = true ∧ (match [1].eraseDups.filterMap (s.party 5) with
     | [p] =>
       let c := p.hoist.cmd.toNat
       (s.die p.die).hoist p.num == p.hoist && !p.hoist.payloadDone && p.bind.parties == 2 && p.bind.rank == 0 &&
         far.filter (fun r => (s.farRanks p.bind).contains r.1) == far && hNcw c == (n == 4) && s.farRanks p.bind == [1] &&
         (if collKind c ≤ 1 then 1 else p.bind.parties) * hCount c * entSize p.hoist.src.raw.toNat == 16 &&
         okThen (s.contributions [p]) (fun r => okThen (r.2.results ((List.range p.bind.parties).map (fun k =>
           match r.1.find? (fun q => q.1 == k) with
           | some q => q.2
           | none => match far.find? (fun q => q.1 == k) with
             | some q => elemsOf (entSize p.hoist.src.raw.toNat) q.2
             | none => [])) [p]) (fun _ => true))
     | _ => false) = true := by
  rintro n (rfl | rfl) <;> decide +kernel

/-- The party once its results stand: a notice is missing, or every one is in. -/
theorem wit_PeersAndCollectives_publish : let s := collecting.modHoist 0 0 (fun h => { h with prg := 1 })
    (match s.party 5 1 with
     | some p =>
       let c := p.hoist.cmd.toNat
       (s.die p.die).hoist p.num == p.hoist && p.hoist.payloadDone && !(s.farRanks p.bind).all [0].contains && (s.farRanks p.bind).all [1].contains &&
         !entPeer p.hoist.cmp.raw.toNat && !hNcw c &&
         okThen (((s.modWork 1 (fun w => w.flip (hDent c))).modHoist p.die p.num (fun h => { h with flipped := true })).writeWord p.die p.num
           { p.hoist with flipped := true } (hCc c) (hCv c)) (fun _ => true)
     | none => false) = true := by decide +kernel

/-- A collective in flight, and one whose side is published. -/
theorem wit_PeersAndCollectives_abort : ∀ b, let s := collecting.modHoist 0 0 (fun h => { h with prg := b.toNat, flipped := b })
    s.boundTo 5 0 = some 1 ∧ s.inFlight 1 2 5 = some (0, 0, (s.die 0).hoist 0) ∧ ((s.die 0).hoist 0).flipped = b ∧ s.hasWork 1 = true ∧
      (s.work 1).killing = none ∧ (s.work 1).freeze = none ∧ (s.thread (s.work 1).thread).intrap = false ∧
      (s.thread (s.work 1).thread).heldTraps = [] := by
  intro b; cases b <;> decide +kernel

/-! ### Witnesses: errors, monitors, freezes and ends -/

/-- A register, a sector of HBM, and a register while a rollback of an earlier cycle is in progress. -/
theorem wit_ContainmentLadder_consumes : (BadItem.reg 5 ≠ .corrected ∧ base.owner 3 ≠ 0 ∧ (base.work (base.owner 3)).consumes = true ∧
      (base.elem 3).ladder = none ∧ base.elemConsumes 3 (.reg 5) = true ∧ (base.work (base.owner 3)).rolling = none ∧ itemSource (.reg 5) = none) ∧
    (let s := making 7 (accFull 0xC0 3 0x1000)
     s.owner 7 ≠ 0 ∧ (s.work (s.owner 7)).consumes = true ∧ (s.elem 7).ladder = none ∧ s.elemConsumes 7 (.hbm 0x1000 0x1000) = true ∧
       (s.work (s.owner 7)).rolling = none ∧ inHbm 0x1000 = true) ∧
    (let s := withWork (fun w => { w with rolling := some (1, 5) })
     (s.work (s.owner 3)).consumes = true ∧ s.elemConsumes 3 (.reg 5) = true ∧ s.hasWork (s.owner 3) = true ∧
       (s.work (s.owner 3)).rolling = some (1, 5) ∧ 5 ≠ (s.quad ((s.work (s.owner 3)).thread / 4)).cyc) := by decide +kernel

/-- A working whose outer region has its retries left and whose inner one has used them. -/
def retried : State := withWork (fun w => { w with regions := [{ region with retry := 8 }, { region with retry := 7 }] })

/-- The head of queue 1 of element 3, sent by the one firing that element 2 has made. -/
def sentOn : State :=
  withElem 3 (fun x => { x.setQueue 1 [⟨Token.zero, .fired 2 128 0⟩] with ladder := some (.queue 1) })
    (withElem 2 (fun x => { x with count := 1, hist := [List.replicate 15 0 ++ [0x8000000020000000]] }))

theorem wit_ContainmentLadder_rungs : (let h := (retried.thread 0).bound
      h ≠ 0 ∧ retried.hasWork h = true ∧ (retried.work h).consumes = true ∧ (retried.work h).rolling = none ∧
        rollDepth (retried.work h) (retried.die (retried.work h).die).rvMax.toNat = some 1) ∧
    (∀ p, p = (BadItem.hbm (2 ^ 39) 0, true) ∨ p = (.sram (2 ^ 40), false) → let s := withElem 3 (fun x => { x with ladder := some p.1 }) retried
      (s.elem 3).ladder = some p.1 ∧ s.alive 3 = true ∧ s.hasWork 1 = true ∧ (s.work (s.owner 3)).consumes = true ∧
        (s.work (s.owner 3)).rolling = none ∧ s.canReplay 3 p.1 = true ∧ itemAtPeer p.1 = p.2 ∧ rollDepth (s.work 1) (s.die 0).rvMax.toNat = some 1) ∧
    (∀ b, let s := withElem 3 (fun x => { x with ladder := some (.sram (2 ^ 40)) }) (withDie (fun d => { d with rpThr := if b then 1 else 2 }))
      ((s.elem 3).reps.add (s.quad (quadOf 3)).cyc (s.die (dieOf 3)).rpWin.toNat (s.die (dieOf 3)).rpThr.toNat 1 true false).reached true false = b ∧
        s.spareFree 3 = true) ∧
    ((sentOn.elem 3).ladder = some (.queue 1) ∧ sentOn.canReplay 3 (.queue 1) = true ∧ (sentOn.elem 3).queue 1 = [⟨Token.zero, .fired 2 128 0⟩] ∧
      0 < (sentOn.elem 2).count ∧ ((sentOn.elem 2).hist[(sentOn.elem 2).count - 1 - 0]?).any (fun y => histSlot y == some 128) = true) ∧
    (let s := withElem 3 (fun x => { x with ladder := some (.reg 5) })
     (s.elem 3).ladder = some (.reg 5) ∧ (true && s.canReplay 3 (.reg 5)) = false ∧ rollDepth (s.work 1) (s.die 0).rvMax.toNat = none) ∧
    ((withWork (fun w => { w with regions := [{ region with retry := 255 }] })).work 1).regions = { region with retry := 255 } :: [] ∧
    (let s := withWork (fun w => { w with subst := [3] })
     3 ∈ (s.work (s.owner 3)).subst ∧ (s.work (s.owner 3)).killing = none) := by
  refine ⟨by decide +kernel, ?_, fun b => by cases b <;> decide +kernel, by decide +kernel, by decide +kernel, by decide +kernel, by decide +kernel⟩
  rintro p (rfl | rfl) <;> decide +kernel

/-- Row 0 of die 0 watches column 0, with n firings to confirm, and the element there has made one that can be made again. -/
def watching (hold : Bool) (n : Nat) (norpl : Bool := false) : State :=
  withElem 0 (fun x => { x with count := 1, hist := [List.replicate 16 0] }) (withDie (fun d => { d with
    cwHold := hold, cwrow := [(0, { col := 0, watch := true, pending := n })], errctl := if norpl then 8 else 0 }) retried)

theorem wit_Monitors_confirm : ∀ p, p = (true, 1, false) ∨ p = (true, 1, true) ∨ p = (false, 1, false) ∨ p = (false, 2, false) →
    let s := watching p.1 p.2.1 p.2.2
    let c := SMap.get {} (s.die 0).cwrow 0
    c.watch = true ∧ c.col.toNat < 128 ∧ (s.work (s.owner (eidAt 0 c.col.toNat 0))).live = true ∧ (s.die 0).cwHold = p.1 ∧ c.pending = p.2.1 ∧
      (s.die 0).errctl.getLsbD 3 = p.2.2 ∧ s.hasWork 1 = true ∧ rollDepth (s.work 1) (s.die (s.work 1).die).rvMax.toNat = some 1 ∧
      (p = (false, 1, false) → s.canRedo 0 0 = true) := by
  rintro p (rfl | rfl | rfl | rfl) <;> decide +kernel

/-- A watch that ends with the checkweigher's EN, with the row's spare or with a suspect spare; nothing watched, with an element to watch and with
none; a column that cannot be watched, its firings compared, under HOLD or of a working that has stopped; and one watched for 2^INT cycles. -/
theorem wit_Monitors_watch : ((withDie (fun d => { d with cwEn := false })).die 0).cwEn = false ∧
    (SMap.get {} ((withDie (fun d => { d with cwrow := [(95, { sub := true })] })).die 0).cwrow 95).sub = true ∧
    (let c := SMap.get {} ((withDie (fun d => { d with cwrow := [(95, { spsus := true, watch := true, pending := 1 })] })).die 0).cwrow 95
     c.spsus = true ∧ ¬ (c.spsus = true ∧ c.pending = 2 ∧ c.slot.isSome = true)) ∧
    ((base.die 0).cwEn = true ∧ (∀ r, r = 0 ∨ r = 95 → let c := SMap.get {} (base.die 0).cwrow r
      c.sub = false ∧ c.spsus = false ∧ c.watch = false ∧ (base.nextWatch 0 r c).isSome = (r == 0))) ∧
    (let s := withDie (fun d => { d with cwrow := [(0, { watch := true, col := 127 })] })
     s.canWatch 0 0 127 = false ∧ (SMap.get {} (s.die 0).cwrow 0).pending = 0) ∧
    (let s := withDie (fun d => { d with cwHold := true, cwrow := [(0, { watch := true, col := 127, pending := 1 })] })
     s.canWatch 0 0 127 = false ∧ (s.die 0).cwHold = true) ∧
    (let s := withWork (fun w => { w with killing := some (.killed, 0) })
       (withDie (fun d => { d with cwrow := [(0, { watch := true, col := 0, pending := 1 })] }) retried)
     s.canWatch 0 0 0 = false ∧ (s.work (s.owner (eidAt 0 0 0))).live = false) ∧
    (let s := withQuad (fun q => { q with cyc := 2 ^ 20 }) (watching true 0)
     let c := SMap.get {} (s.die 0).cwrow 0
     (s.die 0).cwEn = true ∧ c.sub = false ∧ c.spsus = false ∧ c.watch = true ∧ c.pending = 0 ∧
       c.began + 2 ^ (s.die 0).cwInt.toNat ≤ (s.quad (quadOf (eidAt 0 c.col.toNat 0))).cyc ∧ (s.nextWatch 0 0 c).isSome = true) := by
  refine ⟨by decide +kernel, by decide +kernel, by decide +kernel, ⟨by decide +kernel, ?_⟩, by decide +kernel, by decide +kernel, by decide +kernel,
    by decide +kernel⟩
  rintro r (rfl | rfl) <;> decide +kernel

theorem wit_Monitors_sweep : (let s := withQuad (fun q => { q with cyc := 1024, sync := [(0, (5, 5, 7))] })
      let x := s.quad (0 * 48 + 0)
      1024 * (x.sweep + 1) ≤ x.cyc ∧ vote (x.copies (x.sweep % 64)) = some 5 ∧ (s.work (s.counterHandle 0 (x.sweep % 64))).joins = []) ∧
    (let s := withQuad (fun q => { q with cyc := 1024 * 64, sweep := 63, sync := [(63, (5, 6, 7))] })
     let x := s.quad (0 * 48 + 0)
     1024 * (x.sweep + 1) ≤ x.cyc ∧ vote (x.copies (x.sweep % 64)) = none) := by decide +kernel

theorem wit_Monitors_rest : inHbm 0 = true ∧ (windowTile (2 ^ 40)).isSome = true ∧
    (∀ p, p = (ErrSource.bank 0, 0, base.clockOf 0) ∨ p = (.link 35 3, linkDie 35, (base.die (linkDie 35)).cycles) ∨
        p = (.counter 191 63, 3, (base.quad 191).cyc) →
      let s := base.modDie p.2.1 (fun d => { d with errs := [⟨p.1, { n := 1, ceThr := 4, mmThr := 2 }⟩] })
      let w := (s.die p.2.1).errWin p.1
      w.till ≤ p.2.2 ∧ w.below = true) ∧
    (let s := withThread (fun x => { x with canIdle := 2 ^ 24 })
     let x := s.thread (s.work 1).thread
     s.hasWork 1 = true ∧ (s.work 1).live = true ∧ (s.work 1).state = .running ∧ (s.work 1).freeze = none ∧ x.canEn = true ∧
       2 ^ x.canWin.toNat ≤ x.canIdle) := by
  refine ⟨by decide +kernel, by decide +kernel, ?_, by decide +kernel⟩
  rintro p (rfl | rfl | rfl) <;> decide +kernel

/-- A working frozen by two faults of cycle 0, in cycle 17. -/
theorem wit_FreezeRollbackAndEnd_freeze : let i : TrapInfo := { cause := 0x07, eid := 3 }
    let s := withQuad (fun q => { q with cyc := 17 }) (withWork (fun w => { w with freeze := some i, faults := [{ cause := 0x07, eid := 2 }] }))
    let w := s.work 1
    w.freeze = some i ∧ w.live = true ∧ w.freezeAt + 16 < (s.quad w.freezeQuad).cyc := by decide +kernel

/-- A region that keeps register 3 of element 2, with one undo record of tile 0. -/
def rolling : State :=
  (withWork (fun w => { w with rolling := some (1, 0), regions := [{ region with regs := [(2, 3, VReg.zero)] }] })).setTile 0
    { undo := [⟨1, 1, 0, 2 ^ 40 + 64, List.replicate 32 7, false⟩] }

theorem wit_FreezeRollbackAndEnd_rollback : let w := rolling.work 1
    let g := { region with regs := [(2, 3, VReg.zero)] }
    let u : Undo := ⟨1, 1, 0, 2 ^ 40 + 64, List.replicate 32 7, false⟩
    w.rolling = some (1, 0) ∧ w.regions.drop (w.regions.length - 1) = g :: [] ∧ w.killing = none ∧ w.savedAt = none ∧ w.loading = false ∧
      (∀ e ∈ w.elems, (rolling.elem e).drains = false) ∧ (2, 3, VReg.zero) ∈ g.regs ∧ 0 ∈ w.tiles ∧ u ∈ (rolling.tile 0).undo ∧
      u.depth ≤ w.regions.length ∧ u.sector % 32 = 0 ∧ u.old.length = 32 ∧
      (∀ m ∈ w.tiles, ∀ v ∈ (rolling.tile m).undo, v = u) := by decide +kernel

theorem wit_FreezeRollbackAndEnd_ring : ∀ i m, i < 32 → ¬ RingByte rolling m (2 ^ 40 + 64 + i) := by
  intro i m _ h
  have hb : ∀ m, (rolling.die m).ringBase = 0 ∧ (rolling.die m).ringSize.toNat = 6 := by
    intro m
    have : rolling.dies = [(0, { started := true }), (1, { started := true }), (2, { started := true }), (3, { started := true })] := rfl
    rw [State.die, this]; simp only [SMap.get]
    repeat' split
    all_goals exact ⟨rfl, rfl⟩
  have h2 := h.2
  rw [(hb m).1, (hb m).2] at h2
  omega

theorem wit_FreezeRollbackAndEnd_ends : (let s := withWork (fun w => { w with killing := some (.killed, 0x4D), launch := some (63, 5) })
      let w := s.work 1
      w.killing = some (.killed, 0x4D) ∧ w.savedAt = none ∧ w.parent = none ∧ w.launch = some (63, 5)) ∧
    (let s := withWork (fun w => { w with ending := some 9, launch := some (63, 5) })
     let w := s.work 1
     w.ending = some 9 ∧ w.live = true ∧ s.endReady 1 = true ∧ w.parent = none ∧ w.launch = some (63, 5)) := by decide +kernel

/-! ### Witnesses: the banksman, the loader, the port and the platform -/

/-- A state with endpoint 63 as given. -/
def listening (x : Endpoint) (s : State := base) : State := { s with endpoints := [(63, { x with up := true })] }

/-- A command record in version 3 form (R357 to R359): its type, its handle and its fields at bytes 16 and 24. -/
def recordOf (type handle a b : Nat) : List Byte :=
  List.flatten [toBytes 2 0x1A0C, [3, BitVec.ofNat 8 type], toBytes 4 7, toBytes 2 handle, toBytes 6 0, toBytes 8 a, toBytes 8 b, toBytes 224 0]

/-- An endpoint 63 whose queue holds one record. -/
def commanding (r : Record) (s : State := base) : State := listening { queue := [r] } s

theorem wit_HostCommands_port : (let s := listening {}
      63 < 64 ∧ s.portUp = true ∧ s.epUp 63 = true) ∧
    (∀ n, n = 10 ∨ n = 74 → ((BitVec.ofNat 64 n).toNat % 2 ^ 32 + 2 ^ 32 - ((listening { fetched := 10 }).endpoint 63).fetched) % 2 ^ 32 ≤ 64) ∧
    (∀ n, n = 9 ∨ n = 75 → 64 < ((BitVec.ofNat 64 n).toNat % 2 ^ 32 + 2 ^ 32 - ((listening { fetched := 10 }).endpoint 63).fetched) % 2 ^ 32) := by
  refine ⟨by decide +kernel, ?_, ?_⟩ <;> rintro n (rfl | rfl) <;> decide +kernel

/-- A kill in slot 63 of the ring, and a slot of zeros. -/
theorem wit_HostCommands_fetch : (let s := listening { fetched := 63, doorbell := 64, ring := memOf (256 * 63) (recordOf 3 1 0 0) }
      let x := s.endpoint 63
      let raw := (List.range 256).map (fun i => SMap.get 0 x.ring (256 * (x.fetched % 64) + i))
      s.epUp 63 = true ∧ x.fetched ≠ x.doorbell ∧ recOk raw (recTranslate raw) = true) ∧
    (let s := listening { doorbell := 1 }
     let x := s.endpoint 63
     let raw := (List.range 256).map (fun i => SMap.get 0 x.ring (256 * (x.fetched % 64) + i))
     s.epUp 63 = true ∧ x.fetched ≠ x.doorbell ∧ recOk raw (recTranslate raw) = false) := by decide +kernel

/-- A launch of the image at address 0x10000. -/
def launching (mem : List Host.Cell) : State := { mapped (commanding { bytes := recordOf 0 0 0x10000 0, age := 1 }) with mem := mem }

theorem wit_HostCommands_launch : (∀ m, (launching m).epUp 63 = true ∧ ((launching m).endpoint 63).head = some { bytes := recordOf 0 0 0x10000 0, age := 1 }) ∧
    recType (recordOf 0 0 0x10000 0) = 0 ∧ (∀ m, (launching m).hasWork 0 = false) ∧
    okThen ((launching []).startBid 0 (List.range 4) (recStart (recordOf 0 0 0x10000 0) ((launching []).die 0).raceOk)) (fun _ => true) = false := by
  refine ⟨fun m => ⟨show (launching []).epUp 63 = true by decide +kernel, ?_⟩, by decide +kernel,
    fun m => show (launching []).hasWork 0 = false by decide +kernel, by decide +kernel⟩
  have : ((launching m).endpoint 63).queue = [{ bytes := recordOf 0 0 0x10000 0, age := 1 }] := rfl
  have h : (recType (recordOf 0 0 0x10000 0) == 0) = true := by decide +kernel
  rw [Endpoint.head, this]; simp [h]

theorem possible_congr {s u : State} (h : s.claims = u.claims) (dies : List Nat) (b : Bid) (place : Option (Nat × Nat × Nat)) :
    s.possible dies b place = u.possible dies b place := by simp only [State.possible, State.canStand, State.claim, h]

theorem bid_image0 (s : State) (h : s.claims = base.claims) (dies : List Nat) (p : Nat) (place : Option (Nat × Nat × Nat))
    (hp : dies = List.range 4 ∧ place = none ∨ place = some (0, 0, 2)) : ∃ c, s.imageBid dies (imageOf image0) p place = .ok c := by
  have h1 : ∀ p, base.possible (List.range 4) (Bid.mk (imageOf image0).width (imageOf image0).height (imageOf image0).islands
      (BitVec.ofNat 8 (imageOf image0).alignBits) 0 p [] 0) none = true := fun p => by
    show base.possible (List.range 4) (Bid.mk (imageOf image0).width (imageOf image0).height (imageOf image0).islands
      (BitVec.ofNat 8 (imageOf image0).alignBits) 0 0 [] 0) none = true
    decide +kernel
  have h2 : ∀ l p, base.possible l (Bid.mk (imageOf image0).width (imageOf image0).height (imageOf image0).islands
      (BitVec.ofNat 8 (imageOf image0).alignBits) 0 p [] 0) (some (0, 0, 2)) = true := fun l p => by
    show base.possible [] (Bid.mk (imageOf image0).width (imageOf image0).height (imageOf image0).islands
      (BitVec.ofNat 8 (imageOf image0).alignBits) 0 0 [] 0) (some (0, 0, 2)) = true
    decide +kernel
  rw [State.imageBid, headerErr_image0]
  simp only [possible_congr h]
  rcases hp with ⟨rfl, rfl⟩ | rfl
  · exact ⟨_, if_pos (h1 p)⟩
  · exact ⟨_, if_pos (h2 dies p)⟩

theorem wit_HostCommands_launch_bid : ∃ c, (launching (memOf 0x10000 image0)).startBid 0 (List.range 4)
    (recStart (recordOf 0 0 0x10000 0) ((launching (memOf 0x10000 image0)).die 0).raceOk) = .ok c := by
  generalize hs : recStart (recordOf 0 0 0x10000 0) ((launching (memOf 0x10000 image0)).die 0).raceOk = st
  have m : Maps (launching (memOf 0x10000 image0)) := ⟨rfl, rfl⟩
  have hl : image0.length = 2000 := by decide +kernel
  have r := readImage_of (s := launching (memOf 0x10000 image0)) (r := peekReader 0 0) rfl (fun va h => m.loadFind va h) 0x10000 image0 rfl rfl
    (by omega) (by omega) image0_fields image0_length
  have l1 : le (recordOf 0 0 0x10000 0) 10 2 = 0 := by decide +kernel
  have l2 : le (recordOf 0 0 0x10000 0) 16 8 = 0x10000 := by decide +kernel
  have l3 : recFlag (recordOf 0 0 0x10000 0) 0 = false := by decide +kernel
  have ha : st.asid = 0 := by rw [← hs]; exact l1
  have hc : st.config = 0x10000 := by rw [← hs]; exact l2
  have hp : st.place = none := by rw [← hs]; simp only [recStart, l3]; rfl
  obtain ⟨c, h⟩ := bid_image0 (launching (memOf 0x10000 image0)) rfl (List.range 4) st.prio none (.inl ⟨rfl, rfl⟩)
  exact ⟨c, by rw [State.startBid, ha, hc, hp, r]; exact h⟩

/-- A restore of the image of handle 2 at address 0x10000. -/
def restoringTwo : State :=
  { mapped (commanding { bytes := recordOf 2 0 0x10000 0, age := 1 }) with mem := memOf 0x10000 savedTwo }

theorem wit_HostCommands_restore : let l := recordOf 2 0 0x10000 0
    le l 16 8 = 0x10000 ∧ restoringTwo.epUp 63 = true ∧ (restoringTwo.endpoint 63).head = some { bytes := l, age := 1 } ∧ recType l = 2 ∧
      restoringTwo.restoreAsid 0x10000 = 0 ∧ restoringTwo.blocked (restoringTwo.recordHandle l) 1 true = false ∧
      saveImageOk savedTwo = true ∧ bit (le savedTwo 6 1) 1 = true ∧ lacking (le savedTwo 8 8) = 0 ∧
      restoringTwo.restorable (restoringTwo.recordHandle l) = true ∧ (restoringTwo.restoreBid savedTwo).width ≠ 0 ∧
      (restoringTwo.restoreBid savedTwo).height ≠ 0 ∧ restoringTwo.possible (List.range 4) (restoringTwo.restoreBid savedTwo) none = true := by decide +kernel

theorem wit_HostCommands_restore_read : restoringTwo.readSave (peekReader 0 0) 0x10000 = .ok savedTwo restoringTwo := by
  have m : Maps restoringTwo := ⟨rfl, rfl⟩
  exact readSave_of rfl (fun va h => m.loadFind va h) 0x10000 savedTwo rfl rfl (by omega) (by decide +kernel) (by decide +kernel)

/-- A record's command on endpoint 63, begun or not. -/
def commandIs (s : State) (type : Nat) (r : Record) : Bool := s.commandOf 63 type == some r

theorem wit_HostCommands_kill : (∀ b, b = none ∨ b = some (0, 0, 0, (0 : DWord)) → let r : Record := { bytes := recordOf 3 1 0 0, age := 1, begun := b }
      commandIs (commanding r) 3 r = true ∧ (commanding r).hasWork 1 = true ∧ ((commanding r).work 1).killing = none ∧ recHandle r.bytes = 1) ∧
    (∀ b, b = none ∨ b = some (0, 0, 0, (0 : DWord)) → let r : Record := { bytes := recordOf 3 2 0 0, age := 1, begun := b }
      commandIs (commanding r) 3 r = true ∧ (commanding r).hasWork (recHandle r.bytes) = false) := by
  refine ⟨?_, ?_⟩ <;> rintro b (rfl | rfl) <;> decide +kernel

/-- What a delivery comes to: 0 delivered, 1 waiting, else 2. -/
def delivered (r : Except Nat (Option State)) : Nat :=
  match r with
  | .ok (some _) => 0
  | .ok none => 1
  | .error c => if c = 0 then 3 else 2

/-- A message of type 0 whose handler pushes a task on counter 0, with room and without, and one of a working without handlers. -/
theorem wit_HostCommands_message : let r : Record := { bytes := recordOf 4 1 0 0, age := 1 }
    let s := mapped (stored 0x1000 (toBytes 8 1) (withWork (fun w => { w with handlers := 1, handlerTable := 0x1000 }) (commanding r)))
    commandIs s 4 r = true ∧ s.hasWork 1 = true ∧ (s.work 1).live = true ∧ delivered (s.deliver 1 r.bytes) = 0 ∧
      delivered ((withQuad (fun q => { q with sync := [(0, (65535, 65535, 65535))] }) s).deliver 1 r.bytes) = 1 ∧
      delivered ((commanding r).deliver 1 r.bytes) = 2 ∧
      (let s := withWork (fun w => { w with savedAt := some 0x2000 }) (commanding r)
       commandIs s 4 r = true ∧ s.hasWork 1 = true ∧ (s.work 1).savedAt ≠ none) := by decide +kernel

theorem wit_HostCommands_query : let r : Record := { bytes := recordOf 5 1 0x2000 0, age := 1 }
    let s := mapped (commanding r)
    commandIs s 5 r = true ∧ s.hasWork 1 = true ∧
      okThen (s.writeSpan 0 (s.work 1).asid 0 3 (le r.bytes 16 8) (s.queryResult 1)) (fun _ => true) = true := by decide +kernel

/-- A launch record with PLACE: die 0, row 0, column 2. -/
def placedRecord : List Byte :=
  List.flatten [toBytes 2 0x1A0C, [3, 0], toBytes 4 7, toBytes 5 0, [1], toBytes 2 0, toBytes 8 0x10000, toBytes 42 0, [0, 2, 0], toBytes 187 0]

/-- Two bids of endpoint 63 in turn: one whose place is taken, and one whose place is free. -/
def bidding : State :=
  { commanding { bytes := placedRecord, age := 1, bid := some { width := 1, height := 1, islands := false, aligns := 0xFF } } with nextHandle := 65535 }

theorem wit_AdmissionLoadAndMove_round : bidding.portUp = true ∧ (∀ d < 4, (bidding.die d).tasks = [] ∧ (bidding.die d).reserved.isNone = true) ∧
    (bidding.ranked.all (fun a => decide (a.bypass < bidding.bypassBound))) = true ∧
    ((bidding.firstBid false [] bidding.ranked).map (fun p => (p.1.key, p.1.bid.handle, p.2.1)) = some (63, 0, 0, 0, 2, 1)) ∧
    bidding.freshHandle = some 65535 := by decide +kernel

theorem entry_image0 : (imageOf image0).entry = fun _ => 0 := by
  have : (imageOf image0).layouts = 0 := by decide +kernel
  funext n; rw [Image.entry, this]; rfl

theorem launchChecks_image0 (s : State) (r : Reader) (st : Start) (d row col t : Nat) (h1 : st.subs = 0) (h2 : st.handlers = 0)
    (h3 : st.colls = []) (h4 : st.raceX = false) (h5 : st.place = some (0, 0, 2)) (h6 : st.subTable = 0) (h7 : st.handlerTable = 0)
    (hk : s.claims = base.claims) :
    ∃ w, s.launchChecks r st image0 d row col t = .ok (w, [], s) := by
  have hl : ∀ w, (imageOf image0).layoutErr w = none := by
    have e1 : (imageOf image0).layouts = 0 := by decide +kernel
    have e2 : ((imageOf image0).islands || (List.range 8).any (fun k => (imageOf image0).aligned (k / 2) (k % 2))) = true := by decide +kernel
    intro w; rw [Image.layoutErr, e1, e2]; rfl
  have hd : (imageOf image0).declsErr (fun _ => 0) (imageOf image0).blockList = none := by decide +kernel
  have ho : ∀ w, (imageOf image0).overlaps w (fun _ => 0) (imageOf image0).blockList = [] := by
    have e : ∀ c ∈ List.range 4, (((imageOf image0).blockList.filter (fun b => b.ctx == c)).flatMap
        ((imageOf image0).blockDecls (fun _ => 0))).length = 0 := by decide +kernel
    intro w
    rw [Image.overlaps, List.flatMap_eq_nil_iff]
    intro c hc
    rw [List.length_eq_zero_iff.mp (e c hc)]; rfl
  have hr : ∀ n, s.readTable r 0 0 n = .ok ([], s) := by
    intro n
    rw [State.readTable, Nat.zero_mul]; rfl
  have ht : s.tableChecks r d st (fun _ => 0) = .ok ([], s) := by
    rw [State.tableChecks, h3, State.checkColls]
    simp only [h1, h2, h6, h7, hr]; rfl
  obtain ⟨c, hc⟩ := bid_image0 s hk [d] st.prio _ (.inr rfl)
  refine ⟨{ st.working (imageOf image0) d row col t with colls := [] }, ?_⟩
  rw [State.launchChecks]
  simp only [headerErr_image0, h5, hc, entry_image0, h1, blockChecks_image0 none (.inl rfl), hl, hd, ho, h4, ht]
  rfl

/-- The admitted launch of image0. -/
def admitted : State :=
  let b : Bid := { width := 1, height := 1, islands := false, aligns := 0xFF }
  let j : Job := { bytes := placedRecord, source := 63, bid := b, die := 0, row := 0, col := 2, thread := 1, handle := 65535, parent := none }
  { mapped with mem := memOf 0x10000 image0, jobs := [j] }

theorem wit_AdmissionLoadAndMove_load : let st := recStart placedRecord (admitted.die 0).raceOk
    let r := loadReader 0 (le placedRecord 10 2) 0 false
    ((admitted.jobs.find? (fun j => j.handle == 65535)).any (fun j => j.source < 64 && j.bytes == placedRecord && recType j.bytes == 0 &&
      j.parent.isNone) = true) ∧
    admitted.loadBytes r st.config = .ok (image0, admitted) ∧ ∃ w, admitted.launchChecks r st image0 0 0 2 1 = .ok (w, [], admitted) := by
  intro st r
  have m : Maps admitted := ⟨rfl, rfl⟩
  have l1 : le placedRecord 10 2 = 0 := by decide +kernel
  have l2 : le placedRecord 16 8 = 0x10000 := by decide +kernel
  have l3 : recFlag placedRecord 0 = true ∧ (le placedRecord 66 1, le placedRecord 68 1, le placedRecord 67 1) = (0, 0, 2) := by decide +kernel
  have l4 : le placedRecord 64 2 = 0 ∧ le placedRecord 70 2 = 0 ∧ recColls placedRecord = [] ∧ recFlag placedRecord 2 = false := by decide +kernel
  have l5 : le placedRecord 56 8 = 0 ∧ le placedRecord 80 8 = 0 := by decide +kernel
  have hl : image0.length = 2000 := by decide +kernel
  have hr : r = loadReader 0 0 0 false := by show loadReader 0 (le placedRecord 10 2) 0 false = _; rw [l1]
  have hf : ∀ va, va < 2 ^ 30 → r.find admitted va = .ok va admitted := by rw [hr]; exact fun va h => m.loadFind va h
  refine ⟨by decide +kernel, ?_, ?_⟩
  · have hc : st.config = 0x10000 := l2
    rw [State.loadBytes, hc, readImage_of rfl hf 0x10000 image0 rfl rfl (by omega) (by omega) image0_fields image0_length]
  · refine launchChecks_image0 admitted r st 0 0 2 1 l4.1 l4.2.1 l4.2.2.1 ?_ ?_ l5.1 l5.2 rfl
    · have e : st.raceX = (recFlag placedRecord 2 && (admitted.die 0).raceOk) := rfl
      rw [e, l4.2.2.2]; rfl
    · show (if recFlag placedRecord 0 then some (le placedRecord 66 1, le placedRecord 68 1, le placedRecord 67 1) else none) = _
      rw [l3.1, l3.2]; rfl

/-- A pre-emption of working 1 into 2^30 bytes at address 0x10000, gated or not. -/
def preempting (gated : Bool) : State :=
  mapped (commanding { bytes := recordOf 1 1 0x10000 (2 ^ 30), age := 1 } (withWork (fun w => { w with islands := false, gated := gated })))

theorem wit_AdmissionLoadAndMove_preempt : let r : Record := { bytes := recordOf 1 1 0x10000 (2 ^ 30), age := 1 }
    (∀ g, commandIs (preempting g) 1 r = true ∧ recHandle r.bytes = 1 ∧ (preempting g).hasWork 1 = true ∧ ((preempting g).work 1).savedAt = none ∧
      ((preempting g).work 1).killing = none ∧ ((preempting g).work 1).rolling = none ∧ ((preempting g).work 1).subst = [] ∧
      ((preempting g).work 1).loading = false ∧ ((preempting g).work 1).gated = g ∧ (preempting g).quiet 1 = true) ∧
    let img := (preempting true).saveImage 1 true
    (preempting true).settle 1 = preempting true ∧ img.length ≤ le r.bytes 24 8 ∧ le r.bytes 16 8 = 0x10000 ∧
      ∃ s2, (preempting true).writeSpan 0 ((preempting true).work 1).asid 0 (img.length / 32 + 1) 0x10000 img = .ok s2 := by
  have hl : ((preempting true).saveImage 1 true).length ≤ 2 ^ 30 - 2 ^ 17 := by
    have h : ∀ e ∈ ((preempting true).work 1).elems, ((preempting true).elemWords e).length ≤ 352 := by decide +kernel
    have h2 : ((preempting true).work 1).tiles = [0] ∧ shareBanks ((preempting true).work 1) 0 = [0, 1] ∧
      ((preempting true).work 1).head.length = 656 ∧ ((preempting true).section 1 true 7).length = 0 ∧
      ((preempting true).work 1).elems.length = 8 := by decide +kernel
    exact small_image (preempting true) 1 0 0 1 true rfl h2.2.2.2.2 h rfl h2.1 h2.2.1 h2.2.2.1 h2.2.2.2.1
  have hb : le (recordOf 1 1 0x10000 (2 ^ 30)) 24 8 = 2 ^ 30 := by decide +kernel
  have ha : le (recordOf 1 1 0x10000 (2 ^ 30)) 16 8 = 0x10000 := by decide +kernel
  refine ⟨fun g => by cases g <;> decide +kernel, rfl, ?_, ha, ?_⟩
  · rw [hb]; omega
  · exact writeSpan_of (preempting true) 0 _ 0x10000 _ ⟨rfl, rfl⟩ rfl (by omega)

/-- Working 1 quiet, with the claim of column 2 free. -/
theorem wit_AdmissionLoadAndMove_move : let w := base.work 1
    let sn := (base.settle 1).snapshot 1 true []
    let m := { saveRect [] with
      width := w.width, height := w.height, islands := w.islands, layoutOff := 0,
      bytes := (List.range 256).flatMap (fun i => toBytes 64 (w.entry i)) }
    let b : Bid := { width := w.width, height := w.height, islands := w.islands, aligns := BitVec.ofNat 8 m.alignBits,
                     counters := sn.counters.map (fun p => p.1), blocks := sn.thread.poolUse }
    base.hasWork 1 = true ∧ w.nomove = false ∧ (base.die 0).compact = true ∧ w.live = true ∧ w.loading = false ∧ w.retire = [] ∧
      base.quiet 1 = true ∧ base.placeAt 255 b w.die 0 2 = some 1 := by decide +kernel

/-- The ends of the command ring. -/
theorem wit_PortAndLinks_ring : (listening {}).epUp 63 = true ∧ (16380 + 4 ≤ 16384 ∧ 16384 < 16381 + 4) ∧
    16380 + (List.replicate 4 (1 : Byte)).length ≤ 16384 := by decide +kernel

/-- Reads and writes at the start of a region that system software gave, and one beyond every end of it. -/
theorem wit_PortAndLinks_region (k : Nat) : let r := Config.rdmaRegion k
    inRegion r r.2.1 0 = true ∧ (listening {}).readHost r.1 r.2.2.2 (0 / 32 + 2) r.2.1 0 = .ok ([], listening {}) ∧
      (listening {}).writeSpan 0 r.1 r.2.2.2 (0 / 32 + 2) r.2.1 [] = .ok (listening {}) ∧ inRegion r r.2.1 (r.2.2.1 + 1) = false := by
  refine ⟨?_, rfl, rfl, ?_⟩ <;> simp [inRegion]

theorem wit_PortAndLinks_link : (∀ l, l = Link.crosscut 3 ∨ l = Link.haulage 31 → let x := base.link (linkNumber l)
      3 < 4 ∧ x.up = true ∧ 0 < x.lanes ∧ (32 ≤ linkNumber l ∨ (base.setLink (linkNumber l) { x with up := false }).hauls = true)) ∧
    (linkNumber (.haulage 31) < 32 ∧ [0, 2].Pairwise (· < ·)) ∧
    (let s : State := { making 7 { accFull 0xC0 with peers := [(5, 0)] } with links := (List.range 31).map (fun n => (n, { up := false })) }
     let n := linkNumber (.haulage 31)
     let u := s.setLink n { s.link n with up := false }
     n < 32 ∧ u.hauls = false ∧ 1 ∈ u.haulUsers ∧ 2 ∉ u.haulUsers ∧ s.hasWork 1 = true ∧ (s.work 1).killing = none) := by
  refine ⟨?_, by decide, by decide +kernel⟩
  rintro l (rfl | rfl) <;> decide +kernel

/-- No crosscut link is up, and a location on die 3. -/
theorem wit_PortAndLinks_cut : let s : State := { base with links := (List.range 4).map (fun n => (32 + n, { up := false })) }
    32 ∈ crossPath 0 3 ∧ dieOfAddr (3 * 2 ^ 37) = 3 ∧ s.cutOff 0 (3 * 2 ^ 37) = true ∧ s.hasWork 1 = true ∧ (s.work 1).killing = none := by
  decide +kernel

/-- Where system software gave a region of 64 bytes at address 0 and no page table is set up, a read and a write of it are refused. -/
theorem wit_PortAndLinks_refused (k : Nat) (h : Config.rdmaRegion k = (0, 0, 64, 0)) : let r := Config.rdmaRegion k
    inRegion r 0 1 = true ∧ (match (listening {}).readHost r.1 r.2.2.2 (1 / 32 + 2) 0 1 with | .error _ => true | _ => false) = true ∧
      (match (listening {}).writeSpan 0 r.1 r.2.2.2 (1 / 32 + 2) 0 [7] with | .error _ => true | _ => false) = true := by
  rw [h]; decide +kernel

/-- A flash of zeros starts no firmware; recovery mode takes the last block; a cold start is the state of reset. -/
theorem wit_PlatformEvents_start : State.reset.recovery = false ∧ (State.reset.die 0).started = false ∧
    ((State.reset.bootCheck 0).1 ≠ 0 ∧ (State.reset.bootCheck 1).1 ≠ 0) ∧ ({ State.reset with recovery := true } : State).recovery = true ∧
    (0x03FFF000 % 4096 = 0 ∧ (List.replicate 4096 (0 : Byte)).length = 4096 ∧ 0x03FFF000 < 0x04000000) := by decide +kernel

/-- A flash whose slot holds a header of zeros but for its magic number. -/
def flashed (slot : Nat) : State := { State.reset with flash := memOf (slotOff slot) [0x01, 0x5E, 0x1A, 0x0B] }

/-- What the keys, the fuses and the dies say of that header is no part of the model (log entry 13): where they accept it, the slot starts. -/
theorem wit_PlatformEvents_boot (k : Nat) (hk : k = 0 ∨ k = 1) (h1 : Config.sha384 (sliceB ((flashed k).bootHeader k) 16 384) = Config.fuseRsaDigest)
    (h2 : Config.sha384 (sliceB ((flashed k).bootHeader k) 400 48) = Config.fuseSlhDigest) (h3 : Config.fuseCounter = 0)
    (h4 : Config.rsaVerify (sliceB ((flashed k).bootHeader k) 16 384) ((flashed k).bootDigest k) (sliceB ((flashed k).bootHeader k) 448 384) = true)
    (h5 : Config.slhVerify (sliceB ((flashed k).bootHeader k) 400 48) ((flashed k).bootDigest k) (sliceB ((flashed k).bootHeader k) 832 16224) = true)
    (h6 : ∀ d, Config.diePart d k ((flashed k).bootBody k) % 7 = 0) :
    (flashed k).recovery = false ∧ ((flashed k).die 0).started = false ∧ ((flashed k).bootCheck k).1 = 0 ∧
      (k = 1 → ((flashed k).bootCheck 0).1 ≠ 0) := by
  have m : le ((flashed k).bootHeader k) 0 4 = 0x0B1A5E01 ∧ le ((flashed k).bootHeader k) 8 8 = 0 := by
    rcases hk with rfl | rfl <;> decide +kernel
  have w : (flashed k).bootWhy k = 0 := by
    rw [State.bootWhy]
    simp [m.1, m.2, h1, h2, h3, h4, h5]
  have c : ((flashed k).bootCheck k).1 = 0 := by
    rw [State.bootCheck]
    simp only [w, h6, ne_eq, not_true, if_false]; rfl
  refine ⟨rfl, rfl, c, ?_⟩
  rintro rfl; decide +kernel

/-- A sample that is due, of quads at and beside the thresholds. -/
theorem wit_PlatformEvents_sample : (let s := withDie (fun d => { d with cycles := 2 ^ 20 })
      let x := s.die 0
      x.sampledAt + 2 ^ x.thPeriod.toNat ≤ x.cycles ∧ x.thEn = true ∧ x.thot.toNat ≤ min ([380].getD 0 0) 1023) ∧
    (let s := withQuad (fun q => { q with step := 3 })
     let x := s.die 0
     let v := min ([340].getD 0 0) 1023
     x.thEn = true ∧ v < x.thot.toNat ∧ v ≤ x.tcool.toNat ∧ (s.quad 0).step ≠ 0) ∧
    ((withDie (fun d => { d with thEn := false })).die 0).thEn = false := by decide +kernel

/-- Drifts below, at and above a step of derating, for a quad whose oscillator ran at 1024 at birth. -/
theorem wit_PlatformEvents_drift : let y := base.quad 0
    (let dr := drift 1024 1005
     dr < (y.derate.toNat + 1) * max y.limit.toNat 1) ∧
    (∀ n ∈ [1004, 985], let dr := drift 1024 n
     y.derate.toNat < 12 ∧ (y.derate.toNat + 1) * max y.limit.toNat 1 ≤ dr ∧ dr < (y.derate.toNat + 2) * max y.limit.toNat 1) := by
  decide +kernel

/-- The level of the detector of reset is 610 mV. -/
theorem wit_PlatformEvents_droop : (650000 ≤ 610000 + 1000 * (base.quad 0).thresh.toNat ∧ 609999 + 1000 * (base.quad 0).thresh.toNat < 650000) ∧
    (base.quad 0).drooped = false ∧
    (∀ n ∈ [63, 64], let x := (withQuad (fun q => { q with drooped := true, above := n })).quad 0
      x.drooped = true ∧ (if n = 64 then 64 ≤ x.above else x.above < 64)) := by decide +kernel

theorem wit_PlatformEvents_measure : ∀ m, m = 2 ∨ m = 7 → let s := base.placeActs [.measure 3 m 1 0]
    s.agenda = [.measure 3 m 1 0] ∧ (s.die 3).started = true ∧ (m, 1) ∉ (s.die 3).stages := by
  rintro m (rfl | rfl) <;> decide +kernel

theorem wit_AttestationAndTap : let s : State := { base with platform := { base.platform with spdmVersion := true, spdmCaps := true, spdmAlgs := true } }
    (s.die 0).started = true ∧ s.platform.spdmVersion = true ∧ s.platform.spdmCaps = true ∧ s.platform.spdmAlgs = true := by decide +kernel

/-! ### Witnesses: the machine -/

theorem wit_StepKeepsMemoryForm : Inv (stored 0x1000 [1, 0, 2]) ∧
    after (fun _ => true) (Machine.step ((stored 0x1000 [1, 0, 2]).placeActs [.core 0])) = some true := by decide +kernel

/-- Thread 0 at the words given, with its core to act. -/
def codeOf (l : List Byte) : State := (State.reset.placeProgram l).placeActs [.core 0]

/-- A word, two words and a word that stands for nothing. -/
theorem wit_StepRunsDecoded_core : ∀ p ∈ [(0x04400001, (some (.addi 4 0 1), false)), (0x20800000, (some (.li 8 0x60), true)),
      (0xFFFFFFFF, ((none : Option Instr), false))],
    let s := codeOf (toBytes 4 p.1 ++ toBytes 4 0x60)
    let s0 := { s with agenda := [] }
    let s1 := s0.beginIssue 0 0
    s.agenda = [.core 0] ∧ s0.nextThread 0 = some 0 ∧ (s1.thread 0).pc = tileBase ∧ tileBase.toNat % 4 = 0 ∧
      (match s1.fetchAt 0 tileBase.toNat with
        | .ok a u => decide ((decodeForeman (u.word a 4) 0).toOption.map (fun i => twoWords i) = p.2.1.map (fun _ => p.2.2)) &&
            (if p.2.2 then (match u.fetchAt 0 ((s1.thread 0).pc + 4).toNat with
                | .ok b v => decide ((decodeForeman (u.word a 4) (v.word b 4)).toOption = p.2.1)
                | _ => false)
              else decide ((decodeForeman (u.word a 4) 0).toOption = p.2.1))
        | _ => false) = true := by decide +kernel

/-- A firing of slot 0 of element 7, with no watch and with one that holds back n firings. -/
def fireOf (n : Option Nat) : State :=
  withDie (fun d => { d with cwrow := if n.isNone then [] else [(rowOf 7, { col := BitVec.ofNat 8 (colOf 7), watch := true, pending := n.getD 0 })] })
    ((State.reset.placeProgram []).placeSlot 7 0x8000004000084418E0300000)

/-- A slot as it is, with a watch that holds nothing yet, with one that counts, and with a cycle held for its verdict and confirmed. -/
theorem wit_StepRunsDecoded_fire : (∀ p ∈ [(none, true), (some 0, true), (some 0, false), (some 1, true), (some 2, true)],
    let s := withDie (fun d => { d with cwHold := p.2, cwrow := d.cwrow.map (fun c => (c.1, { c.2 with slot := if c.2.pending = 0 then none else some 0 })) })
      (fireOf p.1)
    s.firedNow 7 = false ∧ (s.meets 7 none).isNone = true ∧ s.firstSlot 7 = some 0 ∧
      ((s.curCfg 7).instr 0).any (fun i => !s.yields 7 i && (s.meets 7 (some i)).isNone) = true ∧ s.watched 7 = p.1.isSome ∧
      (p.1.isSome = true → s.watchHeld 7 = p.2 ∧ (s.cwRowOf 7).pending = p.1.getD 0) ∧
      s.heldSlot 7 = (if p.1.getD 0 = 0 then none else some 0) ∧ s.slotReady 7 0 = true) ∧
    (let s := (fireOf none).modElem 7 (fun x => { x with latent := [(0, .elemState)] })
     s.firedNow 7 = false ∧ (s.meets 7 none).isSome = true) ∧
    (let s := (fireOf none).modElem 7 (fun x => x.setQueue 0 ((x.queue 0).map (fun k => { k with origin := .restored true })))
     s.firedNow 7 = false ∧ (s.meets 7 none).isNone = true ∧ s.heldSlot 7 = none ∧ s.firstSlot 7 = some 0 ∧
       ((s.curCfg 7).instr 0).any (fun i => !s.yields 7 i && (s.meets 7 (some i)).isSome) = true) := by
  decide +kernel

/-- Slot 1 fires with slot 0: it holds an operation of class L, and the conflict matrix lets the two fire together. -/
def fire2Of : State :=
  let s := withElem 7 (fun x => { x with first := some 0 }) ((State.reset.placeProgram []).placeSlot 7 0x8000004000084418E0300000)
  let g : ElemCfg := { slots := [(0, 0x8000004000084418E0300000), (1, 0x800039C09D009F40E0000000)], conflict := 1 }
  s.setClaim 0 { s.claim 0 with blocks := [(0, { elems := [(7, g)] })] }

theorem wit_StepRunsDecoded_fire2 : ∀ p ∈ [none, some true, some false],
    let s := withDie (fun d => { d with cwHold := p.getD true, cwrow := if p.isNone then [] else [(rowOf 7, { col := BitVec.ofNat 8 (colOf 7), watch := true })] })
      fire2Of
    s.firedNow 7 = true ∧ (s.elem 7).first = some 0 ∧ (s.elem 7).second = false ∧ s.secondSlot 7 0 = some 1 ∧
      ((s.curCfg 7).instr 1).any (fun i => !s.yields 7 i && (s.meets 7 (some i)).isNone) = true ∧ s.watched 7 = p.isSome ∧
      (p.isSome = true → s.watchHeld 7 = p.getD true) := by decide +kernel

theorem wit_StepRunsDecoded_event : ((base.placeActs [.event (.droopTrip 191 0)]).agenda = [.event (.droopTrip 191 0)] ∧
      Instr.isEvent (.droopTrip 191 0) = true) ∧ base.agenda = [] ∧
    (base.claims.any (fun p => p.1 == 0 && p.2.owner != 0)) = true ∧ 7 < 8 := by decide +kernel

/-- A well-formed instruction of one word, of two and of three, and the words that stand for them. -/
theorem wit_EncodingRoundTrips : (∀ i ∈ [Instr.addi 4 0 1, .li 8 0x60, .add (ew (some 0) (some 1) .s32 (.q 0) (.q 1) (.reg 3) .none true true 0)],
      Instr.wf i = true ∧ encode i ≠ []) ∧
    (0x04400001 < 2 ^ 32 ∧ decodeTableWord 32 0x04400001 = some (.addi 4 0 1) ∧ twoWords (.addi 4 0 1) = false) ∧
    (0x0000006020800000 < 2 ^ 64 ∧ decodeTableWord 64 0x0000006020800000 = some (.li 8 0x60) ∧ twoWords (.li 8 0x60) = true) ∧
    (0x8000004000084418E0300000 < 2 ^ 96 ∧ (decodeTableWord 96 0x8000004000084418E0300000).isSome = true) := by decide +kernel

/-! ### Ill-formed terms, which WellFormed refuses -/

theorem test_wf_foreman : Instr.wf (.rbacq 0) = false ∧ Instr.wf (.rbacqTry 0) = false ∧ Instr.wf (.rbrel 0) = false ∧
    Instr.wf (.wfi 0 0) = false ∧ Instr.wf (.invr 4 5 6 false .elem) = false ∧ Instr.wf (.invr 4 5 6 false .tile) = false ∧
    Instr.wf (.invr 4 5 6 false .quad) = false ∧ Instr.wf (.invr 4 5 6 true .wrk) = false := by decide +kernel

theorem test_wf_thread_events : [Instr.waitaWake 784, .wfiWake 784, .barwRelease 784, .semaPGrant 784, .rbacqGrant 784, .rbacqStallTimeout 784,
    .syscallReturn 784 0 0 0 0, .rvendComplete 784, .invrAcknowledge 784, .trapTake 784, .macedit 784 0, .poisrec 784 0, .readClear 784 0 0,
    .registerWrite 784 0 0 0].all (fun i => !Instr.wf i) = true := by decide +kernel

/-- An element number of row 48, and one beyond die 3. -/
theorem test_wf_element_events : ∀ e ∈ [0x3000, 65536], [Instr.accessPerform e 0, .pendingReplyLeave e 0, .waveEnterOrder e 0, .swatchTrigger e 0,
    .stampAtomicPerform e 0 0, .tramChaseHop e, .tramWalkDeliver e, .gatherScatterLane e, .tloadRowFill e, .toutRowWrite e, .translationWalk e 0,
    .elementReplay e true, .spareSubstitution e, .tokenArrival e 0, .creditReturn e 0].all (fun i => !Instr.wf i) = true := by decide +kernel

theorem test_wf_die_events : [Instr.stampAtomicPerform 7 0 8, .islandStep 768, .hoistUnit 4 0, .hoistUnit 0 32, .sluiceBlock 4 0, .sluiceBlock 0 32,
    .streamRecordMove 4 0, .streamRecordMove 0 32, .hoistCompletionWord 4 0, .hoistCompletionWord 0 32, .checkweigherConfirm 4 0 .confirmed,
    .checkweigherConfirm 0 96 .confirmed, .checkweigherWatchEnd 4 0, .checkweigherWatchEnd 0 96, .counterSweep 4 0, .counterSweep 0 48,
    .thermalSample 4 [] [], .droopTrip 192 0, .linkFlitReplay ⟨.haulage 0, 4⟩, .droopRelease 4 0, .droopRelease 0 48, .alert 4, .throttle 4 0 0, .throttle 0 48 0,
    .qclk 4 0 0, .qclk 0 48 0, .errring 4 0, .errptr 4 0, .wkill 4 0, .wkillComplete 4, .mctpRegisterRead 4 0 0].all (fun i => !Instr.wf i) =
      true := by decide +kernel

theorem test_wf_port_events : [Instr.doorbellWrite 64 0, .recordFetch 64, .launch 64, .preempt 64, .restore 64, .kill 64, .message 64, .query 64,
    .rdmaRead ⟨64, false⟩ 0 0 0, .rdmaWrite ⟨64, false⟩ 0 0 [], .queuePairSetup 64, .congestionNotification 64].all (fun i => !Instr.wf i) = true := by
  decide +kernel

/-- The word of i0 + i1 to v3, which is well formed, with one field changed in each: R109, R110, R63, R58, R75, R113, R119. -/
theorem test_wf_words : let w := ew (some 0) (some 1) .s32 (.q 0) (.q 1) (.reg 3) .none true true 0
    Instr.wf (.add w) = true ∧
    [{ w with pv := 1 }, { w with qa := none, sa := .v 0, pa := false, ta := .eq }, { w with qb := none, sb := .v 0, pb := false, tb := .ne },
      { w with sa := .q 2 }, { w with sb := .q 5 }, { w with qa := none, sa := .v 0 }, { w with qb := none, sb := .v 0 },
      { w with d0 := .link .e false false, d1 := .link .e true false }, { w with qa := none, sa := .v 0, pa := false, d1 := .link .e true false },
      { w with d0 := .port 0 false false }, { w with ty := .bf16x2 }].all (fun w => !Instr.wf (.add w)) = true ∧
    Instr.wf (.neg w) = false ∧ Instr.wf (.mad { w with d0 := .link .e false false }) = false := by decide +kernel

/-- The operand rules of single opcodes (R59, R113, R117, R118, R172, R210, R217, R262, R263), each broken by one field. -/
theorem test_wf_rules : let w := ew (some 0) none .s32 (.q 0) (.v 0) (.reg 3) .none true false 0
    [Instr.mov { w with sb := .v 1 }, .cvt { w with ty := .bf16x2, sb := .v 11 }, .pass { w with sa := .v 0 }, .pass { w with ot := 1 },
      .pass { w with d1 := .link .s true false }, .drop { w with sa := .v 0 }, .mergeOrd { w with qa := some 2, sb := .q 0 },
      .mergeOrd { w with qa := some 2, qb := some 1, sb := .q 1 }, .pack { w with sb := .v 3 }, .pack { w with sb := .zero },
      .pand { w with sa := .v 8 }, .chstart { w with ty := .c13 }, .spawn { w with d0 := .none }, .nop { w with sa := .v 0, d0 := .none },
      .ld { w with ty := .c12 }, .oclm { w with ty := .c12 }, .join { w with sa := .v 0, sb := .zero }, .chnext { w with ty := .c13, sa := .v 0, d0 := .link .e false true }
      ].all (fun i => !Instr.wf i) = true ∧
    (let w2 := { w with qb := some 1, pb := true }
     [Instr.mergeAny { w2 with sb := .q 1, qb := some 0 }, .bfwd { w2 with sa := .v 0, ta := .eq }, .bfwd { w2 with sa := .v 0, pb := false }].all
      (fun i => !Instr.wf i) = true) := by decide +kernel

/-- Each word that broke a rule is well formed without the change. -/
theorem test_wf_rules_kept : let w := ew (some 0) none .s32 (.q 0) (.v 0) (.reg 3) .none true false 0
    [Instr.mov w, .cvt { w with ty := .bf16x2, sb := .v 10 }, .pass w, .drop { w with sa := .v 0, d0 := .none },
      .pack { w with sb := .v 4 }, .pand { w with sa := .v 7 }, .spawn { w with sb := .k 0, d0 := .none },
      .ld { w with ty := .c12, d0 := .link .e false false }].all (fun i => Instr.wf i) = true := by decide +kernel

/-! ### Words that stand for no instruction -/

/-- The funct values, the opcodes and the reserved bits that R312 to R348 give to nothing. -/
theorem test_decode_refused_foreman : [0x00524C16, 0x00000FFF, 0xFFFFFFFF, 0x30000001, 0x38000000, 0xF0034007, 0x28424C00].all
    (fun w => (decodeTableWord 32 w).isNone) = true := by decide +kernel

/-- V = 0, a reserved opcode, QA = 6, PV outside PM, a type of another opcode, and a source of a queue that no field names. -/
theorem test_decode_refused_element : [0x0000004000084418E0300000, 0x800000400F084418E0300000, 0x8000034000084418E0300000 ||| (6 <<< 75),
    0x8000004000084418E0300000 ||| (1 <<< 78), 0x8000004040084418E0300000, 0x8000004000094418E0300000].all
    (fun w => (decodeTableWord 96 w).isNone) = true := by decide +kernel

/-! ### Words written out from the encodings of R108 to R134 and R312 to R354, and the instructions that they stand for -/

theorem test_decode_foreman_alu : decodesAs 32 [
    (0x00524C00, .foremanAdd 5 9 12),
    (0x00524C01, .foremanSub 5 9 12),
    (0x00524C02, .foremanAnd 5 9 12),
    (0x00524C03, .foremanOr 5 9 12),
    (0x00524C04, .foremanXor 5 9 12),
    (0x00524C05, .foremanAndn 5 9 12),
    (0x00524C06, .foremanShl 5 9 12),
    (0x00524C07, .foremanShr 5 9 12),
    (0x00524C08, .foremanSha 5 9 12),
    (0x00524C09, .foremanMul 5 9 12),
    (0x00524C0A, .foremanMulh 5 9 12),
    (0x00524C0B, .foremanMulhu 5 9 12),
    (0x00524C0C, .foremanDiv 5 9 12),
    (0x00524C0D, .foremanDivu 5 9 12),
    (0x00524C0E, .foremanRem 5 9 12),
    (0x00524C0F, .foremanRemu 5 9 12),
    (0x00524C10, .foremanMin 5 9 12),
    (0x00524C11, .foremanMax 5 9 12),
    (0x00524C12, .foremanMinu 5 9 12),
    (0x00524C13, .foremanMaxu 5 9 12),
    (0x00524014, .foremanClz 5 9),
    (0x00524015, .foremanPopc 5 9)] = true := by decide

theorem test_decode_foreman_imm_mem : decodesAs 32 [
    (0x04527FFD, .addi 5 9 0x3FFD),
    (0x08527FFD, .andi 5 9 0x3FFD),
    (0x0C527FFD, .ori 5 9 0x3FFD),
    (0x10527FFD, .xori 5 9 0x3FFD),
    (0x1452403F, .shli 5 9 63),
    (0x1852403F, .shri 5 9 63),
    (0x1C52403F, .shai 5 9 63),
    (0x28024C00, .cmp 9 12),
    (0x2C027FFF, .cmpi 9 0x3FFF),
    (0x43F25234, .ldN8 63 9 0x1234),
    (0x47F25234, .ldS8 63 9 0x1234),
    (0x4BF25234, .ldN16 63 9 0x1234),
    (0x4FF25234, .ldS16 63 9 0x1234),
    (0x53F25234, .ldN32 63 9 0x1234),
    (0x57F25234, .ldS32 63 9 0x1234),
    (0x5BF25234, .ldB64 63 9 0x1234),
    (0x63F25234, .stB8 63 9 0x1234),
    (0x67F25234, .stB16 63 9 0x1234),
    (0x6BF25234, .stB32 63 9 0x1234),
    (0x6FF25234, .stB64 63 9 0x1234)] = true := by decide

theorem test_decode_foreman_amo_fence : decodesAs 32 [
    (0x70524C00, .foremanAmoAdd 5 9 12 .plain .wrk),
    (0x70524C11, .foremanAmoAnd 5 9 12 .acq .wrk),
    (0x70524C22, .foremanAmoOr 5 9 12 .rel .wrk),
    (0x70524C33, .foremanAmoXor 5 9 12 .acqrel .wrk),
    (0x70524C44, .foremanAmoMins 5 9 12 .plain .die),
    (0x70524C55, .foremanAmoMaxs 5 9 12 .acq .die),
    (0x70524C66, .foremanAmoMinu 5 9 12 .rel .die),
    (0x70524C77, .foremanAmoMaxu 5 9 12 .acqrel .die),
    (0x70524C88, .foremanAmoFadd 5 9 12 .plain .pkg),
    (0x70524C99, .foremanAmoFmin 5 9 12 .acq .pkg),
    (0x70524CAA, .foremanAmoFmax 5 9 12 .rel .pkg),
    (0x70524CBB, .foremanAmoXchg 5 9 12 .acqrel .pkg),
    (0x70524CCC, .foremanAmoCas 5 9 12 .plain .pod),
    (0x74000002, .fenceFull .quad),
    (0x7400000D, .fenceAcq .pod),
    (0x74000016, .fenceRel .wrk),
    (0x78B24C04, .waita 11 9 12 .pkg)] = true := by decide

theorem test_decode_foreman_control : decodesAs 32 [
    (0x80BFFFFD, .bc .ne 0x3FFFFD),
    (0x83C00007, .bc .fc 7),
    (0x843FFFFF, .bl 0x3FFFFF),
    (0x8812407F, .jr 1 9 0x7F),
    (0x8C0000AB, .entry 0xAB),
    (0x90000006, .rbacq 3),
    (0x90000106, .rbacqTry 3),
    (0x94000002, .rbrel 1),
    (0xA0800002, .sysr 8 0 2),
    (0xA402C00A, .sysw 0 11 10),
    (0xA8001FFF, .trap 0x1FFF),
    (0xA8002000, .trapSyscall 0),
    (0xAC000000, .eret),
    (0xB0F00002, .wfi 15 2)] = true := by decide

theorem test_decode_foreman_working : decodesAs 32 [
    (0xC0524C00, .wload 5 9 12),
    (0xC4038000, .wgoStart 14),
    (0xC4038001, .wgoResume 14),
    (0xC8024000, .wphase 9),
    (0xCC000000, .wstopEnd),
    (0xCC000001, .wstopPause),
    (0xD0524000, .wsave 5 9),
    (0xD4524000, .wrest 5 9),
    (0xD8500000, .wqueryWstat 5),
    (0xD8500001, .wqueryPhases 5),
    (0xD8500002, .wquerySaveSize 5),
    (0xDC524000, .rdsReportHead 5 9),
    (0xDC500001, .rdsReportPop 5),
    (0xDC524C02, .rdsOperandStatus 5 9 12),
    (0xDC524C03, .rdsAccumulatorStatus 5 9 12),
    (0xDC524004, .rdsSyncCounter 5 9),
    (0xDC500005, .rdsPoisonRecord 5),
    (0xDC524C06, .rdsElementState 5 9 12)] = true := by decide

theorem test_decode_foreman_tasks_sync : decodesAs 32 [
    (0xE0024000, .tqpush 9),
    (0xE0024001, .tqpushTry 9),
    (0xE4524000, .tqpop 5 9),
    (0xE8A20000, .hcopy 10 8),
    (0xE8A20001, .hcopyTry 10 8),
    (0xEC524000, .hqueryHstat0 5 9),
    (0xEC524001, .hqueryHstat1 5 9),
    (0xF0034006, .publish 13 .wrk),
    (0xF4D00000, .rvbeg 13),
    (0xF402C001, .rvkeep 11),
    (0xF4038002, .rvend 14),
    (0xF8524C0C, .invr 5 9 12 true .pkg),
    (0xFC524C02, .barw 5 9 12 .quad),
    (0xFC524013, .semaP 5 9 .die),
    (0xFC524023, .semaTry 5 9 .die),
    (0xFC524C33, .semaV 5 9 12 .die),
    (0xFC524C43, .semaSet 5 9 12 .die)] = true := by decide

theorem test_decode_foreman_long : decodesAs 64 [
    (0x0000006020800000, .li 8 0x60),
    (0xFFFFFFF024524000, .addl 5 9 0xFFFFFFF0)] = true := by decide

theorem test_decode_element_integer_1 : decodesAs 96 [
    (0x8000004000084418E0300000, .add (ew (some 0) (some 1) .s32 (.q 0) (.q 1) (.reg 3) (.none) true true 0)),
    (0x8000004001184418E0300000, .sub (ew (some 0) (some 1) .n32 (.q 0) (.q 1) (.reg 3) (.none) true true 0)),
    (0x8000004002284418E0300000, .mul (ew (some 0) (some 1) .s16x2 (.q 0) (.q 1) (.reg 3) (.none) true true 0)),
    (0x8000004003384418E0300000, .mulh (ew (some 0) (some 1) .n16x2 (.q 0) (.q 1) (.reg 3) (.none) true true 0)),
    (0x8000004004484418E0300000, .mad (ew (some 0) (some 1) .s8x4 (.q 0) (.q 1) (.reg 3) (.none) true true 0)),
    (0x800001C005580018E0200000, .neg (ew (some 0) none .n8x4 (.q 0) (.v 0) (.reg 3) (.none) true false 0)),
    (0x800001C006080018E0200000, .abs (ew (some 0) none .s32 (.q 0) (.v 0) (.reg 3) (.none) true false 0)),
    (0x8000004007184418E0300000, .min (ew (some 0) (some 1) .n32 (.q 0) (.q 1) (.reg 3) (.none) true true 0)),
    (0x8000004008284418E0300000, .max (ew (some 0) (some 1) .s16x2 (.q 0) (.q 1) (.reg 3) (.none) true true 0)),
    (0x8000004009384418E0300000, .shl (ew (some 0) (some 1) .n16x2 (.q 0) (.q 1) (.reg 3) (.none) true true 0)),
    (0x800000400A484418E0300000, .shr (ew (some 0) (some 1) .s8x4 (.q 0) (.q 1) (.reg 3) (.none) true true 0)),
    (0x800000400B584418E0300000, .sha (ew (some 0) (some 1) .n8x4 (.q 0) (.q 1) (.reg 3) (.none) true true 0)),
    (0x800000400C084418E0300000, .rol (ew (some 0) (some 1) .s32 (.q 0) (.q 1) (.reg 3) (.none) true true 0)),
    (0x800001C00D180018E0200000, .clz (ew (some 0) none .n32 (.q 0) (.v 0) (.reg 3) (.none) true false 0)),
    (0x800001C00E280018E0200000, .popc (ew (some 0) none .s16x2 (.q 0) (.v 0) (.reg 3) (.none) true false 0)),
    (0x8000004010B84418E0300000, .and (ew (some 0) (some 1) .b32 (.q 0) (.q 1) (.reg 3) (.none) true true 0)),
    (0x8000004011B84418E0300000, .or (ew (some 0) (some 1) .b32 (.q 0) (.q 1) (.reg 3) (.none) true true 0)),
    (0x8000004012B84418E0300000, .xor (ew (some 0) (some 1) .b32 (.q 0) (.q 1) (.reg 3) (.none) true true 0)),
    (0x800001C013B80018E0200000, .not (ew (some 0) none .b32 (.q 0) (.v 0) (.reg 3) (.none) true false 0)),
    (0x8000004014B84418E0300000, .andn (ew (some 0) (some 1) .b32 (.q 0) (.q 1) (.reg 3) (.none) true true 0)),
    (0x8000004015B84418E0300000, .sel (ew (some 0) (some 1) .b32 (.q 0) (.q 1) (.reg 3) (.none) true true 0)),
    (0x8000004018B84418E0300000, .cmpeq (ew (some 0) (some 1) .b32 (.q 0) (.q 1) (.reg 3) (.none) true true 0)),
    (0x8000004019084418E0300000, .cmpne (ew (some 0) (some 1) .s32 (.q 0) (.q 1) (.reg 3) (.none) true true 0)),
    (0x800000401A284418E0300000, .cmplt (ew (some 0) (some 1) .s16x2 (.q 0) (.q 1) (.reg 3) (.none) true true 0))] = true := by decide

theorem test_decode_element_integer_2 : decodesAs 96 [
    (0x800000401B184418E0300000, .cmple (ew (some 0) (some 1) .n32 (.q 0) (.q 1) (.reg 3) (.none) true true 0)),
    (0x8000004020484478E0300000, .addSat (ew (some 0) (some 1) .s8x4 (.q 0) (.q 1) (.reg 15) (.none) true true 0)),
    (0x8000004021484478E0300000, .subSat (ew (some 0) (some 1) .s8x4 (.q 0) (.q 1) (.reg 15) (.none) true true 0)),
    (0x8000004022484478E0300000, .mulSat (ew (some 0) (some 1) .s8x4 (.q 0) (.q 1) (.reg 15) (.none) true true 0)),
    (0x8000004024484478E0300000, .madSat (ew (some 0) (some 1) .s8x4 (.q 0) (.q 1) (.reg 15) (.none) true true 0)),
    (0x8000004029484478E0300000, .shlSat (ew (some 0) (some 1) .s8x4 (.q 0) (.q 1) (.reg 15) (.none) true true 0)),
    (0x800001C02528001841200000, .negSat (ew (some 0) none .s16x2 (.q 0) (.v 0) (.reg 3) (.link .e true false) true false 0)),
    (0x800001C02628001841200000, .absSat (ew (some 0) none .s16x2 (.q 0) (.v 0) (.reg 3) (.link .e true false) true false 0))] = true := by decide

theorem test_decode_element_float_lanes_1 : decodesAs 96 [
    (0x8000004040684418E0300000, .fadd (ew (some 0) (some 1) .f32 (.q 0) (.q 1) (.reg 3) (.none) true true 0)),
    (0x8000004041784418E0300000, .fsub (ew (some 0) (some 1) .bf16x2 (.q 0) (.q 1) (.reg 3) (.none) true true 0)),
    (0x8000004042884418E0300000, .fmul (ew (some 0) (some 1) .f16x2 (.q 0) (.q 1) (.reg 3) (.none) true true 0)),
    (0x8000004043684418E0300000, .ffma (ew (some 0) (some 1) .f32 (.q 0) (.q 1) (.reg 3) (.none) true true 0)),
    (0x8000004044784418E0300000, .fmin (ew (some 0) (some 1) .bf16x2 (.q 0) (.q 1) (.reg 3) (.none) true true 0)),
    (0x8000004045884418E0300000, .fmax (ew (some 0) (some 1) .f16x2 (.q 0) (.q 1) (.reg 3) (.none) true true 0)),
    (0x800001C046680018E0200000, .fabs (ew (some 0) none .f32 (.q 0) (.v 0) (.reg 3) (.none) true false 0)),
    (0x800001C047780018E0200000, .fneg (ew (some 0) none .bf16x2 (.q 0) (.v 0) (.reg 3) (.none) true false 0)),
    (0x8000004048884418E0300000, .fcmpeq (ew (some 0) (some 1) .f16x2 (.q 0) (.q 1) (.reg 3) (.none) true true 0)),
    (0x8000004049684418E0300000, .fcmplt (ew (some 0) (some 1) .f32 (.q 0) (.q 1) (.reg 3) (.none) true true 0)),
    (0x800000404A784418E0300000, .fcmple (ew (some 0) (some 1) .bf16x2 (.q 0) (.q 1) (.reg 3) (.none) true true 0)),
    (0x800000404B884418E0300000, .fcmpun (ew (some 0) (some 1) .f16x2 (.q 0) (.q 1) (.reg 3) (.none) true true 0)),
    (0x800001C050781818E0200000, .cvt (ew (some 0) none .bf16x2 (.q 0) (.v 6) (.reg 3) (.none) true false 0)),
    (0x800001C051781818E0200000, .cvtRz (ew (some 0) none .bf16x2 (.q 0) (.v 6) (.reg 3) (.none) true false 0)),
    (0x800001C052781818E0200000, .cvtRs (ew (some 0) none .bf16x2 (.q 0) (.v 6) (.reg 3) (.none) true false 0)),
    (0x800001C058680018E0200000, .rcp (ew (some 0) none .f32 (.q 0) (.v 0) (.reg 3) (.none) true false 0)),
    (0x800001C059680018E0200000, .rsq (ew (some 0) none .f32 (.q 0) (.v 0) (.reg 3) (.none) true false 0)),
    (0x800001C05A680018E0200000, .exp2 (ew (some 0) none .f32 (.q 0) (.v 0) (.reg 3) (.none) true false 0)),
    (0x800001C05B680018E0200000, .log2 (ew (some 0) none .f32 (.q 0) (.v 0) (.reg 3) (.none) true false 0)),
    (0x8000004070084418E0300000, .shuf (ew (some 0) (some 1) .s32 (.q 0) (.q 1) (.reg 3) (.none) true true 0)),
    (0x8000004071084418E0300000, .bcast (ew (some 0) (some 1) .s32 (.q 0) (.q 1) (.reg 3) (.none) true true 0)),
    (0x8000004072084418E0300000, .lrot (ew (some 0) (some 1) .s32 (.q 0) (.q 1) (.reg 3) (.none) true true 0)),
    (0x800001C078280018E0200000, .lradd (ew (some 0) none .s16x2 (.q 0) (.v 0) (.reg 3) (.none) true false 0)),
    (0x800001C079280018E0200000, .lrmin (ew (some 0) none .s16x2 (.q 0) (.v 0) (.reg 3) (.none) true false 0))] = true := by decide

theorem test_decode_element_float_lanes_2 : decodesAs 96 [
    (0x800001C07A280018E0200000, .lrmax (ew (some 0) none .s16x2 (.q 0) (.v 0) (.reg 3) (.none) true false 0)),
    (0x800001C07B880018E0200000, .lrfadd (ew (some 0) none .f16x2 (.q 0) (.v 0) (.reg 3) (.none) true false 0)),
    (0x800001C07C880018E0200000, .lrfmin (ew (some 0) none .f16x2 (.q 0) (.v 0) (.reg 3) (.none) true false 0)),
    (0x800001C07D880018E0200000, .lrfmax (ew (some 0) none .f16x2 (.q 0) (.v 0) (.reg 3) (.none) true false 0)),
    (0x800001C080580018E0200000, .lpadd (ew (some 0) none .n8x4 (.q 0) (.v 0) (.reg 3) (.none) true false 0)),
    (0x800001C081780018E0200000, .lpfadd (ew (some 0) none .bf16x2 (.q 0) (.v 0) (.reg 3) (.none) true false 0))] = true := by decide

theorem test_decode_element_tokens_1 : decodesAs 96 [
    (0x800001C090080200A2250000, .mov (ew (some 0) none .s32 (.q 0) (.v 0) (.link .w false false) (.route 1 false false) true false 5)),
    (0x800001C09108008060200000, .pass (ew (some 0) none .s32 (.q 0) (.v 0) (.link .n false false) (.link .s false false) true false 0)),
    (0x800001C092000380E0200000, .drop (ew (some 0) none .s32 (.v 0) (.v 0) (.none) (.none) true false 0)),
    (0x800000409308450681300000, .steer (ew (some 0) (some 1) .s32 (.q 0) (.q 1) (.link .e true true) (.link .w true false) true true 0)),
    (0x800011C094084418E0200000, .mergeOrd (ew (some 2) none .s32 (.q 0) (.q 1) (.reg 3) (.none) true false 0)),
    (0x8000004095084418E0300000, .mergeAny (ew (some 0) (some 1) .s32 (.q 0) (.q 1) (.reg 3) (.none) true true 0)),
    (0x8000004096084418E0300000, .filt (ew (some 0) (some 1) .s32 (.q 0) (.q 1) (.reg 3) (.none) true true 0)),
    (0x800001C097081018E0200000, .pack (ew (some 0) none .s32 (.q 0) (.v 4) (.reg 3) (.none) true false 0)),
    (0x800001C098080018E0290000, .tag (ew (some 0) none .s32 (.q 0) (.v 0) (.reg 3) (.none) true false 9)),
    (0x8000004098C84418E0300000, .tagDyn (ew (some 0) (some 1) .c12 (.q 0) (.q 1) (.reg 3) (.none) true true 0)),
    (0x800001C099C80018E0200000, .vmskGet (ew (some 0) none .c12 (.q 0) (.v 0) (.reg 3) (.none) true false 0)),
    (0x8000004099D84418E0300000, .vmskAnd (ew (some 0) (some 1) .c13 (.q 0) (.q 1) (.reg 3) (.none) true true 0)),
    (0x8000004099E84418E0300000, .vmskSet (ew (some 0) (some 1) .c14 (.q 0) (.q 1) (.reg 3) (.none) true true 0)),
    (0x800000409A000018E0300000, .bfwd (ew (some 0) (some 1) .s32 (.v 0) (.v 0) (.reg 3) (.none) true true 0)),
    (0x800039C09C009F18E0000000, .pand (ew none none .s32 (.v 1) (.v 7) (.pred 3) (.none) false false 0)),
    (0x800039C09D009F40E0000000, .por (ew none none .s32 (.v 1) (.v 7) (.report) (.none) false false 0)),
    (0x800039C09E009F48E0000000, .pxor (ew none none .s32 (.v 1) (.v 7) (.discard) (.none) false false 0)),
    (0x800039C09F030018E0000000, .pnot (ew none none .s32 (.v 6) (.v 0) (.reg 3) (.none) false false 0)),
    (0x80000040A0081018E0300000, .taga (ew (some 0) (some 1) .s32 (.q 0) (.v 4) (.reg 3) (.none) true true 0)),
    (0x80000040A1081018E0300000, .tagf (ew (some 0) (some 1) .s32 (.q 0) (.v 4) (.reg 3) (.none) true true 0)),
    (0x80000040A2084418E0300000, .tagx (ew (some 0) (some 1) .s32 (.q 0) (.q 1) (.reg 3) (.none) true true 0)),
    (0x800001C0A2C80018E0200000, .tagxGet (ew (some 0) none .c12 (.q 0) (.v 0) (.reg 3) (.none) true false 0)),
    (0x800001C0A4D80380E0200000, .chstart (ew (some 0) none .c13 (.q 0) (.v 0) (.none) (.none) true false 0)),
    (0x800001C0A5D80380E0200000, .chstep (ew (some 0) none .c13 (.q 0) (.v 0) (.none) (.none) true false 0))] = true := by decide

theorem test_decode_element_tokens_2 : decodesAs 96 [
    (0x800001C0A6D80380E0200000, .chcount (ew (some 0) none .c13 (.q 0) (.v 0) (.none) (.none) true false 0)),
    (0x800001C0A6F00380E0200000, .chcountEnd (ew (some 0) none .c15 (.v 0) (.v 0) (.none) (.none) true false 0)),
    (0x800039C0A7D00018E0000000, .chnext (ew none none .c13 (.v 0) (.v 0) (.reg 3) (.none) false false 0)),
    (0x800039C0A7E00018E0000000, .chnextV (ew none none .c14 (.v 0) (.v 0) (.reg 3) (.none) false false 0))] = true := by decide

theorem test_decode_element_memory_islands_1 : decodesAs 96 [
    (0x800001C0A8085B80E0200000, .spawn (ew (some 0) none .s32 (.q 0) (.k 0) (.none) (.none) true false 0)),
    (0x800039C0A9006418E0000000, .join (ew none none .s32 (.v 0) (.k 3) (.reg 3) (.none) false false 0)),
    (0x800001C0E0086818E0200000, .fenceElement (ew (some 0) none .s32 (.q 0) (.zero) (.reg 3) (.none) true false 0)),
    (0x800001C0E1080380E0200000, .etrap (ew (some 0) none .s32 (.q 0) (.v 0) (.none) (.none) true false 0)),
    (0x800039C0E2C00018E0000000, .rdsysClock (ew none none .c12 (.v 0) (.v 0) (.reg 3) (.none) false false 0)),
    (0x800039C0E2D00018E0000000, .rdsysPlace (ew none none .c13 (.v 0) (.v 0) (.reg 3) (.none) false false 0)),
    (0x800039C0E2E00018E0000000, .rdsysPoison (ew none none .c14 (.v 0) (.v 0) (.reg 3) (.none) false false 0)),
    (0x800039C0E2F00018E0000000, .rdsysChains (ew none none .c15 (.v 0) (.v 0) (.reg 3) (.none) false false 0)),
    (0x800039C0E3000380E0000000, .nop (ew none none .s32 (.v 0) (.v 0) (.none) (.none) false false 0)),
    (0x800001C0B0C8020040200000, .sld (ew (some 0) none .c12 (.q 0) (.v 0) (.link .w false false) (.link .e false false) true false 0)),
    (0x80000040B1D8460040300000, .sst (ew (some 0) (some 1) .c13 (.q 0) (.q 1) (.link .w false false) (.link .e false false) true true 0)),
    (0x80000040B2F8460040300000, .swatch (ew (some 0) (some 1) .c15 (.q 0) (.q 1) (.link .w false false) (.link .e false false) true true 0)),
    (0x800001C0B4C80018E0200000, .spbeg (ew (some 0) none .c12 (.q 0) (.v 0) (.reg 3) (.none) true false 0)),
    (0x800001C0B5C80018E0200000, .spcom (ew (some 0) none .c12 (.q 0) (.v 0) (.reg 3) (.none) true false 0)),
    (0x800001C0B6C80018E0200000, .spdis (ew (some 0) none .c12 (.q 0) (.v 0) (.reg 3) (.none) true false 0)),
    (0x800001C0C0C8020040200000, .ld (ew (some 0) none .c12 (.q 0) (.v 0) (.link .w false false) (.link .e false false) true false 0)),
    (0x80000040C1D8460040300000, .st (ew (some 0) (some 1) .c13 (.q 0) (.q 1) (.link .w false false) (.link .e false false) true true 0)),
    (0x800001C0C2E8020040200000, .gathr (ew (some 0) none .c14 (.q 0) (.v 0) (.link .w false false) (.link .e false false) true false 0)),
    (0x800019C0C3DDCE0040210000, .scatr (ew (some 3) none .c13 (.lane) (.q 3) (.link .w false false) (.link .e false false) true false 1)),
    (0x80000040C4C8460040300000, .amo (ew (some 0) (some 1) .c12 (.q 0) (.q 1) (.link .w false false) (.link .e false false) true true 0)),
    (0x80000040C5D8460040300000, .amoOrd (ew (some 0) (some 1) .c13 (.q 0) (.q 1) (.link .w false false) (.link .e false false) true true 0)),
    (0x80000040C6E8460040300000, .red (ew (some 0) (some 1) .c14 (.q 0) (.q 1) (.link .w false false) (.link .e false false) true true 0)),
    (0x80000040C7F8460040300000, .redOrd (ew (some 0) (some 1) .c15 (.q 0) (.q 1) (.link .w false false) (.link .e false false) true true 0)),
    (0x800001C0C8C8020040200000, .xlat (ew (some 0) none .c12 (.q 0) (.v 0) (.link .w false false) (.link .e false false) true false 0))] = true := by decide

theorem test_decode_element_memory_islands_2 : decodesAs 96 [
    (0x800001C0C9C8020040200000, .tramChase (ew (some 0) none .c12 (.q 0) (.v 0) (.link .w false false) (.link .e false false) true false 0)),
    (0x80000040CAC84500E0300000, .tramWalk (ew (some 0) (some 1) .c12 (.q 0) (.q 1) (.link .e false false) (.none) true true 0)),
    (0x80000040CB08460040300000, .hcopye (ew (some 0) (some 1) .s32 (.q 0) (.q 1) (.link .w false false) (.link .e false false) true true 0)),
    (0x800001C0D0C8035060200000, .oclm (ew (some 0) none .c12 (.q 0) (.v 0) (.port 0 false false) (.link .s false false) true false 0)),
    (0x800001C0D1D8035060200000, .orls (ew (some 0) none .c13 (.q 0) (.v 0) (.port 0 false false) (.link .s false false) true false 0)),
    (0x80000040D2C8475060300000, .tload (ew (some 0) (some 1) .c12 (.q 0) (.q 1) (.port 0 false false) (.link .s false false) true true 0)),
    (0x800009C0D3C8835060200000, .tmul (ew (some 1) none .c12 (.q 1) (.v 0) (.port 0 false false) (.link .s false false) true false 0)),
    (0x80000040D4F8475060300000, .tout (ew (some 0) (some 1) .c15 (.q 0) (.q 1) (.port 0 false false) (.link .s false false) true true 0)),
    (0x800001C0D508035060200000, .tzero (ew (some 0) none .s32 (.q 0) (.v 0) (.port 0 false false) (.link .s false false) true false 0))] = true := by decide

/-! ### Steps, with results taken from the spec's examples or worked out by hand from its rules -/

/-- The state after thread 0 has run an instruction with registers 4 to 7 as given. -/
def ran (i : Instr) (a b c d : DWord) (f : State → State := id) : Option State :=
  after id (Machine.step ((f (regs a b c d (State.reset.placeProgram ((encode i).flatMap (fun w => toBytes 4 w.toNat))))).placeActs [.core 0]))

/-- Register 4 after it. -/
def gives (i : Instr) (a b c d : DWord) : Option DWord := (ran i a b c d).map (fun t => (t.thread 0).reg 4)

theorem test_foreman_add_wraps : gives (.foremanAdd 4 5 6) 0 (-1) 2 0 = some 1 := by decide +kernel
theorem test_foreman_shift_mod_64 : gives (.foremanShl 4 5 6) 0 1 65 0 = some 2 ∧ gives (.foremanSha 4 5 6) 0 (-8) 1 0 = some (-4) := by
  decide +kernel
theorem test_foreman_mulh : gives (.foremanMulh 4 5 6) 0 (-1) 1 0 = some (-1) ∧ gives (.foremanMulhu 4 5 6) 0 (-1) 2 0 = some 1 := by
  decide +kernel
/-- R320. -/
theorem test_foreman_div_zero : gives (.foremanDiv 4 5 6) 0 7 0 0 = some (-1) ∧ gives (.foremanRemu 4 5 6) 0 7 0 0 = some 7 ∧
    gives (.foremanDiv 4 5 6) 0 (BitVec.ofNat 64 (2 ^ 63)) (-1) 0 = some (BitVec.ofNat 64 (2 ^ 63)) ∧
    gives (.foremanRem 4 5 6) 0 (BitVec.ofNat 64 (2 ^ 63)) (-1) 0 = some 0 := by decide +kernel
theorem test_foreman_div_truncates : gives (.foremanDiv 4 5 6) 0 (-7) 2 0 = some (-3) ∧ gives (.foremanRem 4 5 6) 0 (-7) 2 0 = some (-1) := by
  decide +kernel
theorem test_foreman_clz : gives (.foremanClz 4 5) 0 0 0 0 = some 64 ∧ gives (.foremanPopc 4 5) 0 0xF0F 0 0 = some 8 := by decide +kernel
/-- The example of R134. -/
theorem test_foreman_addi : gives (.addi 4 5 0x3FFD) 0 2 0 0 = some (-1) ∧ encode (.addi 8 9 0x3FFD) = [0x04827FFD] := by decide +kernel
theorem test_foreman_li : gives (.li 4 0x80000000) 0 0 0 0 = some 0xFFFFFFFF80000000 ∧
    (ran (.li 4 1) 0 0 0 0).map (fun t => (t.thread 0).pc) = some (tileBase + 8) := by decide +kernel
/-- R322: 0 - 2^63 leaves the s64 range, and borrows. -/
theorem test_foreman_cmp : (ran (.cmp 5 6) 0 0 (BitVec.ofNat 64 (2 ^ 63)) 0).map (fun t => ((t.thread 0).z, (t.thread 0).n, (t.thread 0).c, (t.thread 0).v)) =
    some (false, true, false, true) := by decide +kernel
/-- R316: register 0 reads zero and keeps nothing. -/
theorem test_foreman_g0 : (ran (.addi 0 5 1) 0 7 0 0).map (fun t => (t.thread 0).reg 0) = some 0 := by decide +kernel
theorem test_foreman_ld_extends : (ran (.ldS8 4 5 0) 0 (tileBase + 64) 0 0 (stored (2 ^ 40 + 64) [0x80] ·)).map (fun t => (t.thread 0).reg 4) =
      some 0xFFFFFFFFFFFFFF80 ∧
    (ran (.ldN16 4 5 0) 0 (tileBase + 64) 0 0 (stored (2 ^ 40 + 64) [0x34, 0x82] ·)).map (fun t => (t.thread 0).reg 4) = some 0x8234 := by
  decide +kernel
/-- R325: the swap is made on equality and f tells of it; the old word comes back zero-extended. -/
theorem test_foreman_cas : (ran (.foremanAmoCas 4 5 6 .plain .wrk) 7 (tileBase + 64) 9 0 (stored (2 ^ 40 + 64) [7] ·)).map
      (fun t => (t.byte (2 ^ 40 + 64), (t.thread 0).f, (t.thread 0).reg 4)) = some (9, false, 7) ∧
    (ran (.foremanAmoCas 4 5 6 .plain .wrk) 7 (tileBase + 64) 9 0 (stored (2 ^ 40 + 64) [8] ·)).map
      (fun t => (t.byte (2 ^ 40 + 64), (t.thread 0).f, (t.thread 0).reg 4)) = some (8, true, 8) := by decide +kernel
/-- R323, R330, R331: an address that is no multiple of the size traps, with the instruction's address and cause 4. -/
theorem test_foreman_misaligned : (ran (.ldN32 4 5 2) 1 (tileBase + 64) 0 0 (withThread (fun x => { x with trapvec := 0x500 }) ·)).map
    (fun t => ((t.thread 0).pc, (t.thread 0).trappc, (t.thread 0).trapcause, (t.thread 0).intrap, (t.thread 0).reg 4)) =
      some (0x500, tileBase, 0x0000004200FFFF04, true, 1) := by decide +kernel
/-- R332: TRAPPC names the next word, and ERET goes back to it. -/
theorem test_foreman_trap_eret : (ran (.trap 5) 0 0 0 0 (withThread (fun x => { x with trapvec := 0x500 }) ·)).map
      (fun t => ((t.thread 0).pc, (t.thread 0).trappc, (t.thread 0).trapcause, (t.thread 0).traparg)) = some (0x500, tileBase + 4, 0xFFFF06, 5) ∧
    (ran .eret 0 0 0 0 (withThread (fun x => { x with trappc := 0x2000, intrap := true }) ·)).map
      (fun t => ((t.thread 0).pc, (t.thread 0).intrap)) = some (0x2000, false) := by decide +kernel
/-- R328: an offset of -3 words from the branch. -/
theorem test_foreman_branch : (ran (.bc .ne 0x3FFFFD) 0 0 0 0).map (fun t => (t.thread 0).pc) = some (tileBase - 12) ∧
    (ran (.bc .eq 0x3FFFFD) 0 0 0 0).map (fun t => (t.thread 0).pc) = some (tileBase + 4) ∧
    (ran (.bl 2) 0 0 0 0).map (fun t => ((t.thread 0).pc, (t.thread 0).reg 1)) = some (tileBase + 8, tileBase + 4) := by decide +kernel
/-- R134: a word that stands for nothing takes the trap of cause 1. -/
theorem test_illegal_word : after (fun t => ((t.thread 0).trapcause, (t.thread 0).trappc)) (Machine.step (codeOf [0xFF, 0xFF, 0xFF, 0xFF])) =
    some (0xFFFF01, tileBase) := by decide +kernel

/-- The element after its word has fired once with these tokens at the heads of queues 0 and 1 and these registers. -/
def fired (i : Instr) (q0 q1 : VReg) (v : List (Nat × VReg)) (f : Elem → Elem := id) : Option Elem :=
  let s := placed (wordsNat (encode i))
  let e := s.cur.elem
  let tok := fun (r : VReg) => ({ Token.zero with p := r.p, m := r.m, x := r.x, l := true } : Token)
  after (fun t => t.elem e) (Machine.step (s.modElem e (fun x => f { (((x.setQueue 0 [⟨tok q0, .restored false⟩]).setQueue 1 [⟨tok q1, .restored false⟩])) with v := v })))

/-- A value in lane 0 alone, and in lanes 0 to 2. -/
def one (a : Word) : VReg := ⟨{ Lanes.zero with a0 := a }, 1, false⟩
def three (a b c : Word) : VReg := ⟨{ Lanes.zero with a0 := a, a1 := b, a2 := c }, 7, false⟩

/-- The example of R155. -/
theorem test_element_madsat : (fired (.madSat { ew (some 0) (some 1) .s16x2 (.q 0) (.q 1) (.reg 3) (.link .e true false) true true 0 with x := false })
    (one 0x0100FFFE) (one 0x00800005) [(3, one 0x00010003)]).map (fun x => ((x.reg 3).p.a0, (x.reg 3).m)) = some (0x7FFFFFF9, 1) := by decide +kernel
theorem test_element_mad : (fired (.mad (ew (some 0) (some 1) .s16x2 (.q 0) (.q 1) (.reg 3) .none true true 0))
    (one 0x0100FFFE) (one 0x00800005) [(3, one 0x00010003)]).map (fun x => (x.reg 3).p.a0) = some 0x8001FFF9 := by decide +kernel
/-- R154: amounts of N or more. -/
theorem test_element_shifts : (fired (.sha (ew (some 0) (some 1) .s32 (.q 0) (.q 1) (.reg 3) .none true true 0)) (one 0x80000000) (one 40) []).map
      (fun x => (x.reg 3).p.a0) = some 0xFFFFFFFF ∧
    (fired (.shlSat (ew (some 0) (some 1) .s32 (.q 0) (.q 1) (.reg 3) .none true true 0)) (one 0xFFFFFFFF) (one 40) []).map
      (fun x => (x.reg 3).p.a0) = some 0x80000000 := by decide +kernel
/-- The example of R107: infinities of opposite signs in lane 2. -/
theorem test_element_fadd_invalid : (fired (.fadd (ew (some 0) (some 1) .f32 (.q 0) (.q 1) (.reg 3) .none true true 0))
    (three 0x3F800000 0x40000000 0x7F800000) (three 0x3F800000 0x3F800000 0xFF800000) []).map (fun x => x.reg 3) =
      some ⟨{ Lanes.zero with a0 := 0x40000000, a1 := 0x40400000, a2 := 0x7FC00000 }, 7, true⟩ := by decide +kernel
/-- R158: -0 + -0 is -0, and 1 - 1 is +0. -/
theorem test_element_zero_sums : (fired (.fadd (ew (some 0) (some 1) .f32 (.q 0) (.q 1) (.reg 3) .none true true 0))
    (three 0x80000000 0x3F800000 0) (three 0x80000000 0xBF800000 0x80000000) []).map (fun x => (x.reg 3).p) =
      some { Lanes.zero with a0 := 0x80000000 } := by decide +kernel
/-- The examples of R93 and R165: f32 to bf16, with lane 5 of eight invalid. -/
theorem test_element_cvt : (fired (.cvt (ew (some 0) none .bf16x2 (.q 0) (.v 6) (.reg 3) .none true false 0)) (one 0x40490FDB) (one 0) []).map
      (fun x => ((x.reg 3).p.a0, (x.reg 3).m)) = some (0x00004049, 1) ∧
    (fired (.cvt (ew (some 0) none .bf16x2 (.q 0) (.v 6) (.reg 3) .none true false 0))
      ⟨⟨0x3F800000, 0x40000000, 0x40400000, 0x40800000, 0x40A00000, 0, 0x40E00000, 0x41000000⟩, 0xDF, false⟩ (one 0) []).map (fun x => x.reg 3) =
      some ⟨⟨0x40003F80, 0x40804040, 0x000040A0, 0x410040E0, 0, 0, 0, 0⟩, 0x0F, false⟩ := by decide +kernel
/-- R94. -/
theorem test_element_functions : (fired (.rcp (ew (some 0) none .f32 (.q 0) (.v 0) (.reg 3) .none true false 0)) (three 0x80000000 0x40400000 0x7F800000)
      (one 0) []).map (fun x => (x.reg 3).p) = some { Lanes.zero with a0 := 0xFF800000, a1 := 0x3EAB0000 } ∧
    (fired (.log2 (ew (some 0) none .f32 (.q 0) (.v 0) (.reg 3) .none true false 0)) (three 0x3F800000 0x41000000 0xBF800000) (one 0) []).map
      (fun x => ((x.reg 3).p, (x.reg 3).x)) = some ({ Lanes.zero with a1 := 0x40400000, a2 := 0x7FC00000 }, true) := by decide +kernel
/-- The example of R170. -/
theorem test_element_exact_sums : (fired (.lrfadd (ew (some 0) none .f32 (.q 0) (.v 0) (.reg 3) .none true false 0))
      (three 0x4E800000 0x3F800000 0xCE800000) (one 0) []).map (fun x => ((x.reg 3).p.a0, (x.reg 3).m)) = some (0x3F800000, 1) ∧
    (fired (.lpfadd (ew (some 0) none .f32 (.q 0) (.v 0) (.reg 3) .none true false 0)) (three 0x4E800000 0x3F800000 0xCE800000) (one 0) []).map
      (fun x => ((x.reg 3).p, (x.reg 3).m)) = some ({ Lanes.zero with a0 := 0x4E800000, a1 := 0x4E800000, a2 := 0x3F800000 }, 7) := by decide +kernel
/-- The example of R180, with the destination a register: the first firing leaves lanes 4 and 6 at the head, the second takes them. -/
theorem test_element_pack : let w := ew (some 0) none .s32 (.q 0) (.v 7) (.reg 3) .none true false 0
    let v7 : VReg := ⟨⟨0x10, 0x11, 0x12, 0x13, 0x14, 0, 0, 0⟩, 0x1F, false⟩
    let head : VReg := ⟨⟨0xA0, 0xA1, 0, 0xA3, 0xA4, 0, 0xA6, 0⟩, 0x5B, false⟩
    (fired (.pack w) head (one 0) [(7, v7)]).map (fun x => (x.reg 3, (x.queue 0).map (fun q => q.tok.m))) =
        some (⟨⟨0x10, 0x11, 0x12, 0x13, 0x14, 0xA0, 0xA1, 0xA3⟩, 0xFF, false⟩, [0x50]) ∧
      (fired (.pack w) ⟨⟨0, 0, 0, 0, 0xA4, 0, 0xA6, 0⟩, 0x50, false⟩ (one 0) []).map (fun x => (x.reg 3, (x.queue 0).length)) =
        some (⟨{ Lanes.zero with a0 := 0xA4, a1 := 0xA6 }, 3, false⟩, 0) := by decide +kernel
/-- R74: a compare into a predicate. -/
theorem test_element_cmp_predicate : (fired (.cmplt (ew (some 0) (some 1) .s32 (.q 0) (.q 1) (.pred 2) .none true true 0)) (one 0xFFFFFFFF) (one 1) []).map
    (fun x => x.p) = some 4 := by decide +kernel

/-- The examples of R21 and R70. -/
theorem test_coordinates : eidAt 2 77 45 = 0x969D ∧ windowAddr (tileOf 0x969D) 0 = 0x01020B200000 ∧
    compatible { conflict := 1 <<< 31 } 5 2 = true ∧ compatible { conflict := 1 <<< 31 } 2 6 = false ∧
    compatible { conflict := 1 <<< 119 } 14 15 = true := by decide +kernel
/-- The example of R93: three steps of the generator from the seed of block 0, position 0 and context 0. -/
theorem test_generator : genSeed 0 0 0 = 0x9E3779B9 ∧ randStep 0x9E3779B9 = 0x510C4619 ∧ rand16 0x510C4619 = 0x510C := by decide +kernel
/-- R406: a cold start keeps the flash and nothing of memory. -/
theorem test_cold_reset : after (fun t => (SMap.get 0 t.flash 5, t.byte 0x1000)) (Machine.step
    (({ stored 0x1000 [9] with flash := [(5, 7)] } : State).placeActs [.event .coldReset])) = some (7, 0) := by decide +kernel
/-- Two of three flits were not confirmed on a failed port: they are sent again by another, in order (R505). -/
theorem test_link_failure : after (fun t => t.flits.map (fun f => f.bytes))
    (exec (.linkFailure (.haulage 0) [2, 0]) { base with flits := [⟨[1], []⟩, ⟨[2], []⟩, ⟨[3], []⟩] }) =
      some [[1], [2], [3], [1], [3]] := by decide +kernel

/-- R416: a supply below 0.65 V less 40 mV is a droop, counted once while the detector is tripped; 0.61 V is none. -/
theorem test_droop : after (fun t => (t.quad 47).droopCount) (exec (.droopTrip 47 609999) base) = some 1 ∧
    after (fun t => (t.quad 47).droopCount) (exec (.droopTrip 47 610000) base) = some 0 ∧
    after (fun t => (t.quad 47).droopCount) (exec (.droopTrip 47 600000) (base.modQuad 47 (fun x => { x with drooped := true, droopCount := 1 }))) =
      some 1 := by decide +kernel
/-- R417: a sample before 2^PERIOD cycles takes nothing. -/
theorem test_thermal_early : after (fun t => (t.die 0).sample) (exec (.thermalSample 0 [] []) base) = some 0 := by decide +kernel

end Sys2Proof.Tests
end

/-! PROOF. A token written to a consumer slot on any route entry and with any origin, as the replies of accesses write it: what it changes of its
element and of the machine, and what the room given back before it changes (R56, R57, R210 to R212). -/

namespace Sys2Proof.Machine

open Sys2Proof

/-! ### Room given back (R210) -/

/-- Nothing has changed but the credits that senders count. -/
def SpaceOnly (s t : State) : Prop := ∃ m, t = { s with space := m }

theorem SpaceOnly.refl (s : State) : SpaceOnly s s := ⟨s.space, rfl⟩

theorem SpaceOnly.trans {s t u : State} (h : SpaceOnly s t) (k : SpaceOnly t u) : SpaceOnly s u := by
  obtain ⟨m, rfl⟩ := h
  obtain ⟨n, rfl⟩ := k
  exact ⟨n, rfl⟩

theorem giveRoom_spaceOnly (s : State) (e r : Nat) (d : Dest) : SpaceOnly s (s.giveRoom e r d) := by
  unfold State.giveRoom
  split
  · exact ⟨_, rfl⟩
  · exact SpaceOnly.refl s

/-- Room that an access may hold, given back where it does. -/
theorem giveRoom_if_spaceOnly (b : Bool) (s : State) (e r : Nat) (d : Dest) : SpaceOnly s (if b then s.giveRoom e r d else s) := by
  split
  · exact giveRoom_spaceOnly s e r d
  · exact SpaceOnly.refl s

theorem SpaceOnly.firesOnly {s t : State} (h : SpaceOnly s t) (e : Nat) : FiresOnly s t e := by
  obtain ⟨m, rfl⟩ := h
  exact ⟨fun _ _ => rfl, fun _ => rfl, fun _ => rfl, fun _ => ⟨rfl, rfl⟩, fun _ _ => ⟨rfl, rfl, rfl⟩, rfl⟩

theorem SpaceOnly.elem {s t : State} (h : SpaceOnly s t) (e : Nat) : t.elem e = s.elem e := by obtain ⟨m, rfl⟩ := h; rfl
theorem SpaceOnly.flights {s t : State} (h : SpaceOnly s t) : t.flights = s.flights := by obtain ⟨m, rfl⟩ := h; rfl
theorem SpaceOnly.credits {s t : State} (h : SpaceOnly s t) : t.credits = s.credits := by obtain ⟨m, rfl⟩ := h; rfl
theorem SpaceOnly.threads {s t : State} (h : SpaceOnly s t) : t.threads = s.threads := by obtain ⟨m, rfl⟩ := h; rfl

/-! ### A token dropped at a guard (R470, R471) -/

/-- Nothing has changed but workings, dies, memory and its marks: what reports and error records write. -/
def RecordsOnly (s t : State) : Prop :=
  ∃ m p b d w, t = { s with mem := m, poison := p, badSec := b, dies := d, works := w }

theorem RecordsOnly.refl (s : State) : RecordsOnly s s := ⟨_, _, _, _, _, rfl⟩

theorem RecordsOnly.trans {s t u : State} (h : RecordsOnly s t) (k : RecordsOnly t u) : RecordsOnly s u := by
  obtain ⟨_, _, _, _, _, rfl⟩ := h
  obtain ⟨_, _, _, _, _, rfl⟩ := k
  exact ⟨_, _, _, _, _, rfl⟩

theorem setWork_recordsOnly (s : State) (h : Nat) (w : Working) : RecordsOnly s (s.setWork h w) := ⟨_, _, _, _, _, rfl⟩

theorem report_recordsOnly (s : State) (h : Nat) (k : Token) : RecordsOnly s (s.report h k) := by
  unfold State.report
  split
  · exact setWork_recordsOnly s h _
  · exact RecordsOnly.refl s

theorem guardDrop_recordsOnly (s : State) (e code : Nat) (k : Token) : RecordsOnly s (s.guardDrop e code k) := by
  unfold State.guardDrop
  dsimp only
  split
  · exact ((setWork_recordsOnly s _ _).trans (report_recordsOnly _ _ _)).trans ⟨_, _, _, _, _, (log_only _ _ _).rest⟩
  · exact (setWork_recordsOnly s _ _).trans (report_recordsOnly _ _ _)

/-! ### A token on its way to a consumer slot -/

/-- A token k has been written to consumer slot d of element e by route entry r, with origin o. -/
structure TokenLeft (s t : State) (e r : Nat) (d : Dest) (k : Token) (o : Origin) : Prop extends FiresOnly s t e where
  core : (t.elem e).core = (s.elem e).core
  regs : ∀ n, (t.elem e).reg n = regPut d (some k) n ((s.elem e).reg n)
  preds : (t.elem e).p = predPut d (some k) (s.elem e).p
  queues : ∀ q, (t.elem e).queue q = (s.elem e).queue q
  flights : t.flights = s.flights ++ flightsVia s e r d k o
  credits : t.credits = s.credits
  allThreads : t.threads = s.threads

/-- Of the slots that touch neither registers, predicates nor flights, only records are written. -/
theorem TokenLeft.of_recordsOnly {s t : State} {e r : Nat} {d : Dest} {k : Token} {o : Origin} (h : FiresOnly s t e) (hr : RecordsOnly s t)
    (h1 : ∀ n v, regPut d (some k) n v = v) (h2 : ∀ p, predPut d (some k) p = p) (h3 : flightsVia s e r d k o = []) :
    TokenLeft s t e r d k o := by
  have h4 : s.flights = s.flights ++ flightsVia s e r d k o := by rw [h3, List.append_nil]
  obtain ⟨_, _, _, _, _, rfl⟩ := hr
  exact ⟨h, rfl, fun n => (h1 n _).symm, (h2 _).symm, fun _ => rfl, h4, rfl, rfl⟩

/-- A slot that sends: one token in flight on its path, and the path used in this cycle. -/
theorem TokenLeft.of_send (s : State) (e r path dst queue : Nat) (d : Dest) (k : Token) (o : Origin)
    (h1 : ∀ n v, regPut d (some k) n v = v) (h2 : ∀ p, predPut d (some k) p = p)
    (h3 : flightsVia s e r d k o = [⟨e, path, dst, queue, k, o, (s.quad (quadOf e)).cyc⟩]) :
    TokenLeft s (s.send e path dst queue k o) e r d k o := by
  have hx : (s.send e path dst queue k o).elem e = { s.elem e with
      cyc := (s.quad (quadOf e)).cyc, used := path :: usedNow (s.elem e) (s.quad (quadOf e)).cyc,
      first := if (s.elem e).cyc = (s.quad (quadOf e)).cyc then (s.elem e).first else none,
      second := (s.elem e).cyc == (s.quad (quadOf e)).cyc && (s.elem e).second } := State.elem_setElem_self _ _ _
  refine ⟨FiresOnly.send s e path dst queue k o, ?_, fun n => ?_, ?_, fun q => ?_, ?_, rfl, rfl⟩
  · rw [hx]; rfl
  · rw [h1, hx]; rfl
  · rw [h2, hx]
  · rw [hx]; rfl
  · rw [h3]; rfl

/-- A token written to a consumer slot, whatever the slot. -/
theorem tokenLeft_writeVia (s : State) (e r : Nat) (d : Dest) (k : Token) (o : Origin) :
    TokenLeft s (s.writeVia e r d k o) e r d k o := by
  have hf := FiresOnly.writeVia s e r d k o
  cases d with
  | reg n =>
    refine ⟨hf, ?_, fun m => ?_, ?_, fun q => ?_, (List.append_nil _).symm, rfl, rfl⟩ <;> rw [State.writeVia, State.elem_modElem_self]
    · rfl
    · rw [Elem.reg_setReg]; rfl
    · rfl
    · rfl
  | pred n =>
    refine ⟨hf, ?_, fun m => ?_, ?_, fun q => ?_, (List.append_nil _).symm, rfl, rfl⟩ <;> rw [State.writeVia, State.elem_modElem_self] <;> rfl
  | link dir tp lp =>
    unfold State.writeVia at hf ⊢
    dsimp only at hf ⊢
    cases hg : s.guardedLink e (linkNum dir) with
    | true =>
      simp only [hg, if_true] at hf ⊢
      exact .of_recordsOnly hf (guardDrop_recordsOnly s e _ k) (fun _ _ => rfl) (fun _ => rfl) (by simp [flightsVia, hg])
    | false =>
      simp only [hg, Bool.false_eq_true, if_false, linkTarget] at hf ⊢
      cases hn : neighbour e (linkNum dir) with
      | none => exact .of_recordsOnly (.refl s e) (.refl s) (fun _ _ => rfl) (fun _ => rfl) (by simp [flightsVia, hn])
      | some n => exact .of_send s e r _ _ _ _ k o (fun _ _ => rfl) (fun _ => rfl) (by simp [flightsVia, hg, hn])
  | route n tp lp =>
    unfold State.writeVia routeTarget
    dsimp only
    cases hn : routeDest e r with
    | none => exact .of_recordsOnly (.refl s e) (.refl s) (fun _ _ => rfl) (fun _ => rfl) (by simp [flightsVia, hn])
    | some m => exact .of_send s e r _ _ _ _ k o (fun _ _ => rfl) (fun _ => rfl) (by simp [flightsVia, hn])
  | report => exact .of_recordsOnly hf (report_recordsOnly s _ k) (fun _ _ => rfl) (fun _ => rfl) rfl
  | discard => exact .of_recordsOnly hf (.refl s) (fun _ _ => rfl) (fun _ => rfl) rfl
  | port n tp lp => exact .of_recordsOnly hf (.refl s) (fun _ _ => rfl) (fun _ => rfl) rfl
  | none => exact .of_recordsOnly hf (.refl s) (fun _ _ => rfl) (fun _ => rfl) rfl

/-- A firing moves no guard: they follow from the working's rectangle. -/
theorem FiresOnly.guardedLink {s t : State} {e : Nat} (h : FiresOnly s t e) (l : Nat) : t.guardedLink e l = s.guardedLink e l := by
  have hw := h.works (s.owner e)
  unfold FiredWork at hw
  unfold State.guardedLink
  rw [h.owner, hw]
  rfl

theorem flightsVia_of_firesOnly {s t : State} {e : Nat} (h : FiresOnly s t e) (r : Nat) (d : Dest) (k : Token) (o : Origin) :
    flightsVia t e r d k o = flightsVia s e r d k o := by
  cases d <;> simp only [flightsVia, h.guardedLink, h.quad]

/-! ### The two tokens of a reply (R211) -/

/-- A change of an element's accesses and watches alone. -/
def SetsAccesses (f : Elem → Elem) : Prop := ∀ x, f x = { x with accs := (f x).accs, watches := (f x).watches }

theorem sameCore_of_setsAccesses {x y : Elem} {f : Elem → Elem} (hf : SetsAccesses f) (h : y.core = x.core) :
    SameCore x { f y with accs := x.accs, watches := x.watches } := by
  have ha : y.accs = x.accs := congrArg (fun z => z.accs) h
  have hw : y.watches = x.watches := congrArg (fun z => z.watches) h
  have hy : { f y with accs := x.accs, watches := x.watches } = y := by rw [hf y, ← ha, ← hw]
  rw [hy]
  exact sameCore_of_core h

/-- Two tokens written one after the other, each with room given back before it, and then the element's accesses changed: a reply has left. -/
theorem replyLeft_of_writes {s u0 s1 u1 t : State} {e n0 n1 : Nat} {a : Access} {k0 k1 : Token} {f : Elem → Elem} (g0 : SpaceOnly s u0)
    (w0 : TokenLeft u0 s1 e a.r0 (destOf a.d0) k0 (.reply e a.bare false n0)) (g1 : SpaceOnly s1 u1)
    (w1 : TokenLeft u1 t e a.r1 (destOf a.d1) k1 (.reply e a.bare true n1)) (hf : SetsAccesses f) :
    ReplyLeft s (t.modElem e f) e a k0 k1 n0 n1 ∧
      ((t.modElem e f).elem e).accs = (f (t.elem e)).accs ∧ ((t.modElem e f).elem e).watches = (f (t.elem e)).watches := by
  have fires : FiresOnly s u1 e := ((g0.firesOnly e).trans w0.toFiresOnly).trans (g1.firesOnly e)
  have all : FiresOnly s (t.modElem e f) e := (fires.trans w1.toFiresOnly).trans (.modElem t e f)
  have core : (t.elem e).core = (s.elem e).core := by rw [w1.core, g1.elem, w0.core, g0.elem]
  have element : (t.modElem e f).elem e = f (t.elem e) := State.elem_modElem_self t e f
  refine ⟨⟨?_, fun n => ?_, ?_, fun q => ?_, all.others, ?_, fun b hb => all.memory b (hb _), all.works, ?_⟩, by rw [element], by rw [element]⟩
  · show t.flights = _
    rw [w1.flights, g1.flights, w0.flights, g0.flights, flightsVia_of_firesOnly (g0.firesOnly e), flightsVia_of_firesOnly fires]
  · rw [element, hf]
    show (t.elem e).reg n = _
    rw [w1.regs, g1.elem, w0.regs, g0.elem]
  · rw [element, hf]
    show (t.elem e).p = _
    rw [w1.preds, g1.elem, w0.preds, g0.elem]
  · rw [element, hf]
    show (t.elem e).queue q = _
    rw [w1.queues, g1.elem, w0.queues, g0.elem]
  · rw [element]
    exact sameCore_of_setsAccesses hf core
  · have hc : (t.modElem e f).credits = s.credits := by
      show t.credits = _
      rw [w1.credits, g1.credits, w0.credits, g0.credits]
    have ht : (t.modElem e f).threads = s.threads := by
      show t.threads = _
      rw [w1.allThreads, g1.threads, w0.allThreads, g0.threads]
    have rest := all.rest
    rw [hc, ht] at rest
    exact rest

end Sys2Proof.Machine

/-! PROOF. Tokens moved, dropped, steered, merged and tagged (R175 to R178, R181, R183, R197): each instruction is one firing once it is ready. -/

namespace Sys2Proof.Machine

open Sys2Proof

/-- What a ready instruction comes to is its firing. -/
theorem next_of_ready {ready : Bool} (h : ready = true) (t s : State) :
    (Host.Outcome.next (if ready then t else s) : Out) = .next t := congrArg _ (if_pos h)

theorem fireSilent_of_ready {w : EWord} {s : State} (h : s.ready s.cur.elem w = true) (op : Nat) (upd : Elem → Elem) :
    s.fireSilent op w upd = s.fire s.cur.elem op w none none upd (popList w) false := if_pos h

theorem exec_pass_fires {w : EWord} {s : State} (h : s.ready s.cur.elem w = true) :
    ∃ t, exec (.pass w) s = .next t ∧
      Fired s t s.cur.elem w (some (headOfA s s.cur.elem w)) (some (headOfA s s.cur.elem w)) (popList w) :=
  ⟨_, next_of_ready h _ _, fired s s.cur.elem 0x91 w _ _ (popList w) false⟩

theorem exec_drop_fires {w : EWord} {s : State} (h : s.ready s.cur.elem w = true) :
    ∃ t, exec (.drop w) s = .next t ∧ Fired s t s.cur.elem w none none (popList w) :=
  ⟨_, congrArg Host.Outcome.next (fireSilent_of_ready h 0x92 id), fired s s.cur.elem 0x92 w none none (popList w) false⟩

theorem exec_nop_fires {w : EWord} {s : State} (h : s.ready s.cur.elem w = true) :
    ∃ t, exec (.nop w) s = .next t ∧ Fired s t s.cur.elem w none none (popList w) :=
  ⟨_, congrArg Host.Outcome.next (fireSilent_of_ready h 0xE3 id), fired s s.cur.elem 0xE3 w none none (popList w) false⟩

/-- The firing that TAG and TAG.dyn share (R181): queue A's head goes out with another T, poisoned also by x. -/
theorem fireTag_fires {w : EWord} {s : State} (h : s.ready s.cur.elem w = true) (t : BitVec 4) (x : Bool) :
    let k := { headOfA s s.cur.elem w with t := t, x := (headOfA s s.cur.elem w).x || x }
    Fired s (s.fireTag w t x) s.cur.elem w (some k) (some k) (popList w) := by
  intro k
  have hk : s.fireTag w t x = s.fire s.cur.elem 0x98 w (some k) (some k) id (popList w) false := if_pos h
  rw [hk]
  exact fired s s.cur.elem 0x98 w (some k) (some k) (popList w) false

theorem exec_tag_fires {w : EWord} {s : State} (h : s.ready s.cur.elem w = true) :
    let k := { headOfA s s.cur.elem w with t := w.ot }
    ∃ t, exec (.tag w) s = .next t ∧ Fired s t s.cur.elem w (some k) (some k) (popList w) := by
  have hf := fireTag_fires h w.ot false
  rw [Bool.or_false] at hf
  exact ⟨_, rfl, hf⟩

theorem exec_tagDyn_fires {w : EWord} {s : State} (h : s.ready s.cur.elem w = true) :
    let b := s.opB s.cur.elem w
    let k := { headOfA s s.cur.elem w with
      t := if mbit b.m 0 then (b.p.get 0).setWidth 4 else w.ot, x := (headOfA s s.cur.elem w).x || b.x }
    ∃ t, exec (.tagDyn w) s = .next t ∧ Fired s t s.cur.elem w (some k) (some k) (popList w) :=
  ⟨_, rfl, fireTag_fires h _ _⟩

/-- STEER (R176): A goes to the slot that the decision selects, and no token to the other. -/
theorem exec_steer_fires {w : EWord} {s : State} (h : s.readySteer s.cur.elem w = true) :
    let e := s.cur.elem
    let v : VReg := { s.opA e w with x := (s.opA e w).x || (s.opB e w).x }
    let decision := mbit (s.opB e w).m 0 && (s.opB e w).p.get 0 != 0
    ∃ t, exec (.steer w) s = .next t ∧ Fired s t e w (if decision then some (mkToken (s.elem e) w w.d0 v) else none)
      (if decision then none else some (mkToken (s.elem e) w w.d1 v)) (popList w) :=
  ⟨_, next_of_ready h _ _, fired s s.cur.elem 0x93 w _ _ (popList w) false⟩

/-- MERGE.ORD (R177): the head of the arm that the control head selects, poisoned also by the control head; both are popped. -/
theorem exec_mergeOrd_fires {w : EWord} {s : State} (h : s.readyMergeOrd s.cur.elem w = true) :
    let e := s.cur.elem
    let c := headOfA s e w
    let arm := if mbit c.m 0 && c.p.get 0 != 0 then srcQueue w.sa else srcQueue w.sb
    let k := { (s.elem e).headOr arm with x := ((s.elem e).headOr arm).x || c.x }
    ∃ t, exec (.mergeOrd w) s = .next t ∧ Fired s t e w (some k) (some k) (popList w ++ [arm]) :=
  ⟨_, next_of_ready h _ _, fired s s.cur.elem 0x94 w _ _ (popList w ++ [_]) false⟩

/-- MERGE.ANY (R178): the head of queue A where it passes, else queue B's; that queue alone is popped. -/
theorem exec_mergeAny_fires {w : EWord} {s : State} (h : s.readyMergeAny s.cur.elem w = true) :
    let e := s.cur.elem
    let x := s.elem e
    let n := ((if armPass x w.qa w.ta w.tv then w.qa else w.qb).map (fun n => n.toNat)).getD 0
    ∃ t, exec (.mergeAny w) s = .next t ∧ Fired s t e w (some (x.headOr n)) (some (x.headOr n)) [n] :=
  ⟨_, next_of_ready h _ _, fired s s.cur.elem 0x95 w _ _ [_] false⟩

/-- BFWD (R183): one barrier token for the barriers at the named heads. -/
theorem exec_bfwd_fires {w : EWord} {s : State} (h : s.readyBfwd s.cur.elem w = true) :
    let e := s.cur.elem
    let x := s.elem e
    let psn := (headOfA s e w).x || ((w.qb.bind (fun n => x.head n)).getD Token.zero).x
    let k : Token := { Token.zero with t := 15, x := psn, c := (sideCI x w).1, i := (sideCI x w).2 }
    ∃ t, exec (.bfwd w) s = .next t ∧ Fired s t e w (some k) (some k) (popList w) :=
  ⟨_, next_of_ready h _ _, fired s s.cur.elem 0x9A w _ _ (popList w) false⟩

/-- Settles O33: each instruction, once ready, is one firing with the tokens and pops that its rule names. -/
theorem elementTokenFlow : Obligations.ElementTokenFlow := by
  intro w s e x
  exact ⟨fun h => ⟨exec_pass_fires h, exec_drop_fires h, exec_nop_fires h, exec_tag_fires h, exec_tagDyn_fires h⟩,
    exec_steer_fires, exec_mergeOrd_fires, exec_mergeAny_fires, exec_bfwd_fires⟩

end Sys2Proof.Machine

/-! PROOF. Replies leave, waiting accesses enter order, watches deliver, tokens and credits arrive (R57, R60, R76, R211 to R213, R219, R223). -/

namespace Sys2Proof.Machine

open Sys2Proof

/-! ### Replies (R211 to R213) -/

theorem setsAccesses_accs (p : Access → Bool) : SetsAccesses (fun x => { x with accs := x.accs.filter p }) := fun _ => rfl
theorem setsAccesses_watches (p : Access → Bool) : SetsAccesses (fun x => { x with watches := x.watches.filter p }) := fun _ => rfl

/-- The one waiting token for a destination leaves where it has room. -/
theorem leaveOne_of_room {s : State} {e r : Nat} {d : Dest} {l : List Token} {k : Token} {res : Bool} {o : Origin} (hl : l = [k])
    (h : (if res then s.giveRoom e r d else s).roomVia e r d = true) :
    s.leaveOne e r d l res o = ((if res then s.giveRoom e r d else s).writeVia e r d k o, [], false) := by
  subst hl
  exact if_pos h

theorem TokenLeft.accs {s t : State} {e r : Nat} {d : Dest} {k : Token} {o : Origin} (h : TokenLeft s t e r d k o) :
    (t.elem e).accs = (s.elem e).accs := congrArg (fun z => z.accs) h.core

theorem TokenLeft.watches {s t : State} {e r : Nat} {d : Dest} {k : Token} {o : Origin} (h : TokenLeft s t e r d k o) :
    (t.elem e).watches = (s.elem e).watches := congrArg (fun z => z.watches) h.core

/-- A performed access whose last waiting tokens leave for both destinations: it is done. -/
theorem exec_pendingReplyLeave_leaves {e q : Nat} {a : Access} {s s1 t : State} {b0 b1 : Bool} (hl : (s.elem e).leaves q = some a)
    (ha : s.alive e = true) (hc : s.cycleHeld e = false) (hs : a.stage = .performed)
    (first : s.leaveOne e a.r0 (destOf a.d0) a.out0 a.res0 (.reply e a.bare false a.sent0) = (s1, [], b0))
    (second : s1.leaveOne e a.r1 (destOf a.d1) a.out1 a.res1 (.reply e a.bare true a.sent1) = (t, [], b1)) :
    exec (.pendingReplyLeave e q) s = .next (t.modElem e (fun x => { x with accs := x.accs.filter (fun b => b.seq != q) })) := by
  show execPendingReplyLeave e q s = _
  simp only [execPendingReplyLeave, hl, ha, hc, hs, first, second]
  rfl

/-- A watch that has triggered, with room on both destinations: its reply leaves and its entry is free (R219). -/
theorem exec_swatchTrigger_delivers {e q : Nat} {a : Access} {s : State} (hw : (s.elem e).watches.find? (fun b => b.seq == q) = some a)
    (hs : a.stage = .performed) (ha : s.alive e = true) (hc : s.cycleHeld e = false) :
    let u0 := if a.res0 then s.giveRoom e a.r0 (destOf a.d0) else s
    let u := if a.res1 then u0.giveRoom e a.r1 (destOf a.d1) else u0
    let v : VReg := { numbers [(a.b.p.get 0).toNat] with x := a.got.x }
    u.roomVia e a.r0 (destOf a.d0) = true → u.roomVia e a.r1 (destOf a.d1) = true →
    exec (.swatchTrigger e q) s = .next (((u.writeVia e a.r0 (destOf a.d0) (a.token false v true) (.reply e a.bare false 0)).writeVia e a.r1
      (destOf a.d1) (a.token true v true) (.reply e a.bare true 0)).modElem e
        (fun x => { x with watches := x.watches.filter (fun b => b.seq != q) })) := by
  intro u0 u v r0 r1
  have hv : v = ⟨{ Lanes.zero with a0 := a.b.p.a0 }, 1, a.got.x⟩ := by simp [v, numbers, Lanes.ofFn, Lanes.get, Lanes.zero]
  have room : (u.roomVia e a.r0 (destOf a.d0) && u.roomVia e a.r1 (destOf a.d1)) = true := by rw [r0, r1]; rfl
  show execSwatchTrigger e q s = _
  simp only [execSwatchTrigger, hw, hs, ha, hc, hv]
  exact congrArg Host.Outcome.next (if_pos room)

/-! ### Wave order (R223) -/

theorem onlyElem_setElem (s : State) (e : Nat) (x : Elem) : OnlyElem s (s.setElem e x) e x :=
  ⟨State.elem_setElem_self s e x, fun _ hk => State.elem_setElem_ne s x (Ne.symm hk), rfl⟩

/-- One access enters order where it can and the element has room for it. -/
theorem drain_one {e : Nat} {x : Elem} {a : Access} (h : x.nextEnter = some a) (hr : memRoom e x = true) :
    Elem.drain e x 1 = { x.enter a with wbuf := x.wbuf.filter (fun b => b.seq != a.seq) } := by
  simp only [Elem.drain, h, hr, if_true]

theorem exec_waveEnterOrder_enters {e : Nat} {a : Access} {s : State} (h : (s.elem e).nextEnter = some a) (hr : memRoom e (s.elem e) = true)
    (ha : s.alive e = true) : exec (.waveEnterOrder e a.seq) s =
      .next (s.setElem e { (s.elem e).enter a with wbuf := (s.elem e).wbuf.filter (fun b => b.seq != a.seq) }) := by
  show execWaveEnterOrder e a.seq s = _
  simp only [execWaveEnterOrder, h, hr, ha, drain_one h hr, decide_true, Bool.and_true, if_true]

/-! ### Arrivals (R60, R76) -/

/-- An element with the token of a flight at the end of the queue that it goes to. -/
def Elem.receive (x : Elem) (f : Flight) : Elem := x.setQueue f.queue (x.queue f.queue ++ [⟨f.tok, f.origin⟩])

theorem Elem.queue_receive (x : Elem) (f : Flight) (n : Nat) :
    (x.receive f).queue n = x.queue n ++ (if n = f.queue then [⟨f.tok, f.origin⟩] else []) := by
  unfold Elem.receive
  rw [Elem.queue_setQueue]
  by_cases hn : f.queue = n
  · simp [hn]
  · simp [hn, Ne.symm hn]

/-- The oldest token of a path, sent in an earlier cycle, enters its queue. -/
theorem exec_tokenArrival_arrives {e path : Nat} {f : Flight} {s : State}
    (hf : s.flights.find? (fun f => f.src == e && f.path == path) = some f) (hc : f.stamp < (s.quad (quadOf e)).cyc)
    (hl : (s.elem f.dst).ladder = none) (hh : s.cycleHeld f.dst = false) :
    exec (.tokenArrival e path) s = .next { s.setElem f.dst ((s.elem f.dst).receive f) with flights := s.flights.erase f } := by
  show execTokenArrival e path s = _
  simp only [execTokenArrival, firstFlight, hf, hc, hl, hh]
  rfl

theorem exec_creditReturn_returns {e queue : Nat} {c : CreditBack} {s : State}
    (hf : s.credits.find? (fun c => c.elem == e && c.queue == queue) = some c) (hc : c.stamp < (s.quad (quadOf e)).cyc) :
    exec (.creditReturn e queue) s =
      .next { s.setSpace (spaceKey e queue) (s.spaceOf (spaceKey e queue) + 1) with credits := s.credits.erase c } := by
  show execCreditReturn e queue s = _
  simp only [execCreditReturn, hf, hc, if_true]

/-! ### The parts of the statement -/

theorem reply_leaves {e q : Nat} {a : Access} {k0 k1 : Token} {s : State} (hl : (s.elem e).leaves q = some a) (ha : s.alive e = true)
    (hc : s.cycleHeld e = false) (hs : a.stage = .performed) (h0 : a.out0 = [k0]) (h1 : a.out1 = [k1]) :
    let u0 := if a.res0 then s.giveRoom e a.r0 (destOf a.d0) else s
    let s1 := u0.writeVia e a.r0 (destOf a.d0) k0 (.reply e a.bare false a.sent0)
    let u1 := if a.res1 then s1.giveRoom e a.r1 (destOf a.d1) else s1
    u0.roomVia e a.r0 (destOf a.d0) = true → u1.roomVia e a.r1 (destOf a.d1) = true →
    ∃ t, exec (.pendingReplyLeave e q) s = .next t ∧ ReplyLeft s t e a k0 k1 a.sent0 a.sent1 ∧
      (t.elem e).accs = (s.elem e).accs.filter (fun b => b.seq != q) ∧ (t.elem e).watches = (s.elem e).watches := by
  intro u0 s1 u1 r0 r1
  have g0 : SpaceOnly s u0 := giveRoom_if_spaceOnly a.res0 s e a.r0 (destOf a.d0)
  have w0 : TokenLeft u0 s1 e a.r0 (destOf a.d0) k0 (.reply e a.bare false a.sent0) := tokenLeft_writeVia u0 e a.r0 (destOf a.d0) k0 _
  have g1 : SpaceOnly s1 u1 := giveRoom_if_spaceOnly a.res1 s1 e a.r1 (destOf a.d1)
  have w1 := tokenLeft_writeVia u1 e a.r1 (destOf a.d1) k1 (.reply e a.bare true a.sent1)
  have first : s.leaveOne e a.r0 (destOf a.d0) a.out0 a.res0 (.reply e a.bare false a.sent0) = (s1, [], false) := leaveOne_of_room h0 r0
  have second : s1.leaveOne e a.r1 (destOf a.d1) a.out1 a.res1 (.reply e a.bare true a.sent1) =
    (u1.writeVia e a.r1 (destOf a.d1) k1 (.reply e a.bare true a.sent1), [], false) := leaveOne_of_room h1 r1
  obtain ⟨left, accs, watches⟩ := replyLeft_of_writes g0 w0 g1 w1 (setsAccesses_accs (fun b => b.seq != q))
  refine ⟨_, exec_pendingReplyLeave_leaves hl ha hc hs first second, left, ?_, ?_⟩
  · rw [accs, w1.accs, g1.elem, w0.accs, g0.elem]
  · rw [watches, w1.watches, g1.elem, w0.watches, g0.elem]

theorem watch_delivers {e q : Nat} {a : Access} {s : State} (hw : (s.elem e).watches.find? (fun b => b.seq == q) = some a)
    (hs : a.stage = .performed) (ha : s.alive e = true) (hc : s.cycleHeld e = false) :
    let u0 := if a.res0 then s.giveRoom e a.r0 (destOf a.d0) else s
    let u := if a.res1 then u0.giveRoom e a.r1 (destOf a.d1) else u0
    u.roomVia e a.r0 (destOf a.d0) = true → u.roomVia e a.r1 (destOf a.d1) = true →
    let v : VReg := { numbers [(a.b.p.get 0).toNat] with x := a.got.x }
    ∃ t, exec (.swatchTrigger e q) s = .next t ∧ ReplyLeft s t e a (a.token false v true) (a.token true v true) 0 0 ∧
      (t.elem e).watches = (s.elem e).watches.filter (fun b => b.seq != q) ∧ (t.elem e).accs = (s.elem e).accs := by
  intro u0 u r0 r1 v
  have g : SpaceOnly s u :=
    (giveRoom_if_spaceOnly a.res0 s e a.r0 (destOf a.d0)).trans (giveRoom_if_spaceOnly a.res1 u0 e a.r1 (destOf a.d1))
  let s1 := u.writeVia e a.r0 (destOf a.d0) (a.token false v true) (.reply e a.bare false 0)
  have w0 : TokenLeft u s1 e a.r0 (destOf a.d0) (a.token false v true) (.reply e a.bare false 0) := tokenLeft_writeVia u e _ _ _ _
  have w1 := tokenLeft_writeVia s1 e a.r1 (destOf a.d1) (a.token true v true) (.reply e a.bare true 0)
  obtain ⟨left, accs, watches⟩ := replyLeft_of_writes g w0 (.refl s1) w1 (setsAccesses_watches (fun b => b.seq != q))
  refine ⟨_, exec_swatchTrigger_delivers hw hs ha hc r0 r1, left, ?_, ?_⟩
  · rw [watches, w1.watches, w0.watches, g.elem]
  · rw [accs, w1.accs, w0.accs, g.elem]

theorem token_arrives {e path : Nat} {f : Flight} {s : State} (hf : s.flights.find? (fun f => f.src == e && f.path == path) = some f)
    (hc : f.stamp < (s.quad (quadOf e)).cyc) (hl : (s.elem f.dst).ladder = none) (hh : s.cycleHeld f.dst = false) :
    ∃ t, exec (.tokenArrival e path) s = .next t ∧ t.flights = s.flights.erase f ∧
      (∀ n, (t.elem f.dst).queue n = (s.elem f.dst).queue n ++ (if n = f.queue then [⟨f.tok, f.origin⟩] else [])) ∧
      { t.elem f.dst with q := (s.elem f.dst).q } = s.elem f.dst ∧ (∀ g, g ≠ f.dst → t.elem g = s.elem g) ∧
      { t with elems := s.elems, flights := s.flights } = s := by
  have hx : (s.setElem f.dst ((s.elem f.dst).receive f)).elem f.dst = (s.elem f.dst).receive f := State.elem_setElem_self _ _ _
  exact ⟨_, exec_tokenArrival_arrives hf hc hl hh, rfl, fun n => (congrArg (fun x => x.queue n) hx).trans (Elem.queue_receive _ f n),
    congrArg (fun x => { x with q := (s.elem f.dst).q }) hx, fun g hg => State.elem_setElem_ne s _ (Ne.symm hg), rfl⟩

theorem credit_returns {e queue : Nat} {c : CreditBack} {s : State}
    (hf : s.credits.find? (fun c => c.elem == e && c.queue == queue) = some c) (hc : c.stamp < (s.quad (quadOf e)).cyc) :
    ∃ t, exec (.creditReturn e queue) s = .next t ∧ t.credits = s.credits.erase c ∧
      (∀ k, t.spaceOf k = s.spaceOf k + (if k = spaceKey e queue then 1 else 0)) ∧ { t with space := s.space, credits := s.credits } = s := by
  refine ⟨_, exec_creditReturn_returns hf hc, rfl, fun k => ?_, rfl⟩
  show (s.setSpace (spaceKey e queue) _).spaceOf k = _
  rw [State.spaceOf_setSpace]
  by_cases hk : spaceKey e queue = k
  · simp [hk]
  · simp [hk, Ne.symm hk]

/-- Settles O45: a reply's two writes with room given back before them, one step of the wave buffer, and the two arrivals. -/
theorem repliesWavesAndArrivals : Obligations.RepliesWavesAndArrivals :=
  ⟨fun _ _ _ _ _ _ hl ha hc hs h0 h1 r0 r1 => reply_leaves hl ha hc hs h0 h1 r0 r1,
    fun e _ s hn hr ha => ⟨_, exec_waveEnterOrder_enters hn hr ha, onlyElem_setElem s e _⟩,
    fun _ _ _ _ hw hs ha hc r0 r1 => watch_delivers hw hs ha hc r0 r1,
    fun _ _ _ _ hf hc hl hh => token_arrives hf hc hl hh,
    fun _ _ _ _ hf hc => credit_returns hf hc⟩

end Sys2Proof.Machine

/-! PROOF. What one step runs: the instruction at the PC of the thread that a core takes, the slot that an element fires, an event, or the plan of
a cycle (R61, R65, R68, R130, R131, R309). -/

namespace Sys2Proof.Machine

open Sys2Proof

/-! ### The first act of the agenda -/

theorem step_of_run {s u : State} {a : Act} {r : List Act} {i : Instr} (h : s.agenda = a :: r) (he : s.enact a r = .run i u) :
    step s = exec i u := by
  simp only [step, h, he]

theorem step_of_done {s u : State} {a : Act} {r : List Act} (h : s.agenda = a :: r) (he : s.enact a r = .done u) : step s = .next u := by
  simp only [step, h, he]

theorem step_of_no_acts {s : State} (h : s.agenda = []) : step s = .next s.plan := by
  simp only [step, h]

/-! ### Issue (R130, R131, R309) -/

theorem enactCore_of_nextThread {s : State} {c n : Nat} (h : s.nextThread c = some n) : s.enactCore c = (s.beginIssue c n).issue n := by
  simp only [State.enactCore, h]

theorem fetchWith_of_ok {s u : State} {t va a : Nat} (h : s.fetchAt t va = .ok a u) (k : Nat → State → Enact) :
    s.fetchWith t va k = k (u.word a 4) u := by
  simp only [State.fetchWith, h]

section
variable {s u : State} {n a : Nat} (hal : (s.thread n).pc.toNat % 4 = 0) (hf : s.fetchAt n (s.thread n).pc.toNat = .ok a u)
include hal hf

theorem issue_of_one_word {i : Instr} (hd : decodeForeman (u.word a 4) 0 = .ok i) (ht : twoWords i = false) : s.issue n = .run i u := by
  simp only [State.issue, hal, fetchWith_of_ok hf, hd, ht, ne_eq, not_true_eq_false, if_false, Bool.false_eq_true]

theorem issue_of_no_instruction {e : DecodeError} (hd : decodeForeman (u.word a 4) 0 = .error e) :
    s.issue n = .run (.illegalInstruction (BitVec.ofNat 32 (u.word a 4))) u := by
  simp only [State.issue, hal, fetchWith_of_ok hf, hd, ne_eq, not_true_eq_false, if_false]

theorem issue_of_two_words {i j : Instr} {b : Nat} {v : State} (hd : decodeForeman (u.word a 4) 0 = .ok i) (ht : twoWords i = true)
    (hf2 : u.fetchAt n ((s.thread n).pc + 4).toNat = .ok b v) (hj : decodeForeman (u.word a 4) (v.word b 4) = .ok j) :
    s.issue n = .run j v := by
  simp only [State.issue, hal, fetchWith_of_ok hf, fetchWith_of_ok hf2, hd, ht, hj, ne_eq, not_true_eq_false, if_false, if_true]

end

/-- The core that issues for a thread: the cursor and its own turn change, and nothing that the instruction reads. -/
theorem beginIssue_frame (s : State) (c n : Nat) : (s.beginIssue c n).cur = { s.cur with thread := n } ∧
    (s.beginIssue c n).threads = s.threads ∧ (s.beginIssue c n).mem = s.mem ∧ (s.beginIssue c n).works = s.works ∧
    (s.beginIssue c n).elems = s.elems := by
  unfold State.beginIssue
  dsimp only
  split <;> exact ⟨rfl, rfl, rfl, rfl, rfl⟩

theorem quad_beginIssue {c : Nat} (h : c < 192) (s : State) (n : Nat) :
    (s.beginIssue c n).quad c = { s.quad c with turn := (n + 1) % 4, issued := some (s.quad c).cyc } := by
  simp only [State.beginIssue, h, if_true, State.modQuad, State.quad_setQuad_self]
  rfl

theorem nextThread_mayIssue {s : State} {c n : Nat} (h : s.nextThread c = some n) :
    s.mayIssue n = true ∧ coreBase c ≤ n ∧ n < coreBase c + 4 := by
  unfold State.nextThread at h
  split at h
  · exact absurd h (by simp)
  · obtain ⟨k, _, rfl⟩ := List.mem_map.mp (List.mem_of_find?_eq_some h)
    exact ⟨List.find?_some h, Nat.le_add_right _ _, Nat.add_lt_add_left (Nat.mod_lt _ (by decide)) _⟩

/-! ### What a firing notes before it runs (R265, R457) -/

theorem watched_noteTake (s : State) (e f : Nat) (i : Instr) : (s.noteTake e i).watched f = s.watched f := by
  unfold State.noteTake
  split <;> rfl

theorem watchHeld_noteTake (s : State) (e f : Nat) (i : Instr) : (s.noteTake e i).watchHeld f = s.watchHeld f := by
  unfold State.noteTake
  split <;> rfl

theorem watchHeld_of_not_watched {s : State} {e : Nat} (h : s.watched e = false) : s.watchHeld e = false := by
  simp only [State.watchHeld, h, Bool.false_and]

/-- A firing that no checkweigher compares, or one confirmed under HOLD, runs with its slot in the cursor. -/
theorem fireSlot_of_not_counted {s : State} {e : Nat} (n : Nat) (second : Bool) (i : Instr)
    (h : s.watched e = false ∨ s.watchHeld e = true) : s.fireSlot e n second i = .run i ((s.noteTake e i).onSlot e n second) := by
  have hc : (s.watched e && !s.watchHeld e) = false := by rcases h with h | h <;> simp [h]
  simp only [State.fireSlot, watched_noteTake, watchHeld_noteTake, hc, Bool.false_eq_true, if_false]

/-- The firing of a watched element without HOLD is one more to compare. -/
theorem fireSlot_of_counted {s : State} {e : Nat} (n : Nat) (second : Bool) (i : Instr) (hw : s.watched e = true) (hh : s.watchHeld e = false) :
    s.fireSlot e n second i =
      .run i (((s.noteTake e i).setPending e (((s.noteTake e i).cwRowOf e).pending + 1)).onSlot e n second) := by
  simp only [State.fireSlot, watched_noteTake, watchHeld_noteTake, hw, hh, Bool.not_false, Bool.and_self, if_true]

/-- A held cycle is one under HOLD. -/
theorem cwHold_of_heldSlot {s : State} {e n : Nat} (h : s.heldSlot e = some n) : (s.die (dieOf e)).cwHold = true := by
  unfold State.heldSlot at h
  dsimp only at h
  split at h
  · next hc => simp only [Bool.and_eq_true] at hc; exact hc.1.1
  · exact absurd h (by simp)

/-- So its firing is not counted again as it takes effect. -/
theorem not_counted_dropHold {s : State} {e n : Nat} (h : s.heldSlot e = some n) :
    (s.dropHold e).watched e = false ∨ (s.dropHold e).watchHeld e = true := by
  have hd : ((s.dropHold e).die (dieOf e)).cwHold = true := by
    simp only [State.dropHold, State.modDie, State.die_setDie_self, cwHold_of_heldSlot h]
  cases hw : (s.dropHold e).watched e with
  | false => exact .inl rfl
  | true => exact .inr (by simp only [State.watchHeld, hw, hd, Bool.and_self])

/-! ### The first firing of a cycle (R65, R434, R457) -/

section
variable {s : State} {e n : Nat} {i : Instr} (hf : s.firedNow e = false)
include hf

/-- An element that meets a bad item of its own consumes it, whatever it would fire. -/
theorem enactFire_of_meets {u : State} (hm : s.meets e none = some u) : s.enactFire e = .done u := by
  simp only [State.enactFire, hf, hm, Bool.false_eq_true, if_false]

variable (hm : s.meets e none = none)
include hm

/-- A held cycle without a verdict waits. -/
theorem enactFire_of_waiting (hh : s.heldSlot e = some n) (hp : (s.cwRowOf e).pending = 1) : s.enactFire e = .done s := by
  simp only [State.enactFire, hf, hm, hh, hp, Bool.false_eq_true, if_false, Option.isSome_some, decide_true, Bool.and_self, if_true]

variable (hi : (s.curCfg e).instr n = some i) (hy : s.yields e i = false)
include hi hy

/-- A slot that would read a bad item consumes it instead. -/
theorem enactFire_of_slot_meets {u : State} (hh : s.heldSlot e = none) (hn : s.firstSlot e = some n) (hu : s.meets e (some i) = some u) :
    s.enactFire e = .done u := by
  simp [State.enactFire, hf, hm, hh, hn, hi, hy, hu]

/-- Without HOLD the first ready slot fires. -/
theorem enactFire_of_firstSlot (hh : s.heldSlot e = none) (hn : s.firstSlot e = some n) (hu : s.meets e (some i) = none)
    (hw : s.watchHeld e = false) : s.enactFire e = s.fireSlot e n false i := by
  simp [State.enactFire, hf, hm, hh, hn, hi, hy, hu, hw]

/-- Under HOLD the cycle is held on it. -/
theorem enactFire_of_watchHeld (hh : s.heldSlot e = none) (hn : s.firstSlot e = some n) (hu : s.meets e (some i) = none)
    (hw : s.watchHeld e = true) : s.enactFire e = .done (s.holdCycle e n) := by
  simp [State.enactFire, hf, hm, hh, hn, hi, hy, hu, hw]

/-- The slot of a held cycle that may take effect fires, and the hold ends. -/
theorem enactFire_of_heldSlot (hh : s.heldSlot e = some n) (hp : (s.cwRowOf e).pending ≠ 1) (hr : s.slotReady e n = true)
    (hu : s.meets e (some i) = none) : s.enactFire e = (s.dropHold e).fireSlot e n false i := by
  have chosen : (some n).filter (s.slotReady e) = some n := by rw [Option.filter_some, if_pos hr]
  simp [State.enactFire, hf, hm, hh, hp, chosen, hi, hy, hu]

end

/-! ### The second firing of a cycle (R68) -/

theorem enactFire2_of_secondSlot {s : State} {e f n : Nat} {i : Instr} (hf : s.firedNow e = true) (h1 : (s.elem e).first = some f)
    (h2 : (s.elem e).second = false) (hn : s.secondSlot e f = some n) (hi : (s.curCfg e).instr n = some i) (hy : s.yields e i = false)
    (hu : s.meets e (some i) = none) : s.enactFire2 e = s.fireSlot e n true i := by
  simp [State.enactFire2, hf, h1, h2, hn, hi, hy, hu]

/-! ### The plan of a cycle -/

theorem mem_ownedElems {s : State} {k i : Nat} (h : (s.claims.any (fun p => p.1 == k && p.2.owner != 0)) = true) (hi : i < 8) :
    k * 8 + i ∈ s.ownedElems := by
  obtain ⟨p, hp, hk⟩ := List.any_eq_true.mp h
  obtain ⟨rfl, ho⟩ := (Bool.and_eq_true _ _).mp hk |>.imp_left eq_of_beq
  exact List.mem_flatMap.mpr ⟨p, List.mem_filter.mpr ⟨hp, ho⟩, List.mem_map.mpr ⟨i, List.mem_range.mpr hi, rfl⟩⟩

theorem plan_rest {s : State} (h : s.agenda = []) : { s.plan with agenda := [] } = s := by
  show { s with agenda := [] } = s
  rw [← h]

theorem core_mem_plan (s : State) {c : Nat} (h : c < 196) : Act.core c ∈ s.plan.agenda := by simp [State.plan, h]
theorem tick_mem_plan (s : State) {q : Nat} (h : q < 192) : Act.tick q ∈ s.plan.agenda := by simp [State.plan, h]
theorem tickAssay_mem_plan (s : State) {d : Nat} (h : d < 4) : Act.tickAssay d ∈ s.plan.agenda := by simp [State.plan, h]
theorem settle_mem_plan (s : State) : Act.settle ∈ s.plan.agenda := by simp [State.plan]
theorem fire_mem_plan {s : State} {e : Nat} (h : e ∈ s.ownedElems) : Act.fire e ∈ s.plan.agenda := by simp [State.plan, h]

/-- Settles O58: each act runs what its case of the agenda names. -/
theorem stepRunsDecoded : Obligations.StepRunsDecoded := by
  refine ⟨?core, ?begin, ?fire, ?fire2, ?event, ?plan⟩
  case core =>
    intro c n va a i r s u ha s0 s1 hn hva hal hf
    subst hva
    have hrun : ∀ j v, s1.issue n = .run j v → step s = exec j v := fun j v h => step_of_run ha ((enactCore_of_nextThread hn).trans h)
    exact ⟨fun hd ht => hrun _ _ (issue_of_one_word hal hf hd ht), fun e hd => hrun _ _ (issue_of_no_instruction hal hf hd),
      fun b v hd ht hf2 j hj => hrun _ _ (issue_of_two_words hal hf hd ht hf2 hj)⟩
  case begin =>
    intro c n s t
    obtain ⟨cur, threads, mem, works, elems⟩ := beginIssue_frame s c n
    refine ⟨cur, threads, mem, works, elems, nextThread_mayIssue, fun h => ?_⟩
    rw [quad_beginIssue h]
    exact ⟨rfl, rfl⟩
  case fire =>
    intro e n i r s ha s0 hf
    refine ⟨fun u hm => step_of_done ha (enactFire_of_meets hf hm), fun hm hi hy => ⟨fun u hh hn hu => ?_, fun hh hn hu => ?_,
      fun hh hp hr hu => ?_, fun hh hp => step_of_done ha (enactFire_of_waiting hf hm hh hp)⟩⟩
    · exact step_of_done ha (enactFire_of_slot_meets hf hm hi hy hh hn hu)
    · refine ⟨fun hw => ?_, fun hw hh' => ?_, fun hw => step_of_done ha (enactFire_of_watchHeld hf hm hi hy hh hn hu hw)⟩
      · exact step_of_run ha ((enactFire_of_firstSlot hf hm hi hy hh hn hu (watchHeld_of_not_watched hw)).trans
          (fireSlot_of_not_counted n false i (.inl hw)))
      · exact step_of_run ha ((enactFire_of_firstSlot hf hm hi hy hh hn hu hh').trans (fireSlot_of_counted n false i hw hh'))
    · exact step_of_run ha ((enactFire_of_heldSlot hf hm hi hy hh hp hr hu).trans
        (fireSlot_of_not_counted n false i (not_counted_dropHold hh)))
  case fire2 =>
    intro e f n i r s ha s0 hf h1 h2 hn hi hy hu
    have hs : s.enact (.fire2 e) r = s0.fireSlot e n true i := enactFire2_of_secondSlot hf h1 h2 hn hi hy hu
    exact ⟨fun h => step_of_run ha (hs.trans (fireSlot_of_not_counted n true i h)),
      fun hw hh => step_of_run ha (hs.trans (fireSlot_of_counted n true i hw hh))⟩
  case event =>
    intro i r s ha he
    exact step_of_run ha (if_pos he)
  case plan =>
    intro s ha
    exact ⟨s.plan, step_of_no_acts ha, plan_rest ha, fun c => core_mem_plan s, fun q => tick_mem_plan s, fun d => tickAssay_mem_plan s,
      settle_mem_plan s, fun k i h hi => fire_mem_plan (mem_ownedElems h hi)⟩

end Sys2Proof.Machine

/-! PROOF. PACK, the tag map and the iteration tags (R180, R185, R186): each instruction is one firing once it is ready. -/

namespace Sys2Proof.Machine

open Sys2Proof

/-! ### The tag map (R185) -/

theorem bit_eq_testBit (m n : Nat) : bit m n = m.testBit n := by
  rw [bit, Nat.testBit_eq_decide_div_mod_eq, Bool.eq_iff_iff, beq_iff_eq, decide_eq_true_iff]

/-- A search that finds n finds the first index of its range where p holds. -/
theorem findFrom_eq_some {p : Nat → Bool} {count i n : Nat} (h : findFrom p count i = some n) :
    i ≤ n ∧ n < i + count ∧ p n = true ∧ ∀ k, i ≤ k → k < n → p k = false := by
  induction count generalizing i with
  | zero => cases h
  | succ count ih =>
    unfold findFrom at h
    split at h
    case isTrue hi =>
      cases h
      exact ⟨Nat.le_refl _, by omega, hi, fun k _ _ => by omega⟩
    case isFalse hi =>
      obtain ⟨hle, hlt, hn, below⟩ := ih h
      refine ⟨by omega, by omega, hn, fun k hk hkn => ?_⟩
      rcases Nat.eq_or_lt_of_le hk with rfl | hk
      · exact Bool.eq_false_iff.mpr hi
      · exact below k hk hkn

/-- The free tag is the lowest index below 64 whose map bit is 0. -/
theorem freeTag_eq_some {m n : Nat} (h : freeTag m = some n) : n < 64 ∧ m.testBit n = false ∧ ∀ k, k < n → m.testBit k = true := by
  obtain ⟨-, hlt, hn, below⟩ := findFrom_eq_some h
  simp only [bit_eq_testBit, Bool.not_eq_true', Bool.not_eq_false'] at hn below
  exact ⟨by omega, hn, fun k => below k (Nat.zero_le k)⟩

theorem exists_freeTag_of_readyTaga {w : EWord} {s : State} {e : Nat} (h : s.readyTaga e w = true) :
    ∃ n, freeTag (mapBits ((s.elem e).reg (srcReg w.sb))) = some n :=
  Option.isSome_iff_exists.mp (Bool.and_eq_true_iff.mp h).2

/-! ### The firings -/

/-- PACK (R180): the head's lanes move into the partial register, which is sent when it is full or the last token is used up. -/
theorem exec_pack_fires {w : EWord} {s : State} (h : s.ready s.cur.elem w = true) :
    let e := s.cur.elem
    let x := s.elem e
    let reg := srcReg w.sb
    let qa := (w.qa.map (fun n => n.toNat)).getD 0
    let hd := x.headOr qa
    let r := packOp (x.reg reg) hd.reg
    let used := r.2.1.m == 0
    let sends := r.2.2 == 8 || (used && hd.l)
    ∃ t, exec (.pack w) s = .next t ∧ FiredWith s t e w
      (if sends then some { mkToken x w w.d0 r.1 with l := used && hd.l } else none)
      (if sends then some { mkToken x w w.d1 r.1 with l := used && hd.l } else none)
      (fun y => (if used then y else y.setHead qa { hd with p := r.2.1.p, m := r.2.1.m }).setReg reg (if sends then VReg.zero else r.1))
      (if used then [qa] else []) :=
  ⟨_, next_of_ready h _ _, firedWith s s.cur.elem 0x97 w _ _ _ _ false⟩

/-- TAGA (R185): the lowest free tag is taken in the map and goes out as I. -/
theorem exec_taga_fires {w : EWord} {s : State} {n : Nat} (h : s.readyTaga s.cur.elem w = true)
    (hn : freeTag (mapBits ((s.elem s.cur.elem).reg (srcReg w.sb))) = some n) :
    let e := s.cur.elem
    let x := s.elem e
    let map := x.reg (srcReg w.sb)
    let v : VReg := { s.opA e w with x := (s.opA e w).x || map.x }
    ∃ t, exec (.taga w) s = .next t ∧
      FiredWith s t e w (some { mkToken x w w.d0 v with i := BitVec.ofNat 6 n }) (some { mkToken x w w.d1 v with i := BitVec.ofNat 6 n })
        (fun y => y.setReg (srcReg w.sb) (setMap map (mapBits map + 2 ^ n))) (popList w) := by
  intro e x map v
  refine ⟨_, next_of_ready h _ _, ?_⟩
  simp only [hn, Option.getD_some]
  exact firedWith s e 0xA0 w _ _ _ (popList w) false

/-- TAGF (R185): the tag of the head's I is free in the map, whether it was held or not. -/
theorem exec_tagf_fires {w : EWord} {s : State} (h : s.ready s.cur.elem w = true) :
    let e := s.cur.elem
    let x := s.elem e
    let map := x.reg (srcReg w.sb)
    let m := mapBits map
    let n := (headOfA s e w).i.toNat
    let v : VReg := { s.opA e w with x := (s.opA e w).x || map.x }
    ∃ t, exec (.tagf w) s = .next t ∧ FiredWith s t e w (some (mkToken x w w.d0 v)) (some (mkToken x w w.d1 v))
      (fun y => y.setReg (srcReg w.sb) (setMap map (if m.testBit n then m - 2 ^ n else m))) (popList w) := by
  intro e x map m n v
  refine ⟨_, next_of_ready h _ _, ?_⟩
  simp only [bit_eq_testBit]
  exact firedWith s e 0xA1 w _ _ _ (popList w) false

/-- TAGX (R186): A with I from lane 0 of B, where it is valid. -/
theorem exec_tagx_fires {w : EWord} {s : State} (h : s.ready s.cur.elem w = true) :
    let e := s.cur.elem
    let x := s.elem e
    let b := s.opB e w
    let v : VReg := { s.opA e w with x := (s.opA e w).x || b.x }
    let i := if mbit b.m 0 then (b.p.get 0).setWidth 6 else (sideCI x w).2
    ∃ t, exec (.tagx w) s = .next t ∧
      Fired s t e w (some { mkToken x w w.d0 v with i := i }) (some { mkToken x w w.d1 v with i := i }) (popList w) :=
  ⟨_, next_of_ready h _ _, fired s s.cur.elem 0xA2 w _ _ (popList w) false⟩

/-- An instruction of A whose result is never exceptional is one firing that sends it, poisoned as A is (R75, R148). -/
theorem fireA_fires {w : EWord} {s : State} (h : s.ready s.cur.elem w = true) (op : Nat) (f : VReg → VReg) :
    let a := s.opA s.cur.elem w
    FiresResult s (s.fireA op w (fun a => (f a, false))) s.cur.elem w { f a with x := a.x } := by
  intro a
  have hf : s.fireA op w (fun a => (f a, false)) = s.fireResult s.cur.elem op w (f a, false) a.x := if_pos h
  rw [hf]
  simp only [State.fireResult, Bool.or_false]
  exact fired s s.cur.elem op w _ _ (popList w) _

/-- The lanes of TAGX.get as the model writes them are a run of numbers from lane 0. -/
theorem numbers_tags (k : Token) : numbers [k.i.toNat, k.t.toNat, k.l.toNat, k.c.toNat] =
    ⟨{ Lanes.zero with a0 := BitVec.ofNat 32 k.i.toNat, a1 := BitVec.ofNat 32 k.t.toNat, a2 := BitVec.ofNat 32 (b2n k.l),
                       a3 := BitVec.ofNat 32 k.c.toNat }, 15, false⟩ := by
  cases hl : k.l <;> simp [numbers, Lanes.ofFn, Lanes.zero, b2n]

/-- TAGX.get (R186): the head's I, T, L and C in lanes 0 to 3. -/
theorem exec_tagxGet_fires {w : EWord} {s : State} (h : s.ready s.cur.elem w = true) :
    let e := s.cur.elem
    let k := headOfA s e w
    ∃ t, exec (.tagxGet w) s = .next t ∧
      FiresResult s t e w { numbers [k.i.toNat, k.t.toNat, k.l.toNat, k.c.toNat] with x := (s.opA e w).x } := by
  intro e k
  refine ⟨_, rfl, ?_⟩
  rw [numbers_tags]
  exact fireA_fires h 0xA2 _

/-- Settles O34: each instruction, once ready, is one firing; the tag that TAGA takes is the lowest free one of the map. -/
theorem elementPackAndTags : Obligations.ElementPackAndTags := by
  intro w s e x a reg
  refine ⟨fun h => ⟨exec_pack_fires h, exec_tagf_fires h, exec_tagx_fires h, exec_tagxGet_fires h⟩, fun h => ?_⟩
  obtain ⟨n, hn⟩ := exists_freeTag_of_readyTaga h
  obtain ⟨t, ht, fires⟩ := exec_taga_fires h hn
  obtain ⟨hlt, free, below⟩ := freeTag_eq_some hn
  exact ⟨t, n, ht, hlt, free, below, fires⟩

end Sys2Proof.Machine

/-! PROOF. Counter chains (R187 to R189): the writes of the shadow registers, and the indices of CHNEXT. -/

namespace Sys2Proof.Machine

open Sys2Proof

/-! ### One CHNEXT on a chain (R189) -/

/-- The chain after the entry of CHNEXT: between passes its shadow registers are loaded. -/
def Chain.entered (c : Chain) : Chain :=
  if c.countLive = 0 then { c with startLive := c.startSh, stepLive := c.stepSh, countLive := c.countSh } else c

/-- The first index that CHNEXT emits. -/
def Chain.first (c : Chain) : Word := if c.countLive = 0 then c.entered.startLive else c.entered.x + c.entered.stepLive

/-- Lanes 0 to m - 1 hold the indices from first on. -/
def indices (m : Nat) (first step : Word) : VReg :=
  ⟨Lanes.ofFn (fun l => if l < m then first + BitVec.ofNat 32 l * step else 0), BitVec.ofNat 8 (2 ^ m - 1), false⟩

theorem indices_zero (first step : Word) : indices 0 first step = VReg.zero := by
  simp [indices, VReg.zero, Lanes.ofFn, Lanes.zero]

theorem chainNext_eq_ite (n : Nat) (c : Chain) :
    let m := min n c.entered.countLive.toNat
    let left := c.entered.countLive - BitVec.ofNat 32 m
    chainNext n c = if c.entered.countLive = 0 then (c.entered, VReg.zero, true)
      else ({ c.entered with x := c.first + BitVec.ofNat 32 (m - 1) * c.entered.stepLive, countLive := left },
        indices m c.first c.entered.stepLive, left == 0) := by
  simp only [chainNext, beq_iff_eq]
  rfl

/-- A count less m of it is 0 exactly when m is the whole of it. -/
theorem sub_ofNat_beq_zero {a : Word} {m : Nat} (h : m ≤ a.toNat) : (a - BitVec.ofNat 32 m == 0) = decide (a.toNat = m) := by
  rw [Bool.eq_iff_iff, beq_iff_eq, decide_eq_true_iff]
  bv_omega

/-- CHNEXT by up to n indices, an empty pass among them: the chain after it, the lanes that it emits, and its L. -/
theorem chainNext_eq {n : Nat} (hn : 0 < n) (c : Chain) :
    let m := min n c.entered.countLive.toNat
    chainNext n c =
      (if m = 0 then c.entered else { c.entered with x := c.first + BitVec.ofNat 32 (m - 1) * c.entered.stepLive,
                                                     countLive := c.entered.countLive - BitVec.ofNat 32 m },
        indices m c.first c.entered.stepLive, decide (c.entered.countLive.toNat = m)) := by
  intro m
  by_cases h : c.entered.countLive = 0
  · have hm : m = 0 := by simp [m, h]
    rw [chainNext_eq_ite, if_pos h, hm, indices_zero, h]
    rfl
  · have hm : m ≠ 0 := by
      have : c.entered.countLive.toNat ≠ 0 := fun h0 => h (BitVec.eq_of_toNat_eq h0)
      omega
    rw [chainNext_eq_ite, if_neg h, if_neg hm, sub_ofNat_beq_zero (Nat.min_le_right _ _)]

/-! ### The firings -/

/-- A firing that writes no token but changes the element. -/
theorem fireSilent_fires {w : EWord} {s : State} (h : s.ready s.cur.elem w = true) (op : Nat) (upd : Elem → Elem) :
    FiredWith s (s.fireSilent op w upd) s.cur.elem w none none upd (popList w) := by
  rw [fireSilent_of_ready h]
  exact firedWith s s.cur.elem op w none none upd (popList w) false

/-- CHNEXT sends what chainNext gives of its chain, which becomes what is left of it. -/
theorem fireChnext_fires {w : EWord} {s : State} {n : Nat} {c : Chain} {r : VReg} {last : Bool} (h : s.ready s.cur.elem w = true)
    (hc : chainNext n ((s.elem s.cur.elem).chain (chainNum w)) = (c, r, last)) :
    let e := s.cur.elem
    let x := s.elem e
    FiredWith s (s.fireChnext w n) e w (some { mkToken x w w.d0 r with l := last }) (some { mkToken x w w.d1 r with l := last })
      (fun y => y.setChain (chainNum w) c) (popList w) := by
  simp only [State.fireChnext, h, hc, if_true]
  exact firedWith s s.cur.elem 0xA7 w _ _ _ (popList w) false

theorem exec_chnext_eq (wide : Bool) (w : EWord) (s : State) :
    exec (if wide then .chnextV w else .chnext w) s = .next (s.fireChnext w (if wide then 8 else 1)) := by
  cases wide <;> rfl

/-- Settles O35: each write is one firing without a token, and CHNEXT one that sends what chainNext_eq says. -/
theorem elementChains : Obligations.ElementChains := by
  refine ⟨fun w s h => ?_, fun w s wide h => ?_⟩
  · exact ⟨⟨_, rfl, fireSilent_fires h 0xA4 _⟩, ⟨_, rfl, fireSilent_fires h 0xA5 _⟩, ⟨_, rfl, fireSilent_fires h 0xA6 _⟩,
      ⟨_, rfl, fireSilent_fires h 0xA6 _⟩⟩
  · intro e x ch
    have hn : 0 < if wide then 8 else 1 := by cases wide <;> decide
    exact ⟨_, exec_chnext_eq wide w s, fireChnext_fires h (chainNext_eq hn ch)⟩

end Sys2Proof.Machine
